-- ==== Sys2Proof/Word.lean ====
section
/-! DEFINITION. The bit-vector types of the FC4: bytes on its lines (and characters, which are codes 0x20 to 0x7E)
and the 16-bit frame check. Counts, cell indexes and times are natural numbers: the manual counts and compares them,
it never masks them. -/

namespace Sys2Proof

/-- A byte on a line, and a character of a cell (R2: a code). -/
abbrev Byte := BitVec 8

/-- The 16-bit check of a frame (R199). -/
abbrev Check := BitVec 16

/-- A station number, 0 to 3 (00_scope.md, Conventions). -/
abbrev StationNo := Fin 4

end Sys2Proof
end

