-- ==== Sys2Proof/Syntax.lean ====
section
/-! DEFINITION. The commands of the block: one constructor for each row of spec/opcode_table.json, with the operands
the model gives it. A command that receives a frame carries the frame's contents, or the raw line bytes where the
frame is bad (log entry 6); a command that handles what a block already holds (the request in hand, the event in hand,
the head of a list) carries nothing but, where the block is repeated, its station (log entries 4 and 5). -/

namespace Sys2Proof

/-- The 69 steps of the part ("each whole and indivisible", 95_what_each_step_holds.md). -/
inductive Instr where
  -- the whole part
  | deviceReset
  -- the host line, inbound
  | hostRequestFrameComplete (kind stationItem : Byte) (body : List Byte)
  | hostBadFrame (bytes : List Byte)
  | pause (stationItem : Byte) (body : List Byte)
  | go (stationItem : Byte) (body : List Byte)
  -- the Order Interpreter
  | requestTake
  | form
  | readCells
  | readFields
  | readField
  | readModified
  | readStatusStation
  | readStatusDevice
  | configure
  | stationReset
  | unknownKind
  | testStart
  | testStop
  | testInject
  | placeReply
  -- the transmitter and the ring
  | txReplyStart
  | txNoticeStart
  | txEntryStart
  | txFrameEnd
  | recordDeparture
  | heldComposition
  -- the Keystroke Engine
  | eventTaken (st : StationNo)
  | keyPrintable (st : StationNo)
  | keyDelete (st : StationNo)
  | keyEraseEof (st : StationNo)
  | keyEraseInput (st : StationNo)
  | keyInsert (st : StationNo)
  | keyReset (st : StationNo)
  | keyRight (st : StationNo)
  | keyLeft (st : StationNo)
  | keyUp (st : StationNo)
  | keyDown (st : StationNo)
  | keyTab (st : StationNo)
  | keyBacktab (st : StationNo)
  | keyHome (st : StationNo)
  | keyNewline (st : StationNo)
  | keyEnter (st : StationNo)
  | keyCancel (st : StationNo)
  | keyPf (st : StationNo)
  | scan (st : StationNo)
  -- the station lines, upstream
  | keyFrameDelivery (st : StationNo) (stationItem code : Byte)
  | scanFrameDelivery (st : StationNo) (stationItem symbology : Byte) (data : List Byte)
  | unitReady (st : StationNo) (stationItem : Byte)
  | unitHold (st : StationNo) (stationItem : Byte)
  | unitResync (st : StationNo) (stationItem : Byte)
  | unitRunOk (st : StationNo) (stationItem number : Byte)
  | unitRunBad (st : StationNo) (stationItem : Byte)
  | upstreamIdle (st : StationNo) (stationItem : Byte)
  | upstreamRefusedFrame (st : StationNo) (stationItem kind : Byte) (body : List Byte)
  | upstreamBadFrame (st : StationNo) (bytes : List Byte)
  -- the station lines, downstream
  | paceFrame (st : StationNo)
  | soundFrame (st : StationNo)
  | indicatorFrame (st : StationNo)
  | runFrameStart (st : StationNo)
  | cursorFrame (st : StationNo)
  | downstreamFrameEnd (st : StationNo)
  | idleMarkSend (st : StationNo)
  | runTimeout (st : StationNo)
  -- the Presence Monitor
  | intervalClose (st : StationNo)
  | windowEnd (st : StationNo)
  -- the Line Check Unit
  | testBytePlaced (st : StationNo)
  | testUpstreamByte (st : StationNo) (byte : Byte)
  | testReturnByte (st : StationNo) (byte : Byte)
  | testExpiry (st : StationNo)
  deriving DecidableEq, Repr

end Sys2Proof
end

