-- ==== Sys2Proof/Machine/Types.lean ====
section
/-! DEFINITION. The things the FC4 holds and handles, as data: cells, fields, pages, events, grants, runs, frames,
replies, notices, records. One type for each thing the manual names. -/

namespace Sys2Proof.Machine

/-- A store of few entries: index and value, indexes rising, no entry equal to what an unlisted index reads as
(Machine/Store.lean). -/
abbrev Sparse (α : Type) := List (Nat × α)

/-! ### Pages and fields (01) -/

/-- R2: how a cell is shown. -/
inductive Emphasis where
  | normal | bright | reverse | underline
  deriving DecidableEq, Repr

/-- R2: a cell holds a character and an emphasis. -/
structure Cell where
  ch : Byte
  emph : Emphasis
  deriving DecidableEq, Repr

/-- R1, R26: the two page roles. -/
inductive Role where
  | front | back
  deriving DecidableEq, Repr

/-- R7: whether keys and scans may write the field: PROTECTED or OPEN-ENTRY. -/
inductive Protection where
  | guarded | openEntry
  deriving DecidableEq, Repr

/-- R7: the field classes. -/
inductive FieldClass where
  | text | digits | qty | bin | item
  deriving DecidableEq, Repr

/-- R7: whether a host PUT may wait in a shadow. -/
inductive Buffering where
  | single | shadowed
  deriving DecidableEq, Repr

/-- R7: a field record. Its content is not here: it is the characters of its cells (R3). -/
structure Field where
  tag : Nat
  start : Nat
  len : Nat
  protection : Protection
  cls : FieldClass
  required : Bool
  autoskip : Bool
  buffering : Buffering
  emph : Emphasis
  range : Option (Nat × Nat)
  shadow : Option (List Byte)
  mark : Bool
  deriving DecidableEq, Repr

/-- R1: a page holds 1600 cells, a Field Table and a page cursor. -/
structure Page where
  cells : Sparse Cell
  fields : List Field
  cursor : Nat
  deriving DecidableEq, Repr

/-! ### The Form Grant (R20) -/

/-- R20: the two requesters of a Form Grant. -/
inductive Requester where
  | interpreter | engine
  deriving DecidableEq, Repr

/-- R20: a Form Grant holds a holder (none: NONE), a request flag for each requester, and the last holder. -/
structure Grant where
  holder : Option Requester
  interpreterWaits : Bool
  engineWaits : Bool
  last : Requester
  deriving DecidableEq, Repr

/-! ### Scan routing (R87) -/

/-- R87: what follows a successful fill. -/
inductive AfterFill where
  | nextField | stay | send
  deriving DecidableEq, Repr

/-- R87: a route entry; `lead` is the manual's "prefix". -/
structure Route where
  symbology : Nat
  lead : List Byte
  strip : Nat
  cls : FieldClass
  after : AfterFill
  deriving DecidableEq, Repr

/-! ### The Keystroke Engine (03) -/

/-- R53: the keyboard states OPEN, WAITING, LOCKED. -/
inductive Keyboard where
  | opened | waiting | locked
  deriving DecidableEq, Repr

/-- R54: the lock codes. -/
inductive LockCode where
  | none | guarded | wrongChar | noRoom | badEntry | required | scanUnrouted | scanNoField | scanTooLong
  deriving DecidableEq, Repr

/-- R57: the keys. `pf n` is PF(n+1). -/
inductive Key where
  | printable (ch : Byte)
  | delete | eraseEof | eraseInput | insert | reset
  | right | left | up | down | tab | backtab | home | newline
  | enter | cancel | pf (n : Fin 8)
  deriving DecidableEq, Repr

/-- R57: an input event. -/
inductive Event where
  | key (k : Key)
  | scan (symbology : Nat) (data : List Byte)
  deriving DecidableEq, Repr

/-- R52, R196: what a Keystroke Engine holds. `taken` is the event removed from the queue and not yet treated
(log entry 4); the engine's event request is in the station's grant. -/
structure Engine where
  kb : Keyboard
  lockCode : LockCode
  lockTag : Option Nat
  insert : Bool
  queue : List Event
  pacing : Bool
  overflows : Nat
  lockedDiscards : Nat
  overflowFlag : Bool
  taken : Option Event
  soundOnLock : Bool
  deriving DecidableEq, Repr

/-! ### Attentions and the Inbound Ring (05) -/

/-- R100: the attention kinds. `pf n` is PF(n+1). -/
inductive Attention where
  | enter | cancel | pf (n : Fin 8)
  deriving DecidableEq, Repr

/-- R112: a member of the held attention list. -/
structure Held where
  station : StationNo
  kind : Attention
  byScan : Bool
  deriving DecidableEq, Repr

/-- R109: a member of the ring's record list. -/
structure RecordEntry where
  station : StationNo
  size : Nat
  deriving DecidableEq, Repr

/-- R109: the Inbound Ring. -/
structure Ring where
  store : Sparse Byte
  writeOff : Nat
  readOff : Nat
  occupancy : Nat
  records : List RecordEntry
  deriving DecidableEq, Repr

/-! ### The Display Writer (06) -/

/-- R118: the states of a confirmation timer. -/
inductive TimerState where
  | running | suspended
  deriving DecidableEq, Repr

/-- R118: a run record. Its cell count is the number of `cells` (log entry 13). -/
structure Run where
  number : Nat
  first : Nat
  cells : List Cell
  dropped : Bool
  remaining : Nat
  timer : TimerState
  deriving DecidableEq, Repr

/-- R131: the unit states. -/
inductive UnitState where
  | notReady | ready | hold
  deriving DecidableEq, Repr

/-- R118: the pace told. -/
inductive PaceTold where
  | pace | unpace | unknown
  deriving DecidableEq, Repr

/-- R138: the kinds of an injected run fault. -/
inductive FaultKind where
  | check | drop
  deriving DecidableEq, Repr

/-- R138: a fault-injection request. -/
structure FaultRequest where
  countdown : Nat
  kind : FaultKind
  deriving DecidableEq, Repr

/-- R118, R196: what a Display Writer holds. `confirmed` is the unit's copy of the cells, as last confirmed by RUN-OK;
no step reads it, the law of R119 is judged against it (log entry 21). -/
structure Display where
  dirty : List Nat
  lastWritten : Option Nat
  run : Option Run
  runNumber : Nat
  unit : UnitState
  paceTold : PaceTold
  indicatorPending : Bool
  cursorPending : Bool
  soundPending : Bool
  fault : Option FaultRequest
  runFaults : Nat
  timeouts : Nat
  stales : Nat
  runFaultFlag : Bool
  runTimeout : Nat
  confirmed : Sparse (Option Cell)
  deriving DecidableEq, Repr

/-- R121: the rows of the table of frames that may be due. -/
inductive Due where
  | pace | sound | indicator | run | cursor
  deriving DecidableEq, Repr

/-! ### Frames and lines (07, 09, 11) -/

/-- The decoded contents of a frame, check apart (11.1). -/
structure Frame where
  kind : Byte
  station : Byte
  body : List Byte
  deriving DecidableEq, Repr

/-- A frame on a line: its contents, fixed when it starts, and the check it carries (R199; R138 may invert it). -/
structure LineFrame where
  frame : Frame
  check : Check
  deriving DecidableEq, Repr

/-- R142, R173: a receive state: HUNTING, or IN-FRAME with the decoded bytes so far and the escape-pending mark. -/
inductive RxState where
  | hunting
  | inFrame (decoded : List Byte) (escape : Bool)
  deriving DecidableEq, Repr

/-- What a received byte can bring about (R143, R144, R174): a frame discarded as bad, or a frame that passes. -/
inductive RxResult where
  | bad
  | good (f : Frame)
  deriving DecidableEq, Repr

/-- R145: what an upstream frame that passed its tests is for. -/
inductive Upstream where
  | event (e : Event)
  | unitReady | unitHold | unitResync
  | unitRunOk (number : Nat)
  | unitRunBad
  | idle
  | refused
  deriving DecidableEq, Repr

/-- R142: what a Station Line Port holds, with the frame on its downstream line (R120, R148). `preTest`: that frame
was on the line when the running test started (R160, R161, log entry 11). -/
structure Port where
  rx : RxState
  badFrames : Nat
  refusedFrames : Nat
  lostSeen : Bool
  backSeen : Bool
  silence : Nat
  takenByTest : Bool
  onLine : Option LineFrame
  preTest : Bool
  deriving DecidableEq, Repr

/-- R151: the monitor's declaration. -/
inductive Presence where
  | present | absent
  deriving DecidableEq, Repr

/-- R151: what a Presence Monitor holds. `position` 64 is a window that has closed and awaits its judgement;
`awaiting`: a test has ended and the fresh window begins at the next interval boundary (log entry 10). -/
structure Monitor where
  presence : Presence
  position : Nat
  live : Bool
  liveCount : Nat
  deadRun : Nat
  longGap : Bool
  suspended : Bool
  awaiting : Bool
  deriving DecidableEq, Repr

/-! ### The Line Check Unit (08) -/

/-- R158: why a test ended. -/
inductive EndCause where
  | expired | stopped | reset
  deriving DecidableEq, Repr

/-- R158: the test states. -/
inductive TestState where
  | none
  | running
  | ended (cause : EndCause)
  deriving DecidableEq, Repr

/-- R158: the test modes. -/
inductive TestMode where
  | near | echo | ret
  deriving DecidableEq, Repr

/-- R158: the patterns. -/
inductive Pattern where
  | count
  | repeated (bytes : List Byte)
  deriving DecidableEq, Repr

/-- R158: the checker. `sync` is SYNC, its negation HUNT; `record` holds the last compared results, newest last,
true for an error. -/
structure Checker where
  sync : Bool
  expected : Option Byte
  position : Nat
  correct : Nat
  aligned : Bool
  record : List Bool
  deriving DecidableEq, Repr

/-- R158: what a Line Check Unit holds. `rate` none is NONE; `remaining` none is unlimited. `genPos` is where the
generator stands in its pattern and `placed` the byte it placed on the line last (log entry 12). -/
structure Lcu where
  state : TestState
  mode : TestMode
  pattern : Pattern
  checker : Checker
  rate : Option Nat
  single : Bool
  posCount : Nat
  duration : Nat
  remaining : Option Nat
  sent : Nat
  compared : Nat
  errors : Nat
  losses : Nat
  genPos : Nat
  placed : Option Byte
  deriving DecidableEq, Repr

/-- R169: the contents of TEST-DONE and of the reply to a STOP, station apart. -/
structure TestEnd where
  cause : EndCause
  mode : TestMode
  sync : Bool
  sent : Nat
  compared : Nat
  errors : Nat
  losses : Nat
  deriving DecidableEq, Repr

/-! ### Requests, replies and notices (02, 09, 10) -/

/-- R179: the reasons of a reply; `none` is the reason of a DONE. -/
inductive Reason where
  | none | unknownKind | badStation | tooLong | barred | heldEntry | tagInUse | noSuchTag | overlap | outOfForm
  | tableFull | badOrder | inTest | notInTest
  deriving DecidableEq, Repr

/-- R179: a reply. Its outcome is DONE exactly when its reason is NONE (log entry 13). -/
structure Reply where
  kind : Byte
  station : Byte
  reason : Reason
  index : Nat
  data : List Byte
  deriving DecidableEq, Repr

/-- R38: the operands of a DEF order. -/
structure DefOperands where
  tag : Nat
  start : Nat
  len : Nat
  cls : FieldClass
  protection : Protection
  required : Bool
  autoskip : Bool
  buffering : Buffering
  emph : Emphasis
  range : Option (Nat × Nat)
  deriving DecidableEq, Repr

/-- The fifteen orders of a FORM message (R34 to R50, 11.3). `define` is DEF, `showShadow` SHOW, `setPosition` AT. -/
inductive Order where
  | erase
  | setPosition (index : Nat)
  | lit (emph : Emphasis) (text : List Byte)
  | define (d : DefOperands)
  | drop (tag : Nat)
  | put (tag : Nat) (text : List Byte)
  | putNext (text : List Byte)
  | showShadow (tag : Nat)
  | mark (tag : Nat)
  | clear
  | cursorTag (tag offset : Nat)
  | cursorIndex (index : Nat)
  | release
  | sound
  | note (text : List Byte)
  | flip
  deriving DecidableEq, Repr

/-- R195: the settings of a CONFIGURE, as decoded (their values are checked afterwards). -/
inductive Setting where
  | route (entry symbology : Nat) (lead : List Byte) (strip : Nat) (cls after : Byte)
  | acceptance (order : Nat) (keyboard : Byte) (accept : Bool)
  | runTimeout (ms : Nat)
  | soundOnLock (on : Bool)
  | fault (countdown : Nat) (kind : Byte)
  | faultClear
  deriving DecidableEq, Repr

/-- R188: the queries. -/
inductive Query where
  | readCells (role : Role)
  | readFields (role : Role)
  | readField (role : Role) (tag : Nat)
  | readModified (role : Role)
  | readStatus
  deriving DecidableEq, Repr

/-- R160: the injection of a START. -/
inductive Injection where
  | none | single | rate (n : Nat)
  deriving DecidableEq, Repr

/-- R159, R160: the actions of a TEST. -/
inductive TestAction where
  | start (mode : TestMode) (pattern : Pattern) (injection : Injection) (duration : Nat)
  | stop
  | inject
  deriving DecidableEq, Repr

/-- R26: the message context. -/
structure Context where
  writePos : Nat
  nextField : Option Nat
  deriving DecidableEq, Repr

/-- R178: the Order Interpreter: idle; a request taken and not yet handled (it may be waiting for its grant); or a
reply built and not yet placed, with the station whose grant is then released, the TEST-DONE a STOP then raises
(R169), and the context of a FORM message, discarded then (R26). -/
inductive Interp where
  | idle
  | handling (f : Frame)
  | replying (r : Reply) (release : Option StationNo) (done : Option (StationNo × TestEnd)) (context : Option Context)
  deriving DecidableEq, Repr

/-- R177: the pause state. -/
inductive Pause where
  | running | paused
  deriving DecidableEq, Repr

/-- R183: the Notice Set, one place for each kind and, where the kind has one, station: at most one notice of each
kind for each station. -/
structure Notices where
  restarted : Bool
  stationChange : Vector (Option (Presence × Nat)) 4
  overflow : Vector (Option Nat) 4
  testDone : Vector (Option TestEnd) 4
  ringHalf : Option Nat
  entryHeld : Option StationNo
  deriving DecidableEq, Repr

/-- A notice of the set (R183). -/
inductive Notice where
  | restarted
  | stationChange (st : StationNo) (p : Presence) (count : Nat)
  | overflow (st : StationNo) (count : Nat)
  | testDone (st : StationNo) (e : TestEnd)
  | ringHalf (occupancy : Nat)
  | entryHeld (st : StationNo)
  deriving DecidableEq, Repr

/-- One of the four stations: its Form Store, Keystroke Engine, Display Writer, Station Line Port, Presence Monitor,
Line Check Unit and bulletin. -/
structure Station where
  front : Page
  back : Page
  grant : Grant
  routes : Vector Route 8
  acceptance : Vector Bool 45
  engine : Engine
  display : Display
  bulletin : List Byte
  port : Port
  monitor : Monitor
  lcu : Lcu
  deriving DecidableEq, Repr

/-- R32: the working view of a FORM message: the station as the orders so far would leave it, the message context,
whether a FLIP has been passed, and whether a RELEASE has. -/
structure FormView where
  station : Station
  context : Context
  flipped : Bool
  released : Bool
  deriving DecidableEq, Repr

end Sys2Proof.Machine
end

