-- ==== Sys2Proof/Machine/Codes.lean ====
section
/-! DEFINITION. The codes of the chapter Frame and Record Formats (11): how the manual's names are spelled as bytes,
and the byte order of wide quantities (most significant byte first). -/

namespace Sys2Proof.Machine

/-! ### Numbers -/

/-- A number as `n` bytes, most significant first (11). -/
def beBytes : Nat → Nat → List Byte
  | 0, _ => []
  | n + 1, v => BitVec.ofNat 8 (v / 256 ^ n) :: beBytes n v

/-- The number that bytes spell, most significant first (11). -/
def beValue (bytes : List Byte) : Nat :=
  bytes.foldl (fun acc b => acc * 256 + b.toNat) 0

/-- 1 for yes, set or on; 0 otherwise (11.2). -/
def flagByte (b : Bool) : Byte := if b then 1 else 0

/-- A count that is reported in one byte. -/
def byteOf (n : Nat) : Byte := BitVec.ofNat 8 n

/-! ### Frame kinds -/

/-- 11.2: the host line kinds. -/
def kindForm : Byte := 0x41
def kindQuery : Byte := 0x42
def kindConfigure : Byte := 0x43
def kindStationReset : Byte := 0x44
def kindTest : Byte := 0x45
def kindPause : Byte := 0x46
def kindGo : Byte := 0x47
def kindReply : Byte := 0x61
def kindEntry : Byte := 0x62
def kindNotice : Byte := 0x63

/-- 11.6: the station line kinds. -/
def kindIdle : Byte := 0x20
def kindKey : Byte := 0x21
def kindScan : Byte := 0x22
def kindUnit : Byte := 0x23
def kindRun : Byte := 0x31
def kindCursor : Byte := 0x32
def kindIndicator : Byte := 0x33
def kindSound : Byte := 0x34
def kindPace : Byte := 0x35
def kindUnpace : Byte := 0x36

/-- 11.1: the station item of the whole device. -/
def deviceItem : Byte := 0x0F

/-- The station item of a station (11.1). -/
def stationByte (st : StationNo) : Byte := byteOf st.val

/-- The station a station item names, if it is 0 to 3. -/
def stationOf (b : Byte) : Option StationNo :=
  if h : b.toNat < 4 then some ⟨b.toNat, h⟩ else none

/-! ### Characters -/

/-- 00_scope.md: a printable character is a code from 0x20 to 0x7E. -/
def isPrintable (b : Byte) : Bool := 0x20 ≤ b.toNat && b.toNat ≤ 0x7E

/-- 00_scope.md: blank is 0x20. -/
def blank : Byte := 0x20

def isDigit (b : Byte) : Bool := 0x30 ≤ b.toNat && b.toNat ≤ 0x39

def isCapital (b : Byte) : Bool := 0x41 ≤ b.toNat && b.toNat ≤ 0x5A

def isLower (b : Byte) : Bool := 0x61 ≤ b.toNat && b.toNat ≤ 0x7A

/-- 00_scope.md: "Raised" means that a lower-case letter is replaced by its capital. -/
def raised (b : Byte) : Byte := if isLower b then b - 0x20 else b

/-! ### Names and their codes -/

/-- 11.3: the emphasis codes. -/
def emphasisByte : Emphasis → Byte
  | .normal => 0
  | .bright => 1
  | .reverse => 2
  | .underline => 3

def emphasisOf (b : Byte) : Option Emphasis :=
  match b.toNat with
  | 0 => some .normal
  | 1 => some .bright
  | 2 => some .reverse
  | 3 => some .underline
  | _ => none

/-- 11.3: the class codes. -/
def classByte : FieldClass → Byte
  | .text => 0
  | .digits => 1
  | .qty => 2
  | .bin => 3
  | .item => 4

def classOf (b : Byte) : Option FieldClass :=
  match b.toNat with
  | 0 => some .text
  | 1 => some .digits
  | 2 => some .qty
  | 3 => some .bin
  | 4 => some .item
  | _ => none

/-- 11.2: the after-fill codes. -/
def afterFillOf (b : Byte) : Option AfterFill :=
  match b.toNat with
  | 0 => some .nextField
  | 1 => some .stay
  | 2 => some .send
  | _ => none

/-- 11.2, 11.3: the target role codes. -/
def roleOf (b : Byte) : Option Role :=
  match b.toNat with
  | 0 => some .front
  | 1 => some .back
  | _ => none

def roleByte : Role → Byte
  | .front => 0
  | .back => 1

/-- 11.2: the keyboard state codes. -/
def keyboardByte : Keyboard → Byte
  | .opened => 0
  | .waiting => 1
  | .locked => 2

def keyboardOf (b : Byte) : Option Keyboard :=
  match b.toNat with
  | 0 => some .opened
  | 1 => some .waiting
  | 2 => some .locked
  | _ => none

/-- 11.2: the lock codes. -/
def lockByte : LockCode → Byte
  | .none => 0
  | .guarded => 1
  | .wrongChar => 2
  | .noRoom => 3
  | .badEntry => 4
  | .required => 5
  | .scanUnrouted => 6
  | .scanNoField => 7
  | .scanTooLong => 8

/-- 11.2: the presence codes. -/
def presenceByte : Presence → Byte
  | .absent => 0
  | .present => 1

/-- 11.2: the unit state codes. -/
def unitByte : UnitState → Byte
  | .notReady => 0
  | .ready => 1
  | .hold => 2

/-- 11.2, 11.5: the cause codes. -/
def causeByte : EndCause → Byte
  | .expired => 1
  | .stopped => 2
  | .reset => 3

/-- 11.2: the test state with its cause, two bytes. -/
def testStateBytes : TestState → List Byte
  | .none => [0, 0]
  | .running => [1, 0]
  | .ended c => [2, causeByte c]

/-- 11.2: the mode codes. -/
def modeByte : TestMode → Byte
  | .near => 0
  | .echo => 1
  | .ret => 2

def modeOf (b : Byte) : Option TestMode :=
  match b.toNat with
  | 0 => some .near
  | 1 => some .echo
  | 2 => some .ret
  | _ => none

/-- 11.2: the fault-injection request, two bytes. -/
def faultBytes : Option FaultRequest → List Byte
  | none => [0, 0]
  | some r => [match r.kind with | .check => 1 | .drop => 2, byteOf r.countdown]

/-- 11.2: the pause state codes. -/
def pauseByte : Pause → Byte
  | .running => 0
  | .paused => 1

/-- 11.2: the reason codes. -/
def reasonByte : Reason → Byte
  | .none => 0
  | .unknownKind => 1
  | .badStation => 2
  | .tooLong => 3
  | .barred => 4
  | .heldEntry => 5
  | .tagInUse => 6
  | .noSuchTag => 7
  | .overlap => 8
  | .outOfForm => 9
  | .tableFull => 10
  | .badOrder => 11
  | .inTest => 12
  | .notInTest => 13

/-- 11.4: the attention kind codes. -/
def attentionByte : Attention → Byte
  | .enter => 0x01
  | .cancel => 0x02
  | .pf n => 0x11 + byteOf n.val

/-- 11.6: the key a code stands for; the printable characters stand for themselves. -/
def keyOf (b : Byte) : Option Key :=
  if isPrintable b then some (.printable b) else
  match b.toNat with
  | 0x80 => some .delete
  | 0x81 => some .eraseEof
  | 0x82 => some .eraseInput
  | 0x83 => some .insert
  | 0x84 => some .reset
  | 0x85 => some .right
  | 0x86 => some .left
  | 0x87 => some .up
  | 0x88 => some .down
  | 0x89 => some .tab
  | 0x8A => some .backtab
  | 0x8B => some .home
  | 0x8C => some .newline
  | 0x90 => some .enter
  | 0x91 => some .cancel
  | 0x92 => some (.pf 0)
  | 0x93 => some (.pf 1)
  | 0x94 => some (.pf 2)
  | 0x95 => some (.pf 3)
  | 0x96 => some (.pf 4)
  | 0x97 => some (.pf 5)
  | 0x98 => some (.pf 6)
  | 0x99 => some (.pf 7)
  | _ => none

end Sys2Proof.Machine
end

