-- ==== Sys2Proof/Machine/Store.lean ====
section
/-! DEFINITION. The sparse stores: the 1600 cells of a page (R2), the 8192 bytes of the Inbound Ring (R109) and the
unit's confirmed copy. One canonical form: indexes strictly rising, and no entry equal to `d`, what an unlisted index
reads as; equal stores are then equal data. -/

namespace Sys2Proof.Machine

/-- 00_scope.md: the 1600 cell indexes of a form, 20 rows of 80 columns. -/
@[irreducible] def allCells : List Nat := List.range 1600

/-- The canonical form of a store whose unlisted indexes read `d`. -/
abbrev Sparse.Wf {α : Type} (d : α) (m : Sparse α) : Prop :=
  List.Pairwise (fun a b => a.1 < b.1) m ∧ ∀ e ∈ m, e.2 ≠ d

/-- The value at an index; `d` where the index is not listed. -/
def Sparse.read {α : Type} (d : α) (k : Nat) : Sparse α → α
  | [] => d
  | (i, v) :: m => if i = k then v else Sparse.read d k m

/-- Insert an entry for an index that is not listed, in order. -/
def Sparse.add {α : Type} (k : Nat) (v : α) : Sparse α → Sparse α
  | [] => [(k, v)]
  | (i, w) :: m => if k < i then (k, v) :: (i, w) :: m else (i, w) :: Sparse.add k v m

/-- Write one value; writing `d` removes the entry. -/
def Sparse.write {α : Type} [DecidableEq α] (d : α) (k : Nat) (v : α) (m : Sparse α) : Sparse α :=
  let rest := m.filter fun e => e.1 != k
  if v = d then rest else Sparse.add k v rest

/-- Write values one after the other from an index on. -/
def Sparse.writeAll {α : Type} [DecidableEq α] (d : α) (k : Nat) : List α → Sparse α → Sparse α
  | [], m => m
  | v :: vs, m => Sparse.writeAll d (k + 1) vs (Sparse.write d k v m)

/-- Write values one after the other from an offset on, continuing at 0 after the last of `size` places (R109). -/
def Sparse.writeRing {α : Type} [DecidableEq α] (d : α) (size k : Nat) : List α → Sparse α → Sparse α
  | [], m => m
  | v :: vs, m => Sparse.writeRing d size ((k + 1) % size) vs (Sparse.write d k v m)

end Sys2Proof.Machine
end

