-- ==== Sys2Proof/Machine/State.lean ====
section
/-! DEFINITION. The state of the whole part, the ways a step may stop (there are none but the rejection of a command
without a meaning, and no command is without one), and the state right after device reset. -/

namespace Sys2Proof.Machine

/-- Why the machine could stop with a fault: for no reason. The manual gives an effect to every event the part can
meet, so there is no constructor and no command can fault. -/
inductive Fault where
  deriving DecidableEq, Repr

/-- Why a command could be refused. -/
inductive Refusal where
  /-- Raised by exec's arm for a command that has no meaning yet (none is left). Safe: nothing is claimed of it. -/
  | notModelled (mnemonic : String)
  deriving DecidableEq, Repr

/-- The state of the part (00_scope.md, Block overview; R1, R20, R52, R109, R112, R118, R142, R151, R158, R173), with
the queue of commands that wait, first in first out. -/
structure State where
  stations : Vector Station 4
  -- the Host Line Port (R173)
  hostRx : RxState
  buffer : List Frame
  pause : Pause
  tx : Option LineFrame
  replySlot : Option Reply
  notices : Notices
  hostBadFrames : Nat
  overruns : Nat
  overrunFlag : Bool
  -- the Order Interpreter (R178)
  interp : Interp
  -- the Inbound Ring and its allocator (R109, R112, R114)
  ring : Ring
  held : List Held
  service : Option StationNo
  -- the model's own
  freeCount : Nat
  pending : List Instr
  deriving DecidableEq, Repr

/-- R24: a page after device reset: blank NORMAL cells, no fields, cursor 0. -/
def Page.reset : Page := ⟨[], [], 0⟩

/-- R22, R24. -/
def Grant.reset : Grant := ⟨none, false, false, .interpreter⟩

/-- R88: a route entry after device reset. -/
def Route.reset : Route := ⟨0, [], 0, .text, .stay⟩

/-- R84, R196; `taken`: DESIGN CHOICE (unsafe: the model's own field), log entry 23. -/
def Engine.reset : Engine :=
  { kb := .waiting, lockCode := .none, lockTag := none, insert := false, queue := [], pacing := false,
    overflows := 0, lockedDiscards := 0, overflowFlag := false, taken := none, soundOnLock := false }

/-- R140, R196; `confirmed`: DESIGN CHOICE (unsafe: an observer's field), log entry 21. -/
def Display.reset : Display :=
  { dirty := allCells, lastWritten := none, run := none, runNumber := 0, unit := .notReady,
    paceTold := .unknown, indicatorPending := true, cursorPending := true, soundPending := false, fault := none,
    runFaults := 0, timeouts := 0, stales := 0, runFaultFlag := false, runTimeout := 50, confirmed := [] }

/-- R156; `silence` DEDUCED, `preTest` DESIGN CHOICE (both unsafe), log entry 23. -/
def Port.reset : Port :=
  { rx := .hunting, badFrames := 0, refusedFrames := 0, lostSeen := false, backSeen := false, silence := 0,
    takenByTest := false, onLine := none, preTest := false }

/-- R156; `live` and `awaiting` DESIGN CHOICE (unsafe), log entry 23. -/
def Monitor.reset : Monitor :=
  { presence := .absent, position := 0, live := false, liveCount := 0, deadRun := 0, longGap := false,
    suspended := false, awaiting := false }

/-- R172; the checker's pattern position DESIGN CHOICE (unsafe), log entry 23. -/
def Checker.reset : Checker := ⟨false, none, 0, 0, false, []⟩

/-- R172; `remaining`, `genPos` and `placed` DESIGN CHOICE (unsafe), log entry 23. -/
def Lcu.reset : Lcu :=
  { state := .none, mode := .near, pattern := .count, checker := Checker.reset, rate := none, single := false,
    posCount := 0, duration := 0, remaining := none, sent := 0, compared := 0, errors := 0, losses := 0,
    genPos := 0, placed := none }

/-- R24, R31, R49, R84, R88, R140, R156, R172: a station after device reset. -/
def Station.reset : Station :=
  { front := Page.reset, back := Page.reset, grant := Grant.reset, routes := Vector.replicate 8 Route.reset,
    acceptance := Vector.replicate 45 true, engine := Engine.reset, display := Display.reset, bulletin := [],
    port := Port.reset, monitor := Monitor.reset, lcu := Lcu.reset }

/-- R116. -/
def Ring.reset : Ring := ⟨[], 0, 0, 0, []⟩

/-- R185, R187: the set is emptied and RESTARTED raised. -/
def Notices.reset : Notices :=
  ⟨true, Vector.replicate 4 none, Vector.replicate 4 none, Vector.replicate 4 none, none, none⟩

/-- The part right after device reset (R24, R84, R116, R140, R156, R172, R185, R187), with no command waiting.
`freeCount`: DESIGN CHOICE (the model's own field), log entry 14. -/
def State.reset : State :=
  { stations := Vector.replicate 4 Station.reset, hostRx := .hunting, buffer := [], pause := .running, tx := none,
    replySlot := none, notices := Notices.reset, hostBadFrames := 0, overruns := 0, overrunFlag := false,
    interp := .idle, ring := Ring.reset, held := [], service := none, freeCount := 0, pending := [] }

end Sys2Proof.Machine
end

