-- ==== Sys2Proof/Machine/Flags.lean ====
section
/-! DEFINITION. Counters, latched flags and pending flags: how each is computed (00_scope.md, Counters and latched
flags: a counter saturates; R59, R83, R134, R139, R142, R158). -/

namespace Sys2Proof.Machine

/-- 00_scope.md: a counter of the usual width saturates at 65535. -/
def max16 : Nat := 65535

/-- R158: bytes sent and bytes compared. -/
def max32 : Nat := 4294967295

/-- R158: errors. -/
def max24 : Nat := 16777215

/-- R158: sync losses; R183: the transition count of STATION-CHANGE. -/
def max8 : Nat := 255

/-- A saturating sum. -/
def satAdd (limit n k : Nat) : Nat := min limit (n + k)

/-- A saturating increase by 1. -/
def satInc (limit n : Nat) : Nat := satAdd limit n 1

/-- R57, R59: the queue takes a length of at most 32, and the pacing flag is set exactly while it holds 16 or more. -/
def queueCapacity : Nat := 32

/-- R59: the pacing flag of a queue. -/
def pacingOf (queue : List Event) : Bool := 16 ≤ queue.length

/-- R59: the pacing flag is recomputed each time the queue's length changes. -/
def Engine.withQueue (e : Engine) (queue : List Event) : Engine :=
  { e with queue := queue, pacing := pacingOf queue }

/-- R61, R83: one event taken and discarded in LOCKED. -/
def Engine.countDiscards (e : Engine) (n : Nat) : Engine :=
  { e with lockedDiscards := satAdd max16 e.lockedDiscards n }

/-- R58, R83: one event discarded at a full queue. -/
def Engine.countOverflow (e : Engine) : Engine :=
  { e with overflows := satInc max16 e.overflows, overflowFlag := true }

/-- R135: a sound request; it merges with a pending one. -/
def Display.requestSound (d : Display) : Display := { d with soundPending := true }

/-- R128, R139: a RUN-BAD that ends a run. -/
def Display.countRunFault (d : Display) : Display :=
  { d with runFaults := satInc max16 d.runFaults, runFaultFlag := true }

/-- R129, R139: a run timeout. -/
def Display.countTimeout (d : Display) : Display :=
  { d with timeouts := satInc max16 d.timeouts, runFaultFlag := true }

/-- R130, R139: a stale confirmation. -/
def Display.countStale (d : Display) : Display := { d with stales := satInc max16 d.stales }

/-- R134: whether a pace frame is due: the pacing flag differs from the pace told. -/
def paceDue (pacing : Bool) (told : PaceTold) : Bool :=
  match told with
  | .pace => !pacing
  | .unpace => pacing
  | .unknown => true

/-- R144, R142: a bad upstream frame. -/
def Port.countBad (p : Port) : Port := { p with badFrames := satInc max16 p.badFrames }

/-- R145, R142: a refused upstream frame. -/
def Port.countRefused (p : Port) : Port := { p with refusedFrames := satInc max16 p.refusedFrames }

/-- R145, R151, R155: a valid symbol marks the running interval live; nothing counts while a test suspends the
monitor, nor in the partial interval in which it ended. -/
def Monitor.markLive (m : Monitor) : Monitor :=
  if m.suspended || m.awaiting then m else { m with live := true }

end Sys2Proof.Machine
end

