-- ==== Sys2Proof/Machine/Ops.lean ====
section
/-! DEFINITION. The shared operations over the stations: cells and fields, displayed emphasis and the dirty set,
promotion of shadows, the cursor, the lock, invalidation, the Form Grant, the Notice Set. Every meaning is written
over these. -/

namespace Sys2Proof.Machine

/-! ### Stations -/

/-- One of the four stations. -/
def State.st (s : State) (i : StationNo) : Station := s.stations.get i

/-- Put a station back. -/
def State.setSt (s : State) (i : StationNo) (t : Station) : State :=
  { s with stations := s.stations.set i.val t i.isLt }

/-- Change one station. -/
def State.modSt (s : State) (i : StationNo) (f : Station → Station) : State := s.setSt i (f (s.st i))

/-! ### Cells, fields and pages (R1 to R9) -/

/-- 00_scope.md: a form is 20 rows of 80 columns. -/
def formCells : Nat := 1600

/-- 00_scope.md: 80 columns in a row. -/
def rowCells : Nat := 80

/-- R2: blank with emphasis NORMAL. -/
def Cell.blank : Cell := ⟨Machine.blank, .normal⟩

/-- R3: a character in a field cell; its own stored emphasis is NORMAL. -/
def Cell.plain (ch : Byte) : Cell := ⟨ch, .normal⟩

/-- R2: the cell at an index. -/
def Page.cell (p : Page) (i : Nat) : Cell := Sparse.read Cell.blank i p.cells

/-- R3: a cell lies inside a field. -/
def Field.covers (f : Field) (i : Nat) : Bool := f.start ≤ i && i < f.start + f.len

/-- R6: "the field holding index i". -/
def Page.fieldAt (p : Page) (i : Nat) : Option Field := p.fields.find? fun f => f.covers i

/-- R7: the field with a tag. -/
def Page.fieldOf (p : Page) (tag : Nat) : Option Field := p.fields.find? fun f => f.tag = tag

/-- R3: a field's content is the characters of its cells, in column order. -/
def Page.content (p : Page) (f : Field) : List Byte :=
  (List.range f.len).map fun k => (p.cell (f.start + k)).ch

/-- R12: a text padded with blanks to a length. -/
def padded (n : Nat) (text : List Byte) : List Byte :=
  (text ++ List.replicate (n - text.length) blank).take n

/-- R9: a content with its trailing blanks removed. -/
def valueText (content : List Byte) : List Byte := (content.reverse.dropWhile (· = blank)).reverse

/-- R3: the cells with a field's content written, padded to its length. -/
def writeContent (cells : Sparse Cell) (f : Field) (text : List Byte) : Sparse Cell :=
  Sparse.writeAll Cell.blank f.start ((padded f.len text).map Cell.plain) cells

/-- R3: a write to the content is a write to the field's cells. -/
def Page.setContent (p : Page) (f : Field) (text : List Byte) : Page :=
  { p with cells := writeContent p.cells f text }

/-- Change the field records that satisfy a test. -/
def Page.mapFields (p : Page) (hit : Field → Bool) (g : Field → Field) : Page :=
  { p with fields := p.fields.map fun f => if hit f then g f else f }

/-- R10: set or clear the changed mark of the field with a tag. -/
def Page.setMark (p : Page) (tag : Nat) (mark : Bool) : Page :=
  p.mapFields (fun f => f.tag = tag) fun f => { f with mark := mark }

/-- R70, R71, R76, R91: an OPEN-ENTRY field. -/
def Field.isOpen (f : Field) : Bool := f.protection = .openEntry

/-- R11: a FRONT field is in hand while the page cursor lies within it or its mark is set. -/
def Page.inHand (p : Page) (f : Field) : Bool := f.covers p.cursor || f.mark

/-! ### Displayed emphasis and the dirty set (R4, R5, R19) -/

/-- R5: while the keyboard is LOCKED and the lock record carries a tag, the lock highlight names that tag. -/
def Station.highlight (t : Station) : Option Nat :=
  if t.engine.kb = .locked then t.engine.lockTag else none

/-- R4: the displayed emphasis of a cell of a page under a highlight. -/
def Page.shownEmphasis (p : Page) (highlight : Option Nat) (i : Nat) : Emphasis :=
  match p.fieldAt i with
  | none => (p.cell i).emph
  | some f => if highlight = some f.tag then .reverse else f.emph

/-- R4, R19: a cell's appearance: its character and its displayed emphasis. -/
def Page.shown (p : Page) (highlight : Option Nat) (i : Nat) : Cell :=
  ⟨(p.cell i).ch, p.shownEmphasis highlight i⟩

/-- R4: the appearance of a FRONT cell. -/
def Station.shown (t : Station) (i : Nat) : Cell := t.front.shown t.highlight i

/-- R119: the dirty set holds indexes ascending and without duplicates. -/
def joinIndexes (dirty : List Nat) (more : Nat → Bool) : List Nat :=
  allCells.filter fun i => dirty.contains i || more i

/-- R119: indexes join the dirty set. -/
def Station.joinDirty (t : Station) (more : Nat → Bool) : Station :=
  { t with display.dirty := joinIndexes t.display.dirty more }

/-- R19: every FRONT cell whose character or displayed emphasis a change altered joins the dirty set. `t` is the
station before the change, `t'` after it. R18 makes the same comparison for FLIP. -/
def Station.repainted (t t' : Station) : Station := t'.joinDirty fun i => t.shown i != t'.shown i

/-- R19: a change of the FRONT page. -/
def Station.withFront (t : Station) (p : Page) : Station := t.repainted { t with front := p }

/-- R1: the page that holds a role. -/
def Station.page (t : Station) : Role → Page
  | .front => t.front
  | .back => t.back

/-- R19: a change of a page; changes to BACK add nothing to the dirty set. -/
def Station.withPage (t : Station) (role : Role) (p : Page) : Station :=
  match role with
  | .front => t.withFront p
  | .back => { t with back := p }

/-! ### Shadows (R12 to R15) -/

/-- R13: the fields of FRONT that a promotion point reaches: those that have a shadow and satisfy the test. -/
def promoted (hit : Field → Bool) (p : Page) : List Field :=
  p.fields.filter fun f => f.shadow.isSome && hit f

/-- R13: the page after the promotion: contents take the shadows, marks clear, shadows absent. -/
def Page.promote (p : Page) (hit : Field → Bool) : Page :=
  { p with
    cells := (promoted hit p).foldl (fun cs f => writeContent cs f (f.shadow.getD [])) p.cells
    fields := p.fields.map fun f =>
      if f.shadow.isSome && hit f then { f with shadow := none, mark := false } else f }

/-- R13: promotion of the pending shadows of the FRONT fields that satisfy a test; every cell of each promoted field
joins the dirty set. -/
def Station.promote (t : Station) (hit : Field → Bool) : Station :=
  (t.withFront (t.front.promote hit)).joinDirty fun i => (promoted hit t.front).any fun f => f.covers i

/-- R14: every FRONT field that has stopped being in hand has its pending shadow promoted. -/
def Station.releaseShadows (t : Station) : Station :=
  t.promote fun f => !t.front.inHand f

/-- R14, R17, R108: every pending shadow of FRONT is promoted. -/
def Station.promoteAll (t : Station) : Station := t.promote fun _ => true

/-! ### The station cursor (R16, R68) -/

/-- R68: a cursor move that takes place: cursor-pending is set, and the field left, if its mark is clear, has its
pending shadow promoted. A move to the index the cursor holds changes nothing. -/
def Station.moveCursor (t : Station) (dest : Nat) : Station :=
  if dest = t.front.cursor then t
  else Station.releaseShadows { t with front.cursor := dest, display.cursorPending := true }

/-! ### The keyboard lock (R54 to R56) -/

/-- R55: the keyboard enters LOCKED: state and record, the queue discarded and counted, the pacing flag recomputed,
the lock highlight, indicator-pending, and a sound if sound-on-lock is on. -/
def Station.enterLocked (t : Station) (code : LockCode) (tag : Option Nat) : Station :=
  let e := (t.engine.countDiscards t.engine.queue.length).withQueue []
  t.repainted
    { t with
      engine := { e with kb := .locked, lockCode := code, lockTag := tag }
      display.indicatorPending := true
      display.soundPending := t.display.soundPending || t.engine.soundOnLock }

/-- R55, R67, R101, R102: a lock that names a field and puts the cursor at its start. -/
def Station.lockAtField (t : Station) (code : LockCode) (f : Field) : Station :=
  (t.enterLocked code (some f.tag)).moveCursor f.start

/-- R47, R56: the keyboard becomes OPEN with lock record NONE; the highlight ends; a keyboard that is OPEN stays as it
is. -/
def Station.openKeyboard (t : Station) : Station :=
  if t.engine.kb = .opened then t
  else t.repainted
    { t with
      engine := { t.engine with kb := .opened, lockCode := .none, lockTag := none }
      display.indicatorPending := true }

/-! ### Invalidation (R133) -/

/-- R133: the run in flight is abandoned, all 1600 indexes are dirty, the last-written position is INVALID, and
indicator-pending and cursor-pending are set. -/
def Display.invalidate (d : Display) : Display :=
  { d with run := none, dirty := allCells, lastWritten := none, indicatorPending := true,
           cursorPending := true }

/-! ### The Form Grant (R20 to R22) -/

/-- R21: a grant that is free goes to the one that waits, and of two to the one that is not the last holder; the
requester it is handed to becomes the last holder. -/
def Grant.pass (g : Grant) : Grant :=
  match g.holder with
  | some _ => g
  | none =>
    if g.interpreterWaits && (!g.engineWaits || g.last = .engine) then
      { g with holder := some .interpreter, interpreterWaits := false, last := .interpreter }
    else if g.engineWaits then
      { g with holder := some .engine, engineWaits := false, last := .engine }
    else g

/-- R21: a requester raises its request. -/
def Grant.raise (g : Grant) : Requester → Grant
  | .interpreter => Grant.pass { g with interpreterWaits := true }
  | .engine => Grant.pass { g with engineWaits := true }

/-- R21: the holder releases the grant, and it passes on. -/
def Grant.release (g : Grant) (who : Requester) : Grant :=
  if g.holder = some who then Grant.pass { g with holder := none } else g

/-- R22: the engine's waiting request (for an event or for a held composition) is withdrawn. -/
def Grant.withdrawEngine (g : Grant) : Grant := { g with engineWaits := false }

/-- R60: the engine raises its event request when the queue holds an event, the keyboard is OPEN or LOCKED, and it
neither waits for nor holds the grant. -/
def Station.raiseEvent (t : Station) : Station :=
  if t.engine.queue ≠ [] ∧ t.engine.kb ≠ .waiting ∧ t.grant.engineWaits = false ∧ t.grant.holder ≠ some .engine then
    { t with grant := t.grant.raise .engine }
  else t

/-- R60: the event's effects are complete: the engine releases the grant, and raises its request again at once if
the conditions hold. -/
def Station.finishEvent (t : Station) : Station :=
  Station.raiseEvent { t with engine.taken := none, grant := t.grant.release .engine }

/-! ### The Notice Set (R183, R184) -/

/-- R183: STATION-CHANGE takes the new presence; the count is added, saturating at 255. -/
def Notices.raiseStationChange (n : Notices) (i : StationNo) (p : Presence) : Notices :=
  let count := match n.stationChange.get i with
    | some (_, c) => satInc max8 c
    | none => 1
  { n with stationChange := n.stationChange.set i.val (some (p, count)) i.isLt }

/-- R183: OVERFLOW adds to its count, saturating at 65535. -/
def Notices.raiseOverflow (n : Notices) (i : StationNo) : Notices :=
  let count := match n.overflow.get i with
    | some c => satInc max16 c
    | none => 1
  { n with overflow := n.overflow.set i.val (some count) i.isLt }

/-- R183: TEST-DONE is replaced by the new contents. -/
def Notices.raiseTestDone (n : Notices) (i : StationNo) (e : TestEnd) : Notices :=
  { n with testDone := n.testDone.set i.val (some e) i.isLt }

/-- R170, R184: a pending TEST-DONE of a station is removed when the station is reset. -/
def Notices.dropTestDone (n : Notices) (i : StationNo) : Notices :=
  { n with testDone := n.testDone.set i.val none i.isLt }

/-- R110, R183: RING-HALF keeps the greater occupancy. -/
def Notices.raiseRingHalf (n : Notices) (occupancy : Nat) : Notices :=
  { n with ringHalf := some (match n.ringHalf with
      | some o => max o occupancy
      | none => occupancy) }

/-- R112, R183: ENTRY-HELD keeps the station already pending. -/
def Notices.raiseEntryHeld (n : Notices) (i : StationNo) : Notices :=
  { n with entryHeld := some (n.entryHeld.getD i) }

/-- The stations in ascending order. -/
def allStations : List StationNo := [0, 1, 2, 3]

/-- R184: the pending notices in sending order: by kind, and within a kind by ascending station. -/
def Notices.inOrder (n : Notices) : List Notice :=
  (if n.restarted then [.restarted] else [])
    ++ allStations.filterMap (fun i => (n.stationChange.get i).map fun pc => .stationChange i pc.1 pc.2)
    ++ allStations.filterMap (fun i => (n.overflow.get i).map fun c => .overflow i c)
    ++ allStations.filterMap (fun i => (n.testDone.get i).map fun e => .testDone i e)
    ++ (n.ringHalf.map fun o => .ringHalf o).toList
    ++ (n.entryHeld.map fun i => .entryHeld i).toList

/-- R184: a notice leaves the set when its frame starts. -/
def Notices.remove (n : Notices) : Notice → Notices
  | .restarted => { n with restarted := false }
  | .stationChange i _ _ => { n with stationChange := n.stationChange.set i.val none i.isLt }
  | .overflow i _ => { n with overflow := n.overflow.set i.val none i.isLt }
  | .testDone i _ => { n with testDone := n.testDone.set i.val none i.isLt }
  | .ringHalf _ => { n with ringHalf := none }
  | .entryHeld _ => { n with entryHeld := none }

end Sys2Proof.Machine
end

