-- ==== Sys2Proof/Machine/Fields.lean ====
section
/-! DEFINITION. The field classes: what a class accepts from keys and scans (R73, R93) and the exit rules (R63 to
R66); the OPEN-ENTRY fields of a page, for the moves and the clearing orders. -/

namespace Sys2Proof.Machine

/-! ### What a class accepts (R73) -/

/-- R73: for BIN and ITEM a lower-case letter is raised before the test and placed as its capital. -/
def raisedFor (cls : FieldClass) (ch : Byte) : Byte :=
  match cls with
  | .bin | .item => raised ch
  | .text | .digits | .qty => ch

/-- R73: the characters a class accepts, after raising. -/
def accepts (cls : FieldClass) (ch : Byte) : Bool :=
  match cls with
  | .text => isPrintable ch
  | .digits | .qty => isDigit ch
  | .bin => isCapital ch || isDigit ch || ch = 0x2D
  | .item => isCapital ch || isDigit ch

/-! ### Exit rules (R63 to R66) -/

/-- R64: the decimal value of digits. -/
def decimalValue (text : List Byte) : Nat :=
  text.foldl (fun acc b => acc * 10 + (b.toNat - 0x30)) 0

/-- R64: all digits, and within the range where there is one. -/
def qtyRule (range : Option (Nat × Nat)) (text : List Byte) : Bool :=
  text.all isDigit && (match range with
    | some (lo, hi) => lo ≤ decimalValue text && decimalValue text ≤ hi
    | none => true)

/-- R65: two capitals, '-', two digits, '-', one digit; exactly 7 characters. -/
def binRule : List Byte → Bool
  | [a, b, c, d, e, f, g] =>
    isCapital a && isCapital b && c = 0x2D && isDigit d && isDigit e && f = 0x2D && isDigit g
  | _ => false

/-- R66: digits count 0–9 and letters A–Z 10–35. -/
def charValue (b : Byte) : Nat := if isDigit b then b.toNat - 0x30 else b.toNat - 0x41 + 10

/-- R66: value × weight from right to left; the weights run 3, 1, 3, 1. -/
def weightedSum (weight : Nat) : List Byte → Nat
  | [] => 0
  | b :: bs => charValue b * weight + weightedSum (4 - weight) bs

/-- R66: the check digit of the characters before it. -/
def checkDigit (chars : List Byte) : Nat := (10 - weightedSum 3 chars.reverse % 10) % 10

/-- R66: at least 2 characters, digits and capitals, the last a digit equal to the check digit. -/
def itemRule (text : List Byte) : Bool :=
  2 ≤ text.length && text.all (fun b => isDigit b || isCapital b) && (match text.getLast? with
    | some l => isDigit l && l.toNat - 0x30 = checkDigit text.dropLast
    | none => false)

/-- R63: the exit rule of a field on a value text; an empty one passes every rule. -/
def exitRule (f : Field) (text : List Byte) : Bool :=
  text = [] || (match f.cls with
    | .text | .digits => true
    | .qty => qtyRule f.range text
    | .bin => binRule text
    | .item => itemRule text)

/-- R9: the value text of a field of a page. -/
def Page.valueOf (p : Page) (f : Field) : List Byte := valueText (p.content f)

/-- R63: a field of a page passes its exit rule as it stands. -/
def Page.exitPasses (p : Page) (f : Field) : Bool := exitRule f (p.valueOf f)

/-! ### OPEN-ENTRY fields -/

/-- The OPEN-ENTRY fields of a page, in form order. -/
def Page.openFields (p : Page) : List Field := p.fields.filter Field.isOpen

/-- R71: the HOME destination: the start of the first OPEN-ENTRY field, or index 0. -/
def Page.home (p : Page) : Nat := ((p.openFields.head?).map Field.start).getD 0

/-- R70, R76, R96: the start of the first OPEN-ENTRY field whose start is greater than an index; if there is none, of
the first OPEN-ENTRY field of the page. -/
def Page.nextOpen (p : Page) (i : Nat) : Nat :=
  ((p.openFields.find? fun f => i < f.start).map Field.start).getD p.home

/-- R70: the BACKTAB destination. -/
def Page.backOpen (p : Page) (i : Nat) : Nat :=
  match p.openFields.find? fun f => f.covers i && f.start != i with
  | some f => f.start
  | none =>
    match p.openFields.reverse.find? fun f => f.start < i with
    | some f => f.start
    | none => ((p.openFields.getLast?).map Field.start).getD 0

/-- R71: the NEWLINE destination: the first OPEN-ENTRY field that starts on a row later than the cursor's. -/
def Page.laterRowOpen (p : Page) (i : Nat) : Nat :=
  ((p.openFields.find? fun f => i / rowCells < f.start / rowCells).map Field.start).getD p.home

/-- R45, R79: every OPEN-ENTRY field's content becomes all blanks, then its changed mark is cleared. -/
def Page.blankOpen (p : Page) : Page :=
  { p with
    cells := p.openFields.foldl (fun cs f => writeContent cs f []) p.cells
    fields := p.fields.map fun f => if f.isOpen then { f with mark := false } else f }

/-- R45, R79: the blanking applied to FRONT, and then the promotion of the fields it releases from hand (R14). -/
def Station.blankOpenFront (t : Station) : Station := (t.withFront t.front.blankOpen).releaseShadows

end Sys2Proof.Machine
end

