-- ==== Sys2Proof/Machine/Attention.lean ====
section
/-! DEFINITION. Attentions (05): validation, acceptance, the entry record, commit and hold, the Inbound Ring, the held
attention list and its service; the departure of a record and the composition of a held attention. -/

namespace Sys2Proof.Machine

/-! ### Validation (R101, R102) -/

/-- R101, R102: the marked OPEN-ENTRY fields are tested first, then the required fields; the first that fails gives the
lock. -/
def Page.enterFailure (p : Page) : Option (LockCode × Field) :=
  match p.fields.find? fun f => f.isOpen && f.mark && !p.exitPasses f with
  | some f => some (.badEntry, f)
  | none =>
    (p.fields.find? fun f => f.required && p.valueOf f = []).map fun f => (.required, f)

/-! ### The entry record (R104, R105, 11.4) -/

/-- R105: an item: tag, value-text length, value text. -/
def Page.itemBytes (p : Page) (f : Field) : List Byte :=
  let text := p.valueOf f
  [byteOf f.tag, byteOf text.length] ++ text

/-- R105: the fields an attention of a kind carries as items: the marked ones for ENTER, none otherwise. -/
def Page.recordFields (p : Page) (kind : Attention) : List Field :=
  if kind = .enter then p.fields.filter fun f => f.mark else []

/-- R104, R105, 11.4: the bytes of the record an attention composes from a page. -/
def Page.recordBytes (p : Page) (i : StationNo) (kind : Attention) (byScan : Bool) : List Byte :=
  let fields := p.recordFields kind
  [attentionByte kind, stationByte i, byteOf (p.cursor / rowCells), byteOf (p.cursor % rowCells),
    byteOf fields.length, flagByte byScan] ++ fields.flatMap p.itemBytes

/-! ### The Inbound Ring (R109, R111) -/

/-- R109: the ring holds 8192 bytes. -/
def ringSize : Nat := 8192

/-- R107: the ring's free space. -/
def Ring.free (r : Ring) : Nat := ringSize - r.occupancy

/-- R109: the bytes from an offset on, wrapping. -/
def Ring.bytesAt (r : Ring) (off n : Nat) : List Byte :=
  (List.range n).map fun k => Sparse.read 0 ((off + k) % ringSize) r.store

/-- R108, step 2: a record is written at the write offset and joins the tail of the record list. -/
def Ring.append (r : Ring) (i : StationNo) (bytes : List Byte) : Ring :=
  { store := Sparse.writeRing 0 ringSize r.writeOff bytes r.store
    writeOff := (r.writeOff + bytes.length) % ringSize
    readOff := r.readOff
    occupancy := r.occupancy + bytes.length
    records := r.records ++ [⟨i, bytes.length⟩] }

/-- R111: the head record departs; it is not kept (log entry 20). -/
def Ring.depart (r : Ring) : Ring :=
  match r.records with
  | [] => r
  | e :: rest =>
    { store := Sparse.writeRing 0 ringSize r.readOff (List.replicate e.size 0) r.store
      writeOff := r.writeOff
      readOff := (r.readOff + e.size) % ringSize
      occupancy := r.occupancy - e.size
      records := rest }

/-! ### Commit and hold (R107, R108, R112) -/

/-- R112: the station's held flag. -/
def State.isHeld (s : State) (i : StationNo) : Bool := s.held.any fun h => h.station = i

/-- R110: RING-HALF is raised when a commit takes occupancy from below 4096 to 4096 or more. -/
def ringHalfNotices (n : Notices) (before after : Nat) : Notices :=
  if before < 4096 ∧ 4096 ≤ after then n.raiseRingHalf after else n

/-- R108, steps 4 and 5: every FRONT mark is cleared and every pending shadow promoted. -/
def Station.committed (t : Station) : Station :=
  Station.promoteAll { t with front := t.front.mapFields (fun _ => true) fun f => { f with mark := false } }

/-- R108: the commit of a record of a station. -/
def State.commit (s : State) (i : StationNo) (kind : Attention) (byScan : Bool) : State :=
  let ring := s.ring.append i ((s.st i).front.recordBytes i kind byScan)
  { s.modSt i Station.committed with
    ring := ring
    notices := ringHalfNotices s.notices s.ring.occupancy ring.occupancy }

/-- R112: the attention joins the tail of the held list; ENTRY-HELD is raised if the list was empty. -/
def State.hold (s : State) (i : StationNo) (kind : Attention) (byScan : Bool) : State :=
  { s.modSt i (fun t => { t with display.indicatorPending := true }) with
    held := s.held ++ [⟨i, kind, byScan⟩]
    notices := if s.held = [] then s.notices.raiseEntryHeld i else s.notices }

/-- R103: the keyboard becomes WAITING, the insert flag is cleared and indicator-pending is set. -/
def Station.accepted (t : Station) : Station :=
  { t with engine.kb := .waiting, engine.insert := false, display.indicatorPending := true }

/-- R107: an accepted attention is committed at once if the held list is empty and the record fits; otherwise it is
held. -/
def State.compose (s : State) (i : StationNo) (kind : Attention) (byScan : Bool) : State :=
  if s.held = [] ∧ ((s.st i).front.recordBytes i kind byScan).length ≤ s.ring.free then s.commit i kind byScan
  else s.hold i kind byScan

/-- R100: validation (ENTER alone), acceptance, composition. -/
def State.attention (s : State) (i : StationNo) (kind : Attention) (byScan : Bool) : State :=
  match (if kind = .enter then (s.st i).front.enterFailure else none) with
  | some (code, f) => s.modSt i fun t => t.lockAtField code f
  | none => (s.modSt i Station.accepted).compose i kind byScan

/-! ### The service of the held list (R114, R117) -/

/-- R114, steps 1 and 2: with no service in progress and a list that is not empty, the allocator raises its request at
the head station's grant, in the engine's slot. -/
def State.startService (s : State) : State :=
  match s.service, s.held with
  | none, h :: _ => { s.modSt h.station (fun t => { t with grant := t.grant.raise .engine }) with
                      service := some h.station }
  | _, _ => s

/-- R114: the allocator's request has been granted: it holds the grant of the station it serves. -/
def State.serving (s : State) : Option (StationNo × Held × List Held) :=
  match s.service, s.held with
  | some i, h :: rest =>
    if h.station = i ∧ (s.st i).grant.holder = some .engine then some (i, h, rest) else none
  | _, _ => none

/-- R114, step 4: the head's record is composed and committed; the head leaves the list, and HELD its indicator row. -/
def State.commitHeld (s : State) (i : StationNo) (h : Held) (rest : List Held) : State :=
  { (s.commit i h.kind h.byScan).modSt i (fun t => { t with display.indicatorPending := true }) with held := rest }

/-- R114, steps 4 and 5: the allocator releases the grant; the service ends. -/
def State.endService (s : State) (i : StationNo) : State :=
  { s.modSt i (fun t => { t with grant := t.grant.release .engine }) with service := none }

/-- HELD_COMPOSITION (R114): holding the head station's grant, the allocator sizes the held record and commits it if
it fits, going on with the new head; otherwise the service ends. -/
def execHeldComposition (s : State) : Host.Outcome State Fault Refusal :=
  match s.serving with
  | none => .next s
  | some (i, h, rest) =>
    if ((s.st i).front.recordBytes i h.kind h.byScan).length ≤ s.ring.free then
      .next ((s.commitHeld i h rest).endService i).startService
    else .next (s.endService i)

end Sys2Proof.Machine
end

