-- ==== Sys2Proof/Machine/Frames.lean ====
section
/-! DEFINITION. Framing on all lines (11.1): the check, escapes, start and end bytes; the receivers of the host line
and of the station lines (R143, R144, R174); what an upstream frame is for (R145). -/

namespace Sys2Proof.Machine

/-! ### The check (R199) -/

/-- R199, step 2: shift left by one; if the bit shifted out differs from the data bit, combine with 0x1021. -/
def crcBit (reg : Check) (bit : Bool) : Check :=
  if reg.msb != bit then (reg <<< 1) ^^^ 0x1021 else reg <<< 1

/-- R199, step 2: each byte most significant bit first. -/
def crcByte (reg : Check) (b : Byte) : Check :=
  [7, 6, 5, 4, 3, 2, 1, 0].foldl (fun r k => crcBit r (b.getLsbD k)) reg

/-- R199: the check over decoded bytes; the register starts at 0xFFFF and is not inverted. -/
def frameCheck (bytes : List Byte) : Check :=
  bytes.foldl crcByte 0xFFFF

/-! ### Composing a frame (11.1, R182) -/

/-- 11.1: the decoded bytes that the check covers: kind, station, body length, body. -/
def Frame.covered (f : Frame) : List Byte :=
  [f.kind, f.station] ++ beBytes 2 f.body.length ++ f.body

/-- R199: a frame the part sends, with its check. -/
def Frame.onLine (f : Frame) : LineFrame := ⟨f, frameCheck f.covered⟩

/-- R138: a CHECK fault sends the frame with every bit of its check inverted. -/
def LineFrame.corrupted (l : LineFrame) : LineFrame := ⟨l.frame, ~~~ l.check⟩

/-- 11.1: the bytes 0x02, 0x03 and 0x10 are sent as 0x10 followed by the byte plus 0x20. -/
def escaped (b : Byte) : List Byte :=
  if b = 0x02 ∨ b = 0x03 ∨ b = 0x10 then [0x10, b + 0x20] else [b]

/-- 11.1, R199: the bytes of a frame on the line: start byte, escaped contents and check, end byte. -/
def LineFrame.bytes (l : LineFrame) : List Byte :=
  0x02 :: (l.frame.covered ++ beBytes 2 l.check.toNat).flatMap escaped ++ [0x03]

/-! ### Receiving (R143, R144, R174) -/

/-- R144, R174: the tests at the end byte: short frame, length disagreement, check failure. -/
def judge (decoded : List Byte) : RxResult :=
  let body := (decoded.drop 4).take (decoded.length - 6)
  let covered := decoded.take (decoded.length - 2)
  if decoded.length < 6 then .bad
  else if beValue ((decoded.drop 2).take 2) ≠ body.length then .bad
  else if beValue (decoded.drop (decoded.length - 2)) ≠ (frameCheck covered).toNat then .bad
  else .good ⟨decoded.getD 0 0, decoded.getD 1 0, body⟩

/-- A decoded byte joins the frame; one beyond the limit makes the frame over-length (R144, R174). -/
def rxDecoded (limit : Nat) (decoded : List Byte) (b : Byte) : RxState × Option RxResult :=
  if decoded.length < limit then (.inFrame (decoded ++ [b]) false, none) else (.hunting, some .bad)

/-- R143: one byte at a receiver that takes at most `limit` decoded bytes (47 upstream, 4006 on the host line). -/
def rxByte (limit : Nat) : RxState → Byte → RxState × Option RxResult
  | .hunting, b => if b = 0x02 then (.inFrame [] false, none) else (.hunting, none)
  | .inFrame decoded false, b =>
    if b = 0x02 then (.inFrame [] false, some .bad)
    else if b = 0x03 then (.hunting, some (judge decoded))
    else if b = 0x10 then (.inFrame decoded true, none)
    else rxDecoded limit decoded b
  | .inFrame decoded true, b =>
    if b = 0x02 then (.inFrame [] false, some .bad)
    else if b = 0x22 ∨ b = 0x23 ∨ b = 0x30 then rxDecoded limit decoded (b - 0x20)
    else (.hunting, some .bad)

/-- R143: bytes in their order; the results in the order they come about. -/
def rxRun (limit : Nat) (rx : RxState) : List Byte → RxState × List RxResult
  | [] => (rx, [])
  | b :: bs =>
    let one := rxByte limit rx b
    let rest := rxRun limit one.1 bs
    (rest.1, one.2.toList ++ rest.2)

/-- R144: the largest upstream frame holds 47 decoded bytes. -/
def upstreamLimit : Nat := 47

/-- R174: the largest host frame holds 4006 decoded bytes. -/
def hostLimit : Nat := 4006

/-! ### Upstream frames (R145) -/

/-- R145, 11.6: the UNIT statuses. -/
def unitStatus : List Byte → Upstream
  | [s] =>
    if s = 1 then .unitReady else if s = 2 then .unitHold else if s = 3 then .unitResync
    else if s = 5 then .unitRunBad else .refused
  | [s, n] => if s = 4 ∧ n.toNat ≤ 15 then .unitRunOk n.toNat else .refused
  | _ => .refused

/-- R145: SCAN is usable when its body holds a symbology 1–15 and 1–40 characters of data. -/
def scanEvent : List Byte → Upstream
  | [] => .refused
  | s :: data =>
    if 1 ≤ s.toNat ∧ s.toNat ≤ 15 ∧ 1 ≤ data.length ∧ data.length ≤ 40 then .event (.scan s.toNat data) else .refused

/-- R145: KEY is usable when its body holds exactly one key code. -/
def keyEvent : List Byte → Upstream
  | [c] => match keyOf c with
    | some k => .event (.key k)
    | none => .refused
  | _ => .refused

/-- R145: what a valid upstream frame is for. The station item is not examined. -/
def classify (f : Frame) : Upstream :=
  if f.kind = kindKey then keyEvent f.body
  else if f.kind = kindScan then scanEvent f.body
  else if f.kind = kindUnit then unitStatus f.body
  else if f.kind = kindIdle then (if f.body = [] then .idle else .refused)
  else .refused

end Sys2Proof.Machine
end

