-- ==== Sys2Proof/Machine/LineCheck.lean ====
section
/-! DEFINITION. The Line Check Unit (08): the generator, the injection, the checker, the start and the end of a test,
and the bytes of a running test. -/

namespace Sys2Proof.Machine

/-! ### The generator (R162) -/

/-- R162: how many bytes a pattern runs before it begins again. -/
def Pattern.period : Pattern → Nat
  | .count => 256
  | .repeated bytes => bytes.length

/-- R162: the pattern byte at a position. -/
def Pattern.byteAt : Pattern → Nat → Byte
  | .count, k => byteOf k
  | .repeated bytes, k => bytes.getD k 0

/-- R162: the position after a position. -/
def Pattern.next (p : Pattern) (k : Nat) : Nat := (k + 1) % p.period

/-! ### Injection (R163) -/

/-- R163, step 1: the rate setting marks the placed byte that takes the position count to 10ⁿ. -/
def rateMarks (rate : Option Nat) (posCount : Nat) : Bool :=
  match rate with
  | some n => posCount + 1 = 10 ^ n
  | none => false

/-- R163: a placed byte, judged: marked by the rate or by single pending, it is replaced once by 255 − b. -/
def Lcu.injected (l : Lcu) (b : Byte) : Byte :=
  if rateMarks l.rate l.posCount || l.single then 255 - b else b

/-- R161, R163: a byte is placed (or fed to the checker): the injection's counts, and bytes sent. -/
def Lcu.countPlaced (l : Lcu) : Lcu :=
  { l with
    posCount := if rateMarks l.rate l.posCount then 0 else l.posCount + 1
    single := false
    sent := satInc max32 l.sent }

/-! ### The checker (R164 to R166) -/

/-- R164, R165: with 16 correct predictions in a row the checker enters SYNC, its record empty (R166). -/
def Checker.settle (c : Checker) : Checker :=
  if c.correct = 16 then { c with sync := true, record := [] } else c

/-- R164: a byte read in HUNT with COUNT. -/
def Checker.huntCount (c : Checker) (b : Byte) : Checker :=
  match c.expected with
  | none => { c with expected := some (b + 1) }
  | some e => Checker.settle { c with expected := some (b + 1), correct := if b = e then c.correct + 1 else 0 }

/-- R165: a byte tried as the first of a REPEAT pattern: p0 aligns the checker; any other ends an alignment, and is
passed over where there is none. -/
def Checker.align (c : Checker) (p : Pattern) (b : Byte) : Checker :=
  if b = p.byteAt 0 then { c with aligned := true, position := 1 % p.period, correct := 0 }
  else if c.aligned then { c with aligned := false, correct := 0 }
  else c

/-- R165: a byte read in HUNT with REPEAT. -/
def Checker.huntRepeat (c : Checker) (p : Pattern) (b : Byte) : Checker :=
  if c.aligned && b = p.byteAt c.position then
    Checker.settle { c with correct := c.correct + 1, position := p.next c.position }
  else c.align p b

/-- R164, R165: a byte read in HUNT. -/
def Checker.hunt (c : Checker) (p : Pattern) (b : Byte) : Checker :=
  match p with
  | .count => c.huntCount b
  | .repeated _ => c.huntRepeat p b

/-- R166, step 2: the pattern byte that SYNC expects. -/
def Checker.expects (c : Checker) (p : Pattern) : Byte :=
  match p with
  | .count => c.expected.getD 0
  | .repeated _ => p.byteAt c.position

/-- R166, step 5: the expectation advances by one pattern byte. -/
def Checker.advance (c : Checker) (p : Pattern) : Checker :=
  match p with
  | .count => { c with expected := some (c.expects p + 1) }
  | .repeated _ => { c with position := p.next c.position }

/-- R166, step 4: a result joins the record of the last 16. -/
def joinRecord (record : List Bool) (error : Bool) : List Bool :=
  let all := record ++ [error]
  all.drop (all.length - 16)

/-- R166: the record holds 4 errors. -/
def lostSync (record : List Bool) : Bool := 4 ≤ record.count true

/-- R166: HUNT with a count of 0 and an empty record; the next byte read is the first. -/
def Checker.toHunt (c : Checker) : Checker :=
  { c with sync := false, expected := none, correct := 0, aligned := false, record := [] }

/-- R164 to R166: the checker reads a byte. -/
def Lcu.read (l : Lcu) (b : Byte) : Lcu :=
  let c := l.checker
  if !c.sync then { l with checker := c.hunt l.pattern b }
  else
    let error := b != c.expects l.pattern
    let record := joinRecord c.record error
    let l' := { l with
      compared := satInc max32 l.compared
      errors := if error then satInc max24 l.errors else l.errors }
    if lostSync record then
      { l' with losses := satInc max8 l.losses, checker := c.toHunt.hunt l.pattern b }
    else { l' with checker := { c.advance l.pattern with record := record } }

/-! ### Start and end (R160, R169) -/

/-- R160, step 3: the rate setting that an injection gives. -/
def Injection.rate? : Injection → Option Nat
  | .rate n => Option.some n
  | .none | .single => Option.none

/-- R160, steps 1 to 5: the unit at the start of a test. -/
def Lcu.started (mode : TestMode) (pattern : Pattern) (injection : Injection) (duration : Nat) : Lcu :=
  { state := .running, mode := mode, pattern := pattern, checker := Checker.reset, rate := injection.rate?,
    single := injection = .single, posCount := 0, duration := duration,
    remaining := if duration = 0 then none else some (duration * 64),
    sent := 0, compared := 0, errors := 0, losses := 0, genPos := 0, placed := none }

/-- R155: at test start the monitor is suspended and the window in progress discarded. -/
def Monitor.suspend (m : Monitor) : Monitor :=
  { m with position := 0, live := false, liveCount := 0, deadRun := 0, longGap := false, suspended := true,
           awaiting := false }

/-- R155: at test end a fresh window begins at the next interval boundary. -/
def Monitor.resume (m : Monitor) : Monitor := { m with suspended := false, awaiting := true }

/-- R149, R160 step 6: the line goes to the test; the reception in progress is discarded uncounted. -/
def Port.give (p : Port) : Port := { p with rx := .hunting, takenByTest := true, preTest := p.onLine.isSome }

/-- R150: the port takes the line back. -/
def Port.takeBack (p : Port) : Port := { p with rx := .hunting, takenByTest := false, preTest := false }

/-- R160: a START applied to its station. -/
def Station.startTest (t : Station) (mode : TestMode) (pattern : Pattern) (injection : Injection) (duration : Nat) :
    Station :=
  { t with
    lcu := Lcu.started mode pattern injection duration
    port := t.port.give
    monitor := t.monitor.suspend
    display := { t.display.invalidate with paceTold := .unknown } }

/-- R169, steps 1, 3, 4 and 5: the end of a test. -/
def Station.endTest (t : Station) (cause : EndCause) : Station :=
  { t with
    lcu := { t.lcu with state := .ended cause }
    port := t.port.takeBack
    monitor := t.monitor.resume
    display := t.display.invalidate }

/-- R169: what TEST-DONE and the reply to a STOP carry. -/
def Lcu.contents (l : Lcu) (cause : EndCause) : TestEnd :=
  ⟨cause, l.mode, l.checker.sync, l.sent, l.compared, l.errors, l.losses⟩

/-- 11.5: the contents of TEST-DONE after the notice kind. -/
def TestEnd.bytes (e : TestEnd) : List Byte :=
  [causeByte e.cause, modeByte e.mode, flagByte e.sync] ++ beBytes 4 e.sent ++ beBytes 4 e.compared
    ++ beBytes 3 e.errors ++ [byteOf e.losses]

/-! ### The bytes of a running test (R161) -/

/-- R158: a test is running in a mode. -/
def Station.testing (t : Station) (mode : TestMode) : Bool := t.lcu.state = .running && t.lcu.mode = mode

/-- R161: the next pattern byte is fed to the checker (NEAR). -/
def Station.feedPattern (t : Station) : Station :=
  let b := t.lcu.injected (t.lcu.pattern.byteAt t.lcu.genPos)
  { t with lcu := { t.lcu.countPlaced.read b with genPos := t.lcu.pattern.next t.lcu.genPos } }

/-- R161: a byte of the test is placed on the downstream line; R148 lists it among what ends a silence (log entry 25). -/
def Station.placeByte (t : Station) (b : Byte) : Station :=
  { t with
    lcu := { t.lcu.countPlaced with placed := some (t.lcu.injected b) }
    port := { t.port with silence := 0 } }

/-- R161: the next pattern byte is placed downstream (ECHO). -/
def Station.placePattern (t : Station) : Station :=
  let t' := t.placeByte (t.lcu.pattern.byteAt t.lcu.genPos)
  { t' with lcu := { t'.lcu with genPos := t.lcu.pattern.next t.lcu.genPos } }

/-- R161: an upstream byte in ECHO goes to the checker. -/
def Station.echoByte (t : Station) (b : Byte) : Station := { t with lcu := t.lcu.read b }

/-- R161: an upstream byte in RETURN is returned, or discarded while the frame of R160 is still ending downstream. -/
def Station.returnByte (t : Station) (b : Byte) : Station := if t.port.preTest then t else t.placeByte b

/-- R149, R161: an upstream byte while the line is taken, by the test's mode. -/
def Station.testByte (t : Station) (b : Byte) : Station :=
  if t.lcu.state = .running then
    match t.lcu.mode with
    | .near => t
    | .echo => t.echoByte b
    | .ret => t.returnByte b
  else t

/-- TEST_BYTE_PLACED (R161, R160): NEAR feeds the checker, ECHO places the byte downstream; the first byte follows the
frame that was on the line at the start. -/
def execTestBytePlaced (i : StationNo) (s : State) : Host.Outcome State Fault Refusal :=
  let t := s.st i
  if t.port.preTest then .next s
  else if t.testing .near then .next (s.setSt i t.feedPattern)
  else if t.testing .echo then .next (s.setSt i t.placePattern)
  else .next s

/-- TEST_UPSTREAM_BYTE (R161, R164 to R166): an upstream byte of an ECHO test. -/
def execTestUpstreamByte (i : StationNo) (b : Byte) (s : State) : Host.Outcome State Fault Refusal :=
  if (s.st i).testing .echo then .next (s.modSt i fun t => t.echoByte b) else .next s

/-- TEST_RETURN_BYTE (R161): an upstream byte of a RETURN test. -/
def execTestReturnByte (i : StationNo) (b : Byte) (s : State) : Host.Outcome State Fault Refusal :=
  if (s.st i).testing .ret then .next (s.modSt i fun t => t.returnByte b) else .next s

/-- TEST_EXPIRY (R168, R169): the remaining time of a running test is 0; it ends EXPIRED and TEST-DONE is raised. -/
def execTestExpiry (i : StationNo) (s : State) : Host.Outcome State Fault Refusal :=
  let t := s.st i
  if t.lcu.state = .running ∧ t.lcu.remaining = some 0 then
    .next { s.setSt i (t.endTest .expired) with notices := s.notices.raiseTestDone i (t.lcu.contents .expired) }
  else .next s

end Sys2Proof.Machine
end

