-- ==== Sys2Proof/Machine/Lines.lean ====
section
/-! DEFINITION. The Station Line Port and the Presence Monitor (07): upstream bytes, what a usable frame does, IDLE
marks, intervals and windows; and the millisecond that passes on an empty queue. -/

namespace Sys2Proof.Machine

/-! ### Delivery (R146, R147) -/

/-- R57, R58, R146: an event arrives at the input queue. -/
def State.deliverEvent (s : State) (i : StationNo) (e : Event) : State :=
  let t := s.st i
  if t.engine.queue.length < queueCapacity then
    s.setSt i (Station.raiseEvent { t with engine := t.engine.withQueue (t.engine.queue ++ [e]) })
  else
    { s.setSt i { t with engine := t.engine.countOverflow, display := t.display.requestSound } with
      notices := s.notices.raiseOverflow i }

/-- R125, R132: the frame of the run in flight is on the line. -/
def Port.carriesRun (p : Port) : Bool :=
  match p.onLine with
  | some l => l.frame.kind = kindRun
  | none => false

/-- R131, R132: READY; after HOLD a timer runs again, unless its frame is still on the line. -/
def Station.unitReady (t : Station) : Station :=
  let run := if t.display.unit = .hold ∧ t.port.carriesRun = false
    then t.display.run.map fun r => { r with timer := .running }
    else t.display.run
  { t with display := { t.display with unit := .ready, run := run } }

/-- R131, R132: HOLD suspends the timer of a run in flight. -/
def Display.unitHold (d : Display) : Display :=
  { d with unit := .hold, run := d.run.map fun r => { r with timer := .suspended } }

/-- R131, R133: RESYNC. -/
def Display.unitResync (d : Display) : Display := { d.invalidate with unit := .ready, paceTold := .unknown }

/-- R127: the run in flight is confirmed; its cells are the unit's copy. -/
def Display.confirm (d : Display) (r : Run) : Display :=
  { d with
    lastWritten := some (r.first + r.cells.length - 1)
    run := none
    confirmed := Sparse.writeAll none r.first (r.cells.map some) d.confirmed }

/-- R127, R130: RUN-OK with a number. -/
def Display.runOk (d : Display) (number : Nat) : Display :=
  match d.run with
  | some r => if r.number = number then d.confirm r else d.countStale
  | none => d.countStale

/-- The indexes a run carried. -/
def Run.covers (r : Run) (i : Nat) : Bool := r.first ≤ i && i < r.first + r.cells.length

/-- R128, R129: a run is not confirmed: its indexes join the dirty set, the last-written position becomes INVALID. -/
def Display.returnRun (d : Display) (r : Run) : Display :=
  { d with dirty := joinIndexes d.dirty r.covers, lastWritten := none, run := none }

/-- R128, R130: RUN-BAD. -/
def Display.runBad (d : Display) : Display :=
  match d.run with
  | some r => (d.returnRun r).countRunFault
  | none => d.countStale

/-- R145 to R147: what a valid upstream frame does at its station, its interval marked live apart. -/
def State.deliver (s : State) (i : StationNo) : Upstream → State
  | .event e => s.deliverEvent i e
  | .unitReady => s.modSt i Station.unitReady
  | .unitHold => s.modSt i fun t => { t with display := t.display.unitHold }
  | .unitResync => s.modSt i fun t => { t with display := t.display.unitResync }
  | .unitRunOk n => s.modSt i fun t => { t with display := t.display.runOk n }
  | .unitRunBad => s.modSt i fun t => { t with display := t.display.runBad }
  | .idle => s
  | .refused => s.modSt i fun t => { t with port := t.port.countRefused }

/-- R144, R145: a frame that is complete: a bad one is counted; a valid one marks its interval live and is used. -/
def State.received (s : State) (i : StationNo) : RxResult → State
  | .bad => s.modSt i fun t => { t with port := t.port.countBad }
  | .good f => (s.modSt i fun t => { t with monitor := t.monitor.markLive }).deliver i (classify f)

/-- R143: upstream bytes at a port that has its line. -/
def State.portBytes (s : State) (i : StationNo) (bytes : List Byte) : State :=
  let out := rxRun upstreamLimit (s.st i).port.rx bytes
  out.2.foldl (fun s r => s.received i r) (s.modSt i fun t => { t with port := { t.port with rx := out.1 } })

/-- R143, R149: upstream bytes of a station: to its port, or to its Line Check Unit while a test has the line. -/
def State.upstream (s : State) (i : StationNo) (bytes : List Byte) : State :=
  if (s.st i).port.takenByTest then s.modSt i fun t => bytes.foldl Station.testByte t
  else s.portBytes i bytes

/-- 11.1, R199: the line bytes of a frame with the given contents. -/
def frameBytes (kind item : Byte) (body : List Byte) : List Byte := (Frame.mk kind item body).onLine.bytes

/-- KEY_FRAME_DELIVERY (R143 to R146): the bytes of a KEY frame arrive. -/
def execKeyFrameDelivery (i : StationNo) (item code : Byte) (s : State) : Host.Outcome State Fault Refusal :=
  .next (s.upstream i (frameBytes kindKey item [code]))

/-- SCAN_FRAME_DELIVERY (R143 to R146): the bytes of a SCAN frame arrive. -/
def execScanFrameDelivery (i : StationNo) (item symbology : Byte) (data : List Byte) (s : State) :
    Host.Outcome State Fault Refusal :=
  .next (s.upstream i (frameBytes kindScan item (symbology :: data)))

/-- UNIT_READY (R131, R132, R147): the bytes of UNIT READY arrive. -/
def execUnitReady (i : StationNo) (item : Byte) (s : State) : Host.Outcome State Fault Refusal :=
  .next (s.upstream i (frameBytes kindUnit item [1]))

/-- UNIT_HOLD (R131, R132, R147). -/
def execUnitHold (i : StationNo) (item : Byte) (s : State) : Host.Outcome State Fault Refusal :=
  .next (s.upstream i (frameBytes kindUnit item [2]))

/-- UNIT_RESYNC (R131, R133, R147). -/
def execUnitResync (i : StationNo) (item : Byte) (s : State) : Host.Outcome State Fault Refusal :=
  .next (s.upstream i (frameBytes kindUnit item [3]))

/-- UNIT_RUN_OK (R127, R130, R147). -/
def execUnitRunOk (i : StationNo) (item number : Byte) (s : State) : Host.Outcome State Fault Refusal :=
  .next (s.upstream i (frameBytes kindUnit item [4, number]))

/-- UNIT_RUN_BAD (R128, R130, R147). -/
def execUnitRunBad (i : StationNo) (item : Byte) (s : State) : Host.Outcome State Fault Refusal :=
  .next (s.upstream i (frameBytes kindUnit item [5]))

/-- UPSTREAM_IDLE (R145): the bytes of an IDLE mark arrive. -/
def execUpstreamIdle (i : StationNo) (item : Byte) (s : State) : Host.Outcome State Fault Refusal :=
  .next (s.upstream i (frameBytes kindIdle item []))

/-- UPSTREAM_REFUSED_FRAME (R145): the bytes of a frame with a good check and an unusable kind or body arrive. -/
def execUpstreamRefusedFrame (i : StationNo) (item kind : Byte) (body : List Byte) (s : State) :
    Host.Outcome State Fault Refusal :=
  .next (s.upstream i (frameBytes kind item body))

/-- UPSTREAM_BAD_FRAME (R143, R144): the given bytes arrive. -/
def execUpstreamBadFrame (i : StationNo) (bytes : List Byte) (s : State) : Host.Outcome State Fault Refusal :=
  .next (s.upstream i bytes)

/-! ### IDLE marks and frame ends (R148, R125) -/

/-- R148, R149, R161: the port may fill a silence: outside a test, and in a NEAR test (log entry 24). -/
def Station.marksIdle (t : Station) : Bool := !t.port.takenByTest || t.testing .near

/-- IDLE_MARK_SEND (R148): an IDLE mark starts after 1 ms of silence. -/
def execIdleMarkSend (i : StationNo) (s : State) : Host.Outcome State Fault Refusal :=
  let t := s.st i
  if t.marksIdle ∧ t.port.onLine = none ∧ t.port.silence = 1 then
    .next (s.setSt i { t with port := { t.port with onLine := some (Frame.onLine ⟨kindIdle, stationByte i, []⟩) } })
  else .next s

/-- R125, R132: the frame of a run in flight has ended: its timer runs, unless the unit is in HOLD. -/
def Display.runSent (d : Display) : Display :=
  { d with run := d.run.map fun r => { r with timer := if d.unit = .hold then .suspended else .running } }

/-- R120, R125, R148: the frame on the downstream line has ended. -/
def Station.frameEnded (t : Station) : Station :=
  { t with
    display := if t.port.carriesRun then t.display.runSent else t.display
    port := { t.port with onLine := none, silence := 0, preTest := false } }

/-- DOWNSTREAM_FRAME_END (R120, R125, R148). -/
def execDownstreamFrameEnd (i : StationNo) (s : State) : Host.Outcome State Fault Refusal :=
  if (s.st i).port.onLine.isSome then .next (s.modSt i Station.frameEnded) else .next s

/-! ### Presence (R151 to R155) -/

/-- R151: the counts at the start of a window. -/
def Monitor.freshWindow (m : Monitor) : Monitor :=
  { m with position := 0, liveCount := 0, deadRun := 0, longGap := false }

/-- R151, R155: an interval closes. The partial interval in which a test ended is not counted (log entry 10). -/
def Monitor.closeInterval (m : Monitor) : Monitor :=
  if m.suspended then m
  else if m.awaiting then { m.freshWindow with live := false, awaiting := false }
  else if m.position = 64 then m
  else if m.live then { m with position := m.position + 1, live := false, liveCount := m.liveCount + 1, deadRun := 0 }
  else
    { m with position := m.position + 1, deadRun := m.deadRun + 1, longGap := m.longGap || m.deadRun + 1 = 20 }

/-- INTERVAL_CLOSE (R151, R155). -/
def execIntervalClose (i : StationNo) (s : State) : Host.Outcome State Fault Refusal :=
  .next (s.modSt i fun t => { t with monitor := t.monitor.closeInterval })

/-- R152: the presence after the judgement of a window. -/
def Monitor.judged (m : Monitor) : Presence :=
  match m.presence with
  | .present => if m.liveCount = 0 then .absent else .present
  | .absent => if 16 ≤ m.liveCount ∧ m.longGap = false then .present else .absent

/-- R152: the 64th interval of the window has closed and it awaits its judgement. -/
def Monitor.windowClosed (m : Monitor) : Bool := m.position = 64 && !m.suspended && !m.awaiting

/-- R153: a station is lost. -/
def Station.lost (t : Station) : Station :=
  { t with
    display := { t.display.invalidate with unit := .notReady, paceTold := .unknown }
    port := { t.port with lostSeen := true } }

/-- R154: a station is back. -/
def Station.returned (t : Station) : Station := { t with port := { t.port with backSeen := true } }

/-- R152 to R154: the window is judged, and a new one begins. -/
def State.judgeWindow (s : State) (i : StationNo) : State :=
  let t := s.st i
  let p := t.monitor.judged
  let t' := { t with monitor := { t.monitor.freshWindow with presence := p } }
  if p = t.monitor.presence then s.setSt i t'
  else
    { s.setSt i (match p with | .absent => t'.lost | .present => t'.returned) with
      notices := s.notices.raiseStationChange i p }

/-- WINDOW_END (R152). -/
def execWindowEnd (i : StationNo) (s : State) : Host.Outcome State Fault Refusal :=
  if (s.st i).monitor.windowClosed then .next (s.judgeWindow i) else .next s

/-! ### Time -/

/-- R118, R129: the confirmation timer of a run, 1 ms on. -/
def Run.tick (r : Run) : Run :=
  if r.timer = .running then { r with remaining := r.remaining - 1 } else r

/-- R168: the remaining time of a running test, 1 ms on. -/
def Lcu.tick (l : Lcu) : Lcu :=
  if l.state = .running then { l with remaining := l.remaining.map fun n => n - 1 } else l

/-- R142, R148: the downstream silence time, 1 ms on: 0 to 1 ms since the last downstream frame ended, whoever has the
line; while a frame is on the line it stands still (log entry 25). -/
def Station.silenceTick (t : Station) : Nat :=
  if t.port.onLine = none then min 1 (t.port.silence + 1) else t.port.silence

/-- 1 ms passes at a station. -/
def Station.tick (t : Station) : Station :=
  { t with
    display := { t.display with run := t.display.run.map Run.tick }
    port := { t.port with silence := t.silenceTick }
    lcu := t.lcu.tick }

/-- 1 ms passes (log entries 1 and 9). -/
def State.tick (s : State) : State := { s with stations := s.stations.map Station.tick }

end Sys2Proof.Machine
end

