-- ==== Sys2Proof/Machine/Display.lean ====
section
/-! DEFINITION. The Display Writer (06): which frame is due at a frame boundary, and the frames it starts. -/

namespace Sys2Proof.Machine

/-! ### Selection (R120, R121) -/

/-- R120: the line is at a frame boundary, the station PRESENT, and no test is running. -/
def Station.mayStart (t : Station) : Bool :=
  t.port.onLine = none && t.monitor.presence = .present && t.lcu.state != .running

/-- R121: the first frame of the table whose conditions all hold. -/
def Station.due (t : Station) : Option Due :=
  let d := t.display
  if !t.mayStart then none
  else if paceDue t.engine.pacing d.paceTold then some .pace
  else if d.unit ≠ .ready then none
  else if d.soundPending then some .sound
  else if d.indicatorPending then some .indicator
  else if d.run.isSome then none
  else if d.dirty ≠ [] then some .run
  else if d.cursorPending then some .cursor
  else none

/-- R120: a frame starts on the downstream line; its contents are fixed. -/
def Port.send (p : Port) (l : LineFrame) : Port := { p with onLine := some l }

/-- R148, 11.6: a downstream frame of a station. -/
def downFrame (i : StationNo) (kind : Byte) (body : List Byte) : LineFrame := Frame.onLine ⟨kind, stationByte i, body⟩

/-! ### Pace, sound, indicator, cursor (R134 to R137) -/

/-- R134: PACE when the pacing flag is set, UNPACE when it is clear. -/
def Station.sendPace (t : Station) (i : StationNo) : Station :=
  { t with
    port := t.port.send (downFrame i (if t.engine.pacing then kindPace else kindUnpace) [])
    display := { t.display with paceTold := if t.engine.pacing then .pace else .unpace } }

/-- PACE_FRAME (R134). -/
def execPaceFrame (i : StationNo) (s : State) : Host.Outcome State Fault Refusal :=
  if (s.st i).due = some .pace then .next (s.modSt i fun t => t.sendPace i) else .next s

/-- R135: a SOUND frame. -/
def Station.sendSound (t : Station) (i : StationNo) : Station :=
  { t with
    port := t.port.send (downFrame i kindSound [])
    display := { t.display with soundPending := false } }

/-- SOUND_FRAME (R135). -/
def execSoundFrame (i : StationNo) (s : State) : Host.Outcome State Fault Refusal :=
  if (s.st i).due = some .sound then .next (s.modSt i fun t => t.sendSound i) else .next s

/-- R82, 11.6: READY, WAIT, LOCK. -/
def keyboardWord : Keyboard → List Byte
  | .opened => [0x52, 0x45, 0x41, 0x44, 0x59]
  | .waiting => [0x57, 0x41, 0x49, 0x54]
  | .locked => [0x4C, 0x4F, 0x43, 0x4B]

/-- R82, R54: the lock codes as shown: PROTECTED, WRONG-CHAR, NO-ROOM, BAD-ENTRY, REQUIRED, SCAN-UNROUTED,
SCAN-NO-FIELD, SCAN-TOO-LONG. -/
def lockWord : LockCode → List Byte
  | .none => []
  | .guarded => [0x50, 0x52, 0x4F, 0x54, 0x45, 0x43, 0x54, 0x45, 0x44]
  | .wrongChar => [0x57, 0x52, 0x4F, 0x4E, 0x47, 0x2D, 0x43, 0x48, 0x41, 0x52]
  | .noRoom => [0x4E, 0x4F, 0x2D, 0x52, 0x4F, 0x4F, 0x4D]
  | .badEntry => [0x42, 0x41, 0x44, 0x2D, 0x45, 0x4E, 0x54, 0x52, 0x59]
  | .required => [0x52, 0x45, 0x51, 0x55, 0x49, 0x52, 0x45, 0x44]
  | .scanUnrouted => [0x53, 0x43, 0x41, 0x4E, 0x2D, 0x55, 0x4E, 0x52, 0x4F, 0x55, 0x54, 0x45, 0x44]
  | .scanNoField => [0x53, 0x43, 0x41, 0x4E, 0x2D, 0x4E, 0x4F, 0x2D, 0x46, 0x49, 0x45, 0x4C, 0x44]
  | .scanTooLong => [0x53, 0x43, 0x41, 0x4E, 0x2D, 0x54, 0x4F, 0x4F, 0x2D, 0x4C, 0x4F, 0x4E, 0x47]

/-- R136, 11.6: the 80 characters of row 20: the keyboard word at column 0, the lock code at 6 while LOCKED, INS at 20,
HELD at 24, the bulletin at 48. -/
def Station.indicatorRow (t : Station) (isHeld : Bool) : List Byte :=
  padded 6 (keyboardWord t.engine.kb)
    ++ padded 14 (if t.engine.kb = .locked then lockWord t.engine.lockCode else [])
    ++ padded 4 (if t.engine.insert then [0x49, 0x4E, 0x53] else [])
    ++ padded 24 (if isHeld then [0x48, 0x45, 0x4C, 0x44] else [])
    ++ padded 32 t.bulletin

/-- R136: an INDICATOR frame, with the row as it stands. -/
def Station.sendIndicator (t : Station) (i : StationNo) (isHeld : Bool) : Station :=
  { t with
    port := t.port.send (downFrame i kindIndicator (t.indicatorRow isHeld))
    display := { t.display with indicatorPending := false } }

/-- INDICATOR_FRAME (R136). -/
def execIndicatorFrame (i : StationNo) (s : State) : Host.Outcome State Fault Refusal :=
  if (s.st i).due = some .indicator then .next (s.modSt i fun t => t.sendIndicator i (s.isHeld i)) else .next s

/-- A cell index as its row and column, a byte each. -/
def rowColumn (k : Nat) : List Byte := [byteOf (k / rowCells), byteOf (k % rowCells)]

/-- R137: a CURSOR frame, with the station cursor's row and column. -/
def Station.sendCursor (t : Station) (i : StationNo) : Station :=
  { t with
    port := t.port.send (downFrame i kindCursor (rowColumn t.front.cursor))
    display := { t.display with cursorPending := false } }

/-- CURSOR_FRAME (R137). -/
def execCursorFrame (i : StationNo) (s : State) : Host.Outcome State Fault Refusal :=
  if (s.st i).due = some .cursor then .next (s.modSt i fun t => t.sendCursor i) else .next s

/-! ### Runs (R122 to R125, R138) -/

/-- R122: the index at which the search for a run's first cell starts; none when the last-written position is
INVALID. -/
def Display.expectedFirst (d : Display) : Option Nat := d.lastWritten.map fun w => (w + 1) % formCells

/-- R122: the run's first cell. -/
def Display.firstCell (d : Display) : Option Nat :=
  match d.expectedFirst with
  | some k => (d.dirty.find? fun j => k ≤ j).or d.dirty.head?
  | none => d.dirty.head?

/-- R123: a run holds at most 16 cells, of one column group. -/
def groupCells : Nat := 16

/-- R123: the run's indexes from its first cell s on. The column groups start at columns 0, 16, 32, 48 and 64, so two
indexes lie in the same group exactly when they have the same quotient by 16. -/
def Display.runIndexes (d : Display) (s : Nat) : List Nat :=
  ((List.range groupCells).map fun k => s + k).takeWhile fun j =>
    d.dirty.contains j && j / groupCells = s / groupCells

/-- R124: the frame carries a position order. -/
def Display.needsPosition (d : Display) (first : Nat) : Bool := d.expectedFirst != some first

/-- 11.6: the body of a RUN frame. -/
def runBody (number first : Nat) (position : Bool) (cells : List Cell) : List Byte :=
  [byteOf number, flagByte position] ++ (if position then rowColumn first else [])
    ++ cells.flatMap fun c => [c.ch, emphasisByte c.emph]

/-- R138: the fault that falls on this run frame. -/
def faultNow : Option FaultRequest → Option FaultKind
  | some ⟨0, kind⟩ => some kind
  | _ => none

/-- R138: the request after a run frame has started. -/
def faultLater : Option FaultRequest → Option FaultRequest
  | some ⟨k + 1, kind⟩ => some ⟨k, kind⟩
  | _ => none

/-- R125, steps 1 to 5: the run record of a run over the given indexes, as read from FRONT now. -/
def Station.runRecord (t : Station) (first : Nat) (indexes : List Nat) : Run :=
  { number := t.display.runNumber, first := first, cells := indexes.map t.shown,
    dropped := faultNow t.display.fault = some .drop, remaining := t.display.runTimeout,
    timer := if faultNow t.display.fault = some .drop then .running else .suspended }

/-- R138: what goes on the line: nothing for DROP, an inverted check for CHECK. -/
def Port.sendRun (p : Port) (fault : Option FaultKind) (l : LineFrame) : Port :=
  match fault with
  | some .drop => p
  | some .check => p.send l.corrupted
  | none => p.send l

/-- R125: a run frame starts from the given first cell. -/
def Station.startRun (t : Station) (i : StationNo) (first : Nat) : Station :=
  let d := t.display
  let indexes := d.runIndexes first
  let run := t.runRecord first indexes
  let body := runBody d.runNumber first (d.needsPosition first) run.cells
  { t with
    display := { d with
      dirty := d.dirty.filter fun j => !indexes.contains j
      run := some run
      runNumber := (d.runNumber + 1) % 16
      fault := faultLater d.fault }
    port := t.port.sendRun (faultNow d.fault) (downFrame i kindRun body) }

/-- RUN_FRAME_START (R122 to R125, R138). -/
def execRunFrameStart (i : StationNo) (s : State) : Host.Outcome State Fault Refusal :=
  let t := s.st i
  match t.display.firstCell with
  | some first => if t.due = some .run then .next (s.setSt i (t.startRun i first)) else .next s
  | none => .next s

/-- RUN_TIMEOUT (R129): the confirmation timer has been RUNNING for the whole of its set time. -/
def execRunTimeout (i : StationNo) (s : State) : Host.Outcome State Fault Refusal :=
  let t := s.st i
  match t.display.run with
  | some r =>
    if r.timer = .running ∧ r.remaining = 0 then
      .next (s.setSt i { t with display := (t.display.returnRun r).countTimeout })
    else .next s
  | none => .next s

end Sys2Proof.Machine
end

