-- ==== Sys2Proof/Config.lean ====
section
/-! DEFINITION. What the part fixes and the manual does not give, and the free values: constants without a body, so
that no proof can lean on a value of theirs. -/

namespace Sys2Proof

/-- R185: "The product code and revision are fixed values of the part ... and this manual does not give them."
Log entry 15. -/
opaque Config.productCode : BitVec 16

/-- R185: the revision of the part identity. Log entry 15. -/
opaque Config.revision : Byte

/-- The value the part reports where the manual gives a field of a reply four bytes and states no value: the min and
the max of a READ-FIELDS record whose field has no range (11.2, R190). The argument is a counter in the state, so each
use is a value of its own. Log entry 14. -/
opaque Config.freeWord : Nat → BitVec 32

end Sys2Proof
end

