-- ==== Sys2Proof/Machine/HostLine.lean ====
section
/-! DEFINITION. The Host Line Port (09): reception, PAUSE and GO, the taking of requests in hand and the placing of
their replies, the transmitter, the departure of records. -/

namespace Sys2Proof.Machine

/-! ### Reception (R174, R175, R177) -/

/-- R175: a request frame joins the receive buffer, or is discarded as an overrun at a full one. -/
def State.joinBuffer (s : State) (f : Frame) : State :=
  if s.buffer.length < 2 then { s with buffer := s.buffer ++ [f] }
  else { s with overruns := satInc max16 s.overruns, overrunFlag := true }

/-- R175: a complete frame is sorted by its kind. -/
def State.sortFrame (s : State) (f : Frame) : State :=
  if f.kind = kindPause then { s with pause := .paused }
  else if f.kind = kindGo then { s with pause := .running }
  else s.joinBuffer f

/-- R174, R175: a frame that is complete, or discarded as bad. -/
def State.hostReceived (s : State) : RxResult → State
  | .bad => { s with hostBadFrames := satInc max16 s.hostBadFrames }
  | .good f => s.sortFrame f

/-- R174: inbound bytes of the host line. -/
def State.hostBytes (s : State) (bytes : List Byte) : State :=
  let out := rxRun hostLimit s.hostRx bytes
  out.2.foldl State.hostReceived { s with hostRx := out.1 }

/-- HOST_REQUEST_FRAME_COMPLETE (R174, R175): the bytes of a frame with the given contents arrive. -/
def execHostRequestFrameComplete (kind item : Byte) (body : List Byte) (s : State) :
    Host.Outcome State Fault Refusal :=
  .next (s.hostBytes (Frame.mk kind item body).onLine.bytes)

/-- HOST_BAD_FRAME (R174): the given bytes arrive. -/
def execHostBadFrame (bytes : List Byte) (s : State) : Host.Outcome State Fault Refusal := .next (s.hostBytes bytes)

/-- PAUSE (R175, R177). -/
def execPause (item : Byte) (body : List Byte) (s : State) : Host.Outcome State Fault Refusal :=
  .next (s.hostBytes (Frame.mk kindPause item body).onLine.bytes)

/-- GO (R175, R177). A frame that is then due starts by its own command (log entry 3). -/
def execGo (item : Byte) (body : List Byte) (s : State) : Host.Outcome State Fault Refusal :=
  .next (s.hostBytes (Frame.mk kindGo item body).onLine.bytes)

/-! ### The request in hand (R178, R179) -/

/-- R178, R179: the reply is built and waits to be placed; `release` is the station whose grant is then released. -/
def State.answer (s : State) (f : Frame) (reason : Reason) (index : Nat) (data : List Byte)
    (release : Option StationNo) : State :=
  { s with interp := .replying ⟨f.kind, f.station, reason, index, data⟩ release none none }

/-- R179: a refusal, index 0, made before any grant was requested. -/
def State.refuse (s : State) (f : Frame) (reason : Reason) : State := s.answer f reason 0 [] none

/-- The request in hand, not yet answered. -/
def State.inHand (s : State) : Option Frame :=
  match s.interp with
  | .handling f => some f
  | _ => none

/-- The request in hand, if it is of a kind. -/
def State.inHandOf (s : State) (kind : Byte) : Option Frame :=
  match s.inHand with
  | some f => if f.kind = kind then some f else none
  | none => none

/-- R20, R21: the Order Interpreter has been handed the grant of a station. -/
def State.granted (s : State) (i : StationNo) : Bool := (s.st i).grant.holder = some .interpreter

/-- R21: the Order Interpreter raises its request at a station's grant. -/
def State.raiseInterpreter (s : State) (i : StationNo) : State :=
  s.modSt i fun t => { t with grant := t.grant.raise .interpreter }

/-- R178: the kinds that are requests. -/
def isRequest (kind : Byte) : Bool :=
  kind = kindForm || kind = kindQuery || kind = kindConfigure || kind = kindStationReset || kind = kindTest

/-- PLACE_REPLY (R178, R180): the reply is placed in an empty Reply Slot; a STOP's TEST-DONE is raised (R169); the
grant is released (R20, R21); the interpreter is idle, and the message context is discarded (R26). -/
def execPlaceReply (s : State) : Host.Outcome State Fault Refusal :=
  match s.interp, s.replySlot with
  | .replying r release done _, none =>
    let s' : State := { s with
      replySlot := some r
      interp := .idle
      notices := match done with
        | some (i, e) => s.notices.raiseTestDone i e
        | none => s.notices }
    .next (match release with
      | some i => s'.modSt i fun t => { t with grant := t.grant.release .interpreter }
      | none => s')
  | _, _ => .next s

/-- UNKNOWN_KIND (R178): a frame that is no request is refused; its body and station are not examined. -/
def execUnknownKind (s : State) : Host.Outcome State Fault Refusal :=
  match s.inHand with
  | some f => if isRequest f.kind then .next s else .next (s.refuse f .unknownKind)
  | none => .next s

/-! ### The transmitter (R180 to R184) -/

/-- R181: the transmitter may start a frame: the line is at a boundary, or idle, and RUNNING. -/
def State.mayTransmit (s : State) : Bool := s.pause = .running && s.tx = none

/-- R182, 11.2: the body of a REPLY frame. -/
def Reply.body (r : Reply) : List Byte :=
  [r.kind, if r.reason = .none then 0 else 1, reasonByte r.reason, byteOf r.index] ++ r.data

/-- R182: the REPLY frame of a reply. -/
def Reply.frame (r : Reply) : LineFrame := Frame.onLine ⟨kindReply, r.station, r.body⟩

/-- R185, 11.5: the part identity. -/
def identity : List Byte := beBytes 2 Config.productCode.toNat ++ [Config.revision]

/-- R182: the station item of a NOTICE frame. -/
def Notice.item : Notice → Byte
  | .restarted | .ringHalf _ | .entryHeld _ => deviceItem
  | .stationChange i _ _ | .overflow i _ | .testDone i _ => stationByte i

/-- R183, 11.5: the body of a NOTICE frame. -/
def Notice.body : Notice → List Byte
  | .restarted => 1 :: identity
  | .stationChange _ p c => [2, presenceByte p, byteOf c]
  | .overflow _ c => 3 :: beBytes 2 c
  | .testDone _ e => 4 :: e.bytes
  | .ringHalf o => 5 :: beBytes 2 o
  | .entryHeld i => [6, stationByte i]

/-- R182: the NOTICE frame of a notice. -/
def Notice.frame (n : Notice) : LineFrame := Frame.onLine ⟨kindNotice, n.item, n.body⟩

/-- R111, R182: the ENTRY frame of the head record. -/
def Ring.entryFrame (r : Ring) (e : RecordEntry) : LineFrame :=
  Frame.onLine ⟨kindEntry, stationByte e.station, r.bytesAt r.readOff e.size⟩

/-- TX_REPLY_START (R180, R181): the reply first of all. -/
def execTxReplyStart (s : State) : Host.Outcome State Fault Refusal :=
  match s.replySlot with
  | some r => if s.mayTransmit then .next { s with tx := some r.frame, replySlot := none } else .next s
  | none => .next s

/-- TX_NOTICE_START (R181, R184): with the Reply Slot empty, the first pending notice. -/
def execTxNoticeStart (s : State) : Host.Outcome State Fault Refusal :=
  match s.replySlot, s.notices.inOrder with
  | none, n :: _ =>
    if s.mayTransmit then .next { s with tx := some n.frame, notices := s.notices.remove n } else .next s
  | _, _ => .next s

/-- TX_ENTRY_START (R111, R181): with the Reply Slot empty and no notice pending, the head record of the ring. -/
def execTxEntryStart (s : State) : Host.Outcome State Fault Refusal :=
  match s.replySlot, s.notices.inOrder, s.ring.records with
  | none, [], e :: _ => if s.mayTransmit then .next { s with tx := some (s.ring.entryFrame e) } else .next s
  | _, _, _ => .next s

/-- TX_FRAME_END (R181): the last byte of a REPLY or NOTICE frame leaves the line. -/
def execTxFrameEnd (s : State) : Host.Outcome State Fault Refusal :=
  match s.tx with
  | some l => if l.frame.kind = kindEntry then .next s else .next { s with tx := none }
  | none => .next s

/-- RECORD_DEPARTURE (R111): the last byte of an ENTRY frame leaves the line; the head record departs and the held
list is served. -/
def execRecordDeparture (s : State) : Host.Outcome State Fault Refusal :=
  match s.tx with
  | some l =>
    if l.frame.kind = kindEntry then
      let s' : State := { s with tx := none, ring := s.ring.depart }
      .next s'.startService
    else .next s
  | none => .next s

end Sys2Proof.Machine
end

