-- ==== Sys2Proof/Machine/Operands.lean ====
section
/-! DEFINITION. The operand forms of the requests (11.2, 11.3, R200): how the body of a FORM, QUERY, CONFIGURE or TEST
is decoded. A body or an order that cannot be decoded answers none. An encoder of orders stands beside their decoder. -/

namespace Sys2Proof.Machine

/-! ### FORM orders (11.3, R200) -/

/-- A length byte and that many characters. -/
def takeText : List Byte → Option (List Byte × List Byte)
  | [] => none
  | n :: rest => if n.toNat ≤ rest.length then some (rest.take n.toNat, rest.drop n.toNat) else none

/-- 11.3: the DEF flags byte, from the lowest bit up: OPEN-ENTRY, required, autoskip, SHADOWED, range present. -/
def defFlags (p : Protection) (required autoskip : Bool) (b : Buffering) (ranged : Bool) : Byte :=
  (if p = .openEntry then 1 else 0) + (if required then 2 else 0) + (if autoskip then 4 else 0)
    + (if b = .shadowed then 8 else 0) + (if ranged then 16 else 0)

/-- 11.3: the operands of DEF after its code: tag, start, length, class, flags, emphasis, then min and max when the
range flag is set. R200: an upper flag bit, a class or an emphasis outside its codes cannot be decoded. -/
def decodeDef : List Byte → Option (Order × List Byte)
  | tag :: s1 :: s0 :: len :: cls :: flags :: emph :: rest =>
    match classOf cls, emphasisOf emph with
    | some c, some e =>
      let d (range : Option (Nat × Nat)) : Order :=
        .define ⟨tag.toNat, beValue [s1, s0], len.toNat, c, if flags.getLsbD 0 then .openEntry else .guarded,
          flags.getLsbD 1, flags.getLsbD 2, if flags.getLsbD 3 then .shadowed else .single, e, range⟩
      if flags.toNat ≥ 32 then none
      else if flags.getLsbD 4 then
        match rest with
        | a3 :: a2 :: a1 :: a0 :: b3 :: b2 :: b1 :: b0 :: rest =>
          some (d (some (beValue [a3, a2, a1, a0], beValue [b3, b2, b1, b0])), rest)
        | _ => none
      else some (d none, rest)
    | _, _ => none
  | _ => none

/-- R200: one order; none where its code is not one of the fifteen, it runs past the end, an emphasis, class or CURSOR
form lies outside its codes, a DEF flags byte has an upper bit set, or a LIT length is 0. -/
def decodeOrder : List Byte → Option (Order × List Byte)
  | [] => none
  | code :: rest =>
    match code.toNat with
    | 0x01 => some (.erase, rest)
    | 0x02 => match rest with
      | i1 :: i0 :: rest => some (.setPosition (beValue [i1, i0]), rest)
      | _ => none
    | 0x03 => match rest with
      | e :: rest => match emphasisOf e, takeText rest with
        | some e, some (text, rest) => if text = [] then none else some (.lit e text, rest)
        | _, _ => none
      | _ => none
    | 0x04 => decodeDef rest
    | 0x05 => match rest with
      | t :: rest => some (.drop t.toNat, rest)
      | _ => none
    | 0x06 => match rest with
      | t :: rest => match takeText rest with
        | some (text, rest) => some (.put t.toNat text, rest)
        | none => none
      | _ => none
    | 0x07 => match takeText rest with
      | some (text, rest) => some (.putNext text, rest)
      | none => none
    | 0x08 => match rest with
      | t :: rest => some (.showShadow t.toNat, rest)
      | _ => none
    | 0x09 => match rest with
      | t :: rest => some (.mark t.toNat, rest)
      | _ => none
    | 0x0A => some (.clear, rest)
    | 0x0B => match rest with
      | form :: a :: b :: rest =>
        if form = 0 then some (.cursorTag a.toNat b.toNat, rest)
        else if form = 1 then some (.cursorIndex (beValue [a, b]), rest)
        else none
      | _ => none
    | 0x0C => some (.release, rest)
    | 0x0D => some (.sound, rest)
    | 0x0E => match takeText rest with
      | some (text, rest) => some (.note text, rest)
      | none => none
    | 0x0F => some (.flip, rest)
    | _ => none

/-- 11.3: the code of an order; also its number in the acceptance table (R30). -/
def orderCode : Order → Nat
  | .erase => 0x01
  | .setPosition _ => 0x02
  | .lit _ _ => 0x03
  | .define _ => 0x04
  | .drop _ => 0x05
  | .put _ _ => 0x06
  | .putNext _ => 0x07
  | .showShadow _ => 0x08
  | .mark _ => 0x09
  | .clear => 0x0A
  | .cursorTag _ _ => 0x0B
  | .cursorIndex _ => 0x0B
  | .release => 0x0C
  | .sound => 0x0D
  | .note _ => 0x0E
  | .flip => 0x0F

/-- 11.3: a length byte and a text. -/
def textBytes (text : List Byte) : List Byte := byteOf text.length :: text

/-- 11.3: the operand bytes of an order. -/
def orderOperands : Order → List Byte
  | .setPosition i => beBytes 2 i
  | .lit e text => emphasisByte e :: textBytes text
  | .define d =>
    [byteOf d.tag] ++ beBytes 2 d.start
      ++ [byteOf d.len, classByte d.cls, defFlags d.protection d.required d.autoskip d.buffering d.range.isSome,
          emphasisByte d.emph]
      ++ (match d.range with
          | some (lo, hi) => beBytes 4 lo ++ beBytes 4 hi
          | none => [])
  | .drop t => [byteOf t]
  | .put t text => byteOf t :: textBytes text
  | .putNext text => textBytes text
  | .showShadow t => [byteOf t]
  | .mark t => [byteOf t]
  | .cursorTag t o => [0, byteOf t, byteOf o]
  | .cursorIndex i => 1 :: beBytes 2 i
  | .note text => textBytes text
  | .erase | .clear | .release | .sound | .flip => []

/-- 11.3: an order is its code followed by its operands. -/
def encodeOrder (o : Order) : List Byte := byteOf (orderCode o) :: orderOperands o

/-- What an order's encoding can carry: bytes, two-byte indexes, four-byte bounds, texts of at most 255 characters,
and a LIT text that is not empty (11.3, R200). -/
def Order.encodable : Order → Bool
  | .setPosition i => i < 65536
  | .lit _ text => 1 ≤ text.length && text.length ≤ 255
  | .define d =>
    d.tag < 256 && d.start < 65536 && d.len < 256
      && (match d.range with | some (lo, hi) => lo < 4294967296 && hi < 4294967296 | none => true)
  | .drop t => t < 256
  | .put t text => t < 256 && text.length ≤ 255
  | .putNext text => text.length ≤ 255
  | .showShadow t => t < 256
  | .mark t => t < 256
  | .cursorTag t o => t < 256 && o < 256
  | .cursorIndex i => i < 65536
  | .note text => text.length ≤ 255
  | .erase | .clear | .release | .sound | .flip => true

/-! ### QUERY (11.2, R188, R200) -/

/-- 11.2: query kind, role, tag; nothing may be left over. -/
def decodeQuery : List Byte → Option Query
  | [k, r] => match roleOf r with
    | some role => match k.toNat with
      | 1 => some (.readCells role)
      | 2 => some (.readFields role)
      | 4 => some (.readModified role)
      | _ => none
    | none => none
  | [k, r, t] => match roleOf r with
    | some role => if k = 3 then some (.readField role t.toNat) else none
    | none => none
  | [k] => if k = 5 then some .readStatus else none
  | _ => none

/-! ### CONFIGURE (11.2, R195, R200) -/

/-- 11.2: one setting: its code and its operands. -/
def decodeSetting : List Byte → Option (Setting × List Byte)
  | [] => none
  | code :: rest =>
    match code.toNat with
    | 1 => match rest with
      | entry :: sym :: rest => match takeText rest with
        | some (lead, strip :: cls :: after :: rest) =>
          some (.route entry.toNat sym.toNat lead strip.toNat cls after, rest)
        | _ => none
      | _ => none
    | 2 => match rest with
      | o :: kb :: v :: rest =>
        if v = 0 then some (.acceptance o.toNat kb true, rest)
        else if v = 1 then some (.acceptance o.toNat kb false, rest)
        else none
      | _ => none
    | 3 => match rest with
      | ms :: rest => some (.runTimeout ms.toNat, rest)
      | _ => none
    | 4 => match rest with
      | v :: rest =>
        if v = 0 then some (.soundOnLock false, rest)
        else if v = 1 then some (.soundOnLock true, rest)
        else none
      | _ => none
    | 5 => match rest with
      | n :: kind :: rest => some (.fault n.toNat kind, rest)
      | _ => none
    | 6 => some (.faultClear, rest)
    | _ => none

/-- Settings back to back; the fuel is the number of bytes. -/
def decodeSettingsFuel : Nat → List Byte → Option (List Setting)
  | _, [] => some []
  | 0, _ :: _ => none
  | n + 1, bytes => match decodeSetting bytes with
    | some (x, rest) => match decodeSettingsFuel n rest with
      | some xs => some (x :: xs)
      | none => none
    | none => none

/-- R195, R200: the whole list of settings (log entry 17: it is decoded whole before any value check). -/
def decodeSettings (body : List Byte) : Option (List Setting) := decodeSettingsFuel body.length body

/-- 11.2: the fault kinds. -/
def faultKindOf (b : Byte) : Option FaultKind :=
  match b.toNat with
  | 0 => some .check
  | 1 => some .drop
  | _ => none

/-- R195: the value checks of one setting, in the order of the table's rows. -/
def checkSetting : Setting → Option Reason
  | .route entry sym lead strip cls after =>
    if entry > 7 then some .outOfForm
    else if sym > 15 then some .badOrder
    else if lead.length > 4 then some .badOrder
    else if !lead.all isPrintable then some .badOrder
    else if strip > 4 then some .badOrder
    else if (classOf cls).isNone then some .badOrder
    else if (afterFillOf after).isNone then some .badOrder
    else none
  | .acceptance order kb _ =>
    if order < 1 ∨ order > 15 then some .badOrder
    else if (keyboardOf kb).isNone then some .badOrder
    else none
  | .runTimeout ms => if ms < 10 ∨ ms > 250 ∨ ms % 10 ≠ 0 then some .badOrder else none
  | .soundOnLock _ => none
  | .fault n kind =>
    if n > 7 then some .badOrder else if (faultKindOf kind).isNone then some .badOrder else none
  | .faultClear => none

/-- R195: the first failing setting refuses; an empty list is refused BAD-ORDER. -/
def checkSettings : List Setting → Option Reason
  | [] => some .badOrder
  | xs => xs.findSome? checkSetting

/-! ### TEST (11.2, R159, R160) -/

/-- 11.2: the pattern of a START: COUNT, or REPEAT with a count of 1–16 and those bytes. -/
def decodePattern : List Byte → Option (Pattern × List Byte)
  | kind :: rest =>
    if kind = 0 then some (.count, rest)
    else if kind = 1 then
      match takeText rest with
      | some (bytes, rest) => if bytes = [] ∨ bytes.length > 16 then none else some (.repeated bytes, rest)
      | none => none
    else none
  | [] => none

/-- 11.2: the injection of a START: NONE, SINGLE, or RATE with n 1–4. -/
def decodeInjection : List Byte → Option (Injection × List Byte)
  | kind :: rest =>
    if kind = 0 then some (.none, rest)
    else if kind = 1 then some (.single, rest)
    else if kind = 2 then
      match rest with
      | n :: rest => if 1 ≤ n.toNat ∧ n.toNat ≤ 4 then some (.rate n.toNat, rest) else none
      | [] => none
    else none
  | [] => none

/-- 11.2, R160: the parameters of a START: mode, pattern, injection, duration (2 bytes), nothing left over. -/
def decodeStart : List Byte → Option TestAction
  | m :: rest => match modeOf m, decodePattern rest with
    | some mode, some (pattern, rest) => match decodeInjection rest with
      | some (injection, [d1, d0]) => some (.start mode pattern injection (beValue [d1, d0]))
      | _ => none
    | _, _ => none
  | [] => none

/-- 11.2, R159: the action of a TEST. -/
def decodeTest : List Byte → Option TestAction
  | a :: rest =>
    if a = 1 then decodeStart rest
    else if a = 2 then (if rest = [] then some .stop else none)
    else if a = 3 then (if rest = [] then some .inject else none)
    else none
  | [] => none

end Sys2Proof.Machine
end

