-- ==== Sys2Proof/Machine/Forms.lean ====
section
/-! DEFINITION. FORM messages (02): the checks of the message and of each order, the effect of each order on the
working view, and the message whole: every order takes effect or none does. -/

namespace Sys2Proof.Machine

/-! ### The orders' own checks (R35 to R50) -/

/-- R41, R42: the checks of a PUT's text against its field. -/
def putFault (f : Field) (text : List Byte) : Option Reason :=
  if !text.all isPrintable then some .badOrder
  else if f.len < text.length then some .tooLong
  else none

/-- R37: the checks of LIT. -/
def litFault (p : Page) (pos : Nat) (text : List Byte) : Option Reason :=
  if !text.all isPrintable then some .badOrder
  else if formCells < pos + text.length then some .outOfForm
  else if (List.range text.length).any fun k => (p.fieldAt (pos + k)).isSome then some .overlap
  else none

/-- R39, test 1, and R8: the attributes of a DEF. -/
def DefOperands.sound (d : DefOperands) : Bool :=
  1 ≤ d.tag && d.tag ≤ 250 && 1 ≤ d.len && d.len ≤ 80
    && !(d.required && d.protection = .guarded)
    && (match d.range with
        | some (lo, hi) => d.cls = .qty && lo ≤ hi && hi ≤ 999999999
        | none => true)
    && (match d.cls with
        | .qty => d.len ≤ 9
        | .bin => 7 ≤ d.len
        | .item => 2 ≤ d.len
        | .text | .digits => true)

/-- R39, test 4: two stretches of cells have a cell in common. -/
def overlaps (start₁ len₁ start₂ len₂ : Nat) : Bool := start₁ < start₂ + len₂ && start₂ < start₁ + len₁

/-- R6: a page holds at most 48 fields. -/
def tableSize : Nat := 48

/-- R39: the tests of DEF, in their sequence. -/
def defFault (p : Page) (d : DefOperands) : Option Reason :=
  if !d.sound then some .badOrder
  else if formCells ≤ d.start || rowCells < d.start % rowCells + d.len then some .outOfForm
  else if p.fields.any fun f => f.tag = d.tag then some .tagInUse
  else if p.fields.any fun f => overlaps d.start d.len f.start f.len then some .overlap
  else if tableSize ≤ p.fields.length then some .tableFull
  else none

/-- R42: the field that follows the next-field reference. -/
def Page.nextField (p : Page) (reference : Option Nat) : Option Field :=
  match reference with
  | none => p.fields.head?
  | some r => p.fields.find? fun f => r < f.start

/-- An order that names a field by tag: NO-SUCH-TAG, then the check of the field. -/
def tagFault (p : Page) (tag : Nat) (check : Field → Option Reason) : Option Reason :=
  match p.fieldOf tag with
  | none => some .noSuchTag
  | some f => check f

/-- R32, test 4: an order's own checks, against the working view. -/
def ownFault (p : Page) (c : Context) : Order → Option Reason
  | .setPosition i => if formCells ≤ i then some .outOfForm else none
  | .lit _ text => litFault p c.writePos text
  | .define d => defFault p d
  | .drop tag => tagFault p tag fun _ => none
  | .put tag text => tagFault p tag fun f => putFault f text
  | .putNext text => match p.nextField c.nextField with
    | none => some .noSuchTag
    | some f => putFault f text
  | .showShadow tag => tagFault p tag fun _ => none
  | .mark tag => tagFault p tag fun _ => none
  | .cursorTag tag offset => tagFault p tag fun f => if f.len ≤ offset then some .outOfForm else none
  | .cursorIndex i => if formCells ≤ i then some .outOfForm else none
  | .note text =>
    if !text.all isPrintable then some .badOrder else if 32 < text.length then some .tooLong else none
  | .erase | .clear | .release | .sound | .flip => none

/-! ### The orders' effects (R35 to R50) -/

/-- R38, R6: a record takes its place by its start index. -/
def insertField (f : Field) : List Field → List Field
  | [] => [f]
  | g :: fs => if f.start < g.start then f :: g :: fs else g :: insertField f fs

/-- R38: the record a DEF makes. -/
def DefOperands.field (d : DefOperands) : Field :=
  { tag := d.tag, start := d.start, len := d.len, protection := d.protection, cls := d.cls, required := d.required,
    autoskip := d.autoskip, buffering := d.buffering, emph := d.emph, range := d.range, shadow := none, mark := false }

/-- R3, R38, R40: the cells of a stretch become blank NORMAL. -/
def blankCells (cells : Sparse Cell) (start len : Nat) : Sparse Cell :=
  Sparse.writeAll Cell.blank start (List.replicate len Cell.blank) cells

/-- R38: DEF applied to a page. -/
def Page.define (p : Page) (d : DefOperands) : Page :=
  { p with cells := blankCells p.cells d.start d.len, fields := insertField d.field p.fields }

/-- R40: DROP applied to a page. -/
def Page.drop (p : Page) (f : Field) : Page :=
  { p with cells := blankCells p.cells f.start f.len, fields := p.fields.filter fun g => g.tag != f.tag }

/-- R37: LIT applied to a page. -/
def Page.lit (p : Page) (pos : Nat) (e : Emphasis) (text : List Byte) : Page :=
  { p with cells := Sparse.writeAll Cell.blank pos (text.map fun ch => ⟨ch, e⟩) p.cells }

/-- R35: ERASE applied to a page of a station. -/
def Station.erase (t : Station) (role : Role) : Station :=
  match role with
  | .front =>
    let t' := t.withFront Page.reset
    { t' with display := { t'.display with cursorPending := t'.display.cursorPending || t.front.cursor != 0 } }
  | .back => { t with back := Page.reset }

/-- R12: a host value is held as the pending shadow of a SHADOWED FRONT field in hand, and written directly in every
other case. -/
def Station.put (t : Station) (role : Role) (f : Field) (text : List Byte) : Station :=
  if role = .front ∧ f.buffering = .shadowed ∧ t.front.inHand f = true then
    { t with front := t.front.mapFields (fun g => g.tag = f.tag) fun g =>
        { g with shadow := some (padded f.len text) } }
  else t.withPage role (((t.page role).setContent f text).setMark f.tag false)

/-- R43: SHOW; no field of BACK has a pending shadow. -/
def Station.showField (t : Station) (role : Role) (tag : Nat) : Station :=
  match role with
  | .front => t.promote fun f => f.tag = tag
  | .back => t

/-- R45: CLEAR. -/
def Station.clear (t : Station) (role : Role) : Station :=
  match role with
  | .front => t.blankOpenFront
  | .back => { t with back := t.back.blankOpen }

/-- R46: CURSOR. -/
def Station.hostCursor (t : Station) (role : Role) (dest : Nat) : Station :=
  match role with
  | .front => t.moveCursor dest
  | .back => { t with back := { t.back with cursor := dest } }

/-- R49: NOTE. -/
def Station.note (t : Station) (text : List Byte) : Station :=
  { t with
    bulletin := text
    display := { t.display with indicatorPending := t.display.indicatorPending || text != t.bulletin } }

/-- R17, R18: FLIP. -/
def Station.flip (t : Station) : Station :=
  let p := t.promoteAll
  p.repainted { p with
    front := p.back
    back := p.front
    display := { p.display with cursorPending := true, indicatorPending := true } }

/-- A view whose station has changed. -/
def FormView.withStation (v : FormView) (t : Station) : FormView := { v with station := t }

/-- R26: the next-field reference becomes the start of the field an order addressed. -/
def FormView.addressed (v : FormView) (f : Field) : FormView :=
  { v with context := { v.context with nextField := some f.start } }

/-- An order that names a field of the target page. -/
def FormView.atField (v : FormView) (target : Option Field) (act : Station → Field → Station) : FormView :=
  match target with
  | some f => (v.withStation (act v.station f)).addressed f
  | none => v

/-- R33, R35 to R50: the effect of an order on the working view. RELEASE is noted, and acts at the message's end. -/
def FormView.apply (v : FormView) (role : Role) (o : Order) : FormView :=
  let t := v.station
  let p := t.page role
  match o with
  | .erase => { v with station := t.erase role, context := ⟨0, none⟩ }
  | .setPosition i => { v with context := { v.context with writePos := i } }
  | .lit e text =>
    { v with
      station := t.withPage role (p.lit v.context.writePos e text)
      context := { v.context with writePos := v.context.writePos + text.length } }
  | .define d => (v.withStation (t.withPage role (p.define d))).addressed d.field
  | .drop tag => v.atField (p.fieldOf tag) fun t f => t.withPage role (p.drop f)
  | .put tag text => v.atField (p.fieldOf tag) fun t f => t.put role f text
  | .putNext text => v.atField (p.nextField v.context.nextField) fun t f => t.put role f text
  | .showShadow tag => v.atField (p.fieldOf tag) fun t f => t.showField role f.tag
  | .mark tag => v.atField (p.fieldOf tag) fun t f => t.withPage role (p.setMark f.tag true)
  | .clear => v.withStation (t.clear role)
  | .cursorTag tag offset => v.atField (p.fieldOf tag) fun t f => t.hostCursor role (f.start + offset)
  | .cursorIndex i => v.withStation (t.hostCursor role i)
  | .release => { v with released := true }
  | .sound => v.withStation { t with display := t.display.requestSound }
  | .note text => v.withStation (t.note text)
  | .flip => { v with station := t.flip, flipped := true }

/-! ### The order list (R30, R32, R33) -/

/-- R30: where an order's entry for a keyboard state stands in the acceptance table. -/
def acceptanceIndex (order : Nat) (kb : Keyboard) : Nat := (order - 1) * 3 + (keyboardByte kb).toNat

/-- R30: the table's reach: every order of a FRONT message; RELEASE, SOUND, NOTE and FLIP of a BACK message. -/
def consulted (role : Role) : Order → Bool
  | .release | .sound | .note _ | .flip => true
  | _ => role = .front

/-- R30: the order is barred. -/
def Station.bars (t : Station) (role : Role) (o : Order) : Bool :=
  consulted role o && !(t.acceptance.toList.getD (acceptanceIndex (orderCode o) t.engine.kb) true)

/-- R32, test 3: the orders that may follow a FLIP. -/
def mayFollowFlip : Order → Bool
  | .release | .sound | .note _ => true
  | _ => false

/-- R32, tests 2 to 4, against the station as it stood at the message's start and the working view. -/
def orderFault (start : Station) (role : Role) (v : FormView) (o : Order) : Option Reason :=
  if start.bars role o then some .barred
  else if v.flipped && !mayFollowFlip o then some .badOrder
  else ownFault (v.station.page role) v.context o

/-- R32, test 1, R200: the next order; the one numbered by the count may leave no bytes after it. -/
def nextOrder (last : Bool) (bytes : List Byte) : Option (Order × List Byte) :=
  match decodeOrder bytes with
  | some (o, rest) => if last && rest != [] then none else some (o, rest)
  | none => none

/-- R32, R33: the orders one by one: each is decoded, tested against the working view and applied to it; the first
that fails gives the refusal and its index. `n` orders are left, the next numbered `index`. -/
def runOrders (start : Station) (role : Role) : Nat → Nat → List Byte → FormView → Except (Reason × Nat) FormView
  | 0, _, _, v => .ok v
  | n + 1, index, bytes, v =>
    match nextOrder (n = 0) bytes with
    | none => .error (.badOrder, index)
    | some (o, rest) =>
      match orderFault start role v o with
      | some r => .error (r, index)
      | none => runOrders start role n (index + 1) rest (v.apply role o)

/-- R29: the orders are decoded until a FLIP or RELEASE is found (HELD-ENTRY at its index), one cannot be decoded
(BAD-ORDER at its index), or the list ends. -/
def heldScan : Nat → Nat → List Byte → Option (Reason × Nat)
  | 0, _, _ => none
  | n + 1, index, bytes =>
    match nextOrder (n = 0) bytes with
    | none => some (.badOrder, index)
    | some (.flip, _) => some (.heldEntry, index)
    | some (.release, _) => some (.heldEntry, index)
    | some (_, rest) => heldScan n (index + 1) rest

/-- R29: the HELD-ENTRY check. -/
def heldFault (isHeld : Bool) (role : Role) (count : Nat) (orders : List Byte) : Option (Reason × Nat) :=
  if !isHeld then none
  else match role with
    | .front => some (.heldEntry, 0)
    | .back => heldScan count 1 orders

/-- R28, R200: the message level: target role and order count. -/
def formHead : List Byte → Option (Role × Nat × List Byte)
  | r :: c :: orders => match roleOf r with
    | some role => if 1 ≤ c.toNat ∧ c.toNat ≤ 128 then some (role, c.toNat, orders) else none
    | none => none
  | _ => none

/-- R26: the working view at the start of a message. -/
def FormView.start (t : Station) : FormView := ⟨t, ⟨0, none⟩, false, false⟩

/-- R27, steps 4 to 6: the message checked, and applied to the working view. -/
def formResult (t : Station) (isHeld : Bool) (body : List Byte) : Except (Reason × Nat) FormView :=
  match formHead body with
  | none => .error (.badOrder, 0)
  | some (role, count, orders) =>
    match heldFault isHeld role count orders with
    | some e => .error e
    | none => runOrders t role count 1 orders (FormView.start t)

/-- R47, R27 step 7: a RELEASE opens the keyboard at the message's end, and the engine raises its request if events
wait (R60). -/
def FormView.finish (v : FormView) : Station :=
  if v.released then v.station.openKeyboard.raiseEvent else v.station

/-- R27: a FORM message under its grant: all of it takes effect, or none. -/
def State.formMessage (s : State) (f : Frame) (i : StationNo) : State :=
  match formResult (s.st i) (s.isHeld i) f.body with
  | .error (reason, index) => s.answer f reason index [] (some i)
  | .ok v =>
    { s.setSt i v.finish with
      interp := .replying ⟨f.kind, f.station, .none, 0, []⟩ (some i) none (some v.context) }

/-- FORM (R27): the station is checked before any grant; the rest under it. -/
def execForm (s : State) : Host.Outcome State Fault Refusal :=
  match s.inHandOf kindForm with
  | none => .next s
  | some f => match stationOf f.station with
    | none => .next (s.refuse f .badStation)
    | some i => if s.granted i then .next (s.formMessage f i) else .next s

end Sys2Proof.Machine
end

