-- ==== Sys2Proof/Machine/Keyboard.lean ====
section
/-! DEFINITION. The Keystroke Engine (03): how an event is taken (R60, R61) and what each key does (R67 to R81). -/

namespace Sys2Proof.Machine

/-! ### Taking an event (R60, R61) -/

/-- R60: the engine holds the grant for an event and has taken none: the allocator does not use the engine's slot. -/
def State.engineGranted (s : State) (i : StationNo) : Bool :=
  (s.st i).grant.holder = some .engine && (s.st i).engine.taken = none && s.service != some i

/-- R61: an event discarded in LOCKED is counted and rings the sounder. -/
def Station.discardLocked (t : Station) : Station :=
  { t with engine := t.engine.countDiscards 1, display := t.display.requestSound }

/-- R60, R61: the engine takes the head event, or nothing. In OPEN the event stays in the engine's hand for the step
that treats it, and so does a RESET in LOCKED; any other event in LOCKED is discarded and completes (log entry 4). -/
def Station.takeEvent (t : Station) : Station :=
  match t.engine.kb, t.engine.queue with
  | .waiting, _ => t.finishEvent
  | _, [] => t.finishEvent
  | .opened, e :: rest => { t with engine := { t.engine.withQueue rest with taken := some e } }
  | .locked, e :: rest =>
    let t' := { t with engine := t.engine.withQueue rest }
    if e = .key .reset then { t' with engine.taken := some e } else t'.discardLocked.finishEvent

/-- EVENT_TAKEN (R60). -/
def execEventTaken (i : StationNo) (s : State) : Host.Outcome State Fault Refusal :=
  if s.engineGranted i then .next (s.modSt i Station.takeEvent) else .next s

/-- R61: the key in the engine's hand, taken in OPEN. -/
def Station.keyInHand (t : Station) : Option Key :=
  match t.engine.taken with
  | some (.key k) => if t.engine.kb = .opened ∧ t.grant.holder = some .engine then some k else none
  | _ => none

/-- R60, R61: treat the key in hand, if it is the one named, and complete the event. -/
def State.treat (s : State) (i : StationNo) (k : Key) (f : Station → Station) : State :=
  if (s.st i).keyInHand = some k then s.modSt i fun t => (f t).finishEvent else s

/-! ### Cursor movement and field exit (R67 to R71) -/

/-- R67: a key-driven move. Leaving a marked OPEN-ENTRY field applies its exit rule first; a failure puts the cursor at
the field's start and locks BAD-ENTRY. -/
def Station.keyMove (t : Station) (dest : Nat) : Station :=
  match t.front.fieldAt t.front.cursor with
  | none => t.moveCursor dest
  | some f =>
    if !f.covers dest && f.isOpen && f.mark && !t.front.exitPasses f then t.lockAtField .badEntry f
    else t.moveCursor dest

/-- R69: the arrow keys' distance, modulo 1600. -/
def shifted (cursor distance : Nat) : Nat := (cursor + distance) % formCells

/-- KEY_RIGHT (R69): cursor + 1, mod 1600. -/
def execKeyRight (i : StationNo) (s : State) : Host.Outcome State Fault Refusal :=
  .next (s.treat i .right fun t => t.keyMove (shifted t.front.cursor 1))

/-- KEY_LEFT (R69): cursor − 1, mod 1600. -/
def execKeyLeft (i : StationNo) (s : State) : Host.Outcome State Fault Refusal :=
  .next (s.treat i .left fun t => t.keyMove (shifted t.front.cursor (formCells - 1)))

/-- KEY_UP (R69): cursor − 80, mod 1600. -/
def execKeyUp (i : StationNo) (s : State) : Host.Outcome State Fault Refusal :=
  .next (s.treat i .up fun t => t.keyMove (shifted t.front.cursor (formCells - rowCells)))

/-- KEY_DOWN (R69): cursor + 80, mod 1600. -/
def execKeyDown (i : StationNo) (s : State) : Host.Outcome State Fault Refusal :=
  .next (s.treat i .down fun t => t.keyMove (shifted t.front.cursor rowCells))

/-- KEY_TAB (R70). -/
def execKeyTab (i : StationNo) (s : State) : Host.Outcome State Fault Refusal :=
  .next (s.treat i .tab fun t => t.keyMove (t.front.nextOpen t.front.cursor))

/-- KEY_BACKTAB (R70). -/
def execKeyBacktab (i : StationNo) (s : State) : Host.Outcome State Fault Refusal :=
  .next (s.treat i .backtab fun t => t.keyMove (t.front.backOpen t.front.cursor))

/-- KEY_HOME (R71). -/
def execKeyHome (i : StationNo) (s : State) : Host.Outcome State Fault Refusal :=
  .next (s.treat i .home fun t => t.keyMove t.front.home)

/-- KEY_NEWLINE (R71). -/
def execKeyNewline (i : StationNo) (s : State) : Host.Outcome State Fault Refusal :=
  .next (s.treat i .newline fun t => t.keyMove (t.front.laterRowOpen t.front.cursor))

/-! ### Typing and editing (R72 to R80) -/

/-- R74, R75, R77, R78: an edit of a field: its new content, and its mark set. -/
def Station.editField (t : Station) (f : Field) (content : List Byte) : Station :=
  t.withFront ((t.front.setContent f content).setMark f.tag true)

/-- R72, R77, R78: a key that acts on the field holding the cursor; outside every OPEN-ENTRY field it locks
PROTECTED. -/
def Station.atEntryField (t : Station) (act : Field → Station) : Station :=
  match t.front.fieldAt t.front.cursor with
  | none => t.enterLocked .guarded none
  | some f => if f.isOpen then act f else t.enterLocked .guarded none

/-- R74: the character replaces the one at position k of the content. -/
def overwriteAt (content : List Byte) (k : Nat) (ch : Byte) : List Byte := content.set k ch

/-- R75: the characters from position k to the second-last move one to the right, the last is lost, and the character
goes to position k. -/
def insertAt (content : List Byte) (k : Nat) (ch : Byte) : List Byte :=
  (content.take k ++ ch :: content.drop k).take content.length

/-- R77: the character at position k is removed; the rest moves left and the last becomes blank. -/
def deleteAt (content : List Byte) (k : Nat) : List Byte := content.take k ++ content.drop (k + 1) ++ [blank]

/-- R78: the characters from position k on become blanks. -/
def eraseFrom (content : List Byte) (k : Nat) : List Byte :=
  content.take k ++ List.replicate (content.length - k) blank

/-- R76: where the cursor advances to after a character has been placed in a field. -/
def Page.advance (p : Page) (f : Field) : Nat :=
  if p.cursor + 1 < f.start + f.len then p.cursor + 1
  else if f.autoskip then p.nextOpen f.start
  else shifted p.cursor 1

/-- R72 to R76: a printable character at a field: class test, NO-ROOM test, placing, advance. -/
def Station.typeChar (t : Station) (ch : Byte) (f : Field) : Station :=
  let c := raisedFor f.cls ch
  let content := t.front.content f
  let k := t.front.cursor - f.start
  if !accepts f.cls c then t.enterLocked .wrongChar none
  else if t.engine.insert && content.getLastD blank != blank then t.enterLocked .noRoom none
  else
    let t' := t.editField f (if t.engine.insert then insertAt content k c else overwriteAt content k c)
    t'.keyMove (t'.front.advance f)

/-- R72: a printable character key. -/
def Station.keyChar (t : Station) (ch : Byte) : Station := t.atEntryField (t.typeChar ch)

/-- KEY_PRINTABLE (R72): the printable character in hand. -/
def execKeyPrintable (i : StationNo) (s : State) : Host.Outcome State Fault Refusal :=
  match (s.st i).keyInHand with
  | some (.printable ch) => .next (s.treat i (.printable ch) fun t => t.keyChar ch)
  | _ => .next s

/-- KEY_DELETE (R77). -/
def execKeyDelete (i : StationNo) (s : State) : Host.Outcome State Fault Refusal :=
  .next (s.treat i .delete fun t => t.atEntryField fun f =>
    t.editField f (deleteAt (t.front.content f) (t.front.cursor - f.start)))

/-- KEY_ERASE_EOF (R78). -/
def execKeyEraseEof (i : StationNo) (s : State) : Host.Outcome State Fault Refusal :=
  .next (s.treat i .eraseEof fun t => t.atEntryField fun f =>
    t.editField f (eraseFrom (t.front.content f) (t.front.cursor - f.start)))

/-- KEY_ERASE_INPUT (R79). -/
def execKeyEraseInput (i : StationNo) (s : State) : Host.Outcome State Fault Refusal :=
  .next (s.treat i .eraseInput fun t => t.blankOpenFront.moveCursor t.front.home)

/-- R80: a change of the insert flag sets indicator-pending. -/
def Station.setInsert (t : Station) (on : Bool) : Station :=
  if t.engine.insert = on then t else { t with engine.insert := on, display.indicatorPending := true }

/-- KEY_INSERT (R80): toggles the insert flag. -/
def execKeyInsert (i : StationNo) (s : State) : Host.Outcome State Fault Refusal :=
  .next (s.treat i .insert fun t => t.setInsert (!t.engine.insert))

/-- R56, R80: RESET opens a LOCKED keyboard, and in either state clears the insert flag. -/
def Station.keyReset (t : Station) : Station := t.openKeyboard.setInsert false

/-- KEY_RESET (R56, R80): the RESET in hand, taken in OPEN or in LOCKED. -/
def execKeyReset (i : StationNo) (s : State) : Host.Outcome State Fault Refusal :=
  let t := s.st i
  if t.engine.taken = some (.key .reset) ∧ t.grant.holder = some .engine ∧ t.engine.kb ≠ .waiting then
    .next (s.setSt i t.keyReset.finishEvent)
  else .next s

/-! ### Attention keys (R81, R100) -/

/-- R81, R100: an attention key taken in OPEN is handed to the Entry Composer, under the grant the engine holds, which
is released when the record has been committed or the attention held. -/
def State.treatAttention (s : State) (i : StationNo) (k : Key) (kind : Attention) : State :=
  if (s.st i).keyInHand = some k then (s.attention i kind false).modSt i Station.finishEvent else s

/-- KEY_ENTER (R101). -/
def execKeyEnter (i : StationNo) (s : State) : Host.Outcome State Fault Refusal :=
  .next (s.treatAttention i .enter .enter)

/-- KEY_CANCEL (R100). -/
def execKeyCancel (i : StationNo) (s : State) : Host.Outcome State Fault Refusal :=
  .next (s.treatAttention i .cancel .cancel)

/-- KEY_PF (R100): the PF key in hand, with its number. -/
def execKeyPf (i : StationNo) (s : State) : Host.Outcome State Fault Refusal :=
  match (s.st i).keyInHand with
  | some (.pf n) => .next (s.treatAttention i (.pf n) (.pf n))
  | _ => .next s

end Sys2Proof.Machine
end

