-- ==== Sys2Proof/Machine/Queries.lean ====
section
/-! DEFINITION. QUERY (10): the data of each reply, and the reads that clear what they report. -/

namespace Sys2Proof.Machine

/-! ### The data of the replies (11.2, R189 to R193) -/

/-- R189: the lock highlight takes part on FRONT alone. -/
def Station.highlightOf (t : Station) : Role → Option Nat
  | .front => t.highlight
  | .back => none

/-- R189, 11.2: READ-CELLS: 1600 pairs of character and emphasis. -/
def Station.cellsData (t : Station) (role : Role) : List Byte :=
  allCells.flatMap fun k =>
    let c := (t.page role).shown (t.highlightOf role) k
    [c.ch, emphasisByte c.emph]

/-- R190, 11.2: the min and the max of a field; where it has no range, free values (log entry 14). -/
def Field.bounds (f : Field) (free : Nat) : Nat × Nat :=
  match f.range with
  | some r => r
  | none => ((Config.freeWord free).toNat, (Config.freeWord (free + 1)).toNat)

/-- R190, 11.2: the 17 bytes of one record; the flags byte is that of DEF (log entry 16). -/
def Field.record (f : Field) (free : Nat) : List Byte :=
  [byteOf f.tag] ++ beBytes 2 f.start
    ++ [byteOf f.len, defFlags f.protection f.required f.autoskip f.buffering f.range.isSome, classByte f.cls,
        emphasisByte f.emph]
    ++ beBytes 4 (f.bounds free).1 ++ beBytes 4 (f.bounds free).2 ++ [flagByte f.mark, flagByte f.shadow.isSome]

/-- Two free values are used by each record without a range. -/
def Field.freeUsed (f : Field) : Nat := if f.range.isSome then 0 else 2

/-- R190: the records of a Field Table, and the free values used. -/
def recordsData (free : Nat) : List Field → List Byte × Nat
  | [] => ([], free)
  | f :: fs =>
    let rest := recordsData (free + f.freeUsed) fs
    (f.record free ++ rest.1, rest.2)

/-- R190, 11.2: READ-FIELD: length, content, mark, shadow present, and the shadow. -/
def Page.fieldData (p : Page) (f : Field) : List Byte :=
  byteOf f.len :: p.content f ++ [flagByte f.mark, flagByte f.shadow.isSome] ++ f.shadow.getD []

/-- R192, 11.2: the engine's items of READ-STATUS. -/
def Engine.statusData (e : Engine) : List Byte :=
  [keyboardByte e.kb, lockByte e.lockCode, byteOf (e.lockTag.getD 0), flagByte e.insert] ++ beBytes 2 e.queue.length
    ++ [flagByte e.pacing]

/-- R192, 11.2: the test's items. -/
def Lcu.statusData (l : Lcu) : List Byte :=
  testStateBytes l.state ++ [modeByte l.mode, flagByte l.checker.sync] ++ beBytes 4 l.sent ++ beBytes 4 l.compared
    ++ beBytes 3 l.errors ++ [byteOf l.losses]

/-- R192, 11.2: the items the read clears. -/
def Station.countersData (t : Station) : List Byte :=
  beBytes 2 t.engine.overflows ++ beBytes 2 t.engine.lockedDiscards ++ [flagByte t.engine.overflowFlag]
    ++ beBytes 2 t.display.runFaults ++ beBytes 2 t.display.timeouts ++ beBytes 2 t.display.stales
    ++ [flagByte t.display.runFaultFlag]
    ++ beBytes 2 t.port.badFrames ++ beBytes 2 t.port.refusedFrames
    ++ [flagByte t.port.lostSeen, flagByte t.port.backSeen]

/-- R192, 11.2: READ-STATUS of a station. -/
def Station.statusData (t : Station) (isHeld : Bool) : List Byte :=
  t.engine.statusData
    ++ [flagByte isHeld, presenceByte t.monitor.presence, unitByte t.display.unit]
    ++ beBytes 2 t.display.dirty.length ++ [flagByte t.display.run.isSome]
    ++ t.lcu.statusData
    ++ beBytes 2 t.display.runTimeout ++ [flagByte t.engine.soundOnLock] ++ faultBytes t.display.fault
    ++ t.countersData

/-- R194: the read clears the counters and latched flags it reports. -/
def Station.clearCounters (t : Station) : Station :=
  { t with
    engine := { t.engine with overflows := 0, lockedDiscards := 0, overflowFlag := false }
    display := { t.display with runFaults := 0, timeouts := 0, stales := 0, runFaultFlag := false }
    port := { t.port with badFrames := 0, refusedFrames := 0, lostSeen := false, backSeen := false } }

/-- 11.2: a member of the held list. -/
def Held.bytes (h : Held) : List Byte := [stationByte h.station, attentionByte h.kind, flagByte h.byScan]

/-- R193, 11.2: READ-STATUS of the device. -/
def State.deviceData (s : State) : List Byte :=
  identity ++ [pauseByte s.pause] ++ beBytes 2 s.ring.occupancy ++ beBytes 2 s.ring.records.length
    ++ [byteOf s.held.length] ++ s.held.flatMap Held.bytes
    ++ beBytes 2 s.hostBadFrames ++ beBytes 2 s.overruns ++ [flagByte s.overrunFlag]

/-! ### The queries (R188) -/

/-- The QUERY in hand with a leading kind byte. -/
def State.queryInHand (s : State) (kind : Byte) : Option Frame :=
  match s.inHandOf kindQuery with
  | some f => if f.body.head? = some kind then some f else none
  | none => none

/-- R188: a query of a station: decoding, station, grant, read. -/
def State.stationQuery (s : State) (f : Frame) (read : Query → StationNo → State) : State :=
  match decodeQuery f.body with
  | none => s.refuse f .badOrder
  | some q => match stationOf f.station with
    | none => s.refuse f .badStation
    | some i => if s.granted i then read q i else s

/-- R188, step 5: DONE with the result as data; the grant of the station is released with the reply. -/
def State.done (s : State) (f : Frame) (data : List Byte) (i : StationNo) : State := s.answer f .none 0 data (some i)

/-- READ_CELLS (R188, R189). -/
def execReadCells (s : State) : Host.Outcome State Fault Refusal :=
  match s.queryInHand 1 with
  | none => .next s
  | some f => .next (s.stationQuery f fun q i => match q with
    | .readCells role => s.done f ((s.st i).cellsData role) i
    | _ => s)

/-- READ_FIELDS (R188, R190). -/
def execReadFields (s : State) : Host.Outcome State Fault Refusal :=
  match s.queryInHand 2 with
  | none => .next s
  | some f => .next (s.stationQuery f fun q i => match q with
    | .readFields role =>
      let fields := ((s.st i).page role).fields
      let out := recordsData s.freeCount fields
      { s.done f (byteOf fields.length :: out.1) i with freeCount := out.2 }
    | _ => s)

/-- READ_FIELD (R188, R190): NO-SUCH-TAG where the page holds no field with the tag. -/
def execReadField (s : State) : Host.Outcome State Fault Refusal :=
  match s.queryInHand 3 with
  | none => .next s
  | some f => .next (s.stationQuery f fun q i => match q with
    | .readField role tag => match ((s.st i).page role).fieldOf tag with
      | some d => s.done f (((s.st i).page role).fieldData d) i
      | none => s.answer f .noSuchTag 0 [] (some i)
    | _ => s)

/-- READ_MODIFIED (R188, R191): the record an ENTER would compose now. -/
def execReadModified (s : State) : Host.Outcome State Fault Refusal :=
  match s.queryInHand 4 with
  | none => .next s
  | some f => .next (s.stationQuery f fun q i => match q with
    | .readModified role => s.done f (((s.st i).page role).recordBytes i .enter false) i
    | _ => s)

/-- READ_STATUS_STATION (R188, R192, R194): the items of the table, and the clearing. -/
def execReadStatusStation (s : State) : Host.Outcome State Fault Refusal :=
  match s.queryInHand 5 with
  | none => .next s
  | some f =>
    if f.station = deviceItem then .next s
    else .next (s.stationQuery f fun _ i =>
      (s.done f ((s.st i).statusData (s.isHeld i)) i).modSt i Station.clearCounters)

/-- READ_STATUS_DEVICE (R188, R193, R194): no grant. -/
def execReadStatusDevice (s : State) : Host.Outcome State Fault Refusal :=
  match s.queryInHand 5 with
  | none => .next s
  | some f =>
    if f.station = deviceItem then
      match decodeQuery f.body with
      | none => .next (s.refuse f .badOrder)
      | some _ => .next { s.answer f .none 0 s.deviceData none with
          hostBadFrames := 0, overruns := 0, overrunFlag := false }
    else .next s

end Sys2Proof.Machine
end

