-- ==== Sys2Proof/Machine/Requests.lean ====
section
/-! DEFINITION. The other requests: how a request is taken in hand (R176, R178), CONFIGURE (R195, R196), TEST (R159,
R160), STATION-RESET (R197) and device reset. -/

namespace Sys2Proof.Machine

/-! ### Taking a request (R176, R178) -/

/-- R27, R188, R195, R197: the station at whose grant a request is raised; none where it is refused first or uses no
grant. -/
def grantOf (f : Frame) : Option StationNo :=
  if f.kind = kindForm ∨ f.kind = kindConfigure then stationOf f.station
  else if f.kind = kindQuery then (if (decodeQuery f.body).isSome then stationOf f.station else none)
  else if f.kind = kindStationReset then (if f.body = [] then stationOf f.station else none)
  else none

/-- The leading byte of a body is one of the codes from 1 to n. -/
def leads (body : List Byte) (n : Nat) : Bool :=
  match body with
  | b :: _ => 1 ≤ b.toNat && b.toNat ≤ n
  | [] => false

/-- R159, R188: a QUERY or TEST that names none of its kinds or actions is refused as it is taken (log entry 5). -/
def earlyRefusal (f : Frame) : Option Reason :=
  if f.kind = kindQuery then (if leads f.body 5 then none else some .badOrder)
  else if f.kind = kindTest then
    (if leads f.body 3 then none
     else if (stationOf f.station).isNone then some .badStation else some .badOrder)
  else none

/-- R176, R178: a frame is in hand, and the request it needs is raised. -/
def State.beginRequest (s : State) (f : Frame) : State :=
  match earlyRefusal f with
  | some r => s.refuse f r
  | none =>
    let s' := { s with interp := .handling f }
    match grantOf f with
    | some i => s'.raiseInterpreter i
    | none => s'

/-- REQUEST_TAKE (R176): the idle Order Interpreter takes the head frame of the buffer. -/
def execRequestTake (s : State) : Host.Outcome State Fault Refusal :=
  match s.interp, s.buffer with
  | .idle, f :: rest =>
    let s' : State := { s with buffer := rest }
    .next (s'.beginRequest f)
  | _, _ => .next s

/-! ### CONFIGURE (R195, R196) -/

/-- R196: one setting applied at the block that holds it. -/
def Station.applySetting (t : Station) : Setting → Station
  | .route entry sym lead strip cls after =>
    let r : Route := ⟨sym, lead, strip, (classOf cls).getD .text, (afterFillOf after).getD .stay⟩
    { t with routes := t.routes.setIfInBounds entry r }
  | .acceptance order kb accept =>
    { t with acceptance := t.acceptance.setIfInBounds ((order - 1) * 3 + kb.toNat) accept }
  | .runTimeout ms => { t with display := { t.display with runTimeout := ms } }
  | .soundOnLock on => { t with engine := { t.engine with soundOnLock := on } }
  | .fault n kind => { t with display := { t.display with fault := some ⟨n, (faultKindOf kind).getD .check⟩ } }
  | .faultClear => { t with display := { t.display with fault := none } }

/-- R195: the reason a CONFIGURE is refused under its grant. -/
def configureFault (body : List Byte) : Option Reason :=
  match decodeSettings body with
  | none => some .badOrder
  | some xs => checkSettings xs

/-- R195: all the settings in list order, or none. -/
def State.configure (s : State) (f : Frame) (i : StationNo) : State :=
  match configureFault f.body with
  | some r => s.answer f r 0 [] (some i)
  | none =>
    (s.modSt i fun t => ((decodeSettings f.body).getD []).foldl Station.applySetting t).answer f .none 0 [] (some i)

/-- CONFIGURE (R195). -/
def execConfigure (s : State) : Host.Outcome State Fault Refusal :=
  match s.inHandOf kindConfigure with
  | none => .next s
  | some f => match stationOf f.station with
    | none => .next (s.refuse f .badStation)
    | some i => if s.granted i then .next (s.configure f i) else .next s

/-! ### TEST (R159, R160, R163, R169) -/

/-- The TEST in hand with a leading action byte. -/
def State.testInHand (s : State) (action : Byte) : Option Frame :=
  match s.inHandOf kindTest with
  | some f => if f.body.head? = some action then some f else none
  | none => none

/-- R159: the checks in their order; `wants` is whether the action needs a running test. -/
def State.testRequest (s : State) (f : Frame) (wants : Bool) (act : TestAction → StationNo → State) : State :=
  match stationOf f.station with
  | none => s.refuse f .badStation
  | some i => match decodeTest f.body with
    | none => s.refuse f .badOrder
    | some a =>
      if wants && (s.st i).lcu.state != .running then s.refuse f .notInTest
      else if !wants && (s.st i).lcu.state = .running then s.refuse f .inTest
      else act a i

/-- TEST_START (R159, R160). -/
def execTestStart (s : State) : Host.Outcome State Fault Refusal :=
  match s.testInHand 1 with
  | none => .next s
  | some f => .next (s.testRequest f false fun a i => match a with
    | .start mode pattern injection duration =>
      (s.modSt i fun t => t.startTest mode pattern injection duration).answer f .none 0 [] none
    | _ => s)

/-- TEST_STOP (R159, R169): the test ends STOPPED; the reply carries its contents, and TEST-DONE is raised once the
reply is placed. -/
def execTestStop (s : State) : Host.Outcome State Fault Refusal :=
  match s.testInHand 2 with
  | none => .next s
  | some f => .next (s.testRequest f true fun _ i =>
      let e := (s.st i).lcu.contents .stopped
      { s.modSt i (fun t => t.endTest .stopped) with
        interp := .replying ⟨f.kind, f.station, .none, 0, e.bytes⟩ none (some (i, e)) none })

/-- TEST_INJECT (R159, R163): single pending becomes yes. -/
def execTestInject (s : State) : Host.Outcome State Fault Refusal :=
  match s.testInHand 3 with
  | none => .next s
  | some f => .next (s.testRequest f true fun _ i =>
      (s.modSt i fun t => { t with lcu := { t.lcu with single := true } }).answer f .none 0 [] none)

/-! ### STATION-RESET (R197, R198) -/

/-- R85: the engine after a station reset. -/
def Engine.stationReset (e : Engine) : Engine :=
  { e.withQueue [] with kb := .waiting, lockCode := .none, lockTag := none, insert := false, taken := none }

/-- R197, steps 1, 2, 5 and 6: the Form Store (R25), the engine and its waiting request (R85, R22), the bulletin (R49)
and the Display Writer (R141). -/
def Station.resetBlocks (t : Station) : Station :=
  { t with
    front := Page.reset
    back := Page.reset
    grant := t.grant.withdrawEngine
    engine := t.engine.stationReset
    bulletin := []
    display := { t.display.invalidate with fault := none } }

/-- R197, step 4, R170: a running test ends with cause RESET. -/
def Station.resetTest (t : Station) : Station := if t.lcu.state = .running then t.endTest .reset else t

/-- R117: the station's held attention leaves the list; a service at its grant, or the removal of the head, goes on
with the new head. -/
def State.removeHeld (s : State) (i : StationNo) : State :=
  let wasHead := s.held.head?.any fun h => h.station = i
  let s' := { s with held := s.held.filter fun h => h.station != i }
  if s.service = some i then State.startService { s' with service := none }
  else if wasHead then s'.startService
  else s'

/-- R197: the reset of a station; steps 1 to 6 take place under one grant. -/
def State.resetStation (s : State) (i : StationNo) : State :=
  let s' := s.modSt i fun t => t.resetBlocks.resetTest
  State.removeHeld { s' with notices := s'.notices.dropTestDone i } i

/-- STATION_RESET (R197). -/
def execStationReset (s : State) : Host.Outcome State Fault Refusal :=
  match s.inHandOf kindStationReset with
  | none => .next s
  | some f => match stationOf f.station with
    | none => .next (s.refuse f .badStation)
    | some i =>
      if f.body ≠ [] then .next (s.refuse f .badOrder)
      else if s.granted i then .next ((s.resetStation i).answer f .none 0 [] (some i))
      else .next s

/-! ### Device reset -/

/-- DEVICE_RESET (R24, R84, R116, R140, R156, R172, R185, R187): the values after reset; the commands that wait and
the count of free values, which are the model's own, stay. -/
def execDeviceReset (s : State) : Host.Outcome State Fault Refusal :=
  .next { State.reset with pending := s.pending, freeCount := s.freeCount }

end Sys2Proof.Machine
end

