-- ==== Sys2Proof/Machine/Scan.lean ====
section
/-! DEFINITION. Scan routing (04): match, strip, target, length, fill and test, write, after-fill. -/

namespace Sys2Proof.Machine

/-- R89: an enabled entry of the scan's symbology whose prefix the data begins with. -/
def Route.routes (r : Route) (symbology : Nat) (data : List Byte) : Bool :=
  r.symbology != 0 && r.symbology = symbology && r.lead.isPrefixOf data

/-- R89: the first matching entry, 0 to 7 in that order. -/
def Station.routeOf (t : Station) (symbology : Nat) (data : List Byte) : Option Route :=
  t.routes.toList.find? fun r => r.routes symbology data

/-- R91: the field holding the cursor, if it is OPEN-ENTRY and of the class; else the first OPEN-ENTRY field of the
class, in form order, whose value text is empty. -/
def Page.scanTarget (p : Page) (cls : FieldClass) : Option Field :=
  match p.openFields.find? fun f => f.covers p.cursor && f.cls = cls with
  | some f => some f
  | none => p.openFields.find? fun f => f.cls = cls && p.valueOf f = []

/-- R93, R94: every character of the fill passes the class, and its value text the exit rule. -/
def fillPasses (f : Field) (fill : List Byte) : Bool :=
  fill.all (accepts f.cls) && exitRule f (valueText fill)

/-- R95: the fill is written and the mark set. -/
def Station.fillField (t : Station) (f : Field) (fill : List Byte) : Station :=
  t.withFront ((t.front.setContent f fill).setMark f.tag true)

/-- R95 to R97: the fill is written, and the after-fill action follows. -/
def State.fillAndAct (s : State) (i : StationNo) (f : Field) (fill : List Byte) (after : AfterFill) : State :=
  let s' := s.modSt i fun t => t.fillField f fill
  match after with
  | .nextField => s'.modSt i fun t => t.moveCursor (t.front.nextOpen f.start)
  | .stay => s'.modSt i fun t => t.moveCursor f.start
  | .send => s'.attention i .enter true

/-- R86: the steps of routing; the first that meets a lock cause ends it. -/
def State.routeScan (s : State) (i : StationNo) (symbology : Nat) (data : List Byte) : State :=
  let t := s.st i
  match t.routeOf symbology data with
  | none => s.setSt i (t.enterLocked .scanUnrouted none)
  | some r =>
    let stripped := data.drop r.strip
    match t.front.scanTarget r.cls with
    | none => s.setSt i (t.enterLocked .scanNoField none)
    | some f =>
      let fill := stripped.map (raisedFor f.cls)
      if stripped.length > f.len then s.setSt i (t.enterLocked .scanTooLong none)
      else if !fillPasses f fill then s.setSt i (t.enterLocked .badEntry (some f.tag))
      else s.fillAndAct i f fill r.after

/-- SCAN (R86): the scan in hand, taken in OPEN. -/
def execScan (i : StationNo) (s : State) : Host.Outcome State Fault Refusal :=
  let t := s.st i
  match t.engine.taken with
  | some (.scan symbology data) =>
    if t.engine.kb = .opened ∧ t.grant.holder = some .engine then
      .next ((s.routeScan i symbology data).modSt i Station.finishEvent)
    else .next s
  | _ => .next s

end Sys2Proof.Machine
end

