-- ==== Sys2Proof/Machine/Dispatch.lean ====
section
/-! DEFINITION. The meaning of every command: one arm for each constructor. -/

namespace Sys2Proof.Machine

def exec (i : Instr) (s : State) : Host.Outcome State Fault Refusal :=
  match i with
  | .deviceReset => Sys2Proof.Machine.execDeviceReset s
  -- the host line, inbound
  | .hostRequestFrameComplete kind item body => Sys2Proof.Machine.execHostRequestFrameComplete kind item body s
  | .hostBadFrame bytes => Sys2Proof.Machine.execHostBadFrame bytes s
  | .pause item body => Sys2Proof.Machine.execPause item body s
  | .go item body => Sys2Proof.Machine.execGo item body s
  -- the Order Interpreter
  | .requestTake => Sys2Proof.Machine.execRequestTake s
  | .form => Sys2Proof.Machine.execForm s
  | .readCells => Sys2Proof.Machine.execReadCells s
  | .readFields => Sys2Proof.Machine.execReadFields s
  | .readField => Sys2Proof.Machine.execReadField s
  | .readModified => Sys2Proof.Machine.execReadModified s
  | .readStatusStation => Sys2Proof.Machine.execReadStatusStation s
  | .readStatusDevice => Sys2Proof.Machine.execReadStatusDevice s
  | .configure => Sys2Proof.Machine.execConfigure s
  | .stationReset => Sys2Proof.Machine.execStationReset s
  | .unknownKind => Sys2Proof.Machine.execUnknownKind s
  | .testStart => Sys2Proof.Machine.execTestStart s
  | .testStop => Sys2Proof.Machine.execTestStop s
  | .testInject => Sys2Proof.Machine.execTestInject s
  | .placeReply => Sys2Proof.Machine.execPlaceReply s
  -- the transmitter and the ring
  | .txReplyStart => Sys2Proof.Machine.execTxReplyStart s
  | .txNoticeStart => Sys2Proof.Machine.execTxNoticeStart s
  | .txEntryStart => Sys2Proof.Machine.execTxEntryStart s
  | .txFrameEnd => Sys2Proof.Machine.execTxFrameEnd s
  | .recordDeparture => Sys2Proof.Machine.execRecordDeparture s
  | .heldComposition => Sys2Proof.Machine.execHeldComposition s
  -- the Keystroke Engine
  | .eventTaken st => Sys2Proof.Machine.execEventTaken st s
  | .keyPrintable st => Sys2Proof.Machine.execKeyPrintable st s
  | .keyDelete st => Sys2Proof.Machine.execKeyDelete st s
  | .keyEraseEof st => Sys2Proof.Machine.execKeyEraseEof st s
  | .keyEraseInput st => Sys2Proof.Machine.execKeyEraseInput st s
  | .keyInsert st => Sys2Proof.Machine.execKeyInsert st s
  | .keyReset st => Sys2Proof.Machine.execKeyReset st s
  | .keyRight st => Sys2Proof.Machine.execKeyRight st s
  | .keyLeft st => Sys2Proof.Machine.execKeyLeft st s
  | .keyUp st => Sys2Proof.Machine.execKeyUp st s
  | .keyDown st => Sys2Proof.Machine.execKeyDown st s
  | .keyTab st => Sys2Proof.Machine.execKeyTab st s
  | .keyBacktab st => Sys2Proof.Machine.execKeyBacktab st s
  | .keyHome st => Sys2Proof.Machine.execKeyHome st s
  | .keyNewline st => Sys2Proof.Machine.execKeyNewline st s
  | .keyEnter st => Sys2Proof.Machine.execKeyEnter st s
  | .keyCancel st => Sys2Proof.Machine.execKeyCancel st s
  | .keyPf st => Sys2Proof.Machine.execKeyPf st s
  | .scan st => Sys2Proof.Machine.execScan st s
  -- the station lines, upstream
  | .keyFrameDelivery st item code => Sys2Proof.Machine.execKeyFrameDelivery st item code s
  | .scanFrameDelivery st item symbology data => Sys2Proof.Machine.execScanFrameDelivery st item symbology data s
  | .unitReady st item => Sys2Proof.Machine.execUnitReady st item s
  | .unitHold st item => Sys2Proof.Machine.execUnitHold st item s
  | .unitResync st item => Sys2Proof.Machine.execUnitResync st item s
  | .unitRunOk st item number => Sys2Proof.Machine.execUnitRunOk st item number s
  | .unitRunBad st item => Sys2Proof.Machine.execUnitRunBad st item s
  | .upstreamIdle st item => Sys2Proof.Machine.execUpstreamIdle st item s
  | .upstreamRefusedFrame st item kind body => Sys2Proof.Machine.execUpstreamRefusedFrame st item kind body s
  | .upstreamBadFrame st bytes => Sys2Proof.Machine.execUpstreamBadFrame st bytes s
  -- the station lines, downstream
  | .paceFrame st => Sys2Proof.Machine.execPaceFrame st s
  | .soundFrame st => Sys2Proof.Machine.execSoundFrame st s
  | .indicatorFrame st => Sys2Proof.Machine.execIndicatorFrame st s
  | .runFrameStart st => Sys2Proof.Machine.execRunFrameStart st s
  | .cursorFrame st => Sys2Proof.Machine.execCursorFrame st s
  | .downstreamFrameEnd st => Sys2Proof.Machine.execDownstreamFrameEnd st s
  | .idleMarkSend st => Sys2Proof.Machine.execIdleMarkSend st s
  | .runTimeout st => Sys2Proof.Machine.execRunTimeout st s
  -- the Presence Monitor
  | .intervalClose st => Sys2Proof.Machine.execIntervalClose st s
  | .windowEnd st => Sys2Proof.Machine.execWindowEnd st s
  -- the Line Check Unit
  | .testBytePlaced st => Sys2Proof.Machine.execTestBytePlaced st s
  | .testUpstreamByte st byte => Sys2Proof.Machine.execTestUpstreamByte st byte s
  | .testReturnByte st byte => Sys2Proof.Machine.execTestReturnByte st byte s
  | .testExpiry st => Sys2Proof.Machine.execTestExpiry st s

end Sys2Proof.Machine
end

