-- ==== Sys2Proof/Safety.lean ====
section
/-! DEFINITION. The laws of the device as predicates over the state: the words the statements use. Each is what the
manual calls a law, or the range the manual gives an item. -/

namespace Sys2Proof.Machine

/-- A property that every step keeps. -/
def KeptByStep (inv : State → Prop) : Prop := ∀ s s', inv s → step s = .next s' → inv s'

/-! ### The Keystroke Engine (03) -/

/-- R54: LOCKED exactly when the lock code is not NONE, with a tag exactly for BAD-ENTRY and REQUIRED. R57: at most 32
events, and the pacing flag set exactly while the queue holds 16 or more. -/
def Engine.Lawful (e : Engine) : Prop :=
  (e.kb = .locked ↔ e.lockCode ≠ .none) ∧ (e.lockTag.isSome ↔ e.lockCode = .badEntry ∨ e.lockCode = .required)
    ∧ e.queue.length ≤ 32 ∧ e.pacing = decide (16 ≤ e.queue.length)

/-- The engine law at every station. -/
def State.EngineLaw (s : State) : Prop := ∀ i, (s.st i).engine.Lawful

/-! ### The Form Grant (01) -/

/-- R21: a grant that nobody holds has nobody waiting. -/
def Grant.Lawful (g : Grant) : Prop := g.holder = none → g.interpreterWaits = false ∧ g.engineWaits = false

/-- The grant law at every station. -/
def State.GrantLaw (s : State) : Prop := ∀ i, (s.st i).grant.Lawful

/-! ### The Form Store (01) -/

/-- R7, R8: a field record as DEF admits it. -/
def Field.Lawful (f : Field) : Prop :=
  1 ≤ f.tag ∧ f.tag ≤ 250 ∧ 1 ≤ f.len ∧ f.len ≤ 80 ∧ f.start < 1600 ∧ f.start % 80 + f.len ≤ 80
    ∧ (f.required = true → f.protection = .openEntry)
    ∧ (∀ lo hi, f.range = some (lo, hi) → f.cls = .qty ∧ lo ≤ hi ∧ hi ≤ 999999999)
    ∧ (f.cls = .qty → f.len ≤ 9) ∧ (f.cls = .bin → 7 ≤ f.len) ∧ (f.cls = .item → 2 ≤ f.len)

/-- R6: at most 48 fields, in the order of their starts, no two sharing a tag or a cell, each within one row. -/
def Page.Lawful (p : Page) : Prop :=
  p.fields.length ≤ 48 ∧ p.fields.Pairwise (fun f g => f.start + f.len ≤ g.start) ∧ (p.fields.map Field.tag).Nodup
    ∧ ∀ f ∈ p.fields, f.Lawful

/-- R16: a page cursor is a cell index; the cells are held in their one canonical form. -/
def Page.InForm (p : Page) : Prop :=
  p.cursor < 1600 ∧ Sparse.Wf Cell.blank p.cells

/-- R12: a field has a pending shadow only while its buffering is SHADOWED, its page is FRONT and it is in hand; the
shadow has exactly the field's length. -/
def Station.ShadowLawful (t : Station) : Prop :=
  (∀ f ∈ t.front.fields, ∀ text, f.shadow = some text →
      f.buffering = .shadowed ∧ t.front.inHand f = true ∧ text.length = f.len)
    ∧ ∀ f ∈ t.back.fields, f.shadow = none

/-- The laws of a station's Form Store. -/
def Station.FormLawful (t : Station) : Prop :=
  t.front.Lawful ∧ t.back.Lawful ∧ t.front.InForm ∧ t.back.InForm ∧ t.ShadowLawful

/-- The laws of the Form Store at every station. -/
def State.FormLaw (s : State) : Prop := ∀ i, (s.st i).FormLawful

/-! ### The Display Writer (06) -/

/-- R119: the dirty set holds cell indexes, ascending, each at most once. -/
def Display.DirtyLawful (d : Display) : Prop := d.dirty.Pairwise (· < ·) ∧ ∀ k ∈ d.dirty, k < 1600

/-- The order of the dirty set at every station. -/
def State.DirtyLaw (s : State) : Prop := ∀ i, (s.st i).display.DirtyLawful

/-- R126: no run is in flight while the station is ABSENT or in a line test. -/
def Station.RunLawful (t : Station) : Prop :=
  t.display.run.isSome → t.monitor.presence = .present ∧ t.lcu.state ≠ .running

/-- R149, R155: the line is taken, and the monitor suspended, exactly while a test runs. -/
def Station.TestLawful (t : Station) : Prop :=
  (t.port.takenByTest = true ↔ t.lcu.state = .running) ∧ (t.monitor.suspended = true ↔ t.lcu.state = .running)

/-- The run law and the test law at every station. -/
def State.LineLaw (s : State) : Prop := ∀ i, (s.st i).RunLawful ∧ (s.st i).TestLawful

/-- R119: a FRONT cell waits in the dirty set, or is in the run in flight, which carries it as it now appears, or no
run carries it and it appears as it was last confirmed. -/
def Station.CellCovered (t : Station) (k : Nat) : Prop :=
  k ∈ t.display.dirty
    ∨ (∃ r, t.display.run = some r ∧ r.covers k = true ∧ r.cells[k - r.first]? = some (t.shown k))
    ∨ ((∀ r, t.display.run = some r → r.covers k = false)
        ∧ Sparse.read none k t.display.confirmed = some (t.shown k))

/-- R119, the law of the device, at every FRONT cell of every station. -/
def State.DisplayLaw (s : State) : Prop := ∀ i k, k < 1600 → (s.st i).CellCovered k

/-! ### The Inbound Ring and the held list (05) -/

/-- R109: occupancy equals the total size of the records and never exceeds 8192 bytes; the write offset stands that
far behind the read offset; the bytes are held in their one canonical form. -/
def Ring.Lawful (r : Ring) : Prop :=
  r.occupancy = (r.records.map RecordEntry.size).sum ∧ r.occupancy ≤ 8192 ∧ r.readOff < 8192
    ∧ r.writeOff = (r.readOff + r.occupancy) % 8192 ∧ Sparse.Wf 0 r.store

/-- The ring law. -/
def State.RingLaw (s : State) : Prop := s.ring.Lawful

/-- R112: a station has at most one held attention, and a station with one is WAITING. R114: a service in progress is
that of the head of the list. -/
def State.HeldLaw (s : State) : Prop :=
  (s.held.map Held.station).Nodup ∧ (∀ h ∈ s.held, (s.st h.station).engine.kb = .waiting)
    ∧ ∀ i, s.service = some i → s.held.head?.map Held.station = some i

/-! ### The Host Line Port (09) -/

/-- R176: at most two frames wait. -/
def State.BufferLaw (s : State) : Prop := s.buffer.length ≤ 2

/-! ### Widths (R52, R118, R142, R151, R158, R173, R183) -/

/-- R52, R118, R142, R158: the counters of a station stay within their widths, and the run number within 0 to 15. -/
def Station.CountersLawful (t : Station) : Prop :=
  t.engine.overflows ≤ 65535 ∧ t.engine.lockedDiscards ≤ 65535
    ∧ t.display.runFaults ≤ 65535 ∧ t.display.timeouts ≤ 65535 ∧ t.display.stales ≤ 65535 ∧ t.display.runNumber ≤ 15
    ∧ t.port.badFrames ≤ 65535 ∧ t.port.refusedFrames ≤ 65535
    ∧ t.lcu.sent ≤ 4294967295 ∧ t.lcu.compared ≤ 4294967295 ∧ t.lcu.errors ≤ 16777215 ∧ t.lcu.losses ≤ 255

/-- R151: the counts of a window stay within the intervals it has had, of which it has at most 64 (log entry 10). -/
def Monitor.CountsLawful (m : Monitor) : Prop :=
  m.position ≤ 64 ∧ m.liveCount ≤ m.position ∧ m.deadRun ≤ m.position

/-- R183: the counts of pending notices stay within their widths. -/
def Notices.CountsLawful (n : Notices) : Prop :=
  ∀ i, (∀ p c, n.stationChange.get i = some (p, c) → c ≤ 255) ∧ ∀ c, n.overflow.get i = some c → c ≤ 65535

/-- R173: the counters of the Host Line Port stay within their width; R176: at most two frames wait. -/
def State.CountersLaw (s : State) : Prop :=
  (∀ i, (s.st i).CountersLawful ∧ (s.st i).monitor.CountsLawful) ∧ s.notices.CountsLawful
    ∧ s.hostBadFrames ≤ 65535 ∧ s.overruns ≤ 65535 ∧ s.buffer.length ≤ 2

/-! ### Words for the statements about single commands -/

/-- R60, R61: the engine holds the grant with an event in hand that it took in OPEN. -/
def State.Treating (s : State) (i : StationNo) (e : Event) : Prop :=
  (s.st i).engine.kb = .opened ∧ (s.st i).engine.taken = some e ∧ (s.st i).grant.holder = some .engine

/-- R27, R188, R195, R197: the request in hand names the station, and the Order Interpreter holds its grant. -/
def State.UnderGrant (s : State) (f : Frame) (i : StationNo) : Prop :=
  s.interp = .handling f ∧ stationOf f.station = some i ∧ (s.st i).grant.holder = some .interpreter

/-- R67: a key-driven move to an index leaves a marked OPEN-ENTRY field that fails its exit rule. -/
def Station.ExitFails (t : Station) (dest : Nat) (f : Field) : Prop :=
  t.front.fieldAt t.front.cursor = some f ∧ f.covers dest = false ∧ f.protection = .openEntry ∧ f.mark = true
    ∧ exitRule f (t.front.valueOf f) = false

/-- R143: the port after the start byte of a new frame: a fragment in reception is discarded and counted as bad. -/
def Port.fragmentDropped (p : Port) : Port :=
  if p.rx = .hunting then p else { p with rx := .hunting, badFrames := min 65535 (p.badFrames + 1) }

/-- R143, R145, R151: the station after a valid upstream frame: a fragment before it is discarded, and the interval is
live unless the monitor is suspended or awaits its fresh window (R155). -/
def Station.heard (t : Station) : Station :=
  { t with
    port := t.port.fragmentDropped
    monitor := if t.monitor.suspended ∨ t.monitor.awaiting then t.monitor else { t.monitor with live := true } }

/-- R174: the host line after the start byte of a new frame: a fragment in reception is discarded and counted. -/
def State.fragmentDropped (s : State) : State :=
  if s.hostRx = .hunting then s else { s with hostRx := .hunting, hostBadFrames := min 65535 (s.hostBadFrames + 1) }

/-- R32, R33: the working view after the orders of a FORM message that starts at a station. -/
def FormView.after (t : Station) (role : Role) (orders : List Order) : FormView :=
  orders.foldl (fun v o => v.apply role o) (FormView.start t)

/-- 11.3: the body of a FORM message. -/
def formBody (role : Role) (count : Nat) (orders : List Order) : List Byte :=
  [roleByte role, byteOf count] ++ orders.flatMap encodeOrder

/-- R32: every order of a list passes its tests against the view that the orders before it leave. -/
def OrdersPass (t : Station) (role : Role) (orders : List Order) : Prop :=
  ∀ k o, orders[k]? = some o →
    o.encodable = true ∧ orderFault t role (FormView.after t role (orders.take k)) o = none

/-- R29: a FLIP or a RELEASE. -/
def Order.opensForm : Order → Bool
  | .flip | .release => true
  | _ => false

/-! ### Words for fields and attentions -/

/-- The first of a page's fields, in form order, that has a property. -/
def FirstField (fields : List Field) (hit : Field → Prop) (f : Field) : Prop :=
  ∃ before after, fields = before ++ f :: after ∧ hit f ∧ ∀ g ∈ before, ¬ hit g

/-- The last of a page's fields, in form order, that has a property. -/
def LastField (fields : List Field) (hit : Field → Prop) (f : Field) : Prop :=
  ∃ before after, fields = before ++ f :: after ∧ hit f ∧ ∀ g ∈ after, ¬ hit g

/-- R101: a marked OPEN-ENTRY field that fails its exit rule. -/
def Page.BadAtEnter (p : Page) (f : Field) : Prop :=
  f.protection = .openEntry ∧ f.mark = true ∧ exitRule f (p.valueOf f) = false

/-- R102: a required field with empty value text. -/
def Page.EmptyAtEnter (p : Page) (f : Field) : Prop := f.required = true ∧ p.valueOf f = []

/-- R101, R102: an attention passes its validation; every kind but ENTER has none. -/
def Page.PassesEnter (p : Page) (kind : Attention) : Prop :=
  kind = .enter → ∀ f ∈ p.fields, ¬ p.BadAtEnter f ∧ ¬ p.EmptyAtEnter f

/-- R108, steps 4 and 5: every FRONT mark cleared, then every pending shadow promoted. -/
def Station.marksGiven (t : Station) : Station :=
  Station.promote { t with front := { t.front with fields := t.front.fields.map fun f => { f with mark := false } } }
    fun _ => true

/-- R100 to R112: what becomes of an attention under the grant the engine holds, before the event completes: it is
refused with a lock at the first failing field, committed at once, or held. -/
def State.AttentionLeaves (s : State) (i : StationNo) (kind : Attention) (byScan : Bool) (s' : State) : Prop :=
  let t := s.st i
  let accepted : Station := { t with
    engine := { t.engine with kb := .waiting, insert := false }
    display := { t.display with indicatorPending := true } }
  let bytes := t.front.recordBytes i kind byScan
  (∀ f, kind = .enter → FirstField t.front.fields t.front.BadAtEnter f → s' = s.setSt i (t.lockAtField .badEntry f))
    ∧ (∀ f, kind = .enter → (∀ g ∈ t.front.fields, ¬ t.front.BadAtEnter g) →
      FirstField t.front.fields t.front.EmptyAtEnter f → s' = s.setSt i (t.lockAtField .required f))
    ∧ (t.front.PassesEnter kind → s.held = [] → bytes.length ≤ 8192 - s.ring.occupancy →
      s' = { s.setSt i accepted.marksGiven with
        ring := s.ring.append i bytes
        notices := if s.ring.occupancy < 4096 ∧ 4096 ≤ s.ring.occupancy + bytes.length
          then s.notices.raiseRingHalf (s.ring.occupancy + bytes.length) else s.notices })
    ∧ (t.front.PassesEnter kind → (s.held ≠ [] ∨ 8192 - s.ring.occupancy < bytes.length) →
      s' = { s.setSt i accepted with
        held := s.held ++ [⟨i, kind, byScan⟩]
        notices := if s.held = [] then s.notices.raiseEntryHeld i else s.notices })

/-! ### Encodings of requests (11.2) -/

/-- 11.2: a pattern of a START. -/
def patternBytes : Pattern → List Byte
  | .count => [0]
  | .repeated bytes => [1, byteOf bytes.length] ++ bytes

/-- 11.2: an injection of a START. -/
def injectionBytes : Injection → List Byte
  | .none => [0]
  | .single => [1]
  | .rate n => [2, byteOf n]

/-- 11.2: the body of a TEST START. -/
def startBody (mode : TestMode) (pattern : Pattern) (injection : Injection) (duration : Nat) : List Byte :=
  [1, modeByte mode] ++ patternBytes pattern ++ injectionBytes injection ++ beBytes 2 duration

/-- R160: the parameters of a START are within their ranges. -/
def StartInRange (pattern : Pattern) (injection : Injection) (duration : Nat) : Prop :=
  (∀ bytes, pattern = .repeated bytes → 1 ≤ bytes.length ∧ bytes.length ≤ 16)
    ∧ (∀ n, injection = .rate n → 1 ≤ n ∧ n ≤ 4) ∧ duration < 65536

/-- 11.2: a setting of a CONFIGURE. -/
def settingBytes : Setting → List Byte
  | .route entry sym lead strip cls after =>
    [1, byteOf entry, byteOf sym, byteOf lead.length] ++ lead ++ [byteOf strip, cls, after]
  | .acceptance order kb accept => [2, byteOf order, kb, if accept then 0 else 1]
  | .runTimeout ms => [3, byteOf ms]
  | .soundOnLock on => [4, flagByte on]
  | .fault n kind => [5, byteOf n, kind]
  | .faultClear => [6]

/-- What the encoding of a setting can carry. -/
def Setting.Encodable : Setting → Prop
  | .route entry sym lead strip _ _ => entry < 256 ∧ sym < 256 ∧ lead.length < 256 ∧ strip < 256
  | .acceptance order _ _ => order < 256
  | .runTimeout ms => ms < 256
  | .fault n _ => n < 256
  | .soundOnLock _ | .faultClear => True

/-! ### Notices (R184) -/

/-- R184: the place of a notice in the sending order: by kind, and within a kind by station. -/
def Notice.place : Notice → Nat
  | .restarted => 0
  | .stationChange i _ _ => 1 + i.val
  | .overflow i _ => 5 + i.val
  | .testDone i _ => 9 + i.val
  | .ringHalf _ => 13
  | .entryHeld _ => 14

/-- R183: a notice is pending. -/
def Notices.Pending (n : Notices) : Notice → Prop
  | .restarted => n.restarted = true
  | .stationChange i p c => n.stationChange.get i = some (p, c)
  | .overflow i c => n.overflow.get i = some c
  | .testDone i e => n.testDone.get i = some e
  | .ringHalf o => n.ringHalf = some o
  | .entryHeld i => n.entryHeld = some i

/-! ### The Display Writer's choice (R120 to R123) -/

/-- R120: the line is at a frame boundary, the station PRESENT, and no test runs. -/
def Station.AtBoundary (t : Station) : Prop :=
  t.port.onLine = none ∧ t.monitor.presence = .present ∧ t.lcu.state ≠ .running

/-- R134: the unit has been told the pacing flag as it stands. -/
def Station.PaceIsTold (t : Station) : Prop := t.display.paceTold = if t.engine.pacing then .pace else .unpace

/-- R122: the first cell of the next run. -/
def Display.RunStartsAt (d : Display) (first : Nat) : Prop :=
  first ∈ d.dirty ∧
    match d.lastWritten with
    | none => ∀ j ∈ d.dirty, first ≤ j
    | some w =>
      ((w + 1) % 1600 ≤ first ∧ ∀ j ∈ d.dirty, (w + 1) % 1600 ≤ j → first ≤ j)
        ∨ ((∀ j ∈ d.dirty, j < (w + 1) % 1600) ∧ ∀ j ∈ d.dirty, first ≤ j)

/-- R123: two cells lie in one row and one column group. -/
def SameGroup (j k : Nat) : Prop := j / 80 = k / 80 ∧ j % 80 / 16 = k % 80 / 16

/-- R123: how many cells the run has. -/
def Display.RunHolds (d : Display) (first n : Nat) : Prop :=
  1 ≤ n ∧ (∀ k < n, first + k ∈ d.dirty ∧ SameGroup (first + k) first)
    ∧ ¬ (first + n ∈ d.dirty ∧ SameGroup (first + n) first)

/-- The station a command is about, where its row belongs to a block that each station has. -/
def stationOfCommand : Instr → Option StationNo
  | .eventTaken i | .keyPrintable i | .keyDelete i | .keyEraseEof i | .keyEraseInput i | .keyInsert i | .keyReset i
  | .keyRight i | .keyLeft i | .keyUp i | .keyDown i | .keyTab i | .keyBacktab i | .keyHome i | .keyNewline i
  | .keyEnter i | .keyCancel i | .keyPf i | .scan i
  | .keyFrameDelivery i _ _ | .scanFrameDelivery i _ _ _ | .unitReady i _ | .unitHold i _ | .unitResync i _
  | .unitRunOk i _ _ | .unitRunBad i _ | .upstreamIdle i _ | .upstreamRefusedFrame i _ _ _ | .upstreamBadFrame i _
  | .paceFrame i | .soundFrame i | .indicatorFrame i | .runFrameStart i | .cursorFrame i | .downstreamFrameEnd i
  | .idleMarkSend i | .runTimeout i | .intervalClose i | .windowEnd i
  | .testBytePlaced i | .testUpstreamByte i _ | .testReturnByte i _ | .testExpiry i => some i
  | .deviceReset | .hostRequestFrameComplete _ _ _ | .hostBadFrame _ | .pause _ _ | .go _ _
  | .requestTake | .form | .readCells | .readFields | .readField | .readModified | .readStatusStation
  | .readStatusDevice | .configure | .stationReset | .unknownKind | .testStart | .testStop | .testInject | .placeReply
  | .txReplyStart | .txNoticeStart | .txEntryStart | .txFrameEnd | .recordDeparture | .heldComposition => none

end Sys2Proof.Machine
end

