-- ==== Sys2Proof/Certificates/Slice0/Obligations.lean ====
section
/-! DEFINITION. The statements for the provers. Each docstring says in the manual's words what the statement says; a
clause that rests on a choice of the model names its log entry. -/

open Sys2Proof Sys2Proof.Machine

/-! ### The step -/

/-- A step with a command at the front of the queue is that command's effect on the state with the queue's rest. The
queue is the model's own (log entry 1). -/
def Obligations.StepRunsFrontCommand : Prop :=
  ∀ (c : Instr) (rest : List Instr) (s : State), step { s with pending := c :: rest } = exec c { s with pending := rest }

/-- On an empty queue 1 ms passes (log entries 1 and 9): at every station a RUNNING confirmation timer (R118, R129) and
the remaining time of a running test (R168) lose 1 ms, and a downstream line on which no frame stands has been silent
for 1 ms (R142, R148). That the silence time stands still while a frame is on the line is log entry 25; the mark that may
then start in a NEAR test is log entry 24. Nothing else changes. -/
def Obligations.EmptyQueueLetsAMillisecondPass : Prop :=
  ∀ s : State, s.pending = [] → ∃ t, step s = .next t ∧ t = { s with stations := t.stations } ∧
    ∀ i, t.st i =
      { s.st i with
        display := { (s.st i).display with
          run := (s.st i).display.run.map fun r =>
            { r with remaining := if r.timer = .running then r.remaining - 1 else r.remaining } }
        port := { (s.st i).port with
          silence := if (s.st i).port.onLine = none then 1 else (s.st i).port.silence }
        lcu := { (s.st i).lcu with
          remaining := if (s.st i).lcu.state = .running then (s.st i).lcu.remaining.map fun n => n - 1
            else (s.st i).lcu.remaining } }

/-- A command about one station, be it of the Keystroke Engine, the Display Writer, the Station Line Port, the Presence
Monitor or the Line Check Unit (each of them one for each station), changes no other station, no request in hand, and of
the Host Line Port nothing but the Notice Set, which it may raise notices in (R183: STATION-CHANGE, OVERFLOW, TEST-DONE,
RING-HALF, ENTRY-HELD). The ring and the held list, which an attention may change, are not named. -/
def Obligations.StationCommandsStayAtTheirStation : Prop :=
  ∀ (c : Instr) (i : StationNo) (s t : State), stationOfCommand c = some i → exec c s = .next t →
    (∀ j, j ≠ i → t.st j = s.st j) ∧ t.hostRx = s.hostRx ∧ t.buffer = s.buffer ∧ t.pause = s.pause ∧ t.tx = s.tx
      ∧ t.replySlot = s.replySlot ∧ t.hostBadFrames = s.hostBadFrames ∧ t.overruns = s.overruns
      ∧ t.overrunFlag = s.overrunFlag ∧ t.interp = s.interp ∧ t.service = s.service ∧ t.pending = s.pending

/-! ### Device reset -/

/-- R187, R185: the Host Line Port and the Order Interpreter after device reset. -/
def Obligations.DeviceResetHostLine : Prop :=
  ∀ s : State, ∃ t, exec .deviceReset s = .next t ∧ t.hostRx = .hunting ∧ t.buffer = [] ∧ t.interp = .idle
    ∧ t.pause = .running ∧ t.tx = none ∧ t.replySlot = none ∧ t.notices.inOrder = [.restarted]
    ∧ t.hostBadFrames = 0 ∧ t.overruns = 0 ∧ t.overrunFlag = false

/-- R24, R49, R84, R88, R116, R140, R156, R172, R196: the stations, the ring and the held list after device reset, every
value the manual gives. The fields the manual gives no reset value for (log entry 23) are not named, and the commands
that wait (log entry 1) stay. -/
def Obligations.DeviceResetStationsAndRing : Prop :=
  ∀ s : State, ∃ t, exec .deviceReset s = .next t ∧ t.pending = s.pending
    ∧ t.ring.records = [] ∧ t.ring.writeOff = 0 ∧ t.ring.readOff = 0 ∧ t.ring.occupancy = 0 ∧ t.held = []
    ∧ t.service = none
    ∧ ∀ i, ((∀ role, (t.st i).page role = ⟨[], [], 0⟩) ∧ (∀ role k, ((t.st i).page role).cell k = ⟨0x20, .normal⟩)
        ∧ (t.st i).grant = ⟨none, false, false, .interpreter⟩
        ∧ (t.st i).routes = Vector.replicate 8 ⟨0, [], 0, .text, .stay⟩
        ∧ (t.st i).acceptance = Vector.replicate 45 true ∧ (t.st i).bulletin = [])
      ∧ ((t.st i).engine.kb = .waiting ∧ (t.st i).engine.lockCode = .none ∧ (t.st i).engine.lockTag = none
        ∧ (t.st i).engine.insert = false ∧ (t.st i).engine.queue = [] ∧ (t.st i).engine.pacing = false
        ∧ (t.st i).engine.overflows = 0 ∧ (t.st i).engine.lockedDiscards = 0 ∧ (t.st i).engine.overflowFlag = false
        ∧ (t.st i).engine.soundOnLock = false)
      ∧ ((∀ k, k ∈ (t.st i).display.dirty ↔ k < 1600) ∧ (t.st i).display.lastWritten = none
        ∧ (t.st i).display.run = none ∧ (t.st i).display.runNumber = 0 ∧ (t.st i).display.unit = .notReady
        ∧ (t.st i).display.paceTold = .unknown ∧ (t.st i).display.indicatorPending = true
        ∧ (t.st i).display.cursorPending = true ∧ (t.st i).display.soundPending = false
        ∧ (t.st i).display.fault = none ∧ (t.st i).display.runFaults = 0 ∧ (t.st i).display.timeouts = 0
        ∧ (t.st i).display.stales = 0 ∧ (t.st i).display.runFaultFlag = false ∧ (t.st i).display.runTimeout = 50)
      ∧ ((t.st i).port.rx = .hunting ∧ (t.st i).port.badFrames = 0 ∧ (t.st i).port.refusedFrames = 0
        ∧ (t.st i).port.lostSeen = false ∧ (t.st i).port.backSeen = false ∧ (t.st i).port.takenByTest = false
        ∧ (t.st i).port.onLine = none ∧ (t.st i).monitor.presence = .absent ∧ (t.st i).monitor.position = 0
        ∧ (t.st i).monitor.liveCount = 0 ∧ (t.st i).monitor.deadRun = 0 ∧ (t.st i).monitor.longGap = false
        ∧ (t.st i).monitor.suspended = false)
      ∧ ((t.st i).lcu.state = .none ∧ (t.st i).lcu.mode = .near ∧ (t.st i).lcu.pattern = .count
        ∧ (t.st i).lcu.checker.sync = false ∧ (t.st i).lcu.checker.correct = 0
        ∧ (t.st i).lcu.checker.expected = none ∧ (t.st i).lcu.checker.aligned = false
        ∧ (t.st i).lcu.checker.record = [] ∧ (t.st i).lcu.rate = none ∧ (t.st i).lcu.single = false
        ∧ (t.st i).lcu.posCount = 0 ∧ (t.st i).lcu.duration = 0 ∧ (t.st i).lcu.sent = 0 ∧ (t.st i).lcu.compared = 0
        ∧ (t.st i).lcu.errors = 0 ∧ (t.st i).lcu.losses = 0)

/-! ### The laws of the device -/

/-- Every law that the next statements say each step keeps holds in the state right after device reset. -/
def Obligations.LawsHoldAtReset : Prop :=
  State.reset.EngineLaw ∧ State.reset.GrantLaw ∧ State.reset.FormLaw ∧ State.reset.DirtyLaw ∧ State.reset.LineLaw
    ∧ State.reset.DisplayLaw ∧ State.reset.RingLaw ∧ State.reset.HeldLaw ∧ State.reset.CountersLaw

/-- R54, R57, R59: a keyboard is LOCKED exactly when its lock code is not NONE, and its lock record carries a tag exactly
for BAD-ENTRY and REQUIRED; a queue holds at most 32 events and is paced exactly from 16 on. R21: a free grant has
nobody waiting. R119: the dirty set is ascending, without duplicates, within the form. R126: a
station has no run in flight while it is ABSENT or in a line test. R149, R155: its line is taken, and its monitor
suspended, exactly while a test runs. Every step keeps all of this. -/
def Obligations.StationLawsKept : Prop :=
  (KeptByStep State.EngineLaw ∧ KeptByStep State.GrantLaw)
    ∧ (KeptByStep State.DirtyLaw ∧ KeptByStep State.LineLaw)

/-- R52, R118, R139, R142, R158, R167, R173: every counter stays within its width, and at most two frames wait in the
receive buffer (R176). R183: the counts of the pending STATION-CHANGE and OVERFLOW notices stay within 255 and 65535.
R151: a monitor's live count and dead run stay within the intervals its window has had, at most 64 of them (log entry 10
for the 64th). Every step keeps this. -/
def Obligations.CountersStayWithinTheirWidths : Prop := KeptByStep State.CountersLaw

/-- R6, R7, R8, R12, R16: the law of the Form Store (at most 48 fields, no two sharing a tag or a cell, each within a
row and with the attributes DEF admits; a pending shadow only in a SHADOWED FRONT field in hand). Every step keeps it. -/
def Obligations.FormLawKept : Prop := KeptByStep State.FormLaw

/-- R119, the law of the Display Writer: a FRONT cell waits in the dirty set, or is in the run in flight as it now
appears, or appears as last confirmed by RUN-OK. Every step keeps it. -/
def Obligations.DisplayLawKept : Prop := KeptByStep State.DisplayLaw

/-- R109, the law of the ring allocator: occupancy is the total size of the records not yet fully sent and never exceeds
8192, and the offsets agree with it. Every step keeps it. -/
def Obligations.RingLawKept : Prop := KeptByStep State.RingLaw

/-- R112, R114: no station has two held attentions, a station with one is WAITING, and a service in progress is that of
the head of the list. Every step keeps it. -/
def Obligations.HeldLawKept : Prop := KeptByStep State.HeldLaw

/-! ### Framing and encoding -/

/-- 11.1, R143, R174, R199: the bytes of a frame that fits are received as that frame. A fragment in reception before it
is discarded as bad. With any other check the frame is discarded as bad. -/
def Obligations.FramesReceivedWhole : Prop :=
  ∀ (limit : Nat) (f : Frame) (check : Check), f.body.length + 6 ≤ limit → f.body.length ≤ 4000 →
    rxRun limit .hunting f.onLine.bytes = (.hunting, [.good f])
      ∧ (∀ acc esc, rxRun limit (.inFrame acc esc) f.onLine.bytes = (.hunting, [.bad, .good f]))
      ∧ (check ≠ frameCheck f.covered → rxRun limit .hunting (LineFrame.mk f check).bytes = (.hunting, [.bad]))

/-- 11.3, R200: an order laid out as the chapter Frame and Record Formats gives is decoded as that order, with every
operand at every value its encoding admits, and what follows it is left. -/
def Obligations.OrdersDecodeAsEncoded : Prop :=
  ∀ (o : Order) (rest : List Byte), o.encodable = true → decodeOrder (encodeOrder o ++ rest) = some (o, rest)

/-! ### The host line, inbound (R174 to R178) -/

/-- R174, R175: the bytes of a request frame, of any kind but PAUSE and GO, put the frame at the tail of the receive
buffer; at a full buffer it is discarded, counted and latched. A fragment in reception before it is discarded as bad.
Nothing else changes. R175, R177: PAUSE makes the transmit side PAUSED and GO makes it RUNNING, whatever the buffer
holds, the station item or the body. Nothing else changes; a frame that is then due starts by its own command (log
entry 3). -/
def Obligations.CompleteHostFramesAreSorted : Prop :=
  (∀ (s : State) (kind item : Byte) (body : List Byte), kind ≠ 0x46 → kind ≠ 0x47 → body.length ≤ 4000 →
    (s.buffer.length < 2 → exec (.hostRequestFrameComplete kind item body) s
        = .next { s.fragmentDropped with buffer := s.buffer ++ [⟨kind, item, body⟩] })
      ∧ (2 ≤ s.buffer.length → exec (.hostRequestFrameComplete kind item body) s
        = .next { s.fragmentDropped with overruns := min 65535 (s.overruns + 1), overrunFlag := true }))
    ∧ (∀ (s : State) (item : Byte) (body : List Byte), body.length ≤ 4000 →
    exec (.pause item body) s = .next { s.fragmentDropped with pause := .paused }
      ∧ exec (.go item body) s = .next { s.fragmentDropped with pause := .running })

/-- R174: each bad frame, received from HUNTING, is counted once and has no other effect: a wrong check, a length item
that disagrees, fewer than 6 decoded bytes, an escape fault, a 4007th decoded byte. A start byte inside a frame counts
the fragment and opens a new frame; bytes other than a start byte in HUNTING change nothing. -/
def Obligations.BadHostFrameIsCountedOnce : Prop :=
  ∀ s : State, s.hostRx = .hunting →
    (∀ (f : Frame) (check : Check), f.body.length ≤ 4000 → check ≠ frameCheck f.covered →
        exec (.hostBadFrame (LineFrame.mk f check).bytes) s
          = .next { s with hostBadFrames := min 65535 (s.hostBadFrames + 1) })
      ∧ (∀ (kind item : Byte) (n : Nat) (body : List Byte) (check : Check), n < 65536 → body.length ≤ 4000 →
        n ≠ body.length →
        exec (.hostBadFrame (0x02 :: ([kind, item] ++ beBytes 2 n ++ body ++ beBytes 2 check.toNat).flatMap escaped
            ++ [0x03])) s = .next { s with hostBadFrames := min 65535 (s.hostBadFrames + 1) })
      ∧ (∀ bytes : List Byte, bytes.length < 6 → exec (.hostBadFrame (0x02 :: bytes.flatMap escaped ++ [0x03])) s
        = .next { s with hostBadFrames := min 65535 (s.hostBadFrames + 1) })
      ∧ (∀ b : Byte, b ≠ 0x02 → b ≠ 0x22 → b ≠ 0x23 → b ≠ 0x30 →
        exec (.hostBadFrame [0x02, 0x10, b]) s = .next { s with hostBadFrames := min 65535 (s.hostBadFrames + 1) })
      ∧ (∀ bytes : List Byte, bytes.length = 4007 → exec (.hostBadFrame (0x02 :: bytes.flatMap escaped)) s
        = .next { s with hostBadFrames := min 65535 (s.hostBadFrames + 1) })
      ∧ exec (.hostBadFrame [0x02, 0x02]) s
        = .next { s with hostRx := .inFrame [] false, hostBadFrames := min 65535 (s.hostBadFrames + 1) }
      ∧ (∀ bytes : List Byte, (∀ b ∈ bytes, b ≠ 0x02) → exec (.hostBadFrame bytes) s = .next s)

/-- R176, R178, R20: the idle Order Interpreter takes the head frame; its slot is free from then on. A FORM or CONFIGURE
of a station 0 to 3, a decodable QUERY of one and a STATION-RESET of one with an empty body raise the interpreter's
request at that station's grant; every other frame is in hand without a request. A QUERY or TEST that names none of its
kinds or actions is refused as it is taken (log entry 5). Nothing else changes. -/
def Obligations.RequestTakeRaisesItsGrantRequest : Prop :=
  ∀ (s : State) (f : Frame) (rest : List Frame), s.interp = .idle → s.buffer = f :: rest →
    ((∀ i, stationOf f.station = some i →
        (f.kind = 0x41 ∨ f.kind = 0x43 ∨ (f.kind = 0x44 ∧ f.body = [])
          ∨ (f.kind = 0x42 ∧ (decodeQuery f.body).isSome = true)) →
        exec .requestTake s = .next (State.setSt { s with buffer := rest, interp := .handling f } i
          { s.st i with grant := (s.st i).grant.raise .interpreter }))
      ∧ ((f.kind = 0x41 ∨ f.kind = 0x43 ∨ f.kind = 0x44 ∨ (f.kind = 0x42 ∧ (decodeQuery f.body).isSome = true)) →
        stationOf f.station = none →
        exec .requestTake s = .next { s with buffer := rest, interp := .handling f })
      ∧ (f.kind = 0x44 → f.body ≠ [] → exec .requestTake s = .next { s with buffer := rest, interp := .handling f })
      ∧ (f.kind ≠ 0x41 → f.kind ≠ 0x42 → f.kind ≠ 0x43 → f.kind ≠ 0x44 → f.kind ≠ 0x45 →
        exec .requestTake s = .next { s with buffer := rest, interp := .handling f })
      ∧ (f.kind = 0x45 → (∃ a more, f.body = a :: more ∧ 1 ≤ a.toNat ∧ a.toNat ≤ 3) →
        exec .requestTake s = .next { s with buffer := rest, interp := .handling f })
      ∧ (f.kind = 0x42 → (∃ a more, f.body = a :: more ∧ 1 ≤ a.toNat ∧ a.toNat ≤ 5) → decodeQuery f.body = none →
        exec .requestTake s = .next { s with buffer := rest, interp := .handling f })
      ∧ (f.kind = 0x42 → (∀ a more, f.body = a :: more → a.toNat = 0 ∨ 5 < a.toNat) →
        exec .requestTake s
          = .next { s with buffer := rest, interp := .replying ⟨0x42, f.station, .badOrder, 0, []⟩ none none none })
      ∧ (f.kind = 0x45 → (∀ a more, f.body = a :: more → a.toNat = 0 ∨ 3 < a.toNat) →
        exec .requestTake s = .next { s with
          buffer := rest
          interp := .replying ⟨0x45, f.station, if (stationOf f.station).isNone then .badStation else .badOrder, 0, []⟩
            none none none }))

/-- R178: a frame of any kind that is not a request is refused UNKNOWN-KIND, index 0, its body and station not examined,
with no grant to release; nothing else changes. R178, R180, R20, R169, R26: a waiting reply is placed in an empty
Reply Slot; a STOP's TEST-DONE is then raised; the grant, if one is held, is released, and the interpreter is idle. At
a full slot the reply waits and nothing changes. -/
def Obligations.UnknownKindIsRefusedAndReplyPlaced : Prop :=
  (∀ (s : State) (f : Frame), s.interp = .handling f →
    f.kind ≠ 0x41 → f.kind ≠ 0x42 → f.kind ≠ 0x43 → f.kind ≠ 0x44 → f.kind ≠ 0x45 →
    exec .unknownKind s
      = .next { s with interp := .replying ⟨f.kind, f.station, .unknownKind, 0, []⟩ none none none })
    ∧ (∀ (s : State) (r : Reply) (release : Option StationNo) (done : Option (StationNo × TestEnd)) (c : Option Context),
    s.interp = .replying r release done c →
    (s.replySlot = none → ∃ t, exec .placeReply s = .next t
        ∧ t = { s with
            stations := t.stations
            replySlot := some r
            interp := .idle
            notices := match done with
              | some (i, e) => { s.notices with testDone := s.notices.testDone.set i.val (some e) i.isLt }
              | none => s.notices }
        ∧ ∀ j, t.st j = { s.st j with
            grant := if release = some j then (s.st j).grant.release .interpreter else (s.st j).grant })
      ∧ (s.replySlot ≠ none → exec .placeReply s = .next s))

/-! ### The Form Grant (R20 to R22, R60) -/

/-- R21: a request raised at a free grant is granted at once and makes its requester the last holder; raised at a held
grant it waits. A release passes the grant to the one that waits, of two to the one that is not the last holder, and
with none waiting the holder becomes NONE. Two requests at a free grant go to the one that is not the last holder.
R60: when an event's effects are complete the engine has nothing in hand and has released the grant; it raises its
request again at once exactly if events wait and the keyboard is OPEN or LOCKED, and then holds the grant or waits for
it. Nothing else of the station changes. -/
def Obligations.GrantIsHandedOutAndReleased : Prop :=
  (∀ g : Grant,
    (g.holder = none → g.interpreterWaits = false → g.engineWaits = false → ∀ who,
        g.raise who = { g with holder := some who, last := who })
      ∧ (∀ h, g.holder = some h →
        g.raise .interpreter = { g with interpreterWaits := true } ∧ g.raise .engine = { g with engineWaits := true })
      ∧ (∀ who, g.holder = some who →
        g.release who =
          if g.interpreterWaits = true ∧ (g.engineWaits = false ∨ g.last = .engine) then
            { g with holder := some .interpreter, interpreterWaits := false, last := .interpreter }
          else if g.engineWaits = true then
            { g with holder := some .engine, engineWaits := false, last := .engine }
          else { g with holder := none })
      ∧ (g.holder = none → g.interpreterWaits = true → g.engineWaits = true →
        g.pass = if g.last = .engine
          then { g with holder := some .interpreter, interpreterWaits := false, last := .interpreter }
          else { g with holder := some .engine, engineWaits := false, last := .engine })
      ∧ ∀ who, g.holder ≠ some who → g.release who = g)
    ∧ (∀ t : Station, t.grant.holder = some .engine → t.grant.engineWaits = false →
    t.finishEvent = { t with engine := { t.engine with taken := none }, grant := t.finishEvent.grant }
      ∧ (t.grant.interpreterWaits = true → t.finishEvent.grant.holder = some .interpreter)
      ∧ (t.grant.interpreterWaits = false → (t.engine.queue = [] ∨ t.engine.kb = .waiting) →
        t.finishEvent.grant.holder = none)
      ∧ (t.grant.interpreterWaits = false → t.engine.queue ≠ [] → t.engine.kb ≠ .waiting →
        t.finishEvent.grant.holder = some .engine)
      ∧ (t.grant.interpreterWaits = true →
        (t.finishEvent.grant.engineWaits = true ↔ t.engine.queue ≠ [] ∧ t.engine.kb ≠ .waiting)))

/-! ### FORM messages (R26 to R51, R200) -/

/-- R27, R33, R51: a FORM message whose every order passes its tests (and which R29 does not refuse) is DONE: its orders
take effect in index order, a RELEASE at the message's end (R47), and the reply is built. Nothing else changes. -/
def Obligations.FormAppliesAllItsOrders : Prop :=
  ∀ (s : State) (f : Frame) (i : StationNo) (role : Role) (orders : List Order),
    s.UnderGrant f i → f.kind = 0x41 → f.body = formBody role orders.length orders →
    1 ≤ orders.length → orders.length ≤ 128 → OrdersPass (s.st i) role orders →
    (s.isHeld i = true → role = .back ∧ ∀ o ∈ orders, o.opensForm = false) →
    exec .form s = .next { s.setSt i (FormView.after (s.st i) role orders).finish with
      interp := .replying ⟨0x41, f.station, .none, 0, []⟩ (some i) none
        (some (FormView.after (s.st i) role orders).context) }

/-- R27, R32, R200, R51: at a station without a held attention, a FORM message one of whose orders fails (the first that
fails a test, the first that cannot be decoded, or the last with bytes left over) is refused at that order's index and
changes nothing else. R28, R29, R200: the refusals of the whole message: BAD-STATION before any grant; BAD-ORDER,
index 0, for a body below 2 bytes, a role other than 0 or 1, a count of 0 or above 128; while the station has a held
attention, HELD-ENTRY at index 0 for FRONT, and for BACK at the index of the first FLIP or RELEASE, whatever follows it;
BAD-ORDER at the index of an order before it that cannot be decoded, whatever the orders before that one; and a message
for BACK that decodes and holds neither meets the order-by-order check and is refused at the first order that fails.
Nothing else changes. -/
def Obligations.FormIsRefusedWithItsReason : Prop :=
  (∀ (s : State) (f : Frame) (i : StationNo) (role : Role) (count : Nat) (orders : List Order) (more : List Byte),
    s.UnderGrant f i → f.kind = 0x41 → f.body = formBody role count orders ++ more → 1 ≤ count → count ≤ 128 →
    s.isHeld i = false → OrdersPass (s.st i) role orders →
    (∀ o rest r, orders.length < count → more = encodeOrder o ++ rest → o.encodable = true →
        (orders.length + 1 = count → rest = []) →
        orderFault (s.st i) role (FormView.after (s.st i) role orders) o = some r →
        exec .form s = .next { s with
          interp := .replying ⟨0x41, f.station, r, orders.length + 1, []⟩ (some i) none none })
      ∧ (orders.length < count → decodeOrder more = none →
        exec .form s = .next { s with
          interp := .replying ⟨0x41, f.station, .badOrder, orders.length + 1, []⟩ (some i) none none })
      ∧ (∀ o rest, orders.length + 1 = count → more = encodeOrder o ++ rest → o.encodable = true → rest ≠ [] →
        exec .form s = .next { s with
          interp := .replying ⟨0x41, f.station, .badOrder, orders.length + 1, []⟩ (some i) none none }))
    ∧ (∀ (s : State) (f : Frame), s.interp = .handling f → f.kind = 0x41 →
    (stationOf f.station = none →
        exec .form s = .next { s with interp := .replying ⟨0x41, f.station, .badStation, 0, []⟩ none none none })
      ∧ ∀ i, s.UnderGrant f i →
        ((f.body.length < 2 ∨ (∃ r c more, f.body = r :: c :: more ∧ (1 < r.toNat ∨ c.toNat = 0 ∨ 128 < c.toNat)) →
          exec .form s = .next { s with interp := .replying ⟨0x41, f.station, .badOrder, 0, []⟩ (some i) none none })
        ∧ (s.isHeld i = true → ∀ c more, f.body = 0 :: c :: more → 1 ≤ c.toNat → c.toNat ≤ 128 →
          exec .form s = .next { s with interp := .replying ⟨0x41, f.station, .heldEntry, 0, []⟩ (some i) none none })
        ∧ (s.isHeld i = true → ∀ before count more, (∀ p ∈ before, p.encodable = true ∧ p.opensForm = false) →
          before.length < count → count ≤ 128 → f.body = formBody .back count before ++ more →
          (∀ o rest, o.opensForm = true → more = encodeOrder o ++ rest → (before.length + 1 = count → rest = []) →
            exec .form s = .next { s with
              interp := .replying ⟨0x41, f.station, .heldEntry, before.length + 1, []⟩ (some i) none none })
          ∧ ((decodeOrder more = none
              ∨ ∃ o rest, before.length + 1 = count ∧ o.encodable = true ∧ more = encodeOrder o ++ rest ∧ rest ≠ []) →
            exec .form s = .next { s with
              interp := .replying ⟨0x41, f.station, .badOrder, before.length + 1, []⟩ (some i) none none }))
        ∧ (s.isHeld i = true → ∀ before o after r,
          (∀ p ∈ before ++ o :: after, p.encodable = true ∧ p.opensForm = false) →
          (before ++ o :: after).length ≤ 128 →
          f.body = formBody .back (before ++ o :: after).length (before ++ o :: after) →
          OrdersPass (s.st i) .back before →
          orderFault (s.st i) .back (FormView.after (s.st i) .back before) o = some r →
          exec .form s = .next { s with
            interp := .replying ⟨0x41, f.station, r, before.length + 1, []⟩ (some i) none none })))

/-- R30, R32: an order within the table's reach whose entry for the keyboard state at the message's start is REFUSE is
BARRED; one that is not barred and follows a FLIP without being RELEASE, SOUND or NOTE is BAD-ORDER; any other meets
its own checks. The entry of order k and keyboard state j (0 OPEN, 1 WAITING, 2 LOCKED) is number (k - 1) * 3 + j. R35
to R50: the own checks of the orders, each in its sequence, and the orders that have none. -/
def Obligations.OrdersAreTestedInSequence : Prop :=
  (∀ (t : Station) (role : Role) (v : FormView) (o : Order),
    ((role = .front ∨ o = .release ∨ o = .sound ∨ o = .flip ∨ ∃ text, o = .note text) →
        t.acceptance.toList[(orderCode o - 1) * 3 + (keyboardByte t.engine.kb).toNat]? = some false →
        orderFault t role v o = some .barred)
      ∧ (t.acceptance.toList[(orderCode o - 1) * 3 + (keyboardByte t.engine.kb).toNat]? = some true →
        (v.flipped = true → o ≠ .release → o ≠ .sound → (∀ text, o ≠ .note text) →
          orderFault t role v o = some .badOrder)
        ∧ ((v.flipped = false ∨ o = .release ∨ o = .sound ∨ ∃ text, o = .note text) →
          orderFault t role v o = ownFault (v.station.page role) v.context o))
      ∧ (role = .back → o ≠ .release → o ≠ .sound → o ≠ .flip → (∀ text, o ≠ .note text) → v.flipped = false →
        orderFault t role v o = ownFault (v.station.page role) v.context o))
    ∧ (∀ (p : Page) (c : Context),
    (∀ k, ownFault p c (.setPosition k) = if 1600 ≤ k then some .outOfForm else none)
      ∧ (∀ e text, ownFault p c (.lit e text) =
        if ∃ ch ∈ text, ¬ (0x20 ≤ ch.toNat ∧ ch.toNat ≤ 0x7E) then some .badOrder
        else if 1600 < c.writePos + text.length then some .outOfForm
        else if ∃ k < text.length, (p.fieldAt (c.writePos + k)).isSome = true then some .overlap else none)
      ∧ (∀ tag, (∀ g ∈ p.fields, g.tag ≠ tag) →
        (∀ text, ownFault p c (.put tag text) = some .noSuchTag) ∧ ownFault p c (.drop tag) = some .noSuchTag
          ∧ ownFault p c (.showShadow tag) = some .noSuchTag ∧ ownFault p c (.mark tag) = some .noSuchTag
          ∧ ∀ k, ownFault p c (.cursorTag tag k) = some .noSuchTag)
      ∧ (∀ f, p.fieldOf f.tag = some f →
        ownFault p c (.drop f.tag) = none ∧ ownFault p c (.showShadow f.tag) = none ∧ ownFault p c (.mark f.tag) = none
          ∧ (∀ k, ownFault p c (.cursorTag f.tag k) = if f.len ≤ k then some .outOfForm else none)
          ∧ ∀ text, ownFault p c (.put f.tag text) =
            if ∃ ch ∈ text, ¬ (0x20 ≤ ch.toNat ∧ ch.toNat ≤ 0x7E) then some .badOrder
            else if f.len < text.length then some .tooLong else none)
      ∧ (∀ text, p.nextField c.nextField = none → ownFault p c (.putNext text) = some .noSuchTag)
      ∧ (∀ f text, p.nextField c.nextField = some f → ownFault p c (.putNext text) =
        if ∃ ch ∈ text, ¬ (0x20 ≤ ch.toNat ∧ ch.toNat ≤ 0x7E) then some .badOrder
        else if f.len < text.length then some .tooLong else none)
      ∧ (∀ k, ownFault p c (.cursorIndex k) = if 1600 ≤ k then some .outOfForm else none)
      ∧ (∀ text, ownFault p c (.note text) =
        if ∃ ch ∈ text, ¬ (0x20 ≤ ch.toNat ∧ ch.toNat ≤ 0x7E) then some .badOrder
        else if 32 < text.length then some .tooLong else none)
      ∧ ownFault p c .erase = none ∧ ownFault p c .clear = none ∧ ownFault p c .release = none
      ∧ ownFault p c .sound = none ∧ ownFault p c .flip = none)

/-- R38, R39, R6, R40: on a lawful page a DEF whose attributes are sound, whose cells lie in one row of the form and are
free, whose tag is free and which is at most the 48th passes its checks, and each test that fails first gives its reason;
applied, it adds exactly its field, with blank cells, and leaves a lawful page; a DROP of that field gives back the
fields that were there. A DROP of any field of a lawful page removes exactly its record, keeping the order of the others,
makes exactly its cells blank NORMAL, and leaves every other cell and the cursor; the page stays lawful. -/
def Obligations.DefAddsItsFieldAndDropRemovesIt : Prop :=
  ∀ (p : Page) (c : Context) (d : DefOperands), p.Lawful →
    (d.sound = true ↔ 1 ≤ d.tag ∧ d.tag ≤ 250 ∧ 1 ≤ d.len ∧ d.len ≤ 80
        ∧ (d.required = true → d.protection = .openEntry)
        ∧ (∀ lo hi, d.range = some (lo, hi) → d.cls = .qty ∧ lo ≤ hi ∧ hi ≤ 999999999)
        ∧ (d.cls = .qty → d.len ≤ 9) ∧ (d.cls = .bin → 7 ≤ d.len) ∧ (d.cls = .item → 2 ≤ d.len))
      ∧ (d.sound = false → ownFault p c (.define d) = some .badOrder)
      ∧ (d.sound = true → (1600 ≤ d.start ∨ 80 < d.start % 80 + d.len) → ownFault p c (.define d) = some .outOfForm)
      ∧ (d.sound = true → d.start < 1600 → d.start % 80 + d.len ≤ 80 →
        ((∃ g ∈ p.fields, g.tag = d.tag) → ownFault p c (.define d) = some .tagInUse)
        ∧ ((∀ g ∈ p.fields, g.tag ≠ d.tag) →
          ((∃ g ∈ p.fields, ∃ k, d.start ≤ k ∧ k < d.start + d.len ∧ g.covers k = true) →
            ownFault p c (.define d) = some .overlap)
          ∧ ((∀ k, d.start ≤ k → k < d.start + d.len → p.fieldAt k = none) →
            (p.fields.length = 48 → ownFault p c (.define d) = some .tableFull)
            ∧ (p.fields.length < 48 → ownFault p c (.define d) = none))))
      ∧ (ownFault p c (.define d) = none →
        (p.define d).Lawful ∧ (∀ g, g ∈ (p.define d).fields ↔ g = d.field ∨ g ∈ p.fields)
        ∧ (p.define d).cursor = p.cursor
        ∧ (∀ k, (p.define d).cell k = if d.start ≤ k ∧ k < d.start + d.len then ⟨0x20, .normal⟩ else p.cell k)
        ∧ ((p.define d).drop d.field).fields = p.fields
        ∧ ∀ k, ((p.define d).drop d.field).cell k = (p.define d).cell k)
      ∧ (∀ before f after, p.fields = before ++ f :: after →
        (p.drop f).fields = before ++ after ∧ (p.drop f).Lawful ∧ (p.drop f).cursor = p.cursor
        ∧ ∀ k, (p.drop f).cell k = if f.covers k = true then ⟨0x20, .normal⟩ else p.cell k)

/-- R26, R35 to R40, R44, R45: the effects on the target page of the orders that do not touch a shadow, and of ERASE, on
BACK and on FRONT alike: the page the order makes, and the message context. The other page is not touched, nor what the
message has noted of RELEASE and FLIP. R19, R13: an order for FRONT adds to the dirty set exactly the cells whose
character or displayed emphasis it changes and, of SHOW, CLEAR and CURSOR, the cells of the fields it promotes. R16: it
sets cursor-pending exactly if the station cursor takes a new index. -/
def Obligations.OrdersChangeTheirTargetPage : Prop :=
  ∀ (v : FormView) (role : Role),
    (∀ k, v.apply role (.setPosition k) = { v with context := { v.context with writePos := k } })
      ∧ (((v.apply role .erase).station.page role = ⟨[], [], 0⟩) ∧ (v.apply role .erase).context = ⟨0, none⟩)
      ∧ (∀ e text,
        (v.apply role (.lit e text)).context = { v.context with writePos := v.context.writePos + text.length }
        ∧ (∀ k, ((v.apply role (.lit e text)).station.page role).cell k =
            if h : v.context.writePos ≤ k ∧ k < v.context.writePos + text.length
            then ⟨text[k - v.context.writePos]'(by omega), e⟩ else (v.station.page role).cell k)
        ∧ ((v.apply role (.lit e text)).station.page role).fields = (v.station.page role).fields
        ∧ ((v.apply role (.lit e text)).station.page role).cursor = (v.station.page role).cursor)
      ∧ (∀ d, (v.apply role (.define d)).station.page role = (v.station.page role).define d
        ∧ (v.apply role (.define d)).context = { v.context with nextField := some d.start })
      ∧ (∀ f, (v.station.page role).fieldOf f.tag = some f →
        ((v.apply role (.drop f.tag)).station.page role = (v.station.page role).drop f
          ∧ (v.apply role (.drop f.tag)).context = { v.context with nextField := some f.start })
        ∧ ((v.apply role (.mark f.tag)).station.page role =
            { v.station.page role with fields := (v.station.page role).fields.map fun g =>
                if g.tag = f.tag then { g with mark := true } else g }
          ∧ (v.apply role (.mark f.tag)).context = { v.context with nextField := some f.start }))
      ∧ (∀ o : Order, (o = .erase ∨ (∃ e text, o = .lit e text) ∨ (∃ d, o = .define d) ∨ (∃ tag, o = .drop tag)
          ∨ (∃ tag, o = .mark tag) ∨ o = .clear ∨ (∃ tag text, o = .put tag text) ∨ (∃ text, o = .putNext text)
          ∨ (∃ tag, o = .showShadow tag) ∨ (∃ tag k, o = .cursorTag tag k) ∨ (∃ k, o = .cursorIndex k)) →
        (role = .back → (v.apply role o).station = { v.station with back := (v.apply role o).station.back })
        ∧ (role = .front → (v.apply role o).station =
            { v.station with
              front := (v.apply role o).station.front
              display := { v.station.display with
                dirty := (v.apply role o).station.display.dirty
                cursorPending := if (v.apply role o).station.front.cursor = v.station.front.cursor
                  then v.station.display.cursorPending else true } })
        ∧ (v.apply role o).released = v.released ∧ (v.apply role o).flipped = v.flipped)
      ∧ (∀ o : Order, (o = .erase ∨ (∃ e text, o = .lit e text) ∨ (∃ d, o = .define d) ∨ (∃ tag, o = .drop tag)
          ∨ (∃ tag, o = .mark tag) ∨ (∃ tag text, o = .put tag text) ∨ (∃ text, o = .putNext text)) →
        ∀ k, k < 1600 → (k ∈ (v.apply .front o).station.display.dirty ↔
          k ∈ v.station.display.dirty ∨ v.station.shown k ≠ (v.apply .front o).station.shown k))
      ∧ (v.station.FormLawful → ∀ o : Order, (o = .clear ∨ (∃ tag, o = .showShadow tag)
          ∨ (∃ tag k, o = .cursorTag tag k) ∨ (∃ k, o = .cursorIndex k)) →
        ∀ k, k < 1600 → (k ∈ (v.apply .front o).station.display.dirty ↔
          k ∈ v.station.display.dirty ∨ v.station.shown k ≠ (v.apply .front o).station.shown k
            ∨ ∃ f ∈ v.station.front.fields, f.covers k = true ∧ f.shadow.isSome = true
              ∧ ∃ g ∈ (v.apply .front o).station.front.fields, g.tag = f.tag ∧ g.shadow = none))

/-! ### Shadows, the cursor and the dirty set (R4, R5, R12 to R19) -/

/-- R12, R41, R42: a PUT of a text that fits, or a PUT-NEXT on its target, is held as the padded shadow of a SHADOWED
FRONT field in hand, and then changes nothing else of the station. In every other case it becomes the field's content,
padded with blanks, and clears the mark; the cells outside the field, the other fields and the cursor stay. The
next-field reference becomes the field's start. -/
def Obligations.PutIsHeldOrWritten : Prop :=
  ∀ (v : FormView) (role : Role) (f : Field) (text : List Byte) (o : Order),
    ((o = .put f.tag text ∧ (v.station.page role).fieldOf f.tag = some f)
      ∨ (o = .putNext text ∧ (v.station.page role).nextField v.context.nextField = some f)) → text.length ≤ f.len →
    (v.apply role o).context = { v.context with nextField := some f.start }
      ∧ (role = .front → f.buffering = .shadowed → (f.covers v.station.front.cursor = true ∨ f.mark = true) →
        (v.apply role o).station = { v.station with front := { v.station.front with
          fields := v.station.front.fields.map fun g =>
            if g.tag = f.tag then { g with shadow := some (text ++ List.replicate (f.len - text.length) 0x20) } else g } })
      ∧ ((role = .back ∨ f.buffering = .single
          ∨ (f.covers v.station.front.cursor = false ∧ f.mark = false)) →
        ((v.apply role o).station.page role).content f = text ++ List.replicate (f.len - text.length) 0x20
        ∧ (∀ k, f.covers k = false → ((v.apply role o).station.page role).cell k = (v.station.page role).cell k)
        ∧ ((v.apply role o).station.page role).cursor = (v.station.page role).cursor
        ∧ ((v.apply role o).station.page role).fields = (v.station.page role).fields.map fun g =>
            if g.tag = f.tag then { g with mark := false } else g)

/-- R13: at a promotion point, every FRONT field that it reaches and that has a pending shadow takes the shadow as its
content, with a clear mark and no shadow, and all its cells, and no others, join the dirty set. Every other field keeps
its record and its content; cells outside the promoted fields stay; nothing else of the station changes but the dirty
set. R16, R68, R14, R46: a move of the station cursor to another index sets it and cursor-pending, and promotes the pending shadows
of the fields that are then not in hand; a move to the index it holds changes nothing. -/
def Obligations.PromotionAndCursorMove : Prop :=
  (∀ (t : Station) (hit : Field → Bool), t.FormLawful →
    (t.promote hit = { t with
        front := { t.front with cells := (t.promote hit).front.cells, fields := (t.promote hit).front.fields }
        display := { t.display with dirty := (t.promote hit).display.dirty } })
      ∧ ((t.promote hit).front.fields = t.front.fields.map fun f =>
          if f.shadow.isSome = true ∧ hit f = true then { f with shadow := none, mark := false } else f)
      ∧ (∀ f ∈ t.front.fields, ∀ text, f.shadow = some text → hit f = true →
        (t.promote hit).front.content f = text)
      ∧ (∀ k, k < 1600 → (k ∈ (t.promote hit).display.dirty ↔ k ∈ t.display.dirty
          ∨ ∃ f ∈ t.front.fields, f.shadow.isSome = true ∧ hit f = true ∧ f.covers k = true))
      ∧ (∀ k, (∀ f ∈ t.front.fields, f.shadow.isSome = true → hit f = true → f.covers k = false) →
        (t.promote hit).front.cell k = t.front.cell k))
    ∧ (∀ (t : Station) (dest : Nat),
    t.moveCursor t.front.cursor = t
      ∧ (dest ≠ t.front.cursor → t.moveCursor dest =
          Station.promote { t with
            front := { t.front with cursor := dest }, display := { t.display with cursorPending := true } }
            (fun f => !(f.covers dest || f.mark))
        ∧ (t.moveCursor dest).front.cursor = dest ∧ (t.moveCursor dest).display.cursorPending = true))

/-- R45, R79, R14: CLEAR (and the clearing of ERASE-INPUT) blanks and unmarks every OPEN-ENTRY field of its page; on
FRONT a field so released from hand ends with its pending shadow, and the one holding the cursor ends blank and keeps
it. PROTECTED fields and the cells outside every field stay: a PROTECTED field with a shadow stays in hand (R12), so
its shadow is not promoted. -/
def Obligations.ClearBlanksTheOpenEntryFields : Prop :=
  ∀ (v : FormView), v.station.FormLawful →
    (∀ role, ∀ f ∈ (v.station.page role).fields, f.protection = .openEntry →
      ((role = .back ∨ f.shadow = none ∨ f.covers v.station.front.cursor = true) →
        ((v.apply role .clear).station.page role).content f = List.replicate f.len 0x20
        ∧ { f with mark := false } ∈ ((v.apply role .clear).station.page role).fields)
      ∧ (role = .front → f.covers v.station.front.cursor = false → ∀ text, f.shadow = some text →
        ((v.apply role .clear).station.page role).content f = text
        ∧ { f with mark := false, shadow := none } ∈ ((v.apply role .clear).station.page role).fields))
      ∧ (∀ role, ∀ f ∈ (v.station.page role).fields, f.protection = .guarded →
        ((v.apply role .clear).station.page role).content f = (v.station.page role).content f
        ∧ f ∈ ((v.apply role .clear).station.page role).fields)
      ∧ ∀ role k, (v.station.page role).fieldAt k = none →
        ((v.apply role .clear).station.page role).cell k = (v.station.page role).cell k

/-- R17, R18: FLIP promotes every pending shadow of the outgoing FRONT, exchanges the pages whole, adds to the dirty set
exactly the cells whose character or displayed emphasis differs, and sets cursor-pending and indicator-pending. Keyboard,
queue, tables, run in flight and everything else stay. -/
def Obligations.FlipExchangesThePages : Prop :=
  ∀ (v : FormView) (role : Role),
    (v.apply role .flip).flipped = true ∧ (v.apply role .flip).context = v.context
      ∧ (v.apply role .flip).released = v.released
      ∧ (v.apply role .flip).station = { v.station with
          front := v.station.back
          back := v.station.promoteAll.front
          display := { v.station.display with
            dirty := (v.apply role .flip).station.display.dirty, cursorPending := true, indicatorPending := true } }
      ∧ (∀ f ∈ (v.apply role .flip).station.back.fields, f.shadow = none)
      ∧ ∀ k, k < 1600 → (k ∈ (v.apply role .flip).station.display.dirty ↔
          k ∈ v.station.promoteAll.display.dirty
            ∨ v.station.promoteAll.shown k ≠ v.station.back.shown v.station.highlight k)

/-- R43, R46, R47, R48, R49, R16: SHOW promotes the named FRONT field and does nothing on BACK; CURSOR moves the target
page's cursor with no exit rule; RELEASE is noted, and at the message's end opens the keyboard with lock record NONE;
SOUND sets sound-pending; NOTE sets the bulletin, and indicator-pending if it changes. R60: a RELEASE that opens a
keyboard with events queued raises the engine's request. -/
def Obligations.ShowCursorReleaseSoundNote : Prop :=
  ∀ (v : FormView) (role : Role),
    (∀ f, (v.station.page role).fieldOf f.tag = some f →
        (v.apply role (.showShadow f.tag)).station =
          (match role with | .front => v.station.promote fun g => g.tag = f.tag | .back => v.station)
        ∧ (v.apply role (.showShadow f.tag)).context = { v.context with nextField := some f.start }
        ∧ ∀ k, (v.apply role (.cursorTag f.tag k)).station =
            (match role with
              | .front => v.station.moveCursor (f.start + k)
              | .back => { v.station with back := { v.station.back with cursor := f.start + k } })
          ∧ (v.apply role (.cursorTag f.tag k)).context = { v.context with nextField := some f.start })
      ∧ (∀ k, v.apply role (.cursorIndex k) = { v with station :=
            (match role with
              | .front => v.station.moveCursor k
              | .back => { v.station with back := { v.station.back with cursor := k } }) })
      ∧ v.apply role .release = { v with released := true }
      ∧ (v.released = false → v.finish = v.station)
      ∧ (v.released = true → v.finish.engine.kb = .opened
        ∧ (v.station.engine.kb = .opened → v.station.engine.queue = [] → v.finish = v.station)
        ∧ (v.station.engine.kb ≠ .opened →
          v.finish = { v.station with
            engine := { v.station.engine with kb := .opened, lockCode := .none, lockTag := none }
            grant := if v.station.engine.queue ≠ [] ∧ v.station.grant.engineWaits = false
                ∧ v.station.grant.holder ≠ some .engine then v.station.grant.raise .engine else v.station.grant
            display := { v.station.display with dirty := v.finish.display.dirty, indicatorPending := true } }))
      ∧ v.apply role .sound
        = { v with station := { v.station with display := { v.station.display with soundPending := true } } }
      ∧ (∀ text, v.apply role (.note text) = { v with station := { v.station with
          bulletin := text
          display := { v.station.display with indicatorPending :=
            if text = v.station.bulletin then v.station.display.indicatorPending else true } } })

/-- R19, R5: a change of the FRONT page, the beginning of a lock and its end each add to the dirty set exactly the cells
whose character or displayed emphasis they change. R4, R5: a background cell shows its own emphasis, a field cell its
field's, or REVERSE where the lock record of a LOCKED keyboard names the field. -/
def Obligations.ChangedFrontCellsJoinTheDirtySet : Prop :=
  ∀ (t : Station) (k : Nat), k < 1600 →
    (∀ p, k ∈ (t.withFront p).display.dirty ↔ k ∈ t.display.dirty ∨ t.shown k ≠ (t.withFront p).shown k)
      ∧ (∀ code tag, k ∈ (t.enterLocked code tag).display.dirty ↔
        k ∈ t.display.dirty ∨ t.shown k ≠ (t.enterLocked code tag).shown k)
      ∧ (k ∈ t.openKeyboard.display.dirty ↔ k ∈ t.display.dirty ∨ t.shown k ≠ t.openKeyboard.shown k)
      ∧ (t.shown k).ch = (t.front.cell k).ch
      ∧ (t.front.fieldAt k = none → (t.shown k).emph = (t.front.cell k).emph)
      ∧ ∀ f, t.front.fieldAt k = some f →
        (t.shown k).emph = if t.engine.kb = .locked ∧ t.engine.lockTag = some f.tag then .reverse else f.emph

/-! ### Queries (R188 to R194) -/

/-- R188, R189: a READ-CELLS of a station 0 to 3 under its grant is DONE with the character and the emphasis of all 1600
cells of the page, in ascending index: on FRONT the displayed emphasis, on BACK the one it would take with no lock
highlight. The grant is to be released with the reply. Nothing else changes. R190: a READ-FIELDS of a station 0 to 3
under its grant is DONE with the record count and 17 bytes for each record, in form order. Without a range the eight
bytes of its bounds are free values (log entry 14), of which only the model's count moves on; the flags byte is laid
out as DEF's (log entry 16). Nothing else changes. -/
def Obligations.CellsAndFieldRecordsAreReported : Prop :=
  (∀ (s : State) (f : Frame) (i : StationNo) (role : Role), s.UnderGrant f i → f.kind = 0x42 →
    f.body = [1, roleByte role] →
    ∃ data, exec .readCells s = .next { s with interp := .replying ⟨0x42, f.station, .none, 0, data⟩ (some i) none none }
      ∧ data.length = 3200
      ∧ ∀ k, k < 1600 → data[2 * k]? = some (((s.st i).page role).cell k).ch
        ∧ (role = .front → data[2 * k + 1]? = some (emphasisByte ((s.st i).shown k).emph))
        ∧ (role = .back → data[2 * k + 1]? = some (emphasisByte
            (match (s.st i).back.fieldAt k with | some g => g.emph | none => ((s.st i).back.cell k).emph))))
    ∧ (∀ (s : State) (f : Frame) (i : StationNo) (role : Role), s.UnderGrant f i → f.kind = 0x42 →
    f.body = [2, roleByte role] →
    ∃ data count, exec .readFields s = .next { s with
        interp := .replying ⟨0x42, f.station, .none, 0,
          byteOf ((s.st i).page role).fields.length :: data⟩ (some i) none none
        freeCount := count }
      ∧ data.length = 17 * ((s.st i).page role).fields.length
      ∧ ∀ k g, ((s.st i).page role).fields[k]? = some g → ∃ lo hi, (∀ r, g.range = some r → r = (lo, hi))
        ∧ (data.drop (17 * k)).take 17 =
          [byteOf g.tag] ++ beBytes 2 g.start
            ++ [byteOf g.len, defFlags g.protection g.required g.autoskip g.buffering g.range.isSome, classByte g.cls,
                emphasisByte g.emph]
            ++ beBytes 4 lo ++ beBytes 4 hi ++ [flagByte g.mark, flagByte g.shadow.isSome])

/-- R188, R190, R191: a READ-FIELD is DONE with the field's length, content, mark and shadow, or refused NO-SUCH-TAG,
index 0; a READ-MODIFIED is DONE with the record an ENTER would compose from the page: header, then tag, value-text
length and value text of each marked field in form order. A value text is the content without its trailing blanks.
Nothing else changes. -/
def Obligations.FieldAndModifiedAreReported : Prop :=
  ∀ (s : State) (f : Frame) (i : StationNo) (role : Role) (p : Page), s.UnderGrant f i → f.kind = 0x42 →
    p = (s.st i).page role →
    (∀ g, p.fieldOf g.tag = some g → g.tag < 256 → f.body = [3, roleByte role, byteOf g.tag] →
        exec .readField s = .next { s with
          interp := .replying ⟨0x42, f.station, .none, 0,
            [byteOf g.len] ++ p.content g ++ [flagByte g.mark, flagByte g.shadow.isSome] ++ g.shadow.getD []⟩
            (some i) none none })
      ∧ (∀ tag : Byte, (∀ g ∈ p.fields, g.tag ≠ tag.toNat) → f.body = [3, roleByte role, tag] →
        exec .readField s
          = .next { s with interp := .replying ⟨0x42, f.station, .noSuchTag, 0, []⟩ (some i) none none })
      ∧ (f.body = [4, roleByte role] →
        exec .readModified s = .next { s with
          interp := .replying ⟨0x42, f.station, .none, 0,
            [0x01, stationByte i, byteOf (p.cursor / 80), byteOf (p.cursor % 80),
              byteOf (p.fields.filter Field.mark).length, 0]
            ++ (p.fields.filter Field.mark).flatMap fun g =>
              [byteOf g.tag, byteOf (p.valueOf g).length] ++ p.valueOf g⟩ (some i) none none })
      ∧ ∀ g, (∃ n, p.content g = p.valueOf g ++ List.replicate n 0x20) ∧ (p.valueOf g).getLast? ≠ some 0x20

/-- R188, R192, R193, R194: READ-STATUS reports the items of its table, in the table's order, and clears the counters and
latched flags among them. For a station it is read under the grant; for the whole device (0x0F) there is none. Nothing
else changes. -/
def Obligations.StatusIsReportedAndCleared : Prop :=
  ∀ (s : State) (f : Frame), f.kind = 0x42 → f.body = [5] →
    (∀ i t, s.UnderGrant f i → t = s.st i →
        exec .readStatusStation s = .next (State.setSt
          { s with interp := .replying ⟨0x42, f.station, .none, 0,
              [keyboardByte t.engine.kb, lockByte t.engine.lockCode, byteOf (t.engine.lockTag.getD 0),
                flagByte t.engine.insert] ++ beBytes 2 t.engine.queue.length
              ++ [flagByte t.engine.pacing, flagByte (s.held.any fun h => h.station = i),
                presenceByte t.monitor.presence, unitByte t.display.unit]
              ++ beBytes 2 t.display.dirty.length ++ [flagByte t.display.run.isSome]
              ++ testStateBytes t.lcu.state ++ [modeByte t.lcu.mode, flagByte t.lcu.checker.sync]
              ++ beBytes 4 t.lcu.sent ++ beBytes 4 t.lcu.compared ++ beBytes 3 t.lcu.errors ++ [byteOf t.lcu.losses]
              ++ beBytes 2 t.display.runTimeout ++ [flagByte t.engine.soundOnLock] ++ faultBytes t.display.fault
              ++ beBytes 2 t.engine.overflows ++ beBytes 2 t.engine.lockedDiscards ++ [flagByte t.engine.overflowFlag]
              ++ beBytes 2 t.display.runFaults ++ beBytes 2 t.display.timeouts ++ beBytes 2 t.display.stales
              ++ [flagByte t.display.runFaultFlag]
              ++ beBytes 2 t.port.badFrames ++ beBytes 2 t.port.refusedFrames
              ++ [flagByte t.port.lostSeen, flagByte t.port.backSeen]⟩ (some i) none none } i
          { t with
            engine := { t.engine with overflows := 0, lockedDiscards := 0, overflowFlag := false }
            display := { t.display with runFaults := 0, timeouts := 0, stales := 0, runFaultFlag := false }
            port := { t.port with badFrames := 0, refusedFrames := 0, lostSeen := false, backSeen := false } }))
      ∧ (s.interp = .handling f → f.station = 0x0F →
        exec .readStatusDevice s = .next { s with
          interp := .replying ⟨0x42, 0x0F, .none, 0,
            beBytes 2 Config.productCode.toNat ++ [Config.revision, pauseByte s.pause]
            ++ beBytes 2 s.ring.occupancy ++ beBytes 2 s.ring.records.length ++ [byteOf s.held.length]
            ++ (s.held.flatMap fun h => [stationByte h.station, attentionByte h.kind, flagByte h.byScan])
            ++ beBytes 2 s.hostBadFrames ++ beBytes 2 s.overruns ++ [flagByte s.overrunFlag]⟩ none none none
          hostBadFrames := 0
          overruns := 0
          overrunFlag := false })

/-- R188, R200: a QUERY decodes exactly as its kind with its operands and nothing left over. One that does not is refused
BAD-ORDER, and a decodable one of an unusable station BAD-STATION, with index 0, no data and no grant. Nothing else
changes. -/
def Obligations.QueriesAreRefusedBeforeAnyGrant : Prop :=
  (∀ body, (decodeQuery body).isSome = true ↔
      body = [5] ∨ (∃ role t, body = [3, roleByte role, t])
        ∨ ∃ role, body = [1, roleByte role] ∨ body = [2, roleByte role] ∨ body = [4, roleByte role])
    ∧ ∀ (s : State) (f : Frame) (c : Instr) (k : Byte), s.interp = .handling f → f.kind = 0x42 →
      f.body.head? = some k →
      ((c = .readCells ∧ k = 1) ∨ (c = .readFields ∧ k = 2) ∨ (c = .readField ∧ k = 3) ∨ (c = .readModified ∧ k = 4)
        ∨ (c = .readStatusStation ∧ k = 5 ∧ f.station ≠ 0x0F) ∨ (c = .readStatusDevice ∧ k = 5 ∧ f.station = 0x0F)) →
      (decodeQuery f.body = none →
        exec c s = .next { s with interp := .replying ⟨0x42, f.station, .badOrder, 0, []⟩ none none none })
        ∧ ((decodeQuery f.body).isSome = true → stationOf f.station = none → c ≠ .readStatusDevice →
          exec c s = .next { s with interp := .replying ⟨0x42, f.station, .badStation, 0, []⟩ none none none })

/-! ### CONFIGURE and STATION-RESET (R195 to R198) -/

/-- R195: a CONFIGURE of a station 0 to 3 under its grant, with one or more settings of which every one passes its checks,
is DONE: all are applied in list order. An empty or undecodable list is refused BAD-ORDER, a list with a failing
setting with the reason of the first one, both at index 0; an unusable station BAD-STATION before any grant. Nothing
else changes. R195, R196: the checks of each setting, in the order of the table, and its effect at the block that
holds it. Whether a value outside its codes is BAD-ORDER as the manual's "unknown" is log entry 18. That an undecodable
setting is refused BAD-ORDER even behind one that fails its checks is log entry 17, from R200: "A CONFIGURE whose
settings are decodable goes on to the value checks of R195." -/
def Obligations.ConfigureAppliesAllSettingsOrNone : Prop :=
  (∀ (s : State) (f : Frame), s.interp = .handling f → f.kind = 0x43 →
    (stationOf f.station = none → exec .configure s
        = .next { s with interp := .replying ⟨0x43, f.station, .badStation, 0, []⟩ none none none })
      ∧ ∀ i, s.UnderGrant f i →
        ((f.body = [] ∨ decodeSettings f.body = none) → exec .configure s
            = .next { s with interp := .replying ⟨0x43, f.station, .badOrder, 0, []⟩ (some i) none none })
        ∧ ∀ xs : List Setting, (∀ x ∈ xs, x.Encodable) → xs ≠ [] → f.body = xs.flatMap settingBytes →
          ((∀ x ∈ xs, checkSetting x = none) → exec .configure s = .next (State.setSt
              { s with interp := .replying ⟨0x43, f.station, .none, 0, []⟩ (some i) none none } i
              (xs.foldl Station.applySetting (s.st i))))
            ∧ (∀ before x after r, xs = before ++ x :: after → (∀ y ∈ before, checkSetting y = none) →
              checkSetting x = some r → exec .configure s
                = .next { s with interp := .replying ⟨0x43, f.station, r, 0, []⟩ (some i) none none }))
    ∧ ((∀ entry sym lead strip cls after,
      checkSetting (.route entry sym lead strip cls after)
        = if 7 < entry then some .outOfForm
          else if 15 < sym ∨ 4 < lead.length ∨ (∃ ch ∈ lead, ¬ (0x20 ≤ ch.toNat ∧ ch.toNat ≤ 0x7E)) ∨ 4 < strip
            ∨ 4 < cls.toNat ∨ 2 < after.toNat then some .badOrder else none)
    ∧ (∀ order kb accept, checkSetting (.acceptance order kb accept)
        = if 1 ≤ order ∧ order ≤ 15 ∧ kb.toNat ≤ 2 then none else some .badOrder)
    ∧ (∀ ms, checkSetting (.runTimeout ms) = if 10 ≤ ms ∧ ms ≤ 250 ∧ ms % 10 = 0 then none else some .badOrder)
    ∧ (∀ n kind, checkSetting (.fault n kind) = if n ≤ 7 ∧ kind.toNat ≤ 1 then none else some .badOrder)
    ∧ (∀ on, checkSetting (.soundOnLock on) = none) ∧ checkSetting .faultClear = none
    ∧ ∀ t : Station,
      (∀ (entry : Fin 8) sym lead strip cls after c a, classOf cls = some c → afterFillOf after = some a →
        t.applySetting (.route entry.val sym lead strip cls after)
          = { t with routes := t.routes.set entry.val ⟨sym, lead, strip, c, a⟩ entry.isLt })
      ∧ (∀ order kb accept (n : Fin 45), n.val = (order - 1) * 3 + kb.toNat →
        t.applySetting (.acceptance order kb accept)
          = { t with acceptance := t.acceptance.set n.val accept n.isLt })
      ∧ (∀ ms, t.applySetting (.runTimeout ms) = { t with display := { t.display with runTimeout := ms } })
      ∧ (∀ on, t.applySetting (.soundOnLock on) = { t with engine := { t.engine with soundOnLock := on } })
      ∧ (∀ n, t.applySetting (.fault n 0) = { t with display := { t.display with fault := some ⟨n, .check⟩ } }
        ∧ t.applySetting (.fault n 1) = { t with display := { t.display with fault := some ⟨n, .drop⟩ } })
      ∧ t.applySetting .faultClear = { t with display := { t.display with fault := none } })

/-- R197, R198, R25, R49, R85, R117, R141, R170: a STATION-RESET with an empty body under the grant erases the pages,
returns the engine to WAITING, removes the held attention, ends a running test RESET with no TEST-DONE, empties the
bulletin, invalidates the Display Writer and clears its fault request; it keeps all else. A service at this grant, or
the removal of the list's head, goes on with the new head. Refusals come before any grant (log entry 27 for their
order). -/
def Obligations.StationResetActsOnItsStation : Prop :=
  ∀ (s : State) (f : Frame), s.interp = .handling f → f.kind = 0x44 →
    (stationOf f.station = none → exec .stationReset s
        = .next { s with interp := .replying ⟨0x44, f.station, .badStation, 0, []⟩ none none none })
      ∧ (∀ i, stationOf f.station = some i → f.body ≠ [] → exec .stationReset s
        = .next { s with interp := .replying ⟨0x44, f.station, .badOrder, 0, []⟩ none none none })
      ∧ ∀ i, s.UnderGrant f i → f.body = [] → ∃ t, exec .stationReset s = .next t
        ∧ t = { s with
            stations := t.stations
            notices := { s.notices with testDone := s.notices.testDone.set i.val none i.isLt }
            interp := .replying ⟨0x44, f.station, .none, 0, []⟩ (some i) none none
            held := s.held.filter fun h => h.station != i
            service := t.service }
        ∧ t.st i = { s.st i with
            front := ⟨[], [], 0⟩
            back := ⟨[], [], 0⟩
            grant := { (s.st i).grant with engineWaits := false }
            engine := { (s.st i).engine with
              kb := .waiting, lockCode := .none, lockTag := none, insert := false, queue := [], pacing := false
              taken := none }
            bulletin := []
            display := { (s.st i).display.invalidate with fault := none }
            port := if (s.st i).lcu.state = .running
              then { (s.st i).port with rx := .hunting, takenByTest := false, preTest := false } else (s.st i).port
            monitor := if (s.st i).lcu.state = .running
              then { (s.st i).monitor with suspended := false, awaiting := true } else (s.st i).monitor
            lcu := if (s.st i).lcu.state = .running
              then { (s.st i).lcu with state := .ended .reset } else (s.st i).lcu }
        ∧ ((s.service = some i ∨ (s.service = none ∧ s.held.head?.map Held.station = some i)) →
          t.service = t.held.head?.map Held.station
          ∧ ∀ j, j ≠ i → t.st j = { s.st j with
              grant := if t.service = some j then (s.st j).grant.raise .engine else (s.st j).grant })
        ∧ (s.service ≠ some i → (s.service ≠ none ∨ s.held.head?.map Held.station ≠ some i) →
          t.service = s.service ∧ ∀ j, j ≠ i → t.st j = s.st j)

/-! ### TEST (R159, R160, R163, R168, R169) -/

/-- R159, R160, R149, R155, R133: a START whose parameters are in range, at a station with no test running, is DONE: the
Line Check Unit starts afresh, the port gives its line, the monitor is suspended with its window discarded, and the
Display Writer is invalidated with the pace told UNKNOWN. It is refused BAD-STATION, BAD-ORDER or IN-TEST, in that
order. No grant is used. -/
def Obligations.TestStartTakesTheLine : Prop :=
  ∀ (s : State) (f : Frame), s.interp = .handling f → f.kind = 0x45 → f.body.head? = some 1 →
    (stationOf f.station = none → exec .testStart s
        = .next { s with interp := .replying ⟨0x45, f.station, .badStation, 0, []⟩ none none none })
      ∧ ∀ i, stationOf f.station = some i →
        ((¬ ∃ mode pattern injection duration, StartInRange pattern injection duration
            ∧ f.body = startBody mode pattern injection duration) → exec .testStart s
          = .next { s with interp := .replying ⟨0x45, f.station, .badOrder, 0, []⟩ none none none })
        ∧ ∀ mode pattern injection duration, StartInRange pattern injection duration →
          f.body = startBody mode pattern injection duration →
          ((s.st i).lcu.state = .running → exec .testStart s
              = .next { s with interp := .replying ⟨0x45, f.station, .inTest, 0, []⟩ none none none })
          ∧ ((s.st i).lcu.state ≠ .running → exec .testStart s = .next (State.setSt
              { s with interp := .replying ⟨0x45, f.station, .none, 0, []⟩ none none none } i
              { s.st i with
                lcu := { state := .running, mode := mode, pattern := pattern,
                         checker := ⟨false, none, 0, 0, false, []⟩,
                         rate := match injection with | .rate n => some n | _ => none,
                         single := decide (injection = .single), posCount := 0, duration := duration,
                         remaining := if duration = 0 then none else some (duration * 64),
                         sent := 0, compared := 0, errors := 0, losses := 0, genPos := 0, placed := none }
                port := { (s.st i).port with
                  rx := .hunting, takenByTest := true, preTest := (s.st i).port.onLine.isSome }
                monitor := { (s.st i).monitor with
                  position := 0, live := false, liveCount := 0, deadRun := 0, longGap := false
                  suspended := true, awaiting := false }
                display := { (s.st i).display.invalidate with paceTold := .unknown } }))

/-- R159, R163, R168, R169, R150, R155, R133: a STOP ends a running test STOPPED and its reply carries the test's final
contents, which TEST-DONE takes once the reply is placed; a test whose remaining time is 0 expires, and its TEST-DONE is
raised at once, replacing a pending one; an INJECT makes single pending yes. At the end the port and the monitor have
their line and a fresh window again, and the Display Writer is invalidated. STOP and INJECT are refused BAD-STATION for a
station outside 0 to 3, BAD-ORDER with bytes left over, and NOT-IN-TEST without a running test, in that order. -/
def Obligations.TestsAreStoppedInjectedAndExpire : Prop :=
  ∀ (s : State) (i : StationNo) (t : Station) (ended : EndCause → Station) (contents : EndCause → TestEnd), t = s.st i →
    (ended = fun cause => { t with
      lcu := { t.lcu with state := .ended cause }
      port := { t.port with rx := .hunting, takenByTest := false, preTest := false }
      monitor := { t.monitor with suspended := false, awaiting := true }
      display := t.display.invalidate }) →
    (contents = fun cause =>
      ⟨cause, t.lcu.mode, t.lcu.checker.sync, t.lcu.sent, t.lcu.compared, t.lcu.errors, t.lcu.losses⟩) →
    (∀ f, s.interp = .handling f → f.kind = 0x45 → stationOf f.station = some i →
        (f.body = [2] → t.lcu.state = .running → exec .testStop s = .next (State.setSt
          { s with interp := .replying ⟨0x45, f.station, .none, 0,
              [2, modeByte t.lcu.mode, flagByte t.lcu.checker.sync] ++ beBytes 4 t.lcu.sent ++ beBytes 4 t.lcu.compared
              ++ beBytes 3 t.lcu.errors ++ [byteOf t.lcu.losses]⟩ none (some (i, contents .stopped)) none } i
          (ended .stopped)))
        ∧ (f.body = [3] → t.lcu.state = .running → exec .testInject s = .next (State.setSt
          { s with interp := .replying ⟨0x45, f.station, .none, 0, []⟩ none none none } i
          { t with lcu := { t.lcu with single := true } }))
        ∧ (t.lcu.state ≠ .running →
          (f.body = [2] → exec .testStop s
            = .next { s with interp := .replying ⟨0x45, f.station, .notInTest, 0, []⟩ none none none })
          ∧ (f.body = [3] → exec .testInject s
            = .next { s with interp := .replying ⟨0x45, f.station, .notInTest, 0, []⟩ none none none }))
        ∧ ∀ b more,
          (f.body = 2 :: b :: more → exec .testStop s
            = .next { s with interp := .replying ⟨0x45, f.station, .badOrder, 0, []⟩ none none none })
          ∧ (f.body = 3 :: b :: more → exec .testInject s
            = .next { s with interp := .replying ⟨0x45, f.station, .badOrder, 0, []⟩ none none none }))
      ∧ (∀ f more, s.interp = .handling f → f.kind = 0x45 → stationOf f.station = none →
        (f.body = 2 :: more → exec .testStop s
          = .next { s with interp := .replying ⟨0x45, f.station, .badStation, 0, []⟩ none none none })
        ∧ (f.body = 3 :: more → exec .testInject s
          = .next { s with interp := .replying ⟨0x45, f.station, .badStation, 0, []⟩ none none none }))
      ∧ (t.lcu.state = .running → t.lcu.remaining = some 0 → exec (.testExpiry i) s
        = .next { s.setSt i (ended .expired) with
            notices := { s.notices with
              testDone := s.notices.testDone.set i.val (some (contents .expired)) i.isLt } })
      ∧ ((t.lcu.state ≠ .running ∨ t.lcu.remaining ≠ some 0) → exec (.testExpiry i) s = .next s)

/-! ### The transmitter, the Notice Set and the ring (R180 to R184, R109 to R114) -/

/-- R181, R182, R111: at a boundary in RUNNING the transmitter starts the reply, else the first notice, else the head
record; its contents leave the Reply Slot or the Notice Set, and a record stays in the ring. The last byte of a REPLY or
NOTICE frame frees the line. While PAUSED, or with a frame on the line, none starts. -/
def Obligations.TransmitterStartsTheFirstPresent : Prop :=
  ∀ s : State,
    (s.pause = .running → s.tx = none →
        (∀ r, s.replySlot = some r → exec .txReplyStart s = .next { s with
            replySlot := none
            tx := some (Frame.onLine ⟨0x61, r.station,
              [r.kind, if r.reason = .none then 0 else 1, reasonByte r.reason, byteOf r.index] ++ r.data⟩) })
        ∧ (∀ n rest, s.replySlot = none → s.notices.inOrder = n :: rest → ∃ t, exec .txNoticeStart s = .next t
          ∧ t = { s with
              tx := some (Frame.onLine ⟨0x63,
                (match n with
                  | .stationChange i _ _ => stationByte i | .overflow i _ => stationByte i | .testDone i _ => stationByte i
                  | _ => 0x0F),
                (match n with
                  | .restarted => [1] ++ beBytes 2 Config.productCode.toNat ++ [Config.revision]
                  | .stationChange _ p c => [2, presenceByte p, byteOf c]
                  | .overflow _ c => [3] ++ beBytes 2 c
                  | .testDone _ e => [4, causeByte e.cause, modeByte e.mode, flagByte e.sync] ++ beBytes 4 e.sent
                      ++ beBytes 4 e.compared ++ beBytes 3 e.errors ++ [byteOf e.losses]
                  | .ringHalf o => [5] ++ beBytes 2 o
                  | .entryHeld i => [6, stationByte i])⟩)
              notices := t.notices }
          ∧ t.notices.inOrder = rest)
        ∧ (∀ e rest, s.replySlot = none → s.notices.inOrder = [] → s.ring.records = e :: rest →
          exec .txEntryStart s = .next { s with
            tx := some (Frame.onLine ⟨0x62, stationByte e.station, s.ring.bytesAt s.ring.readOff e.size⟩) }))
      ∧ (s.replySlot ≠ none → exec .txNoticeStart s = .next s ∧ exec .txEntryStart s = .next s)
      ∧ (s.notices.inOrder ≠ [] → exec .txEntryStart s = .next s)
      ∧ ((s.pause = .paused ∨ s.tx ≠ none) →
        exec .txReplyStart s = .next s ∧ exec .txNoticeStart s = .next s ∧ exec .txEntryStart s = .next s)
      ∧ ∀ l, s.tx = some l → l.frame.kind ≠ 0x62 → exec .txFrameEnd s = .next { s with tx := none }

/-- R183, R184: the notices in sending order are exactly those pending, by kind and within a kind by station. A raise
joins the set or merges: STATION-CHANGE takes the new presence and adds to its count, up to 255; OVERFLOW adds, up to
65535; RING-HALF keeps the greater occupancy; ENTRY-HELD the station already pending. -/
def Obligations.NoticesMergeAndAreOrdered : Prop :=
  ∀ n : Notices,
    (∀ x, x ∈ n.inOrder ↔ n.Pending x) ∧ (n.inOrder.map Notice.place).Pairwise (· < ·)
      ∧ (∀ i p,
        (n.stationChange.get i = none → n.raiseStationChange i p
          = { n with stationChange := n.stationChange.set i.val (some (p, 1)) i.isLt })
        ∧ ∀ q c, n.stationChange.get i = some (q, c) → n.raiseStationChange i p
          = { n with stationChange := n.stationChange.set i.val (some (p, min 255 (c + 1))) i.isLt })
      ∧ (∀ i,
        (n.overflow.get i = none → n.raiseOverflow i
          = { n with overflow := n.overflow.set i.val (some 1) i.isLt })
        ∧ ∀ c, n.overflow.get i = some c → n.raiseOverflow i
          = { n with overflow := n.overflow.set i.val (some (min 65535 (c + 1))) i.isLt })
      ∧ (∀ o, n.raiseRingHalf o = { n with ringHalf := some (max o (n.ringHalf.getD 0)) })
      ∧ ∀ i, n.raiseEntryHeld i = { n with entryHeld := some (n.entryHeld.getD i) }

/-- R109, R111: a record that fits is written at the write offset and reads back whole, the bytes of the records before it
stay, and it joins the tail of the list; the departure of the head advances the read offset, frees its bytes and
leaves the bytes of the others. R111, R114: when the last byte of an ENTRY frame has gone, the head record departs and
the line is free; with attentions held and no service in progress a service begins: its request is raised at the grant
of the head's station. Nothing else changes. -/
def Obligations.RecordsLieWholeAndDepart : Prop :=
  (∀ r : Ring, r.Lawful →
    (∀ i bytes, bytes.length ≤ 8192 - r.occupancy →
        (r.append i bytes).bytesAt r.writeOff bytes.length = bytes
        ∧ (r.append i bytes).bytesAt r.readOff r.occupancy = r.bytesAt r.readOff r.occupancy
        ∧ (r.append i bytes).records = r.records ++ [⟨i, bytes.length⟩]
        ∧ (r.append i bytes).writeOff = (r.writeOff + bytes.length) % 8192
        ∧ (r.append i bytes).readOff = r.readOff ∧ (r.append i bytes).occupancy = r.occupancy + bytes.length)
      ∧ ∀ e rest, r.records = e :: rest →
        r.depart.records = rest ∧ r.depart.readOff = (r.readOff + e.size) % 8192
        ∧ r.depart.occupancy = r.occupancy - e.size ∧ r.depart.writeOff = r.writeOff
        ∧ r.depart.bytesAt r.depart.readOff r.depart.occupancy
          = r.bytesAt (r.readOff + e.size) (r.occupancy - e.size))
    ∧ (∀ (s : State) (l : LineFrame), s.tx = some l → l.frame.kind = 0x62 →
    ∃ t, exec .recordDeparture s = .next t
      ∧ t = { s with tx := none, ring := s.ring.depart, stations := t.stations, service := t.service }
      ∧ ((s.service ≠ none ∨ s.held = []) → t.stations = s.stations ∧ t.service = s.service)
      ∧ ∀ h rest, s.service = none → s.held = h :: rest → t.service = some h.station
        ∧ ∀ j, t.st j = { s.st j with
            grant := if j = h.station then (s.st j).grant.raise .engine else (s.st j).grant })

/-- R114, R108: holding the grant of the head's station, the allocator commits the head's record if it fits, with the
kind and flag kept on the list: the head leaves the list and HELD the indicator row, and the service goes on with the
new head, if there is one. If it does not fit, the service ends. Either way the grant is released. Elsewhere nothing
changes. -/
def Obligations.HeldAttentionIsComposed : Prop :=
  ∀ (s : State) (h : Held) (rest : List Held) (bytes : List Byte), s.service = some h.station → s.held = h :: rest →
    (s.st h.station).grant.holder = some .engine →
    bytes = (s.st h.station).front.recordBytes h.station h.kind h.byScan →
    (8192 - s.ring.occupancy < bytes.length → exec .heldComposition s = .next { s.setSt h.station
          { s.st h.station with grant := (s.st h.station).grant.release .engine } with service := none })
      ∧ (bytes.length ≤ 8192 - s.ring.occupancy → (rest.map Held.station).Nodup → h.station ∉ rest.map Held.station →
        ∃ t, exec .heldComposition s = .next t
          ∧ t = { s with
              stations := t.stations
              ring := s.ring.append h.station bytes
              held := rest
              service := rest.head?.map Held.station
              notices := if s.ring.occupancy < 4096 ∧ 4096 ≤ s.ring.occupancy + bytes.length
                then s.notices.raiseRingHalf (s.ring.occupancy + bytes.length) else s.notices }
          ∧ t.st h.station = { (s.st h.station).marksGiven with
              grant := (s.st h.station).grant.release .engine
              display := { (s.st h.station).marksGiven.display with indicatorPending := true } }
          ∧ ∀ j, j ≠ h.station → t.st j = { s.st j with
              grant := if rest.head?.map Held.station = some j then (s.st j).grant.raise .engine
                else (s.st j).grant })

/-! ### The Keystroke Engine (R52 to R85) -/

/-- R60, R61, R59: the engine, handed the grant for an event, takes nothing in WAITING or from an empty queue. In OPEN it
takes the head event into its hand, and so a RESET in LOCKED; any other event in LOCKED is discarded, counted, and rings
the sounder, and completes. The pacing flag follows the queue. An event taken is treated by its own command (log entry 4). -/
def Obligations.EventsAreTakenByKeyboardState : Prop :=
  ∀ (s : State) (i : StationNo) (t : Station), t = s.st i → s.service ≠ some i → t.grant.holder = some .engine →
    t.engine.taken = none →
    ((t.engine.kb = .waiting ∨ t.engine.queue = []) → exec (.eventTaken i) s = .next (s.setSt i t.finishEvent))
      ∧ (∀ e rest, t.engine.queue = e :: rest → t.engine.kb = .opened ∨ (t.engine.kb = .locked ∧ e = .key .reset) →
        exec (.eventTaken i) s = .next (s.setSt i { t with
          engine := { t.engine with queue := rest, pacing := decide (16 ≤ rest.length), taken := some e } }))
      ∧ (∀ e rest, t.engine.queue = e :: rest → t.engine.kb = .locked → e ≠ .key .reset →
        exec (.eventTaken i) s = .next (s.setSt i (Station.finishEvent { t with
          engine := { t.engine with
            queue := rest, pacing := decide (16 ≤ rest.length)
            lockedDiscards := min 65535 (t.engine.lockedDiscards + 1) }
          display := { t.display with soundPending := true } })))

/-- R55, R56, R67: entering LOCKED takes the code and tag, discards and counts the queue, sets indicator-pending, and
sound-pending if sound-on-lock is on; a lock at a field then moves the cursor to its start. Leaving LOCKED or WAITING
clears the record and sets indicator-pending; an OPEN keyboard stays as it is. Cursor, fields and pages stay. -/
def Obligations.LockIsEnteredAndLeft : Prop :=
  ∀ t : Station,
    (∀ code tag, t.enterLocked code tag = { t with
        engine := { t.engine with
          kb := .locked, lockCode := code, lockTag := tag, queue := [], pacing := false
          lockedDiscards := min 65535 (t.engine.lockedDiscards + t.engine.queue.length) }
        display := { t.display with
          dirty := (t.enterLocked code tag).display.dirty
          indicatorPending := true
          soundPending := t.display.soundPending || t.engine.soundOnLock } })
      ∧ (∀ code f, t.lockAtField code f = (t.enterLocked code (some f.tag)).moveCursor f.start)
      ∧ (t.engine.kb = .opened → t.openKeyboard = t)
      ∧ (t.engine.kb ≠ .opened → t.openKeyboard = { t with
        engine := { t.engine with kb := .opened, lockCode := .none, lockTag := none }
        display := { t.display with dirty := t.openKeyboard.display.dirty, indicatorPending := true } })

/-- R63 to R66: empty value text passes every exit rule; TEXT and DIGITS have none; QTY asks for digits whose value lies
within the range, if there is one; BIN for two capitals, '-', two digits, '-' and a digit; ITEM for two or more digits
and capitals ending in the check digit of the others, weights 3, 1, 3, 1 from right to left. -/
def Obligations.ExitRulesByClass : Prop :=
  ∀ (f : Field) (text : List Byte),
    exitRule f [] = true
      ∧ ((f.cls = .text ∨ f.cls = .digits) → exitRule f text = true)
      ∧ (f.cls = .qty → text ≠ [] → (exitRule f text = true ↔
        (∀ b ∈ text, 0x30 ≤ b.toNat ∧ b.toNat ≤ 0x39)
        ∧ ∀ lo hi, f.range = some (lo, hi) →
          lo ≤ (text.foldl (fun v b => v * 10 + (b.toNat - 0x30)) 0)
          ∧ (text.foldl (fun v b => v * 10 + (b.toNat - 0x30)) 0) ≤ hi))
      ∧ (f.cls = .bin → text ≠ [] → (exitRule f text = true ↔
        text.length = 7
        ∧ (∀ k b, text[k]? = some b → (k = 0 ∨ k = 1) → 0x41 ≤ b.toNat ∧ b.toNat ≤ 0x5A)
        ∧ (∀ k b, text[k]? = some b → (k = 2 ∨ k = 5) → b = 0x2D)
        ∧ ∀ k b, text[k]? = some b → (k = 3 ∨ k = 4 ∨ k = 6) → 0x30 ≤ b.toNat ∧ b.toNat ≤ 0x39))
      ∧ (f.cls = .item → text ≠ [] → (exitRule f text = true ↔
        2 ≤ text.length
        ∧ (∀ b ∈ text, (0x30 ≤ b.toNat ∧ b.toNat ≤ 0x39) ∨ (0x41 ≤ b.toNat ∧ b.toNat ≤ 0x5A))
        ∧ ∃ before last, text = before ++ [last] ∧ 0x30 ≤ last.toNat ∧ last.toNat ≤ 0x39
          ∧ last.toNat - 0x30 = (10 - ((List.range before.length).map fun k =>
              (if (before.getD (before.length - 1 - k) 0).toNat ≤ 0x39
                then (before.getD (before.length - 1 - k) 0).toNat - 0x30
                else (before.getD (before.length - 1 - k) 0).toNat - 0x41 + 10)
              * (if k % 2 = 0 then 3 else 1)).sum % 10) % 10))

/-- R67, R69, R70, R71: a cursor key taken in OPEN moves the cursor to its destination, unless it leaves a marked OPEN-
ENTRY field that fails its exit rule: then the keyboard locks BAD-ENTRY with that field's tag and the cursor goes to
its start. The arrow keys go 1 or 80 cells on or back, modulo 1600. Then the event completes. Nothing else changes.
R70, R71: the destinations of TAB, BACKTAB, HOME and NEWLINE among the OPEN-ENTRY fields of the page, in form order;
index 0 on a page without any. -/
def Obligations.CursorKeysMoveOrLock : Prop :=
  (∀ (s : State) (i : StationNo) (c : Instr) (key : Key) (dest : Nat) (t : Station), t = s.st i → t.front.cursor < 1600 →
    (c, key, dest) ∈ [
      (.keyRight i, .right, (t.front.cursor + 1) % 1600),
      (.keyLeft i, .left, (t.front.cursor + 1599) % 1600),
      (.keyDown i, .down, (t.front.cursor + 80) % 1600),
      (.keyUp i, .up, (t.front.cursor + 1520) % 1600),
      (.keyTab i, .tab, t.front.nextOpen t.front.cursor),
      (.keyBacktab i, .backtab, t.front.backOpen t.front.cursor),
      (.keyHome i, .home, t.front.home),
      (.keyNewline i, .newline, t.front.laterRowOpen t.front.cursor)] →
    s.Treating i (.key key) →
    (∀ f, t.ExitFails dest f → exec c s = .next (s.setSt i (t.lockAtField .badEntry f).finishEvent))
      ∧ ((∀ f, ¬ t.ExitFails dest f) → exec c s = .next (s.setSt i (t.moveCursor dest).finishEvent)))
    ∧ (∀ (p : Page) (c : Nat), p.Lawful →
    (∀ f, FirstField p.fields (fun g => g.protection = .openEntry) f → p.home = f.start)
      ∧ (∀ f, FirstField p.fields (fun g => g.protection = .openEntry ∧ c < g.start) f → p.nextOpen c = f.start)
      ∧ ((∀ g ∈ p.fields, g.protection = .openEntry → g.start ≤ c) → p.nextOpen c = p.home)
      ∧ (∀ f, FirstField p.fields (fun g => g.protection = .openEntry ∧ c / 80 < g.start / 80) f →
        p.laterRowOpen c = f.start)
      ∧ ((∀ g ∈ p.fields, g.protection = .openEntry → g.start / 80 ≤ c / 80) → p.laterRowOpen c = p.home)
      ∧ (∀ f ∈ p.fields, f.protection = .openEntry → f.covers c = true → f.start ≠ c → p.backOpen c = f.start)
      ∧ ((∀ g ∈ p.fields, g.protection = .openEntry → g.covers c = true → g.start = c) →
        (∀ f, LastField p.fields (fun g => g.protection = .openEntry ∧ g.start < c) f → p.backOpen c = f.start)
        ∧ ((∀ g ∈ p.fields, g.protection = .openEntry → c ≤ g.start) →
          ∀ f, LastField p.fields (fun g => g.protection = .openEntry) f → p.backOpen c = f.start))
      ∧ ((∀ g ∈ p.fields, g.protection ≠ .openEntry) →
        p.home = 0 ∧ p.nextOpen c = 0 ∧ p.laterRowOpen c = 0 ∧ p.backOpen c = 0))

/-- R72 to R76, R67: a printable character taken in OPEN locks PROTECTED outside every OPEN-ENTRY field, WRONG-CHAR if the
class refuses it, NO-ROOM in insert mode with a non-blank last cell. Otherwise it is placed by overwrite or insert,
the mark is set, and the cursor advances: within the field, to the next OPEN-ENTRY field with autoskip, or to the next
cell; an advance out of the field applies the exit rule. Then the event completes. R73: the characters each class
accepts, after raising. -/
def Obligations.PrintableCharacterIsPlacedOrLocks : Prop :=
  (∀ (s : State) (i : StationNo) (ch : Byte) (t : Station), t = s.st i → s.Treating i (.key (.printable ch)) →
    ((∀ f, t.front.fieldAt t.front.cursor = some f → f.protection = .guarded) →
        exec (.keyPrintable i) s = .next (s.setSt i (t.enterLocked .guarded none).finishEvent))
      ∧ ∀ f c text placed, t.front.fieldAt t.front.cursor = some f → f.protection = .openEntry →
        c = (if (f.cls = .bin ∨ f.cls = .item) ∧ 0x61 ≤ ch.toNat ∧ ch.toNat ≤ 0x7A then ch - 0x20 else ch) →
        text = t.front.content f →
        placed = (if t.engine.insert
          then text.take (t.front.cursor - f.start) ++ [c] ++ (text.drop (t.front.cursor - f.start)).dropLast
          else text.set (t.front.cursor - f.start) c) →
        (accepts f.cls c = false →
          exec (.keyPrintable i) s = .next (s.setSt i (t.enterLocked .wrongChar none).finishEvent))
        ∧ (accepts f.cls c = true → t.engine.insert = true → text.getLast? ≠ some 0x20 →
          exec (.keyPrintable i) s = .next (s.setSt i (t.enterLocked .noRoom none).finishEvent))
        ∧ (accepts f.cls c = true → (t.engine.insert = false ∨ text.getLast? = some 0x20) →
          ∀ t' dest, t' = t.withFront ((t.front.setContent f placed).setMark f.tag true) →
          dest = (if t.front.cursor + 1 < f.start + f.len then t.front.cursor + 1
            else if f.autoskip then t.front.nextOpen f.start else (t.front.cursor + 1) % 1600) →
          (∀ g, t'.ExitFails dest g →
            exec (.keyPrintable i) s = .next (s.setSt i (t'.lockAtField .badEntry g).finishEvent))
          ∧ ((∀ g, ¬ t'.ExitFails dest g) →
            exec (.keyPrintable i) s = .next (s.setSt i (t'.moveCursor dest).finishEvent))))
    ∧ (∀ ch : Byte,
    (accepts .text ch = true ↔ 0x20 ≤ ch.toNat ∧ ch.toNat ≤ 0x7E)
      ∧ (∀ cls, (cls = .digits ∨ cls = .qty) → (accepts cls ch = true ↔ 0x30 ≤ ch.toNat ∧ ch.toNat ≤ 0x39))
      ∧ (accepts .bin ch = true ↔
        (0x41 ≤ ch.toNat ∧ ch.toNat ≤ 0x5A) ∨ (0x30 ≤ ch.toNat ∧ ch.toNat ≤ 0x39) ∨ ch = 0x2D)
      ∧ (accepts .item ch = true ↔ (0x41 ≤ ch.toNat ∧ ch.toNat ≤ 0x5A) ∨ (0x30 ≤ ch.toNat ∧ ch.toNat ≤ 0x39))
      ∧ (∀ cls, (cls = .bin ∨ cls = .item) → raisedFor cls ch
        = if 0x61 ≤ ch.toNat ∧ ch.toNat ≤ 0x7A then ch - 0x20 else ch)
      ∧ ∀ cls, (cls = .text ∨ cls = .digits ∨ cls = .qty) → raisedFor cls ch = ch)

/-- R77, R78: DELETE takes the character at the cursor out of its field and ERASE-EOF blanks the field from the cursor on;
both set the mark and leave the cursor. Outside every OPEN-ENTRY field they lock PROTECTED. A write of a full content
to a field is its content, and leaves every cell outside it, the other records and the cursor. R79, R80, R56: ERASE-
INPUT has the effect of a CLEAR of FRONT and then moves the cursor HOME with no exit rule. INSERT toggles the insert
flag, and RESET clears it; a RESET in LOCKED also opens the keyboard. A change of the flag sets indicator-pending.
Then the event completes. -/
def Obligations.EditingKeysAct : Prop :=
  (∀ (s : State) (i : StationNo) (c : Instr) (key : Key) (t : Station), t = s.st i →
    ((c = .keyDelete i ∧ key = .delete) ∨ (c = .keyEraseEof i ∧ key = .eraseEof)) → s.Treating i (.key key) →
    ((∀ f, t.front.fieldAt t.front.cursor = some f → f.protection = .guarded) →
        exec c s = .next (s.setSt i (t.enterLocked .guarded none).finishEvent))
      ∧ ∀ f text, t.front.fieldAt t.front.cursor = some f → f.protection = .openEntry →
        text = (if key = .delete
          then (t.front.content f).eraseIdx (t.front.cursor - f.start) ++ [0x20]
          else (t.front.content f).take (t.front.cursor - f.start)
            ++ List.replicate (f.start + f.len - t.front.cursor) 0x20) →
        exec c s = .next (s.setSt i
            (t.withFront ((t.front.setContent f text).setMark f.tag true)).finishEvent)
          ∧ (t.front.setContent f text).content f = text
          ∧ (∀ k, f.covers k = false → (t.front.setContent f text).cell k = t.front.cell k)
          ∧ (t.front.setContent f text).fields = t.front.fields
          ∧ (t.front.setContent f text).cursor = t.front.cursor)
    ∧ (∀ (s : State) (i : StationNo) (t : Station), t = s.st i →
    (s.Treating i (.key .eraseInput) → exec (.keyEraseInput i) s
        = .next (s.setSt i ((t.clear .front).moveCursor t.front.home).finishEvent))
      ∧ (s.Treating i (.key .insert) → exec (.keyInsert i) s = .next (s.setSt i (Station.finishEvent { t with
          engine := { t.engine with insert := !t.engine.insert }
          display := { t.display with indicatorPending := true } })))
      ∧ (s.Treating i (.key .reset) →
        (t.engine.insert = false → exec (.keyReset i) s = .next (s.setSt i t.finishEvent))
        ∧ (t.engine.insert = true → exec (.keyReset i) s = .next (s.setSt i (Station.finishEvent { t with
          engine := { t.engine with insert := false }
          display := { t.display with indicatorPending := true } }))))
      ∧ (t.engine.taken = some (.key .reset) → t.grant.holder = some .engine → t.engine.kb = .locked →
        exec (.keyReset i) s = .next (s.setSt i (Station.finishEvent { t.openKeyboard with
          engine := { t.openKeyboard.engine with insert := false }
          display := { t.openKeyboard.display with indicatorPending := true } }))))

/-- R81, R100 to R105, R107, R108, R112: ENTER, CANCEL or PF taken in OPEN goes to the Entry Composer, with the by-scan
flag clear, and the event then completes. The record is a header, and for ENTER an item for each marked field. -/
def Obligations.AttentionKeysAreComposed : Prop :=
  ∀ (s : State) (i : StationNo),
    (∀ c key kind, (c, key, kind) ∈ [((Instr.keyEnter i, Key.enter, Attention.enter) : Instr × Key × Attention),
          (.keyCancel i, .cancel, .cancel)] ∨ (∃ n, c = .keyPf i ∧ key = .pf n ∧ kind = .pf n) →
        s.Treating i (.key key) → ∃ s', s.AttentionLeaves i kind false s'
          ∧ exec c s = .next (s'.setSt i (s'.st i).finishEvent))
      ∧ ∀ (p : Page) kind byScan, p.recordBytes i kind byScan =
        (match kind with | .enter => [0x01] | .cancel => [0x02] | .pf n => [0x11 + byteOf n.val])
        ++ [stationByte i, byteOf (p.cursor / 80), byteOf (p.cursor % 80)]
        ++ (if kind = .enter
          then [byteOf (p.fields.filter Field.mark).length, flagByte byScan]
            ++ (p.fields.filter Field.mark).flatMap fun f => [byteOf f.tag, byteOf (p.valueOf f).length] ++ p.valueOf f
          else [0, flagByte byScan])

/-- R86, R89 to R97: a scan taken in OPEN locks SCAN-UNROUTED with no matching entry, SCAN-NO-FIELD with no target,
SCAN-TOO-LONG for data longer than the target, BAD-ENTRY with the target's tag for a refused character or a failing exit
rule. Otherwise the fill is written with the mark set and the after-fill action follows: NEXT-FIELD and STAY move the
cursor with no exit rule, SEND performs ENTER by scan. Then the event completes. -/
def Obligations.ScanIsRoutedOrLocks : Prop :=
  ∀ (s : State) (i : StationNo) (sym : Nat) (data : List Byte) (t : Station), t = s.st i →
    s.Treating i (.scan sym data) →
    ((∀ r ∈ t.routes.toList, ¬ (r.symbology ≠ 0 ∧ r.symbology = sym ∧ r.lead <+: data)) →
        exec (.scan i) s = .next (s.setSt i (t.enterLocked .scanUnrouted none).finishEvent))
      ∧ ∀ before r after, t.routes.toList = before ++ r :: after → r.symbology ≠ 0 → r.symbology = sym →
        r.lead <+: data → (∀ q ∈ before, ¬ (q.symbology ≠ 0 ∧ q.symbology = sym ∧ q.lead <+: data)) →
        ((∀ g ∈ t.front.fields, g.protection = .openEntry → g.cls = r.cls →
            g.covers t.front.cursor = false ∧ t.front.valueOf g ≠ []) →
          exec (.scan i) s = .next (s.setSt i (t.enterLocked .scanNoField none).finishEvent))
        ∧ ∀ f fill,
          (FirstField t.front.fields
              (fun g => g.protection = .openEntry ∧ g.cls = r.cls ∧ g.covers t.front.cursor = true) f
            ∨ ((∀ g ∈ t.front.fields, g.protection = .openEntry → g.cls = r.cls → g.covers t.front.cursor = false)
              ∧ FirstField t.front.fields
                (fun g => g.protection = .openEntry ∧ g.cls = r.cls ∧ t.front.valueOf g = []) f)) →
          fill = (data.drop r.strip).map (raisedFor f.cls) →
          (f.len < fill.length →
            exec (.scan i) s = .next (s.setSt i (t.enterLocked .scanTooLong none).finishEvent))
          ∧ (fill.length ≤ f.len →
            (¬ ((∀ ch ∈ fill, accepts f.cls ch = true) ∧ exitRule f (valueText fill) = true) →
              exec (.scan i) s = .next (s.setSt i (t.enterLocked .badEntry (some f.tag)).finishEvent))
            ∧ ((∀ ch ∈ fill, accepts f.cls ch = true) → exitRule f (valueText fill) = true →
              ∀ t', t' = t.withFront ((t.front.setContent f fill).setMark f.tag true) →
              (r.after = .nextField → exec (.scan i) s
                = .next (s.setSt i (t'.moveCursor (t.front.nextOpen f.start)).finishEvent))
              ∧ (r.after = .stay → exec (.scan i) s = .next (s.setSt i (t'.moveCursor f.start).finishEvent))
              ∧ (r.after = .send → ∃ s', (s.setSt i t').AttentionLeaves i .enter true s'
                ∧ exec (.scan i) s = .next (s'.setSt i (s'.st i).finishEvent))))

/-! ### The station lines, upstream (R142 to R147, R149, R57 to R59) -/

/-- R143, R145, R146, R57, R58, R59: the bytes of a usable KEY or SCAN frame, at a port that has its line, deliver one
event: it joins the tail of a queue below 32, with the pacing flag recomputed and the engine's request raised if the
conditions of R60 hold; at a full queue it is discarded, counted, latched, sounded and noticed. The interval is live.
Nothing else changes. -/
def Obligations.EventFramesJoinTheQueueOrOverflow : Prop :=
  ∀ (s : State) (i : StationNo) (c : Instr) (e : Event) (t : Station), (s.st i).port.takenByTest = false →
    t = (s.st i).heard →
    ((∃ item code k, c = .keyFrameDelivery i item code ∧ keyOf code = some k ∧ e = .key k)
      ∨ ∃ item sym data, c = .scanFrameDelivery i item sym data ∧ 1 ≤ sym.toNat ∧ sym.toNat ≤ 15 ∧ 1 ≤ data.length
        ∧ data.length ≤ 40 ∧ e = .scan sym.toNat data) →
    (t.engine.queue.length < 32 → exec c s = .next (s.setSt i { t with
        engine := { t.engine with
          queue := t.engine.queue ++ [e], pacing := decide (16 ≤ t.engine.queue.length + 1) }
        grant := if t.engine.kb ≠ .waiting ∧ t.grant.engineWaits = false ∧ t.grant.holder ≠ some .engine
          then t.grant.raise .engine else t.grant }))
      ∧ (32 ≤ t.engine.queue.length → exec c s = .next { s.setSt i { t with
          engine := { t.engine with overflows := min 65535 (t.engine.overflows + 1), overflowFlag := true }
          display := { t.display with soundPending := true } } with notices := s.notices.raiseOverflow i })

/-- R131, R132, R133, R147: READY makes the unit state READY, and after HOLD a suspended timer runs again unless its frame
is still on the line; HOLD suspends the timer; RESYNC invalidates the Display Writer, with READY and the pace told
UNKNOWN. Invalidation abandons the run, makes every cell dirty and the last-written position INVALID, and sets
indicator-pending and cursor-pending. R145: an IDLE mark only makes the interval live. Nothing else changes. -/
def Obligations.UnitFramesAndIdleMarksAct : Prop :=
  ∀ (s : State) (i : StationNo) (item : Byte) (t : Station), (s.st i).port.takenByTest = false → t = (s.st i).heard →
    exec (.unitReady i item) s = .next (s.setSt i { t with display := { t.display with
        unit := .ready
        run := if t.display.unit = .hold ∧ (t.port.onLine.any fun l => l.frame.kind = 0x31) = false
          then t.display.run.map fun r => { r with timer := .running } else t.display.run } })
      ∧ exec (.unitHold i item) s = .next (s.setSt i { t with display := { t.display with
          unit := .hold, run := t.display.run.map fun r => { r with timer := .suspended } } })
      ∧ exec (.unitResync i item) s = .next (s.setSt i { t with display :=
          { t.display.invalidate with unit := .ready, paceTold := .unknown } })
      ∧ exec (.upstreamIdle i item) s = .next (s.setSt i t)
      ∧ ∀ d : Display, d.invalidate = { d with
          run := none, dirty := d.invalidate.dirty, lastWritten := none, indicatorPending := true, cursorPending := true }
        ∧ ∀ k, k ∈ d.invalidate.dirty ↔ k < 1600

/-- R145: a frame with a good check is refused exactly if it is none of the usable frames of the table; it is counted,
makes the interval live and is delivered to no block. Nothing else changes. R143, R144: each bad upstream frame,
received from HUNTING, is counted once and has no other effect: a wrong check, a length item that disagrees, fewer
than 6 decoded bytes, an escape fault, a 48th decoded byte. A start byte inside a frame counts the fragment and opens
a new frame; bytes other than a start byte in HUNTING change nothing. -/
def Obligations.UnusableUpstreamFramesAreCounted : Prop :=
  (∀ (kind item : Byte) (body : List Byte),
    (classify ⟨kind, item, body⟩ = .refused ↔
        ¬ ((kind = 0x21 ∧ ∃ code, body = [code] ∧ (keyOf code).isSome = true)
          ∨ (kind = 0x22 ∧ ∃ sym data, body = sym :: data ∧ 1 ≤ sym.toNat ∧ sym.toNat ≤ 15 ∧ 1 ≤ data.length
            ∧ data.length ≤ 40)
          ∨ (kind = 0x23 ∧ (body = [1] ∨ body = [2] ∨ body = [3] ∨ body = [5] ∨ ∃ n, body = [4, n] ∧ n.toNat ≤ 15))
          ∨ (kind = 0x20 ∧ body = [])))
      ∧ ∀ (s : State) (i : StationNo) (t : Station), (s.st i).port.takenByTest = false → t = (s.st i).heard →
        classify ⟨kind, item, body⟩ = .refused → body.length ≤ 41 →
        exec (.upstreamRefusedFrame i item kind body) s = .next (s.setSt i { t with
          port := { t.port with refusedFrames := min 65535 (t.port.refusedFrames + 1) } }))
    ∧ (∀ (s : State) (i : StationNo) (counted : Station), (s.st i).port.takenByTest = false → (s.st i).port.rx = .hunting →
    counted = { s.st i with
      port := { (s.st i).port with badFrames := min 65535 ((s.st i).port.badFrames + 1) } } →
    (∀ (f : Frame) (check : Check), f.body.length ≤ 41 → check ≠ frameCheck f.covered →
        exec (.upstreamBadFrame i (LineFrame.mk f check).bytes) s = .next (s.setSt i counted))
      ∧ (∀ (kind item : Byte) (n : Nat) (body : List Byte) (check : Check), n < 65536 → body.length ≤ 41 →
        n ≠ body.length →
        exec (.upstreamBadFrame i (0x02 :: ([kind, item] ++ beBytes 2 n ++ body ++ beBytes 2 check.toNat).flatMap escaped
            ++ [0x03])) s = .next (s.setSt i counted))
      ∧ (∀ bytes : List Byte, bytes.length < 6 →
        exec (.upstreamBadFrame i (0x02 :: bytes.flatMap escaped ++ [0x03])) s = .next (s.setSt i counted))
      ∧ (∀ b : Byte, b ≠ 0x02 → b ≠ 0x22 → b ≠ 0x23 → b ≠ 0x30 →
        exec (.upstreamBadFrame i [0x02, 0x10, b]) s = .next (s.setSt i counted))
      ∧ (∀ bytes : List Byte, bytes.length = 48 →
        exec (.upstreamBadFrame i (0x02 :: bytes.flatMap escaped)) s = .next (s.setSt i counted))
      ∧ exec (.upstreamBadFrame i [0x02, 0x02]) s
        = .next (s.setSt i { counted with port := { counted.port with rx := .inFrame [] false } })
      ∧ (∀ bytes : List Byte, (∀ b ∈ bytes, b ≠ 0x02) → exec (.upstreamBadFrame i bytes) s = .next s))

/-- R127 to R130, R139: a RUN-OK with the number of the run in flight confirms it: the last-written position becomes its
last cell. A RUN-BAD, or a timer that has run out, returns its cells to the dirty set, makes the last-written position
INVALID, counts a run fault or a timeout and latches. A RUN-OK with another number, or either with no run in flight, is
stale and only counted. The unit's copy of the cells is an observer (log entry 21). Nothing else changes. -/
def Obligations.RunsEndByConfirmationRejectionOrTimeout : Prop :=
  ∀ (s : State) (i : StationNo) (item n : Byte) (t : Station), t = (s.st i).heard → n.toNat ≤ 15 →
    ((s.st i).port.takenByTest = false →
        (∀ r, t.display.run = some r → r.number = n.toNat → exec (.unitRunOk i item n) s = .next (s.setSt i { t with
          display := { t.display with
            lastWritten := some (r.first + r.cells.length - 1)
            run := none
            confirmed := Sparse.writeAll none r.first (r.cells.map some) t.display.confirmed } }))
        ∧ ((t.display.run = none ∨ ∃ r, t.display.run = some r ∧ r.number ≠ n.toNat) →
          exec (.unitRunOk i item n) s = .next (s.setSt i { t with
            display := { t.display with stales := min 65535 (t.display.stales + 1) } }))
        ∧ (t.display.run = none → exec (.unitRunBad i item) s = .next (s.setSt i { t with
            display := { t.display with stales := min 65535 (t.display.stales + 1) } }))
        ∧ (∀ r, t.display.run = some r → ∃ dirty, exec (.unitRunBad i item) s = .next (s.setSt i { t with
            display := { t.display with
              dirty := dirty, lastWritten := none, run := none
              runFaults := min 65535 (t.display.runFaults + 1), runFaultFlag := true } })
          ∧ ∀ k, k < 1600 →
            (k ∈ dirty ↔ k ∈ t.display.dirty ∨ (r.first ≤ k ∧ k < r.first + r.cells.length))))
      ∧ (∀ r, (s.st i).display.run = some r → r.timer = .running → r.remaining = 0 →
        ∃ dirty, exec (.runTimeout i) s = .next (s.setSt i { s.st i with
            display := { (s.st i).display with
              dirty := dirty, lastWritten := none, run := none
              timeouts := min 65535 ((s.st i).display.timeouts + 1), runFaultFlag := true } })
          ∧ ∀ k, k < 1600 →
            (k ∈ dirty ↔ k ∈ (s.st i).display.dirty ∨ (r.first ≤ k ∧ k < r.first + r.cells.length)))
      ∧ ((∀ r, (s.st i).display.run = some r → r.timer = .suspended ∨ r.remaining ≠ 0) →
        exec (.runTimeout i) s = .next s)

/-! ### The station lines, downstream (R120 to R125, R134 to R138, R148) -/

/-- R120, R121, R134 to R137: at a boundary the first due frame of the table starts, with its contents as they stand, and
clears its pending flag or sets the pace told; a frame that R120 or the unit state holds back does not start. The
indicator row shows keyboard word, lock code while LOCKED, INS, HELD and bulletin at their columns. -/
def Obligations.DueFramesStartWithTheirContents : Prop :=
  ∀ (s : State) (i : StationNo) (t : Station) (d : Display), t = s.st i → d = t.display →
    (t.AtBoundary → ¬ t.PaceIsTold → exec (.paceFrame i) s = .next (s.setSt i { t with
        port := { t.port with
          onLine := some (Frame.onLine ⟨if t.engine.pacing then 0x35 else 0x36, stationByte i, []⟩) }
        display := { d with paceTold := if t.engine.pacing then .pace else .unpace } }))
      ∧ (t.AtBoundary → t.PaceIsTold → d.unit = .ready →
        (d.soundPending = true → exec (.soundFrame i) s = .next (s.setSt i { t with
            port := { t.port with onLine := some (Frame.onLine ⟨0x34, stationByte i, []⟩) }
            display := { d with soundPending := false } }))
        ∧ (d.soundPending = false → d.indicatorPending = true → ∃ row : List Byte, row.length = 80
          ∧ exec (.indicatorFrame i) s = .next (s.setSt i { t with
            port := { t.port with onLine := some (Frame.onLine ⟨0x33, stationByte i, row⟩) }
            display := { d with indicatorPending := false } })
          ∧ ∀ col, col < 80 → row[col]? = some (
              if col < 5 then (keyboardWord t.engine.kb).getD col 0x20
              else if 6 ≤ col ∧ col < 19 ∧ t.engine.kb = .locked then (lockWord t.engine.lockCode).getD (col - 6) 0x20
              else if 20 ≤ col ∧ col < 23 ∧ t.engine.insert = true then [0x49, 0x4E, 0x53].getD (col - 20) 0x20
              else if 24 ≤ col ∧ col < 28 ∧ s.held.any (fun h => h.station = i) = true
                then [0x48, 0x45, 0x4C, 0x44].getD (col - 24) 0x20
              else if 48 ≤ col then t.bulletin.getD (col - 48) 0x20
              else 0x20))
        ∧ (d.soundPending = false → d.indicatorPending = false → d.run = none → d.dirty = [] → d.cursorPending = true →
          exec (.cursorFrame i) s = .next (s.setSt i { t with
            port := { t.port with onLine := some (Frame.onLine ⟨0x32, stationByte i,
              [byteOf (t.front.cursor / 80), byteOf (t.front.cursor % 80)]⟩) }
            display := { d with cursorPending := false } })))
      ∧ ((¬ t.AtBoundary ∨ t.PaceIsTold) → exec (.paceFrame i) s = .next s)
      ∧ ((¬ t.AtBoundary ∨ ¬ t.PaceIsTold ∨ d.unit ≠ .ready) →
        exec (.soundFrame i) s = .next s ∧ exec (.indicatorFrame i) s = .next s ∧ exec (.runFrameStart i) s = .next s
          ∧ exec (.cursorFrame i) s = .next s)
      ∧ (d.soundPending = true →
        exec (.indicatorFrame i) s = .next s ∧ exec (.runFrameStart i) s = .next s ∧ exec (.cursorFrame i) s = .next s)
      ∧ (d.indicatorPending = true → exec (.runFrameStart i) s = .next s ∧ exec (.cursorFrame i) s = .next s)
      ∧ (d.run ≠ none → exec (.runFrameStart i) s = .next s ∧ exec (.cursorFrame i) s = .next s)
      ∧ (d.dirty ≠ [] → exec (.cursorFrame i) s = .next s)

/-- R122 to R125, R138: when a RUN is due, the run starts at the first dirty cell after the last-written position, holds
the dirty cells that follow within the column group, takes them out of the dirty set as they appear, and carries the run
number and, unless it follows on, a position order. A fault request counts down, or falls on this frame: CHECK inverts
its check, DROP keeps it off the line and starts its timer. Nothing else changes. -/
def Obligations.RunFrameTakesTheDirtyCells : Prop :=
  ∀ (s : State) (i : StationNo) (t : Station) (d : Display) (first n : Nat) (cells : List Cell) (body : List Byte),
    t = s.st i → d = t.display → t.AtBoundary → t.PaceIsTold → d.unit = .ready → d.soundPending = false →
    d.indicatorPending = false → d.run = none → d.DirtyLawful → d.RunStartsAt first → d.RunHolds first n →
    cells = (List.range n).map (fun k => t.shown (first + k)) →
    body = (if d.lastWritten.map (fun w => (w + 1) % 1600) = some first then [byteOf d.runNumber, 0]
        else [byteOf d.runNumber, 1, byteOf (first / 80), byteOf (first % 80)])
      ++ cells.flatMap (fun c => [c.ch, emphasisByte c.emph]) →
    exec (.runFrameStart i) s = .next (s.setSt i { t with
        display := { d with
          dirty := d.dirty.filter fun j => !(decide (first ≤ j) && decide (j < first + n))
          run := some { number := d.runNumber, first := first, cells := cells,
                        dropped := decide (d.fault = some ⟨0, .drop⟩), remaining := d.runTimeout,
                        timer := if d.fault = some ⟨0, .drop⟩ then .running else .suspended }
          runNumber := (d.runNumber + 1) % 16
          fault := match d.fault with
            | some ⟨k + 1, kind⟩ => some ⟨k, kind⟩
            | _ => none }
        port := if d.fault = some ⟨0, .drop⟩ then t.port
          else if d.fault = some ⟨0, .check⟩ then { t.port with
            onLine := some ⟨⟨0x31, stationByte i, body⟩, ~~~ frameCheck (Frame.covered ⟨0x31, stationByte i, body⟩)⟩ }
          else { t.port with onLine := some (Frame.onLine ⟨0x31, stationByte i, body⟩) } })
      ∧ n ≤ 16

/-- R120, R125, R132, R148: when the frame on the downstream line ends, the line is at a boundary with no silence yet, and
the timer of a run whose frame it was runs, unless the unit is in HOLD. After 1 ms of silence an IDLE mark starts,
outside a test or in a NEAR one (log entry 24). Nothing else changes. -/
def Obligations.FramesEndAndIdleMarksFillSilence : Prop :=
  ∀ (s : State) (i : StationNo) (t : Station), t = s.st i →
    (∀ l, t.port.onLine = some l → exec (.downstreamFrameEnd i) s = .next (s.setSt i { t with
        port := { t.port with onLine := none, silence := 0, preTest := false }
        display := { t.display with
          run := if l.frame.kind = 0x31
            then t.display.run.map fun r =>
              { r with timer := if t.display.unit = .hold then .suspended else .running }
            else t.display.run } }))
      ∧ (t.port.onLine = none → t.port.silence = 1 →
        (t.port.takenByTest = false ∨ (t.lcu.state = .running ∧ t.lcu.mode = .near)) →
        exec (.idleMarkSend i) s = .next (s.setSt i { t with
          port := { t.port with onLine := some (Frame.onLine ⟨0x20, stationByte i, []⟩) } }))
      ∧ ((t.port.onLine ≠ none ∨ t.port.silence = 0
          ∨ (t.port.takenByTest = true ∧ ¬ (t.lcu.state = .running ∧ t.lcu.mode = .near))) →
        exec (.idleMarkSend i) s = .next s)

/-! ### Presence (R151 to R155) -/

/-- R151, R155: an interval that closes is counted live or dead within its window, a dead run of 20 being a long gap; none
is counted while a test suspends the monitor, and the interval a test ended in gives way to a fresh window (log entry
10). A 64th interval closed awaits its judgement. Nothing else changes. R152: when the 64th interval of a window has
closed, the window is judged by the presence at that moment, and a new one begins. R153, R154: a station lost becomes
ABSENT, with the unit NOT-READY, the Display Writer invalidated, the pace told UNKNOWN and lost-seen set; one that is
back becomes PRESENT, with back-seen set; either raises STATION-CHANGE. Nothing else changes. -/
def Obligations.IntervalsAndWindowsAreJudged : Prop :=
  (∀ (s : State) (i : StationNo) (m : Monitor), m = (s.st i).monitor →
    (m.suspended = true → exec (.intervalClose i) s = .next s)
      ∧ (m.suspended = false → m.awaiting = true → exec (.intervalClose i) s = .next (s.setSt i { s.st i with
        monitor := { m with
          position := 0, live := false, liveCount := 0, deadRun := 0, longGap := false, awaiting := false } }))
      ∧ (m.suspended = false → m.awaiting = false → m.position < 64 →
        (m.live = true → exec (.intervalClose i) s = .next (s.setSt i { s.st i with
          monitor := { m with
            position := m.position + 1, live := false, liveCount := m.liveCount + 1, deadRun := 0 } }))
        ∧ (m.live = false → exec (.intervalClose i) s = .next (s.setSt i { s.st i with
          monitor := { m with
            position := m.position + 1, deadRun := m.deadRun + 1
            longGap := if m.deadRun + 1 = 20 then true else m.longGap } })))
      ∧ (m.suspended = false → m.awaiting = false → m.position = 64 → exec (.intervalClose i) s = .next s))
    ∧ (∀ (s : State) (i : StationNo) (t : Station) (fresh : Presence → Monitor), t = s.st i →
    (fresh = fun p => { t.monitor with
      presence := p, position := 0, liveCount := 0, deadRun := 0, longGap := false }) →
    t.monitor.position = 64 → t.monitor.suspended = false → t.monitor.awaiting = false →
    (t.monitor.presence = .present → t.monitor.liveCount = 0 → exec (.windowEnd i) s = .next { s.setSt i { t with
          monitor := fresh .absent
          display := { t.display.invalidate with unit := .notReady, paceTold := .unknown }
          port := { t.port with lostSeen := true } } with
        notices := s.notices.raiseStationChange i .absent })
      ∧ (t.monitor.presence = .present → 1 ≤ t.monitor.liveCount →
        exec (.windowEnd i) s = .next (s.setSt i { t with monitor := fresh .present }))
      ∧ (t.monitor.presence = .absent → 16 ≤ t.monitor.liveCount → t.monitor.longGap = false →
        exec (.windowEnd i) s = .next { s.setSt i { t with
          monitor := fresh .present, port := { t.port with backSeen := true } } with
        notices := s.notices.raiseStationChange i .present })
      ∧ (t.monitor.presence = .absent → (t.monitor.liveCount < 16 ∨ t.monitor.longGap = true) →
        exec (.windowEnd i) s = .next (s.setSt i { t with monitor := fresh .absent })))

/-! ### The Line Check Unit (R161 to R166) -/

/-- R161, R162, R163, R149: in NEAR the next pattern byte, after injection, is fed to the checker; in ECHO it is placed
downstream and an upstream byte is read by the checker; in RETURN an upstream byte is placed downstream after injection,
or discarded while the frame of R160 is ending. A placed byte is counted, and injected if the rate or single pending
marks it; with rate NONE the position count only goes on (log entry 19). The first byte follows the frame of R160, in
NEAR too (log entry 11); the silence time goes back to 0 at a placed byte (log entry 25); genPos and placed are the
model's items (log entry 12). While a test has the line, upstream bytes go to it one by one, by its mode, whatever frame
they spell (log entry 7). Nothing else changes. -/
def Obligations.TestBytesFollowTheMode : Prop :=
  ∀ (s : State) (i : StationNo) (t : Station) (l : Lcu) (byRate : Bool) (inject : Byte → Byte) (placed : Lcu)
      (pattern : Byte) (pos : Nat),
    t = s.st i → l = t.lcu →
    byRate = (match l.rate with | some n => decide (l.posCount + 1 = 10 ^ n) | none => false) →
    (inject = fun b => if byRate = true ∨ l.single = true then 255 - b else b) →
    placed = { l with
      posCount := if byRate = true then 0 else l.posCount + 1
      single := false
      sent := min 4294967295 (l.sent + 1) } →
    pattern = (match l.pattern with | .count => byteOf l.genPos | .repeated bytes => bytes.getD l.genPos 0) →
    pos = (match l.pattern with | .count => (l.genPos + 1) % 256 | .repeated bytes => (l.genPos + 1) % bytes.length) →
    l.state = .running →
    (l.mode = .near → t.port.preTest = false → exec (.testBytePlaced i) s = .next (s.setSt i { t with
        lcu := { placed.read (inject pattern) with genPos := pos } }))
      ∧ (l.mode = .echo → t.port.preTest = false → exec (.testBytePlaced i) s = .next (s.setSt i { t with
        lcu := { placed with placed := some (inject pattern), genPos := pos }
        port := { t.port with silence := 0 } }))
      ∧ (t.port.preTest = true → exec (.testBytePlaced i) s = .next s)
      ∧ ∀ b, (l.mode = .echo → exec (.testUpstreamByte i b) s = .next (s.setSt i { t with lcu := l.read b }))
        ∧ (l.mode = .ret → t.port.preTest = false → exec (.testReturnByte i b) s = .next (s.setSt i { t with
          lcu := { placed with placed := some (inject b) }
          port := { t.port with silence := 0 } }))
        ∧ (l.mode = .ret → t.port.preTest = true → exec (.testReturnByte i b) s = .next s)
        ∧ (t.port.takenByTest = true → ∀ bytes : List Byte,
          exec (.upstreamBadFrame i []) s = .next s
          ∧ (l.mode = .near → exec (.upstreamBadFrame i bytes) s = .next s)
          ∧ (l.mode = .echo → ∃ u, exec (.testUpstreamByte i b) s = .next u
            ∧ exec (.upstreamBadFrame i (b :: bytes)) s = exec (.upstreamBadFrame i bytes) u)
          ∧ (l.mode = .ret → ∃ u, exec (.testReturnByte i b) s = .next u
            ∧ exec (.upstreamBadFrame i (b :: bytes)) s = exec (.upstreamBadFrame i bytes) u)
          ∧ ∀ item kind : Byte,
            exec (.keyFrameDelivery i item b) s = exec (.upstreamBadFrame i (Frame.mk 0x21 item [b]).onLine.bytes) s
            ∧ exec (.scanFrameDelivery i item b bytes) s
              = exec (.upstreamBadFrame i (Frame.mk 0x22 item (b :: bytes)).onLine.bytes) s
            ∧ exec (.unitReady i item) s = exec (.upstreamBadFrame i (Frame.mk 0x23 item [1]).onLine.bytes) s
            ∧ exec (.unitHold i item) s = exec (.upstreamBadFrame i (Frame.mk 0x23 item [2]).onLine.bytes) s
            ∧ exec (.unitResync i item) s = exec (.upstreamBadFrame i (Frame.mk 0x23 item [3]).onLine.bytes) s
            ∧ exec (.unitRunOk i item b) s = exec (.upstreamBadFrame i (Frame.mk 0x23 item [4, b]).onLine.bytes) s
            ∧ exec (.unitRunBad i item) s = exec (.upstreamBadFrame i (Frame.mk 0x23 item [5]).onLine.bytes) s
            ∧ exec (.upstreamIdle i item) s = exec (.upstreamBadFrame i (Frame.mk 0x20 item []).onLine.bytes) s
            ∧ exec (.upstreamRefusedFrame i item kind bytes) s
              = exec (.upstreamBadFrame i (Frame.mk kind item bytes).onLine.bytes) s)

/-- R164 to R166: the checker predicts and aligns in HUNT and enters SYNC, its record empty, at 16 correct predictions in
a row; in SYNC it compares, counts, records the last 16 results and advances whatever was read; with 4 errors in the
record it loses SYNC and reads that byte as the first in HUNT. Nothing else of the unit changes. -/
def Obligations.CheckerHuntsAndCompares : Prop :=
  ∀ (l : Lcu) (b : Byte) (c : Checker), c = l.checker →
    (c.sync = false → l.pattern = .count →
        (c.expected = none → l.read b = { l with checker := { c with expected := some (b + 1) } })
        ∧ (∀ e, c.expected = some e → b ≠ e → c.correct < 16 →
          l.read b = { l with checker := { c with expected := some (b + 1), correct := 0 } })
        ∧ (∀ e, c.expected = some e → b = e → c.correct + 1 < 16 →
          l.read b = { l with checker := { c with expected := some (b + 1), correct := c.correct + 1 } })
        ∧ (∀ e, c.expected = some e → b = e → c.correct + 1 = 16 →
          l.read b = { l with checker := { c with
            expected := some (b + 1), correct := 16, sync := true, record := [] } }))
      ∧ (∀ bytes, c.sync = false → l.pattern = .repeated bytes →
        ((c.aligned = false ∨ b ≠ bytes.getD c.position 0) → b = bytes.getD 0 0 →
          l.read b = { l with checker :=
            { c with aligned := true, position := 1 % bytes.length, correct := 0 } })
        ∧ (c.aligned = false → b ≠ bytes.getD 0 0 → l.read b = l)
        ∧ (c.aligned = true → b ≠ bytes.getD c.position 0 → b ≠ bytes.getD 0 0 →
          l.read b = { l with checker := { c with aligned := false, correct := 0 } })
        ∧ (c.aligned = true → b = bytes.getD c.position 0 → c.correct + 1 < 16 →
          l.read b = { l with checker := { c with
            correct := c.correct + 1, position := (c.position + 1) % bytes.length } })
        ∧ (c.aligned = true → b = bytes.getD c.position 0 → c.correct + 1 = 16 →
          l.read b = { l with checker := { c with
            correct := 16, position := (c.position + 1) % bytes.length, sync := true, record := [] } }))
      ∧ ∀ e record counted, c.sync = true →
        ((l.pattern = .count ∧ c.expected = some e)
          ∨ ∃ bytes, l.pattern = .repeated bytes ∧ e = bytes.getD c.position 0) →
        record = (c.record ++ [decide (b ≠ e)]).drop (c.record.length + 1 - 16) →
        counted = { l with
          compared := min 4294967295 (l.compared + 1)
          errors := if b = e then l.errors else min 16777215 (l.errors + 1) } →
        (record.count true < 4 → l.read b = { counted with checker :=
            match l.pattern with
            | .count => { c with expected := some (e + 1), record := record }
            | .repeated bytes => { c with position := (c.position + 1) % bytes.length, record := record } })
          ∧ (4 ≤ record.count true → l.read b = { counted with
            losses := min 255 (l.losses + 1)
            checker :=
              match l.pattern with
              | .count => { c with
                  sync := false, correct := 0, record := [], aligned := false, expected := some (b + 1) }
              | .repeated bytes => { c with
                  sync := false, correct := 0, record := [], expected := none, aligned := decide (b = bytes.getD 0 0)
                  position := if b = bytes.getD 0 0 then 1 % bytes.length else c.position } })
end

