-- ==== Sys2Proof/Laws/State.lean ====
section
/-! SUPPORT. One lemma for each field and each update of the state: what reading a station or a field gives after a
station has been put back or changed. -/

namespace Sys2Proof.Machine

@[simp] theorem State.st_setSt_self (s : State) (i : StationNo) (t : Station) : (s.setSt i t).st i = t := by
  simp only [State.st, State.setSt, Vector.get, Vector.toArray_set]
  exact Array.getElem_set_self _

@[simp] theorem State.st_setSt_ne (s : State) (t : Station) {i j : StationNo} (h : j ≠ i) :
    (s.setSt i t).st j = s.st j := by
  have h' : i.val ≠ j.val := fun e => h (Fin.ext e.symm)
  simp only [State.st, State.setSt, Vector.get, Vector.toArray_set, Fin.val_cast]
  exact Array.getElem_set_ne _ _ h'

theorem State.st_setSt (s : State) (i j : StationNo) (t : Station) :
    (s.setSt i t).st j = if j = i then t else s.st j := by
  by_cases h : j = i
  · subst h; simp
  · simp [h]

@[simp] theorem State.st_modSt_self (s : State) (i : StationNo) (f : Station → Station) :
    (s.modSt i f).st i = f (s.st i) := by simp [State.modSt]

@[simp] theorem State.st_modSt_ne (s : State) (f : Station → Station) {i j : StationNo} (h : j ≠ i) :
    (s.modSt i f).st j = s.st j := by simp [State.modSt, h]

theorem State.st_modSt (s : State) (i j : StationNo) (f : Station → Station) :
    (s.modSt i f).st j = if j = i then f (s.st i) else s.st j := by simp [State.modSt, State.st_setSt]

/-- Every station of a state whose stations have all been changed alike. -/
theorem State.st_mapStations (s : State) (f : Station → Station) (i : StationNo) :
    State.st { s with stations := s.stations.map f } i = f (s.st i) := by
  simp [State.st, Vector.get]

@[simp] theorem State.setSt_hostRx (s : State) (i : StationNo) (t : Station) : (s.setSt i t).hostRx = s.hostRx := rfl
@[simp] theorem State.setSt_buffer (s : State) (i : StationNo) (t : Station) : (s.setSt i t).buffer = s.buffer := rfl
@[simp] theorem State.setSt_pause (s : State) (i : StationNo) (t : Station) : (s.setSt i t).pause = s.pause := rfl
@[simp] theorem State.setSt_tx (s : State) (i : StationNo) (t : Station) : (s.setSt i t).tx = s.tx := rfl
@[simp] theorem State.setSt_replySlot (s : State) (i : StationNo) (t : Station) :
    (s.setSt i t).replySlot = s.replySlot := rfl
@[simp] theorem State.setSt_notices (s : State) (i : StationNo) (t : Station) : (s.setSt i t).notices = s.notices := rfl
@[simp] theorem State.setSt_hostBadFrames (s : State) (i : StationNo) (t : Station) :
    (s.setSt i t).hostBadFrames = s.hostBadFrames := rfl
@[simp] theorem State.setSt_overruns (s : State) (i : StationNo) (t : Station) :
    (s.setSt i t).overruns = s.overruns := rfl
@[simp] theorem State.setSt_overrunFlag (s : State) (i : StationNo) (t : Station) :
    (s.setSt i t).overrunFlag = s.overrunFlag := rfl
@[simp] theorem State.setSt_interp (s : State) (i : StationNo) (t : Station) : (s.setSt i t).interp = s.interp := rfl
@[simp] theorem State.setSt_ring (s : State) (i : StationNo) (t : Station) : (s.setSt i t).ring = s.ring := rfl
@[simp] theorem State.setSt_held (s : State) (i : StationNo) (t : Station) : (s.setSt i t).held = s.held := rfl
@[simp] theorem State.setSt_service (s : State) (i : StationNo) (t : Station) : (s.setSt i t).service = s.service := rfl
@[simp] theorem State.setSt_freeCount (s : State) (i : StationNo) (t : Station) :
    (s.setSt i t).freeCount = s.freeCount := rfl
@[simp] theorem State.setSt_pending (s : State) (i : StationNo) (t : Station) : (s.setSt i t).pending = s.pending := rfl

@[simp] theorem State.modSt_hostRx (s : State) (i : StationNo) (f : Station → Station) :
    (s.modSt i f).hostRx = s.hostRx := rfl
@[simp] theorem State.modSt_buffer (s : State) (i : StationNo) (f : Station → Station) :
    (s.modSt i f).buffer = s.buffer := rfl
@[simp] theorem State.modSt_pause (s : State) (i : StationNo) (f : Station → Station) :
    (s.modSt i f).pause = s.pause := rfl
@[simp] theorem State.modSt_tx (s : State) (i : StationNo) (f : Station → Station) : (s.modSt i f).tx = s.tx := rfl
@[simp] theorem State.modSt_replySlot (s : State) (i : StationNo) (f : Station → Station) :
    (s.modSt i f).replySlot = s.replySlot := rfl
@[simp] theorem State.modSt_notices (s : State) (i : StationNo) (f : Station → Station) :
    (s.modSt i f).notices = s.notices := rfl
@[simp] theorem State.modSt_hostBadFrames (s : State) (i : StationNo) (f : Station → Station) :
    (s.modSt i f).hostBadFrames = s.hostBadFrames := rfl
@[simp] theorem State.modSt_overruns (s : State) (i : StationNo) (f : Station → Station) :
    (s.modSt i f).overruns = s.overruns := rfl
@[simp] theorem State.modSt_overrunFlag (s : State) (i : StationNo) (f : Station → Station) :
    (s.modSt i f).overrunFlag = s.overrunFlag := rfl
@[simp] theorem State.modSt_interp (s : State) (i : StationNo) (f : Station → Station) :
    (s.modSt i f).interp = s.interp := rfl
@[simp] theorem State.modSt_ring (s : State) (i : StationNo) (f : Station → Station) : (s.modSt i f).ring = s.ring := rfl
@[simp] theorem State.modSt_held (s : State) (i : StationNo) (f : Station → Station) : (s.modSt i f).held = s.held := rfl
@[simp] theorem State.modSt_service (s : State) (i : StationNo) (f : Station → Station) :
    (s.modSt i f).service = s.service := rfl
@[simp] theorem State.modSt_freeCount (s : State) (i : StationNo) (f : Station → Station) :
    (s.modSt i f).freeCount = s.freeCount := rfl
@[simp] theorem State.modSt_pending (s : State) (i : StationNo) (f : Station → Station) :
    (s.modSt i f).pending = s.pending := rfl

/-- Reading a station does not see the other fields of the state. -/
theorem State.st_congr {s s' : State} (h : s'.stations = s.stations) (i : StationNo) : s'.st i = s.st i := by
  simp [State.st, h]

/-- Every station right after device reset. -/
theorem State.reset_st (i : StationNo) : State.reset.st i = Station.reset := by
  simp [State.st, State.reset, Vector.get]

end Sys2Proof.Machine
end

