-- ==== Sys2Proof/Laws/Store.lean ====
section
/-! SUPPORT. The sparse stores: what a read gives after a write, and that every write keeps the canonical form. -/

namespace Sys2Proof.Machine

variable {α : Type}

theorem Sparse.read_add (d : α) (k j : Nat) (v : α) (m : Sparse α) (h : ∀ e ∈ m, e.1 ≠ k) :
    Sparse.read d j (Sparse.add k v m) = if k = j then v else Sparse.read d j m := by
  induction m with
  | nil => simp [Sparse.add, Sparse.read]
  | cons e m ih =>
    obtain ⟨i, w⟩ := e
    have hi : i ≠ k := h (i, w) (by simp)
    have hm : ∀ e ∈ m, e.1 ≠ k := fun e he => h e (List.mem_cons_of_mem _ he)
    by_cases hk : k < i
    · simp [Sparse.add, hk, Sparse.read]
    · simp only [Sparse.add, hk, if_false, Sparse.read, ih hm]
      by_cases hij : i = j
      · subst hij; simp [Ne.symm hi]
      · simp [hij]

theorem Sparse.read_filter (d : α) (k j : Nat) (m : Sparse α) :
    Sparse.read d j (m.filter fun e => e.1 != k) = if k = j then d else Sparse.read d j m := by
  induction m with
  | nil => simp [Sparse.read]
  | cons e m ih =>
    obtain ⟨i, w⟩ := e
    by_cases hik : i = k
    · subst hik
      by_cases hij : i = j
      · subst hij; simpa [Sparse.read] using ih
      · simpa [Sparse.read, hij] using ih
    · have : (i != k) = true := by simpa using hik
      simp only [List.filter_cons, this, if_true, Sparse.read]
      by_cases hij : i = j
      · subst hij; simp [Ne.symm hik]
      · simp [hij, ih]

/-- A read after a write: the value written at the index, and what stood there at every other. -/
theorem Sparse.read_write [DecidableEq α] (d : α) (k j : Nat) (v : α) (m : Sparse α) :
    Sparse.read d j (Sparse.write d k v m) = if k = j then v else Sparse.read d j m := by
  unfold Sparse.write
  by_cases hv : v = d
  · simp [hv, Sparse.read_filter]
  · have h : ∀ e ∈ m.filter (fun e => e.1 != k), e.1 ≠ k := by
      intro e he; simpa using (List.mem_filter.mp he).2
    simp only [hv, if_false, Sparse.read_add d k j v _ h, Sparse.read_filter]
    split <;> rfl

/-- A read after writing a list of values from an index on. -/
theorem Sparse.read_writeAll [DecidableEq α] (d : α) (vs : List α) (k j : Nat) (m : Sparse α) :
    Sparse.read d j (Sparse.writeAll d k vs m)
      = if k ≤ j ∧ j < k + vs.length then vs.getD (j - k) d else Sparse.read d j m := by
  induction vs generalizing k m with
  | nil =>
    have : ¬ (k ≤ j ∧ j < k + ([] : List α).length) := by simp
    rw [if_neg this]; rfl
  | cons v vs ih =>
    simp only [Sparse.writeAll, ih, Sparse.read_write, List.length_cons]
    by_cases h1 : k + 1 ≤ j ∧ j < k + 1 + vs.length
    · rw [if_pos h1, if_pos (by omega)]
      have : j - k = (j - (k + 1)) + 1 := by omega
      rw [this]; simp
    · rw [if_neg h1]
      by_cases h2 : k = j
      · subst h2; simp
      · rw [if_neg h2, if_neg (by omega)]

theorem Sparse.mem_add {k : Nat} {v : α} {m : Sparse α} {e : Nat × α} :
    e ∈ Sparse.add k v m ↔ e = (k, v) ∨ e ∈ m := by
  induction m with
  | nil => simp [Sparse.add]
  | cons x m ih =>
    obtain ⟨i, w⟩ := x
    by_cases hk : k < i
    · simp [Sparse.add, hk]
    · simp only [Sparse.add, hk, if_false, List.mem_cons, ih]; tauto

theorem Sparse.pairwise_add {k : Nat} {v : α} {m : Sparse α} (h : List.Pairwise (fun a b => a.1 < b.1) m)
    (hk : ∀ e ∈ m, e.1 ≠ k) : List.Pairwise (fun a b => a.1 < b.1) (Sparse.add k v m) := by
  induction m with
  | nil => simp [Sparse.add]
  | cons x m ih =>
    obtain ⟨i, w⟩ := x
    obtain ⟨h1, h2⟩ := List.pairwise_cons.mp h
    have hi : i ≠ k := hk (i, w) (by simp)
    by_cases hki : k < i
    · simp only [Sparse.add, hki, if_true]
      refine List.pairwise_cons.mpr ⟨?_, h⟩
      intro e he
      rcases List.mem_cons.mp he with rfl | he
      · exact hki
      · exact lt_trans hki (h1 e he)
    · simp only [Sparse.add, hki, if_false]
      refine List.pairwise_cons.mpr ⟨?_, ih h2 fun e he => hk e (List.mem_cons_of_mem _ he)⟩
      intro e he
      rcases Sparse.mem_add.mp he with rfl | he
      · show i < k; omega
      · exact h1 e he

/-- A write keeps the canonical form. -/
theorem Sparse.wf_write [DecidableEq α] {d : α} {m : Sparse α} (h : Sparse.Wf d m) (k : Nat) (v : α) :
    Sparse.Wf d (Sparse.write d k v m) := by
  have hf : Sparse.Wf d (m.filter fun e => e.1 != k) :=
    ⟨h.1.filter _, fun e he => h.2 e (List.mem_filter.mp he).1⟩
  unfold Sparse.write
  by_cases hv : v = d
  · simpa [hv] using hf
  · simp only [hv, if_false]
    refine ⟨Sparse.pairwise_add hf.1 fun e he => by simpa using (List.mem_filter.mp he).2, ?_⟩
    intro e he
    rcases Sparse.mem_add.mp he with rfl | he
    · exact hv
    · exact hf.2 e he

/-- Writing a list of values keeps the canonical form. -/
theorem Sparse.wf_writeAll [DecidableEq α] {d : α} (vs : List α) (k : Nat) {m : Sparse α} (h : Sparse.Wf d m) :
    Sparse.Wf d (Sparse.writeAll d k vs m) := by
  induction vs generalizing k m with
  | nil => exact h
  | cons v vs ih => exact ih (k + 1) (Sparse.wf_write h k v)

/-- Writing round a ring keeps the canonical form. -/
theorem Sparse.wf_writeRing [DecidableEq α] {d : α} (size : Nat) (vs : List α) (k : Nat) {m : Sparse α}
    (h : Sparse.Wf d m) : Sparse.Wf d (Sparse.writeRing d size k vs m) := by
  induction vs generalizing k m with
  | nil => exact h
  | cons v vs ih => exact ih ((k + 1) % size) (Sparse.wf_write h k v)

/-- An index below every listed one is not listed. -/
theorem Sparse.read_of_lt [DecidableEq α] {d : α} {k : Nat} {m : Sparse α} (h : ∀ e ∈ m, k < e.1) :
    Sparse.read d k m = d := by
  induction m with
  | nil => rfl
  | cons e m ih =>
    obtain ⟨i, w⟩ := e
    have : k < i := h (i, w) (by simp)
    simp only [Sparse.read]
    rw [if_neg (by omega), ih fun e he => h e (List.mem_cons_of_mem _ he)]

end Sys2Proof.Machine
end

