-- ==== Sys2Proof/Laws/Paint.lean ====
section
/-! SUPPORT. What the shared operations on the display do: which indexes the dirty set holds after a change, and that
a change of FRONT puts every altered cell into it (R19). -/

namespace Sys2Proof.Machine

/-- 00_scope.md: the cell indexes are 0 to 1599. -/
@[simp] theorem mem_allCells {k : Nat} : k ∈ allCells ↔ k < 1600 := by unfold allCells; exact List.mem_range

theorem pairwise_allCells : allCells.Pairwise (· < ·) := by
  unfold allCells; exact List.pairwise_lt_range

/-- R119: the members after indexes have joined. -/
@[simp] theorem mem_joinIndexes {dirty : List Nat} {more : Nat → Bool} {k : Nat} :
    k ∈ joinIndexes dirty more ↔ k < 1600 ∧ (k ∈ dirty ∨ more k = true) := by
  simp [joinIndexes]

/-- R119: the dirty set stays ascending and free of duplicates. -/
theorem pairwise_joinIndexes (dirty : List Nat) (more : Nat → Bool) : (joinIndexes dirty more).Pairwise (· < ·) :=
  List.Pairwise.filter _ pairwise_allCells

/-! ### What `joinDirty` and `repainted` leave alone -/

@[simp] theorem Station.joinDirty_front (t : Station) (m : Nat → Bool) : (t.joinDirty m).front = t.front := rfl
@[simp] theorem Station.joinDirty_back (t : Station) (m : Nat → Bool) : (t.joinDirty m).back = t.back := rfl
@[simp] theorem Station.joinDirty_grant (t : Station) (m : Nat → Bool) : (t.joinDirty m).grant = t.grant := rfl
@[simp] theorem Station.joinDirty_engine (t : Station) (m : Nat → Bool) : (t.joinDirty m).engine = t.engine := rfl
@[simp] theorem Station.joinDirty_port (t : Station) (m : Nat → Bool) : (t.joinDirty m).port = t.port := rfl
@[simp] theorem Station.joinDirty_monitor (t : Station) (m : Nat → Bool) : (t.joinDirty m).monitor = t.monitor := rfl
@[simp] theorem Station.joinDirty_lcu (t : Station) (m : Nat → Bool) : (t.joinDirty m).lcu = t.lcu := rfl
@[simp] theorem Station.joinDirty_dirty (t : Station) (m : Nat → Bool) :
    (t.joinDirty m).display.dirty = joinIndexes t.display.dirty m := rfl
@[simp] theorem Station.joinDirty_run (t : Station) (m : Nat → Bool) :
    (t.joinDirty m).display.run = t.display.run := by simp only [Station.joinDirty]
@[simp] theorem Station.joinDirty_confirmed (t : Station) (m : Nat → Bool) :
    (t.joinDirty m).display.confirmed = t.display.confirmed := by simp only [Station.joinDirty]

@[simp] theorem Station.repainted_front (t t' : Station) : (t.repainted t').front = t'.front := rfl
@[simp] theorem Station.repainted_back (t t' : Station) : (t.repainted t').back = t'.back := rfl
@[simp] theorem Station.repainted_grant (t t' : Station) : (t.repainted t').grant = t'.grant := rfl
@[simp] theorem Station.repainted_engine (t t' : Station) : (t.repainted t').engine = t'.engine := rfl
@[simp] theorem Station.repainted_port (t t' : Station) : (t.repainted t').port = t'.port := rfl
@[simp] theorem Station.repainted_monitor (t t' : Station) : (t.repainted t').monitor = t'.monitor := rfl
@[simp] theorem Station.repainted_lcu (t t' : Station) : (t.repainted t').lcu = t'.lcu := rfl
@[simp] theorem Station.repainted_dirty (t t' : Station) :
    (t.repainted t').display.dirty = joinIndexes t'.display.dirty fun i => t.shown i != t'.shown i := rfl
@[simp] theorem Station.repainted_run (t t' : Station) : (t.repainted t').display.run = t'.display.run :=
  Station.joinDirty_run _ _
@[simp] theorem Station.repainted_confirmed (t t' : Station) :
    (t.repainted t').display.confirmed = t'.display.confirmed := Station.joinDirty_confirmed _ _

/-- R4: what a station shows depends on its FRONT page and its highlight alone. -/
theorem Station.shown_congr {t t' : Station} (hf : t'.front = t.front) (hh : t'.highlight = t.highlight) (k : Nat) :
    t'.shown k = t.shown k := by simp [Station.shown, hf, hh]

/-- R5: the highlight depends on the keyboard state and the lock record alone. -/
theorem Station.highlight_congr {t t' : Station} (hk : t'.engine.kb = t.engine.kb)
    (ht : t'.engine.lockTag = t.engine.lockTag) : t'.highlight = t.highlight := by simp [Station.highlight, hk, ht]

@[simp] theorem Station.joinDirty_shown (t : Station) (m : Nat → Bool) (k : Nat) :
    (t.joinDirty m).shown k = t.shown k :=
  Station.shown_congr (Station.joinDirty_front t m) (Station.highlight_congr (by simp) (by simp)) k

@[simp] theorem Station.repainted_shown (t t' : Station) (k : Nat) : (t.repainted t').shown k = t'.shown k :=
  Station.joinDirty_shown _ _ k

/-! ### Repainting -/

/-- R19: no cell leaves the dirty set, and every FRONT cell that appears otherwise joins it; the run in flight and
the confirmed copy stay. -/
structure Repaints (t t' : Station) : Prop where
  keeps : ∀ k, k < 1600 → k ∈ t.display.dirty → k ∈ t'.display.dirty
  joins : ∀ k, k < 1600 → t'.shown k ≠ t.shown k → k ∈ t'.display.dirty
  run : t'.display.run = t.display.run
  confirmed : t'.display.confirmed = t.display.confirmed

theorem Repaints.refl (t : Station) : Repaints t t := ⟨fun _ _ h => h, fun _ _ h => absurd rfl h, rfl, rfl⟩

theorem Repaints.trans {a b c : Station} (h : Repaints a b) (g : Repaints b c) : Repaints a c where
  keeps k hk hm := g.keeps k hk (h.keeps k hk hm)
  joins k hk hne := by
    by_cases hb : c.shown k = b.shown k
    · exact g.keeps k hk (h.joins k hk (by rwa [hb] at hne))
    · exact g.joins k hk hb
  run := g.run.trans h.run
  confirmed := g.confirmed.trans h.confirmed

/-- A change that leaves the page, the highlight and the display's cells alone repaints nothing. -/
theorem Repaints.of_same {t t' : Station} (hf : t'.front = t.front) (hh : t'.highlight = t.highlight)
    (hd : t'.display.dirty = t.display.dirty) (hr : t'.display.run = t.display.run)
    (hc : t'.display.confirmed = t.display.confirmed) : Repaints t t' :=
  ⟨fun k _ h => by rwa [hd], fun k _ h => absurd (Station.shown_congr hf hh k) h, hr, hc⟩

/-- R19: `repainted` puts every altered cell into the dirty set. -/
theorem Repaints.repainted {t t' : Station} (hd : t'.display.dirty = t.display.dirty)
    (hr : t'.display.run = t.display.run) (hc : t'.display.confirmed = t.display.confirmed) :
    Repaints t (t.repainted t') := by
  refine ⟨fun k hk h => ?_, fun k hk h => ?_, by rw [Station.repainted_run, hr],
    by rw [Station.repainted_confirmed, hc]⟩
  · rw [Station.repainted_dirty, mem_joinIndexes, hd]; exact ⟨hk, .inl h⟩
  · rw [Station.repainted_shown] at h
    rw [Station.repainted_dirty, mem_joinIndexes]
    exact ⟨hk, .inr (by simpa using Ne.symm h)⟩

/-- R119: indexes that join the dirty set repaint nothing else. -/
theorem Repaints.joinDirty (t : Station) (more : Nat → Bool) : Repaints t (t.joinDirty more) :=
  ⟨fun k hk h => by rw [Station.joinDirty_dirty, mem_joinIndexes]; exact ⟨hk, .inl h⟩,
    fun k _ h => absurd (Station.joinDirty_shown t more k) h, Station.joinDirty_run t more,
    Station.joinDirty_confirmed t more⟩

theorem Repaints.withFront (t : Station) (p : Page) : Repaints t (t.withFront p) :=
  Repaints.repainted rfl rfl rfl

theorem Repaints.promote (t : Station) (hit : Field → Bool) : Repaints t (t.promote hit) :=
  (Repaints.withFront t _).trans (Repaints.joinDirty _ _)

theorem Repaints.releaseShadows (t : Station) : Repaints t t.releaseShadows := Repaints.promote t _

theorem Repaints.promoteAll (t : Station) : Repaints t t.promoteAll := Repaints.promote t _

/-- Fields, shadows and marks of FRONT that show nothing may change without repainting: same cells, same fields'
places, tags and emphases. -/
theorem Repaints.of_shown {t t' : Station} (hs : ∀ k, k < 1600 → t'.shown k = t.shown k)
    (hd : t'.display.dirty = t.display.dirty) (hr : t'.display.run = t.display.run)
    (hc : t'.display.confirmed = t.display.confirmed) : Repaints t t' :=
  ⟨fun k _ h => by rwa [hd], fun k hk h => absurd (hs k hk) h, hr, hc⟩

theorem Repaints.moveCursor (t : Station) (dest : Nat) : Repaints t (t.moveCursor dest) := by
  unfold Station.moveCursor
  split
  · exact Repaints.refl t
  · exact Repaints.trans (b := { t with
      front := { t.front with cursor := dest }, display := { t.display with cursorPending := true } })
      (Repaints.of_shown (fun k _ => rfl) rfl rfl rfl) (Repaints.releaseShadows _)

theorem Repaints.enterLocked (t : Station) (code : LockCode) (tag : Option Nat) :
    Repaints t (t.enterLocked code tag) := Repaints.repainted rfl rfl rfl

theorem Repaints.openKeyboard (t : Station) : Repaints t t.openKeyboard := by
  unfold Station.openKeyboard
  split
  · exact Repaints.refl t
  · exact Repaints.repainted rfl rfl rfl

theorem Repaints.blankOpenFront (t : Station) : Repaints t t.blankOpenFront :=
  (Repaints.withFront t _).trans (Repaints.releaseShadows _)

theorem Repaints.flip (t : Station) : Repaints t t.flip :=
  (Repaints.promoteAll t).trans (Repaints.repainted rfl rfl rfl)

/-- A change of fields that leaves their places, tags and emphases leaves what FRONT shows. -/
theorem Page.shown_mapFields (p : Page) (hit : Field → Bool) (g : Field → Field)
    (hs : ∀ f, (g f).start = f.start) (hl : ∀ f, (g f).len = f.len) (ht : ∀ f, (g f).tag = f.tag)
    (he : ∀ f, (g f).emph = f.emph) (h : Option Nat) (k : Nat) : (p.mapFields hit g).shown h k = p.shown h k := by
  have hfind : ((p.mapFields hit g).fieldAt k).map (fun f => (f.tag, f.emph))
      = (p.fieldAt k).map (fun f => (f.tag, f.emph)) := by
    simp only [Page.fieldAt, Page.mapFields]
    generalize p.fields = fs
    induction fs with
    | nil => rfl
    | cons f fs ih =>
      have hc : (if hit f = true then g f else f).covers k = f.covers k := by
        by_cases hh : hit f = true <;> simp [hh, Field.covers, hs, hl]
      simp only [List.map_cons, List.find?_cons, hc]
      split
      · by_cases hh : hit f = true <;> simp [hh, ht, he]
      · exact ih
  have hcell : (p.mapFields hit g).cell k = p.cell k := rfl
  simp only [Page.shown, Page.shownEmphasis, hcell]
  cases h1 : (p.mapFields hit g).fieldAt k <;> cases h2 : p.fieldAt k <;> simp_all

end Sys2Proof.Machine
end

