-- ==== Sys2Proof/Laws/Moves.lean ====
section
/-! SUPPORT. What a step can do to a station, said once: a sequence of moves, each one of the shared operations with
what holds when it is made. An invariant of a station is proved by one case for each move (and device reset). -/

namespace Sys2Proof.Machine

/-- A run without its timer. -/
def Run.carried (r : Run) : Nat × List Cell := (r.first, r.cells)

/-- A change of what the laws of a station do not read. -/
structure Quiet (t t' : Station) : Prop where
  front : t'.front = t.front
  back : t'.back = t.back
  grant : t'.grant = t.grant
  kb : t'.engine.kb = t.engine.kb
  lockCode : t'.engine.lockCode = t.engine.lockCode
  lockTag : t'.engine.lockTag = t.engine.lockTag
  queue : t'.engine.queue = t.engine.queue
  pacing : t'.engine.pacing = t.engine.pacing
  dirty : t'.display.dirty = t.display.dirty
  confirmed : t'.display.confirmed = t.display.confirmed
  run : t'.display.run.map Run.carried = t.display.run.map Run.carried
  presence : t'.monitor.presence = t.monitor.presence
  suspended : t'.monitor.suspended = t.monitor.suspended
  taken : t'.port.takenByTest = t.port.takenByTest
  test : t'.lcu.state = t.lcu.state

theorem Quiet.refl (t : Station) : Quiet t t := ⟨rfl, rfl, rfl, rfl, rfl, rfl, rfl, rfl, rfl, rfl, rfl, rfl, rfl, rfl, rfl⟩

/-- A change of the lines of a station alone: its port, its monitor, its test. -/
structure LineChange (t t' : Station) : Prop where
  front : t'.front = t.front
  back : t'.back = t.back
  grant : t'.grant = t.grant
  engine : t'.engine = t.engine
  display : t'.display = t.display
  run : t.RunLawful → t.TestLawful → t'.RunLawful
  test : t.TestLawful → t'.TestLawful

/-- The moves of a station; `isHeld` is its held flag when the step begins. -/
inductive Move (isHeld : Bool) : Station → Station → Prop where
  | quiet {t t' : Station} (h : Quiet t t') : Move isHeld t t'
  | lines {t t' : Station} (h : LineChange t t') : Move isHeld t t'
  | raise (t : Station) (who : Requester) : Move isHeld t { t with grant := t.grant.raise who }
  | release (t : Station) (who : Requester) : Move isHeld t { t with grant := t.grant.release who }
  | push (t : Station) (e : Event) (h : t.engine.queue.length < 32) :
      Move isHeld t { t with engine := t.engine.withQueue (t.engine.queue ++ [e]) }
  | pop (t : Station) (e : Event) (rest : List Event) (h : t.engine.queue = e :: rest) :
      Move isHeld t { t with engine := t.engine.withQueue rest }
  | lock (t : Station) (code : LockCode) (tag : Option Nat) (h : t.engine.kb = .opened) (hc : code ≠ .none)
      (ht : tag.isSome ↔ code = .badEntry ∨ code = .required) : Move isHeld t (t.enterLocked code tag)
  | unlock (t : Station) (h : t.engine.kb ≠ .waiting) : Move isHeld t t.openKeyboard
  | reopen (t : Station) (h : isHeld = false) : Move isHeld t t.openKeyboard
  | accept (t : Station) (h : t.engine.kb = .opened) : Move isHeld t t.accepted
  | edit (t : Station) (f : Field) (content : List Byte) (h : f ∈ t.front.fields) :
      Move isHeld t (t.editField f content)
  | put (t : Station) (role : Role) (f : Field) (text : List Byte) (h : f ∈ (t.page role).fields) :
      Move isHeld t (t.put role f text)
  | promote (t : Station) (hit : Field → Bool) : Move isHeld t (t.promote hit)
  | cursor (t : Station) (dest : Nat) (h : t.FormLawful → dest < 1600) : Move isHeld t (t.moveCursor dest)
  | blank (t : Station) : Move isHeld t t.blankOpenFront
  | commit (t : Station) : Move isHeld t t.committed
  | erase (t : Station) (role : Role) : Move isHeld t (t.erase role)
  | define (t : Station) (role : Role) (d : DefOperands) (h : defFault (t.page role) d = none) :
      Move isHeld t (t.withPage role ((t.page role).define d))
  | drop (t : Station) (role : Role) (f : Field) (h : f ∈ (t.page role).fields) :
      Move isHeld t (t.withPage role ((t.page role).drop f))
  | lit (t : Station) (role : Role) (pos : Nat) (e : Emphasis) (text : List Byte) :
      Move isHeld t (t.withPage role ((t.page role).lit pos e text))
  | mark (t : Station) (role : Role) (tag : Nat) : Move isHeld t (t.withPage role ((t.page role).setMark tag true))
  | blankBack (t : Station) : Move isHeld t { t with back := t.back.blankOpen }
  | backCursor (t : Station) (dest : Nat) (h : t.FormLawful → dest < 1600) :
      Move isHeld t { t with back := { t.back with cursor := dest } }
  | flip (t : Station) : Move isHeld t t.flip
  | startRun (t : Station) (i : StationNo) (first : Nat) (h : t.due = some .run)
      (hf : t.display.firstCell = some first) : Move isHeld t (t.startRun i first)
  | confirm (t : Station) (r : Run) (h : t.display.run = some r) :
      Move isHeld t { t with display := t.display.confirm r }
  | returnRun (t : Station) (r : Run) (h : t.display.run = some r) :
      Move isHeld t { t with display := t.display.returnRun r }
  | invalidate (t : Station) : Move isHeld t { t with display := t.display.invalidate }
  | resetBlocks (t : Station) : Move isHeld t t.resetBlocks

/-- Moves one after the other. -/
abbrev Moves (isHeld : Bool) : Station → Station → Prop := Relation.ReflTransGen (Move isHeld)

theorem Moves.refl {h : Bool} (t : Station) : Moves h t t := Relation.ReflTransGen.refl

theorem Move.moves {h : Bool} {t t' : Station} (m : Move h t t') : Moves h t t' := Relation.ReflTransGen.single m

theorem Quiet.moves {h : Bool} {t t' : Station} (m : Quiet t t') : Moves h t t' := (Move.quiet m).moves

theorem LineChange.moves {h : Bool} {t t' : Station} (m : LineChange t t') : Moves h t t' := (Move.lines m).moves

/-- A property that every move keeps is kept by moves one after the other. -/
theorem Moves.keeps {h : Bool} {P : Station → Prop} (hP : ∀ t t', Move h t t' → P t → P t') {t t' : Station}
    (m : Moves h t t') (ht : P t) : P t' := by
  induction m with
  | refl => exact ht
  | tail _ hm ih => exact hP _ _ hm ih

/-! ### The shared operations as moves -/

variable {h : Bool}

/-- Moves, then a quiet change. -/
theorem Moves.quiet {a b c : Station} (m : Moves h a b) (q : Quiet b c) : Moves h a c :=
  Relation.ReflTransGen.tail m (.quiet q)

theorem moves_raiseEvent (t : Station) : Moves h t t.raiseEvent := by
  unfold Station.raiseEvent
  split
  · exact (Move.raise t .engine).moves
  · exact Moves.refl t

theorem moves_finishEvent (t : Station) : Moves h t t.finishEvent := by
  have q : Quiet t { t with engine := { t.engine with taken := none } } :=
    ⟨rfl, rfl, rfl, rfl, rfl, rfl, rfl, rfl, rfl, rfl, rfl, rfl, rfl, rfl, rfl⟩
  exact (q.moves.tail (Move.release _ .engine)).trans (moves_raiseEvent _)

theorem moves_discardLocked (t : Station) : Moves h t t.discardLocked :=
  Quiet.moves ⟨rfl, rfl, rfl, rfl, rfl, rfl, rfl, rfl, rfl, rfl, rfl, rfl, rfl, rfl, rfl⟩

theorem moves_takeEvent (t : Station) : Moves h t t.takeEvent := by
  unfold Station.takeEvent
  split
  · exact moves_finishEvent t
  · exact moves_finishEvent t
  · rename_i e rest hk hq
    exact (Move.pop t e rest hq).moves.quiet ⟨rfl, rfl, rfl, rfl, rfl, rfl, rfl, rfl, rfl, rfl, rfl, rfl, rfl, rfl, rfl⟩
  · rename_i e rest hk hq
    have m : Moves h t { t with engine := t.engine.withQueue rest } := (Move.pop t e rest hq).moves
    dsimp only
    split
    · exact m.quiet ⟨rfl, rfl, rfl, rfl, rfl, rfl, rfl, rfl, rfl, rfl, rfl, rfl, rfl, rfl, rfl⟩
    · exact (m.trans (moves_discardLocked _)).trans (moves_finishEvent _)

theorem Page.fieldAt_mem {p : Page} {k : Nat} {f : Field} (h : p.fieldAt k = some f) : f ∈ p.fields :=
  List.mem_of_find?_eq_some h

theorem Page.fieldOf_mem {p : Page} {tag : Nat} {f : Field} (h : p.fieldOf tag = some f) : f ∈ p.fields :=
  List.mem_of_find?_eq_some h

theorem Page.nextField_mem {p : Page} {r : Option Nat} {f : Field} (h : p.nextField r = some f) : f ∈ p.fields := by
  cases r with
  | none => exact List.mem_of_mem_head? h
  | some r => exact List.mem_of_find?_eq_some h

/-- A field of FRONT starts on the form. -/
theorem Station.FormLawful.start_lt {t : Station} (ht : t.FormLawful) {f : Field} (hf : f ∈ t.front.fields) :
    f.start < 1600 := (ht.1.2.2.2 f hf).2.2.2.2.1

theorem moves_lockAtField (t : Station) (code : LockCode) (f : Field) (hk : t.engine.kb = .opened)
    (hc : code = .badEntry ∨ code = .required) (hf : f ∈ t.front.fields) : Moves h t (t.lockAtField code f) := by
  have hn : code ≠ .none := by rcases hc with rfl | rfl <;> decide
  refine Relation.ReflTransGen.tail (Move.lock t code (some f.tag) hk hn (by simpa using hc)).moves ?_
  exact Move.cursor _ f.start fun ht => ht.start_lt hf

theorem moves_keyMove (t : Station) (dest : Nat) (hk : t.engine.kb = .opened) (hd : t.FormLawful → dest < 1600) :
    Moves h t (t.keyMove dest) := by
  unfold Station.keyMove
  split
  · exact (Move.cursor t dest hd).moves
  · rename_i f hf
    split
    · exact moves_lockAtField t .badEntry f hk (.inl rfl) (Page.fieldAt_mem hf)
    · exact (Move.cursor t dest hd).moves

theorem shifted_lt (cursor distance : Nat) : shifted cursor distance < 1600 := Nat.mod_lt _ (by decide)

theorem Page.openFields_mem {p : Page} {f : Field} (h : f ∈ p.openFields) : f ∈ p.fields := (List.mem_filter.mp h).1

/-- A destination that is the start of a FRONT field, or 0. -/
theorem Station.FormLawful.home_lt {t : Station} (ht : t.FormLawful) : t.front.home < 1600 := by
  unfold Page.home
  cases he : t.front.openFields.head? with
  | none => simp
  | some f => simpa using ht.start_lt (Page.openFields_mem (List.mem_of_mem_head? he))

theorem Station.FormLawful.find_lt {t : Station} (ht : t.FormLawful) (q : Field → Bool) (n : Nat) (hn : n < 1600) :
    ((t.front.openFields.find? q).map Field.start).getD n < 1600 := by
  cases he : t.front.openFields.find? q with
  | none => simpa using hn
  | some f => simpa using ht.start_lt (Page.openFields_mem (List.mem_of_find?_eq_some he))

theorem Station.FormLawful.nextOpen_lt {t : Station} (ht : t.FormLawful) (i : Nat) : t.front.nextOpen i < 1600 :=
  ht.find_lt _ _ ht.home_lt

theorem Station.FormLawful.laterRowOpen_lt {t : Station} (ht : t.FormLawful) (i : Nat) :
    t.front.laterRowOpen i < 1600 := ht.find_lt _ _ ht.home_lt

theorem Station.FormLawful.backOpen_lt {t : Station} (ht : t.FormLawful) (i : Nat) : t.front.backOpen i < 1600 := by
  unfold Page.backOpen
  split
  · rename_i f hf
    exact ht.start_lt (Page.openFields_mem (List.mem_of_find?_eq_some hf))
  · split
    · rename_i f hf
      exact ht.start_lt (Page.openFields_mem (List.mem_reverse.mp (List.mem_of_find?_eq_some hf)))
    · cases he : t.front.openFields.getLast? with
      | none => simp
      | some f => simpa using ht.start_lt (Page.openFields_mem (List.mem_of_getLast? he))

theorem moves_atEntryField (t : Station) (act : Field → Station) (hk : t.engine.kb = .opened)
    (ha : ∀ f, f ∈ t.front.fields → Moves h t (act f)) : Moves h t (t.atEntryField act) := by
  have hl : Moves h t (t.enterLocked .guarded none) := (Move.lock t .guarded none hk (by decide) (by simp)).moves
  unfold Station.atEntryField
  split
  · exact hl
  · rename_i f hf
    split
    · exact ha f (Page.fieldAt_mem hf)
    · exact hl

@[simp] theorem Station.withFront_engine (t : Station) (p : Page) : (t.withFront p).engine = t.engine := rfl
@[simp] theorem Station.withFront_front (t : Station) (p : Page) : (t.withFront p).front = p := rfl
@[simp] theorem Station.editField_engine (t : Station) (f : Field) (c : List Byte) :
    (t.editField f c).engine = t.engine := rfl

theorem Page.advance_lt {t : Station} (f : Field) (ht : t.FormLawful) (hf : f.start < 1600)
    (hl : f.start % 80 + f.len ≤ 80) : t.front.advance f < 1600 := by
  unfold Page.advance
  split
  · omega
  · split
    · exact ht.nextOpen_lt _
    · exact shifted_lt _ _

/-- An edited FRONT page holds the same fields but for their marks. -/
theorem Page.start_mem_edit {p : Page} {f : Field} {c : List Byte} {m : Bool} (hf : f ∈ p.fields) :
    ∃ g ∈ ((p.setContent f c).setMark f.tag m).fields, g.start = f.start ∧ g.len = f.len := by
  refine ⟨if f.tag = f.tag then { f with mark := m } else f, ?_, by simp, by simp⟩
  simp only [Page.setMark, Page.mapFields, Page.setContent]
  exact List.mem_map.mpr ⟨f, hf, by simp⟩

theorem moves_typeChar (t : Station) (ch : Byte) (f : Field) (hk : t.engine.kb = .opened) (hf : f ∈ t.front.fields) :
    Moves h t (t.typeChar ch f) := by
  unfold Station.typeChar
  dsimp only
  split
  · exact (Move.lock t .wrongChar none hk (by decide) (by simp)).moves
  · split
    · exact (Move.lock t .noRoom none hk (by decide) (by simp)).moves
    · refine Relation.ReflTransGen.trans (Move.edit t f _ hf).moves (moves_keyMove _ _ hk fun ht => ?_)
      obtain ⟨g, hg, hs, hl⟩ := Page.start_mem_edit (p := t.front) (m := true) (c := if t.engine.insert = true then
        insertAt (t.front.content f) (t.front.cursor - f.start) (raisedFor f.cls ch)
        else overwriteAt (t.front.content f) (t.front.cursor - f.start) (raisedFor f.cls ch)) hf
      have hg' := ht.1.2.2.2 g hg
      exact Page.advance_lt f ht (hs ▸ hg'.2.2.2.2.1) (by rw [← hs, ← hl]; exact hg'.2.2.2.2.2.1)

theorem moves_setInsert (t : Station) (on : Bool) : Moves h t (t.setInsert on) := by
  unfold Station.setInsert
  split
  · exact Moves.refl t
  · exact Quiet.moves ⟨rfl, rfl, rfl, rfl, rfl, rfl, rfl, rfl, rfl, rfl, rfl, rfl, rfl, rfl, rfl⟩

theorem moves_keyReset (t : Station) (hk : t.engine.kb ≠ .waiting) : Moves h t t.keyReset :=
  (Move.unlock t hk).moves.trans (moves_setInsert _ _)

theorem moves_unitReady (t : Station) : Moves h t t.unitReady := by
  refine Quiet.moves ⟨rfl, rfl, rfl, rfl, rfl, rfl, rfl, rfl, rfl, rfl, ?_, rfl, rfl, rfl, rfl⟩
  simp only [Station.unitReady]
  split
  · cases t.display.run <;> rfl
  · rfl

theorem moves_unitHold (t : Station) : Moves h t { t with display := t.display.unitHold } := by
  refine Quiet.moves ⟨rfl, rfl, rfl, rfl, rfl, rfl, rfl, rfl, rfl, rfl, ?_, rfl, rfl, rfl, rfl⟩
  simp only [Display.unitHold]
  cases t.display.run <;> rfl

theorem moves_unitResync (t : Station) : Moves h t { t with display := t.display.unitResync } :=
  (Move.invalidate t).moves.quiet ⟨rfl, rfl, rfl, rfl, rfl, rfl, rfl, rfl, rfl, rfl, rfl, rfl, rfl, rfl, rfl⟩

theorem moves_countStale (t : Station) : Moves h t { t with display := t.display.countStale } :=
  Quiet.moves ⟨rfl, rfl, rfl, rfl, rfl, rfl, rfl, rfl, rfl, rfl, rfl, rfl, rfl, rfl, rfl⟩

theorem moves_runOk (t : Station) (n : Nat) : Moves h t { t with display := t.display.runOk n } := by
  unfold Display.runOk
  split
  · rename_i r hr
    split
    · exact (Move.confirm t r hr).moves
    · exact moves_countStale t
  · exact moves_countStale t

theorem moves_runBad (t : Station) : Moves h t { t with display := t.display.runBad } := by
  unfold Display.runBad
  split
  · rename_i r hr
    exact (Move.returnRun t r hr).moves.quiet ⟨rfl, rfl, rfl, rfl, rfl, rfl, rfl, rfl, rfl, rfl, rfl, rfl, rfl, rfl, rfl⟩
  · exact moves_countStale t

theorem moves_timeout (t : Station) (r : Run) (hr : t.display.run = some r) :
    Moves h t { t with display := (t.display.returnRun r).countTimeout } :=
  (Move.returnRun t r hr).moves.quiet ⟨rfl, rfl, rfl, rfl, rfl, rfl, rfl, rfl, rfl, rfl, rfl, rfl, rfl, rfl, rfl⟩

theorem moves_frameEnded (t : Station) : Moves h t t.frameEnded := by
  refine Quiet.moves ⟨rfl, rfl, rfl, rfl, rfl, rfl, rfl, rfl, ?_, ?_, ?_, rfl, rfl, rfl, rfl⟩ <;>
    simp only [Station.frameEnded] <;> split <;> try rfl
  simp only [Display.runSent]
  cases t.display.run <;> rfl

theorem moves_closeInterval (t : Station) : Moves h t { t with monitor := t.monitor.closeInterval } := by
  refine Quiet.moves ⟨rfl, rfl, rfl, rfl, rfl, rfl, rfl, rfl, rfl, rfl, rfl, ?_, ?_, rfl, rfl⟩ <;>
    simp only [Monitor.closeInterval] <;> split <;> try rfl
  all_goals (split <;> try rfl)
  all_goals (split <;> try rfl)
  all_goals (split <;> rfl)

theorem moves_markLive (t : Station) : Moves h t { t with monitor := t.monitor.markLive } := by
  refine Quiet.moves ⟨rfl, rfl, rfl, rfl, rfl, rfl, rfl, rfl, rfl, rfl, rfl, ?_, ?_, rfl, rfl⟩ <;>
    simp only [Monitor.markLive] <;> split <;> rfl

theorem Lcu.read_state (l : Lcu) (b : Byte) : (l.read b).state = l.state := by
  unfold Lcu.read
  dsimp only
  split
  · rfl
  · split <;> rfl

theorem moves_lcu (t : Station) (l : Lcu) (hl : l.state = t.lcu.state) : Moves h t { t with lcu := l } :=
  Quiet.moves ⟨rfl, rfl, rfl, rfl, rfl, rfl, rfl, rfl, rfl, rfl, rfl, rfl, rfl, rfl, hl⟩

theorem moves_placeByte (t : Station) (b : Byte) : Moves h t (t.placeByte b) :=
  Quiet.moves ⟨rfl, rfl, rfl, rfl, rfl, rfl, rfl, rfl, rfl, rfl, rfl, rfl, rfl, rfl, rfl⟩

theorem moves_placePattern (t : Station) : Moves h t t.placePattern :=
  Quiet.moves ⟨rfl, rfl, rfl, rfl, rfl, rfl, rfl, rfl, rfl, rfl, rfl, rfl, rfl, rfl, rfl⟩

theorem moves_feedPattern (t : Station) : Moves h t t.feedPattern :=
  moves_lcu t _ (Lcu.read_state _ _)

theorem moves_echoByte (t : Station) (b : Byte) : Moves h t (t.echoByte b) := moves_lcu t _ (Lcu.read_state _ _)

theorem moves_returnByte (t : Station) (b : Byte) : Moves h t (t.returnByte b) := by
  unfold Station.returnByte
  split
  · exact Moves.refl t
  · exact moves_placeByte t b

theorem moves_testByte (t : Station) (b : Byte) : Moves h t (t.testByte b) := by
  unfold Station.testByte
  split
  · split
    · exact Moves.refl t
    · exact moves_echoByte t b
    · exact moves_returnByte t b
  · exact Moves.refl t

theorem moves_testBytes (bs : List Byte) (t : Station) : Moves h t (bs.foldl Station.testByte t) := by
  induction bs generalizing t with
  | nil => exact Moves.refl t
  | cons b bs ih => exact (moves_testByte t b).trans (ih _)

theorem moves_startTest (t : Station) (m : TestMode) (p : Pattern) (j : Injection) (d : Nat) :
    Moves h t (t.startTest m p j d) := by
  have a : Moves h t { t with display := { t.display.invalidate with paceTold := .unknown } } :=
    (Move.invalidate t).moves.quiet ⟨rfl, rfl, rfl, rfl, rfl, rfl, rfl, rfl, rfl, rfl, rfl, rfl, rfl, rfl, rfl⟩
  refine a.trans (LineChange.moves ⟨rfl, rfl, rfl, rfl, rfl, fun _ _ hr => ?_, fun _ => ?_⟩)
  · simp [Station.startTest, Display.invalidate] at hr
  · simp [Station.TestLawful, Station.startTest, Port.give, Monitor.suspend, Lcu.started]

theorem moves_endTest (t : Station) (c : EndCause) : Moves h t (t.endTest c) := by
  refine (Move.invalidate t).moves.trans (LineChange.moves ⟨rfl, rfl, rfl, rfl, rfl, fun _ _ hr => ?_, fun _ => ?_⟩)
  · simp [Station.endTest, Display.invalidate] at hr
  · simp [Station.TestLawful, Station.endTest, Port.takeBack, Monitor.resume]

theorem moves_resetTest (t : Station) : Moves h t t.resetTest := by
  unfold Station.resetTest
  split
  · exact moves_endTest t .reset
  · exact Moves.refl t

theorem moves_clearCounters (t : Station) : Moves h t t.clearCounters :=
  Quiet.moves ⟨rfl, rfl, rfl, rfl, rfl, rfl, rfl, rfl, rfl, rfl, rfl, rfl, rfl, rfl, rfl⟩

theorem moves_applySetting (t : Station) (x : Setting) : Moves h t (t.applySetting x) := by
  cases x <;> exact Quiet.moves ⟨rfl, rfl, rfl, rfl, rfl, rfl, rfl, rfl, rfl, rfl, rfl, rfl, rfl, rfl, rfl⟩

theorem moves_applySettings (xs : List Setting) (t : Station) : Moves h t (xs.foldl Station.applySetting t) := by
  induction xs generalizing t with
  | nil => exact Moves.refl t
  | cons x xs ih => exact (moves_applySetting t x).trans (ih _)

theorem moves_tick (t : Station) : Moves h t t.tick := by
  refine Quiet.moves ⟨rfl, rfl, rfl, rfl, rfl, rfl, rfl, rfl, rfl, rfl, ?_, rfl, rfl, rfl, ?_⟩
  · simp only [Station.tick]
    cases t.display.run with
    | none => rfl
    | some r => simp only [Option.map_some, Run.tick, Run.carried]; split <;> rfl
  · simp only [Station.tick, Lcu.tick]; split <;> rfl

/-! ### The orders of a FORM message as moves -/

/-- What an order that names a field of the page does to the view's station. -/
theorem moves_atField (v : FormView) (target : Option Field) (act : Station → Field → Station)
    (ha : ∀ f, target = some f → Moves h v.station (act v.station f)) :
    Moves h v.station (v.atField target act).station := by
  unfold FormView.atField
  split
  · rename_i f
    exact ha f rfl
  · exact Moves.refl _

/-- R33: an order that has passed its checks. -/
theorem moves_applyOrder (v : FormView) (role : Role) (o : Order)
    (hf : ownFault (v.station.page role) v.context o = none) : Moves h v.station (v.apply role o).station := by
  cases o with
  | erase => exact (Move.erase _ role).moves
  | setPosition i => exact Moves.refl _
  | lit e text => exact (Move.lit _ role _ e text).moves
  | define d => exact (Move.define _ role d hf).moves
  | drop tag => exact moves_atField _ _ _ fun f hm => (Move.drop _ role f (Page.fieldOf_mem hm)).moves
  | put tag text => exact moves_atField _ _ _ fun f hm => (Move.put _ role f text (Page.fieldOf_mem hm)).moves
  | putNext text => exact moves_atField _ _ _ fun f hm => (Move.put _ role f text (Page.nextField_mem hm)).moves
  | showShadow tag =>
    refine moves_atField _ _ _ fun f _ => ?_
    cases role
    · exact (Move.promote _ _).moves
    · exact Moves.refl _
  | mark tag => exact moves_atField _ _ _ fun f _ => (Move.mark _ role f.tag).moves
  | clear =>
    cases role
    · exact (Move.blank _).moves
    · exact (Move.blankBack _).moves
  | cursorTag tag offset =>
    refine moves_atField _ _ _ fun f hm => ?_
    have hoff : offset < f.len := by
      simp only [ownFault, tagFault, hm] at hf
      by_contra hn
      rw [if_pos (by omega)] at hf
      simp at hf
    cases role
    · refine (Move.cursor _ _ fun ht => ?_).moves
      have := ht.1.2.2.2 f (Page.fieldOf_mem hm)
      have h1 := this.2.2.2.2.1
      have h2 := this.2.2.2.2.2.1
      omega
    · refine (Move.backCursor _ _ fun ht => ?_).moves
      have := ht.2.1.2.2.2 f (Page.fieldOf_mem hm)
      have h1 := this.2.2.2.2.1
      have h2 := this.2.2.2.2.2.1
      omega
  | cursorIndex i =>
    have hi : i < 1600 := by
      by_contra hn
      simp only [ownFault] at hf
      rw [if_pos (show formCells ≤ i by unfold formCells; omega)] at hf
      simp at hf
    cases role
    · exact (Move.cursor _ i fun _ => hi).moves
    · exact (Move.backCursor _ i fun _ => hi).moves
  | release => exact Moves.refl _
  | sound => exact Quiet.moves ⟨rfl, rfl, rfl, rfl, rfl, rfl, rfl, rfl, rfl, rfl, rfl, rfl, rfl, rfl, rfl⟩
  | note text => exact Quiet.moves ⟨rfl, rfl, rfl, rfl, rfl, rfl, rfl, rfl, rfl, rfl, rfl, rfl, rfl, rfl, rfl⟩
  | flip => exact (Move.flip _).moves

/-- R32, R33: the orders of a message that passes. -/
theorem moves_runOrders (start : Station) (role : Role) (n index : Nat) (bytes : List Byte) (v v' : FormView)
    (hr : runOrders start role n index bytes v = .ok v') : Moves h v.station v'.station := by
  induction n generalizing index bytes v with
  | zero => simp only [runOrders, Except.ok.injEq] at hr; subst hr; exact Moves.refl _
  | succ n ih =>
    simp only [runOrders] at hr
    split at hr
    · simp at hr
    · rename_i o rest ho
      split at hr
      · simp at hr
      · rename_i hof
        refine (moves_applyOrder v role o ?_).trans (ih _ _ _ hr)
        unfold orderFault at hof
        split at hof
        · simp at hof
        · split at hof
          · simp at hof
          · exact hof

/-- R29: a message whose orders hold neither FLIP nor RELEASE opens no keyboard. -/
theorem runOrders_released (start : Station) (role : Role) (n index index' : Nat) (bytes : List Byte)
    (v v' : FormView) (hs : heldScan n index' bytes = none) (hr : runOrders start role n index bytes v = .ok v') :
    v'.released = v.released := by
  induction n generalizing index index' bytes v with
  | zero => simp only [runOrders, Except.ok.injEq] at hr; subst hr; rfl
  | succ n ih =>
    simp only [runOrders] at hr
    simp only [heldScan] at hs
    split at hr
    · simp at hr
    · rename_i o rest ho
      split at hr
      · simp at hr
      · rw [ho] at hs
        have key : ∀ (hne : o ≠ .release), (v.apply role o).released = v.released := by
          intro hne
          cases o <;> first | rfl | (simp only [FormView.apply, FormView.atField]; split <;> rfl) | exact absurd rfl hne
        cases o with
        | flip => simp at hs
        | release => simp at hs
        | _ => rw [ih _ _ _ _ hs hr]; exact key (by simp)

/-- R27: a FORM message that passes its checks. -/
theorem moves_formResult (t : Station) (isHeld : Bool) (body : List Byte) (v : FormView)
    (hr : formResult t isHeld body = .ok v) :
    Moves isHeld t v.station ∧ (isHeld = true → v.released = false) := by
  unfold formResult at hr
  split at hr
  · simp at hr
  · rename_i role count orders _
    split at hr
    · simp at hr
    · rename_i hh
      refine ⟨moves_runOrders _ _ _ _ _ _ _ hr, fun hheld => ?_⟩
      subst hheld
      simp only [heldFault, Bool.not_true, Bool.false_eq_true, if_false] at hh
      cases role with
      | front => simp at hh
      | back => exact runOrders_released t .back count 1 1 orders (FormView.start t) v hh hr

/-- R47: the end of a FORM message. -/
theorem moves_finish (t : Station) (isHeld : Bool) (body : List Byte) (v : FormView)
    (hr : formResult t isHeld body = .ok v) : Moves isHeld t v.finish := by
  obtain ⟨m, hrel⟩ := moves_formResult t isHeld body v hr
  unfold FormView.finish
  split
  · rename_i hv
    have hf : isHeld = false := by
      cases hi : isHeld with
      | false => rfl
      | true => rw [hrel hi] at hv; simp at hv
    exact (m.tail (Move.reopen _ hf)).trans (moves_raiseEvent _)
  · exact m

end Sys2Proof.Machine
end

