-- ==== Sys2Proof/Laws/StepMoves.lean ====
section
/-! SUPPORT. Every command but DEVICE_RESET, and a millisecond on an empty queue, takes every station through moves
(Laws/Moves.lean). -/

namespace Sys2Proof.Machine

/-- Every station goes through moves that no held flag forbids. -/
def AllMoves (s s' : State) : Prop := ∀ h j, Moves h (s.st j) (s'.st j)

theorem AllMoves.refl (s : State) : AllMoves s s := fun _ _ => Moves.refl _

theorem AllMoves.trans {a b c : State} (m : AllMoves a b) (n : AllMoves b c) : AllMoves a c :=
  fun h j => (m h j).trans (n h j)

/-- The stations are the same. -/
theorem AllMoves.of_stations {s s' : State} (e : s'.stations = s.stations) : AllMoves s s' := fun _ j => by
  rw [State.st_congr e]

/-- Only what is not a station is changed before. -/
theorem AllMoves.after {s a b : State} (m : AllMoves a b) (e : a.stations = s.stations) : AllMoves s b :=
  (AllMoves.of_stations e).trans m

/-- Only what is not a station is changed afterwards. -/
theorem AllMoves.congr {a b c : State} (m : AllMoves a b) (e : c.stations = b.stations) : AllMoves a c :=
  m.trans (AllMoves.of_stations e)

theorem AllMoves.setSt (s : State) (i : StationNo) (t : Station) (m : ∀ h, Moves h (s.st i) t) :
    AllMoves s (s.setSt i t) := fun h j => by
  by_cases e : j = i
  · subst e; simpa using m h
  · simpa [e] using Moves.refl _

theorem AllMoves.modSt (s : State) (i : StationNo) (f : Station → Station) (m : ∀ h, Moves h (s.st i) (f (s.st i))) :
    AllMoves s (s.modSt i f) := AllMoves.setSt s i _ m

/-- An outcome that takes every station through moves. -/
def OutMoves (s : State) (o : Host.Outcome State Fault Refusal) : Prop := ∀ s', o = .next s' → AllMoves s s'

theorem OutMoves.next {s s' : State} (m : AllMoves s s') : OutMoves s (.next s') := fun _ h => by
  injection h with h; subst h; exact m

theorem OutMoves.same (s : State) : OutMoves s (.next s) := OutMoves.next (AllMoves.refl s)

/-- Blanking and promotion leave the OPEN-ENTRY fields where they are. -/
theorem Station.home_blankOpenFront (t : Station) : t.blankOpenFront.front.home = t.front.home := by
  have key : ∀ (q : Field → Bool) (fs : List Field),
      (((fs.map fun f => if f.isOpen then { f with mark := false } else f).map
        fun f => if q f then { f with shadow := none, mark := false } else f).filter Field.isOpen).head?.map Field.start
      = (fs.filter Field.isOpen).head?.map Field.start := by
    intro q fs
    induction fs with
    | nil => rfl
    | cons f fs ih =>
      by_cases ho : f.isOpen = true
      · by_cases hq : q { f with mark := false } = true
        · have : Field.isOpen { f with shadow := none, mark := false } = true := ho
          simp [ho, hq, this]
        · have : Field.isOpen { f with mark := false } = true := ho
          simp [ho, hq, this]
      · by_cases hq : q f = true
        · have : ¬ Field.isOpen { f with shadow := none, mark := false } = true := ho
          simpa [ho, hq, this] using ih
        · simpa [ho, hq] using ih
  exact congrArg (fun o => o.getD 0) (key _ _)

/-! ### The Keystroke Engine and the attentions -/

theorem State.keyInHand_opened {t : Station} {k : Key} (h : t.keyInHand = some k) : t.engine.kb = .opened := by
  unfold Station.keyInHand at h
  split at h
  · split at h
    · rename_i hk; exact hk.1
    · simp at h
  · simp at h

theorem allMoves_treat (s : State) (i : StationNo) (k : Key) (f : Station → Station)
    (m : ∀ h, (s.st i).engine.kb = .opened → Moves h (s.st i) (f (s.st i))) : AllMoves s (s.treat i k f) := by
  unfold State.treat
  split
  · rename_i hk
    exact AllMoves.modSt s i _ fun h => (m h (State.keyInHand_opened hk)).trans (moves_finishEvent _)
  · exact AllMoves.refl s

theorem moves_accepted {h : Bool} (t : Station) (hk : t.engine.kb = .opened) : Moves h t t.accepted :=
  (Move.accept t hk).moves

theorem quiet_indicator (t : Station) :
    Quiet t { t with display := { t.display with indicatorPending := true } } :=
  ⟨rfl, rfl, rfl, rfl, rfl, rfl, rfl, rfl, rfl, rfl, rfl, rfl, rfl, rfl, rfl⟩

theorem allMoves_commit (s : State) (i : StationNo) (k : Attention) (b : Bool) : AllMoves s (s.commit i k b) :=
  (AllMoves.modSt s i Station.committed fun _ => (Move.commit _).moves).congr rfl

theorem allMoves_hold (s : State) (i : StationNo) (k : Attention) (b : Bool) : AllMoves s (s.hold i k b) :=
  (AllMoves.modSt s i (fun t => { t with display := { t.display with indicatorPending := true } })
    fun _ => (quiet_indicator _).moves).congr rfl

theorem allMoves_compose (s : State) (i : StationNo) (k : Attention) (b : Bool) : AllMoves s (s.compose i k b) := by
  unfold State.compose
  split
  · exact allMoves_commit s i k b
  · exact allMoves_hold s i k b

theorem Page.enterFailure_spec {p : Page} {code : LockCode} {f : Field} (h : p.enterFailure = some (code, f)) :
    (code = .badEntry ∨ code = .required) ∧ f ∈ p.fields := by
  unfold Page.enterFailure at h
  split at h
  · rename_i g hg
    injection h with h; injection h with h1 h2; subst h1; subst h2
    exact ⟨.inl rfl, List.mem_of_find?_eq_some hg⟩
  · rw [Option.map_eq_some_iff] at h
    obtain ⟨g, hg, he⟩ := h
    injection he with h1 h2; subst h1; subst h2
    exact ⟨.inr rfl, List.mem_of_find?_eq_some hg⟩

theorem allMoves_attention (s : State) (i : StationNo) (k : Attention) (b : Bool) (hk : (s.st i).engine.kb = .opened) :
    AllMoves s (s.attention i k b) := by
  unfold State.attention
  split
  · rename_i code f hf
    have hf' : (s.st i).front.enterFailure = some (code, f) := by
      split at hf
      · exact hf
      · simp at hf
    obtain ⟨hc, hm⟩ := Page.enterFailure_spec hf'
    exact AllMoves.modSt s i _ fun h => moves_lockAtField _ code f hk hc hm
  · exact (AllMoves.modSt s i _ fun h => moves_accepted _ hk).trans (allMoves_compose _ i k b)

theorem allMoves_treatAttention (s : State) (i : StationNo) (k : Key) (a : Attention) :
    AllMoves s (s.treatAttention i k a) := by
  unfold State.treatAttention
  split
  · rename_i hk
    exact (allMoves_attention s i a false (State.keyInHand_opened hk)).trans
      (AllMoves.modSt _ i _ fun h => moves_finishEvent _)
  · exact AllMoves.refl s

theorem allMoves_raise (s : State) (i : StationNo) (who : Requester) :
    AllMoves s (s.modSt i fun t => { t with grant := t.grant.raise who }) :=
  AllMoves.modSt s i _ fun _ => (Move.raise _ who).moves

theorem allMoves_release (s : State) (i : StationNo) (who : Requester) :
    AllMoves s (s.modSt i fun t => { t with grant := t.grant.release who }) :=
  AllMoves.modSt s i _ fun _ => (Move.release _ who).moves

theorem allMoves_startService (s : State) : AllMoves s s.startService := by
  unfold State.startService
  split
  · exact (allMoves_raise s _ .engine).congr rfl
  · exact AllMoves.refl s

theorem allMoves_endService (s : State) (i : StationNo) : AllMoves s (s.endService i) :=
  (allMoves_release s i .engine).congr rfl

theorem allMoves_commitHeld (s : State) (i : StationNo) (m : Held) (rest : List Held) :
    AllMoves s (s.commitHeld i m rest) :=
  ((allMoves_commit s i m.kind m.byScan).trans
    (AllMoves.modSt _ i (fun t => { t with display := { t.display with indicatorPending := true } })
      fun _ => (quiet_indicator _).moves)).congr rfl

theorem Page.scanTarget_mem {p : Page} {c : FieldClass} {f : Field} (h : p.scanTarget c = some f) : f ∈ p.fields := by
  unfold Page.scanTarget at h
  split at h
  · rename_i g hg
    injection h with h; subst h
    exact Page.openFields_mem (List.mem_of_find?_eq_some hg)
  · exact Page.openFields_mem (List.mem_of_find?_eq_some h)

theorem allMoves_fillAndAct (s : State) (i : StationNo) (f : Field) (fill : List Byte) (a : AfterFill)
    (hk : (s.st i).engine.kb = .opened) (hf : f ∈ (s.st i).front.fields) : AllMoves s (s.fillAndAct i f fill a) := by
  have m1 : AllMoves s (s.modSt i fun t => t.fillField f fill) :=
    AllMoves.modSt s i _ fun _ => (Move.edit _ f fill hf).moves
  unfold State.fillAndAct
  dsimp only
  split
  · exact m1.trans (AllMoves.modSt _ i _ fun _ => (Move.cursor _ _ fun ht => ht.nextOpen_lt _).moves)
  · refine m1.trans (AllMoves.modSt _ i _ fun _ => (Move.cursor _ _ fun ht => ?_).moves)
    rw [State.st_modSt_self] at ht
    obtain ⟨g, hg, hs, -⟩ := Page.start_mem_edit (p := (s.st i).front) (m := true) (c := fill) hf
    exact hs ▸ ht.start_lt hg
  · refine m1.trans (allMoves_attention _ i .enter true ?_)
    rw [State.st_modSt_self]; exact hk

theorem allMoves_routeScan (s : State) (i : StationNo) (n : Nat) (data : List Byte)
    (hk : (s.st i).engine.kb = .opened) : AllMoves s (s.routeScan i n data) := by
  unfold State.routeScan
  dsimp only
  split
  · exact AllMoves.setSt s i _ fun _ => (Move.lock _ .scanUnrouted none hk (by decide) (by simp)).moves
  · split
    · exact AllMoves.setSt s i _ fun _ => (Move.lock _ .scanNoField none hk (by decide) (by simp)).moves
    · rename_i f hf
      split
      · exact AllMoves.setSt s i _ fun _ => (Move.lock _ .scanTooLong none hk (by decide) (by simp)).moves
      · split
        · exact AllMoves.setSt s i _ fun _ => (Move.lock _ .badEntry (some f.tag) hk (by decide) (by simp)).moves
        · exact allMoves_fillAndAct s i f _ _ hk (Page.scanTarget_mem hf)

/-! ### The station lines -/

theorem allMoves_deliverEvent (s : State) (i : StationNo) (e : Event) : AllMoves s (s.deliverEvent i e) := by
  unfold State.deliverEvent
  dsimp only
  split
  · rename_i hq
    exact AllMoves.setSt s i _ fun _ => (Move.push _ e hq).moves.trans (moves_raiseEvent _)
  · refine AllMoves.congr (AllMoves.setSt s i _ fun _ => Quiet.moves ?_) rfl
    exact ⟨rfl, rfl, rfl, rfl, rfl, rfl, rfl, rfl, rfl, rfl, rfl, rfl, rfl, rfl, rfl⟩

theorem allMoves_deliver (s : State) (i : StationNo) (u : Upstream) : AllMoves s (s.deliver i u) := by
  cases u with
  | event e => exact allMoves_deliverEvent s i e
  | unitReady => exact AllMoves.modSt s i _ fun _ => moves_unitReady _
  | unitHold => exact AllMoves.modSt s i _ fun _ => moves_unitHold _
  | unitResync => exact AllMoves.modSt s i _ fun _ => moves_unitResync _
  | unitRunOk n => exact AllMoves.modSt s i _ fun _ => moves_runOk _ n
  | unitRunBad => exact AllMoves.modSt s i _ fun _ => moves_runBad _
  | idle => exact AllMoves.refl s
  | refused =>
    exact AllMoves.modSt s i _ fun _ =>
      Quiet.moves ⟨rfl, rfl, rfl, rfl, rfl, rfl, rfl, rfl, rfl, rfl, rfl, rfl, rfl, rfl, rfl⟩

theorem allMoves_received (s : State) (i : StationNo) (r : RxResult) : AllMoves s (s.received i r) := by
  cases r with
  | bad =>
    exact AllMoves.modSt s i _ fun _ =>
      Quiet.moves ⟨rfl, rfl, rfl, rfl, rfl, rfl, rfl, rfl, rfl, rfl, rfl, rfl, rfl, rfl, rfl⟩
  | good f => exact (AllMoves.modSt s i _ fun _ => moves_markLive _).trans (allMoves_deliver _ i _)

theorem allMoves_receivedAll (i : StationNo) (rs : List RxResult) (s : State) :
    AllMoves s (rs.foldl (fun s r => s.received i r) s) := by
  induction rs generalizing s with
  | nil => exact AllMoves.refl s
  | cons r rs ih => exact (allMoves_received s i r).trans (ih _)

theorem allMoves_upstream (s : State) (i : StationNo) (bytes : List Byte) : AllMoves s (s.upstream i bytes) := by
  unfold State.upstream
  split
  · exact AllMoves.modSt s i _ fun _ => moves_testBytes bytes _
  · refine AllMoves.trans (AllMoves.modSt s i _ fun _ => Quiet.moves ?_) (allMoves_receivedAll i _ _)
    exact ⟨rfl, rfl, rfl, rfl, rfl, rfl, rfl, rfl, rfl, rfl, rfl, rfl, rfl, rfl, rfl⟩

theorem allMoves_judgeWindow (s : State) (i : StationNo) : AllMoves s (s.judgeWindow i) := by
  unfold State.judgeWindow
  dsimp only
  split
  · rename_i hp
    refine AllMoves.setSt s i _ fun _ => Quiet.moves ?_
    exact ⟨rfl, rfl, rfl, rfl, rfl, rfl, rfl, rfl, rfl, rfl, rfl, hp, rfl, rfl, rfl⟩
  · refine AllMoves.congr (AllMoves.setSt s i _ fun h => ?_) rfl
    cases hj : (s.st i).monitor.judged with
    | absent =>
      refine (Move.invalidate (s.st i)).moves.trans ?_
      refine Relation.ReflTransGen.trans (b := { s.st i with
          display := (s.st i).display.invalidate
          monitor := { (s.st i).monitor.freshWindow with presence := .absent } })
        (LineChange.moves ⟨rfl, rfl, rfl, rfl, rfl, fun _ _ hr => ?_, fun ht => ht⟩) ?_
      · simp [Display.invalidate] at hr
      · exact Quiet.moves ⟨rfl, rfl, rfl, rfl, rfl, rfl, rfl, rfl, rfl, rfl, rfl, rfl, rfl, rfl, rfl⟩
    | present =>
      exact LineChange.moves ⟨rfl, rfl, rfl, rfl, rfl, fun hr _ hs => ⟨rfl, (hr hs).2⟩, fun ht => ht⟩

/-! ### Frames downstream -/

theorem allMoves_send (s : State) (i : StationNo) (f : Station → Station) (q : Quiet (s.st i) (f (s.st i))) :
    AllMoves s (s.modSt i f) := AllMoves.modSt s i f fun _ => q.moves

/-! ### The requests -/

theorem allMoves_answer (s : State) (f : Frame) (r : Reason) (n : Nat) (d : List Byte) (g : Option StationNo) :
    AllMoves s (s.answer f r n d g) := AllMoves.of_stations rfl

theorem allMoves_beginRequest (s : State) (f : Frame) : AllMoves s (s.beginRequest f) := by
  unfold State.beginRequest
  split
  · exact AllMoves.of_stations rfl
  · dsimp only
    split
    · exact AllMoves.trans (b := { s with interp := .handling f }) (AllMoves.of_stations rfl)
        (allMoves_raise _ _ .interpreter)
    · exact AllMoves.of_stations rfl

theorem allMoves_removeHeld (s : State) (i : StationNo) : AllMoves s (s.removeHeld i) := by
  unfold State.removeHeld
  dsimp only
  split
  · exact (allMoves_startService _).after rfl
  · split
    · exact (allMoves_startService _).after rfl
    · exact AllMoves.of_stations rfl

theorem allMoves_resetStation (s : State) (i : StationNo) : AllMoves s (s.resetStation i) := by
  unfold State.resetStation
  refine AllMoves.trans (b := s.modSt i fun t => t.resetBlocks.resetTest) ?_ ?_
  · exact AllMoves.modSt s i _ fun _ => (Move.resetBlocks _).moves.trans (moves_resetTest _)
  · exact (allMoves_removeHeld _ i).after rfl

theorem allMoves_hostReceived (rs : List RxResult) (s : State) : AllMoves s (rs.foldl State.hostReceived s) := by
  induction rs generalizing s with
  | nil => exact AllMoves.refl s
  | cons r rs ih =>
    refine AllMoves.trans ?_ (ih _)
    cases r with
    | bad => exact AllMoves.of_stations rfl
    | good f =>
      simp only [State.hostReceived, State.sortFrame, State.joinBuffer]
      split
      · exact AllMoves.of_stations rfl
      · split
        · exact AllMoves.of_stations rfl
        · split <;> exact AllMoves.of_stations rfl

theorem allMoves_hostBytes (s : State) (bytes : List Byte) : AllMoves s (s.hostBytes bytes) :=
  (allMoves_hostReceived _ _).after rfl

theorem allMoves_stationQuery (s : State) (f : Frame) (read : Query → StationNo → State)
    (m : ∀ q i, AllMoves s (read q i)) : AllMoves s (s.stationQuery f read) := by
  unfold State.stationQuery
  split
  · exact AllMoves.of_stations rfl
  · split
    · exact AllMoves.of_stations rfl
    · split
      · exact m _ _
      · exact AllMoves.refl s

theorem allMoves_testRequest (s : State) (f : Frame) (w : Bool) (act : TestAction → StationNo → State)
    (m : ∀ a i, AllMoves s (act a i)) : AllMoves s (s.testRequest f w act) := by
  unfold State.testRequest
  split
  · exact AllMoves.of_stations rfl
  · split
    · exact AllMoves.of_stations rfl
    · split
      · exact AllMoves.of_stations rfl
      · split
        · exact AllMoves.of_stations rfl
        · exact m _ _

theorem allMoves_configure (s : State) (f : Frame) (i : StationNo) : AllMoves s (s.configure f i) := by
  unfold State.configure
  split
  · exact AllMoves.of_stations rfl
  · exact AllMoves.congr (AllMoves.modSt s i
      (fun t => ((decodeSettings f.body).getD []).foldl Station.applySetting t) fun _ => moves_applySettings _ _) rfl

/-! ### Every command -/

/-- The moves of a FORM message, which its station's held flag bounds. -/
theorem moves_form (s s' : State) (he : execForm s = .next s') (j : StationNo) :
    Moves (s.isHeld j) (s.st j) (s'.st j) := by
  have same : ∀ {x : State}, x.stations = s.stations → Host.Outcome.next (φ := Fault) (ρ := Refusal) x = .next s' →
      Moves (s.isHeld j) (s.st j) (s'.st j) := by
    intro x hx h
    injection h with h; subst h
    exact AllMoves.of_stations hx _ j
  unfold execForm at he
  split at he
  · exact same (by rfl) he
  · rename_i f _
    split at he
    · exact same (by rfl) he
    · rename_i i _
      split at he
      · unfold State.formMessage at he
        split at he
        · exact same (by rfl) he
        · rename_i v hv
          injection he with he; subst he
          show Moves _ _ ((s.setSt i v.finish).st j)
          by_cases e : j = i
          · subst e; simpa using moves_finish _ _ _ v hv
          · simpa [e] using Moves.refl _
      · exact same (by rfl) he

/-- Every command but DEVICE_RESET and FORM. -/
theorem outMoves_exec (c : Instr) (s : State) (hd : c ≠ .deviceReset) (hf : c ≠ .form) : OutMoves s (exec c s) := by
  cases c with
  | deviceReset => exact absurd rfl hd
  | form => exact absurd rfl hf
  | hostRequestFrameComplete kind item body => exact OutMoves.next (allMoves_hostBytes s _)
  | hostBadFrame bytes => exact OutMoves.next (allMoves_hostBytes s _)
  | pause item body => exact OutMoves.next (allMoves_hostBytes s _)
  | go item body => exact OutMoves.next (allMoves_hostBytes s _)
  | requestTake =>
    show OutMoves s (execRequestTake s)
    unfold execRequestTake
    split
    · exact OutMoves.next ((allMoves_beginRequest _ _).after rfl)
    · exact OutMoves.same s
  | readCells =>
    show OutMoves s (execReadCells s)
    unfold execReadCells
    split
    · exact OutMoves.same s
    · exact OutMoves.next (allMoves_stationQuery s _ _ fun q i => by split <;> exact AllMoves.of_stations rfl)
  | readFields =>
    show OutMoves s (execReadFields s)
    unfold execReadFields
    split
    · exact OutMoves.same s
    · exact OutMoves.next (allMoves_stationQuery s _ _ fun q i => by split <;> exact AllMoves.of_stations rfl)
  | readField =>
    show OutMoves s (execReadField s)
    unfold execReadField
    split
    · exact OutMoves.same s
    · refine OutMoves.next (allMoves_stationQuery s _ _ fun q i => ?_)
      split
      · split <;> exact AllMoves.of_stations rfl
      · exact AllMoves.of_stations rfl
  | readModified =>
    show OutMoves s (execReadModified s)
    unfold execReadModified
    split
    · exact OutMoves.same s
    · exact OutMoves.next (allMoves_stationQuery s _ _ fun q i => by split <;> exact AllMoves.of_stations rfl)
  | readStatusStation =>
    show OutMoves s (execReadStatusStation s)
    unfold execReadStatusStation
    split
    · exact OutMoves.same s
    · split
      · exact OutMoves.same s
      · refine OutMoves.next (allMoves_stationQuery s _ _ fun q i => ?_)
        exact AllMoves.trans (AllMoves.of_stations rfl) (AllMoves.modSt _ i _ fun _ => moves_clearCounters _)
  | readStatusDevice =>
    show OutMoves s (execReadStatusDevice s)
    unfold execReadStatusDevice
    split
    · exact OutMoves.same s
    · split
      · split <;> exact OutMoves.next (AllMoves.of_stations rfl)
      · exact OutMoves.same s
  | configure =>
    show OutMoves s (execConfigure s)
    unfold execConfigure
    split
    · exact OutMoves.same s
    · split
      · exact OutMoves.next (AllMoves.of_stations rfl)
      · split
        · exact OutMoves.next (allMoves_configure s _ _)
        · exact OutMoves.same s
  | stationReset =>
    show OutMoves s (execStationReset s)
    unfold execStationReset
    split
    · exact OutMoves.same s
    · split
      · exact OutMoves.next (AllMoves.of_stations rfl)
      · split
        · exact OutMoves.next (AllMoves.of_stations rfl)
        · split
          · exact OutMoves.next ((allMoves_resetStation s _).congr rfl)
          · exact OutMoves.same s
  | unknownKind =>
    show OutMoves s (execUnknownKind s)
    unfold execUnknownKind
    split
    · split
      · exact OutMoves.same s
      · exact OutMoves.next (AllMoves.of_stations rfl)
    · exact OutMoves.same s
  | testStart =>
    show OutMoves s (execTestStart s)
    unfold execTestStart
    split
    · exact OutMoves.same s
    · refine OutMoves.next (allMoves_testRequest s _ _ _ fun a i => ?_)
      split
      · rename_i m p j d
        exact AllMoves.congr (AllMoves.modSt s i (fun t => t.startTest m p j d) fun _ => moves_startTest _ _ _ _ _) rfl
      · exact AllMoves.refl s
  | testStop =>
    show OutMoves s (execTestStop s)
    unfold execTestStop
    split
    · exact OutMoves.same s
    · refine OutMoves.next (allMoves_testRequest s _ _ _ fun a i => ?_)
      exact AllMoves.congr (AllMoves.modSt s i (fun t => t.endTest .stopped) fun _ => moves_endTest _ .stopped) rfl
  | testInject =>
    show OutMoves s (execTestInject s)
    unfold execTestInject
    split
    · exact OutMoves.same s
    · refine OutMoves.next (allMoves_testRequest s _ _ _ fun a i => ?_)
      exact AllMoves.congr (AllMoves.modSt s i (fun t => { t with lcu := { t.lcu with single := true } })
        fun _ => moves_lcu _ _ rfl) rfl
  | placeReply =>
    show OutMoves s (execPlaceReply s)
    unfold execPlaceReply
    split
    · refine OutMoves.next ?_
      split
      · exact (allMoves_release _ _ .interpreter).after rfl
      · exact AllMoves.of_stations rfl
    · exact OutMoves.same s
  | txReplyStart =>
    show OutMoves s (execTxReplyStart s)
    unfold execTxReplyStart
    split
    · split
      · exact OutMoves.next (AllMoves.of_stations rfl)
      · exact OutMoves.same s
    · exact OutMoves.same s
  | txNoticeStart =>
    show OutMoves s (execTxNoticeStart s)
    unfold execTxNoticeStart
    split
    · split
      · exact OutMoves.next (AllMoves.of_stations rfl)
      · exact OutMoves.same s
    · exact OutMoves.same s
  | txEntryStart =>
    show OutMoves s (execTxEntryStart s)
    unfold execTxEntryStart
    split
    · split
      · exact OutMoves.next (AllMoves.of_stations rfl)
      · exact OutMoves.same s
    · exact OutMoves.same s
  | txFrameEnd =>
    show OutMoves s (execTxFrameEnd s)
    unfold execTxFrameEnd
    split
    · split
      · exact OutMoves.same s
      · exact OutMoves.next (AllMoves.of_stations rfl)
    · exact OutMoves.same s
  | recordDeparture =>
    show OutMoves s (execRecordDeparture s)
    unfold execRecordDeparture
    split
    · split
      · exact OutMoves.next ((allMoves_startService _).after rfl)
      · exact OutMoves.same s
    · exact OutMoves.same s
  | heldComposition =>
    show OutMoves s (execHeldComposition s)
    unfold execHeldComposition
    split
    · exact OutMoves.same s
    · split
      · exact OutMoves.next (((allMoves_commitHeld s _ _ _).trans (allMoves_endService _ _)).trans
          (allMoves_startService _))
      · exact OutMoves.next (allMoves_endService s _)
  | eventTaken st =>
    show OutMoves s (execEventTaken st s)
    unfold execEventTaken
    split
    · exact OutMoves.next (AllMoves.modSt s st _ fun _ => moves_takeEvent _)
    · exact OutMoves.same s
  | keyPrintable st =>
    show OutMoves s (execKeyPrintable st s)
    unfold execKeyPrintable
    split
    · exact OutMoves.next (allMoves_treat s st _ _ fun h hk =>
        moves_atEntryField _ _ hk fun f hf => moves_typeChar _ _ f hk hf)
    · exact OutMoves.same s
  | keyDelete st =>
    exact OutMoves.next (allMoves_treat s st _ _ fun h hk =>
      moves_atEntryField _ _ hk fun f hf => (Move.edit _ f _ hf).moves)
  | keyEraseEof st =>
    exact OutMoves.next (allMoves_treat s st _ _ fun h hk =>
      moves_atEntryField _ _ hk fun f hf => (Move.edit _ f _ hf).moves)
  | keyEraseInput st =>
    refine OutMoves.next (allMoves_treat s st _ _ fun h hk => ?_)
    refine Relation.ReflTransGen.tail (Move.blank _).moves (Move.cursor _ _ fun ht => ?_)
    have e : (s.st st).front.home = (s.st st).blankOpenFront.front.home := (Station.home_blankOpenFront _).symm
    rw [e]; exact ht.home_lt
  | keyInsert st => exact OutMoves.next (allMoves_treat s st _ _ fun h _ => moves_setInsert _ _)
  | keyReset st =>
    show OutMoves s (execKeyReset st s)
    unfold execKeyReset
    dsimp only
    split
    · rename_i hk
      exact OutMoves.next (AllMoves.setSt s st _ fun _ => (moves_keyReset _ hk.2.2).trans (moves_finishEvent _))
    · exact OutMoves.same s
  | keyRight st =>
    exact OutMoves.next (allMoves_treat s st _ _ fun h hk => moves_keyMove _ _ hk fun _ => shifted_lt _ _)
  | keyLeft st =>
    exact OutMoves.next (allMoves_treat s st _ _ fun h hk => moves_keyMove _ _ hk fun _ => shifted_lt _ _)
  | keyUp st =>
    exact OutMoves.next (allMoves_treat s st _ _ fun h hk => moves_keyMove _ _ hk fun _ => shifted_lt _ _)
  | keyDown st =>
    exact OutMoves.next (allMoves_treat s st _ _ fun h hk => moves_keyMove _ _ hk fun _ => shifted_lt _ _)
  | keyTab st =>
    exact OutMoves.next (allMoves_treat s st _ _ fun h hk => moves_keyMove _ _ hk fun ht => ht.nextOpen_lt _)
  | keyBacktab st =>
    exact OutMoves.next (allMoves_treat s st _ _ fun h hk => moves_keyMove _ _ hk fun ht => ht.backOpen_lt _)
  | keyHome st =>
    exact OutMoves.next (allMoves_treat s st _ _ fun h hk => moves_keyMove _ _ hk fun ht => ht.home_lt)
  | keyNewline st =>
    exact OutMoves.next (allMoves_treat s st _ _ fun h hk => moves_keyMove _ _ hk fun ht => ht.laterRowOpen_lt _)
  | keyEnter st => exact OutMoves.next (allMoves_treatAttention s st _ _)
  | keyCancel st => exact OutMoves.next (allMoves_treatAttention s st _ _)
  | keyPf st =>
    show OutMoves s (execKeyPf st s)
    unfold execKeyPf
    split
    · exact OutMoves.next (allMoves_treatAttention s st _ _)
    · exact OutMoves.same s
  | scan st =>
    show OutMoves s (execScan st s)
    unfold execScan
    dsimp only
    split
    · split
      · rename_i hk
        exact OutMoves.next ((allMoves_routeScan s st _ _ hk.1).trans
          (AllMoves.modSt _ st _ fun _ => moves_finishEvent _))
      · exact OutMoves.same s
    · exact OutMoves.same s
  | keyFrameDelivery st item code => exact OutMoves.next (allMoves_upstream s st _)
  | scanFrameDelivery st item symbology data => exact OutMoves.next (allMoves_upstream s st _)
  | unitReady st item => exact OutMoves.next (allMoves_upstream s st _)
  | unitHold st item => exact OutMoves.next (allMoves_upstream s st _)
  | unitResync st item => exact OutMoves.next (allMoves_upstream s st _)
  | unitRunOk st item number => exact OutMoves.next (allMoves_upstream s st _)
  | unitRunBad st item => exact OutMoves.next (allMoves_upstream s st _)
  | upstreamIdle st item => exact OutMoves.next (allMoves_upstream s st _)
  | upstreamRefusedFrame st item kind body => exact OutMoves.next (allMoves_upstream s st _)
  | upstreamBadFrame st bytes => exact OutMoves.next (allMoves_upstream s st _)
  | paceFrame st =>
    show OutMoves s (execPaceFrame st s)
    unfold execPaceFrame
    split
    · exact OutMoves.next (allMoves_send s st _
        ⟨rfl, rfl, rfl, rfl, rfl, rfl, rfl, rfl, rfl, rfl, rfl, rfl, rfl, rfl, rfl⟩)
    · exact OutMoves.same s
  | soundFrame st =>
    show OutMoves s (execSoundFrame st s)
    unfold execSoundFrame
    split
    · exact OutMoves.next (allMoves_send s st _
        ⟨rfl, rfl, rfl, rfl, rfl, rfl, rfl, rfl, rfl, rfl, rfl, rfl, rfl, rfl, rfl⟩)
    · exact OutMoves.same s
  | indicatorFrame st =>
    show OutMoves s (execIndicatorFrame st s)
    unfold execIndicatorFrame
    split
    · exact OutMoves.next (allMoves_send s st _
        ⟨rfl, rfl, rfl, rfl, rfl, rfl, rfl, rfl, rfl, rfl, rfl, rfl, rfl, rfl, rfl⟩)
    · exact OutMoves.same s
  | runFrameStart st =>
    show OutMoves s (execRunFrameStart st s)
    unfold execRunFrameStart
    dsimp only
    split
    · rename_i first hf
      split
      · rename_i hdue
        exact OutMoves.next (AllMoves.setSt s st _ fun _ => (Move.startRun _ st first hdue hf).moves)
      · exact OutMoves.same s
    · exact OutMoves.same s
  | cursorFrame st =>
    show OutMoves s (execCursorFrame st s)
    unfold execCursorFrame
    split
    · exact OutMoves.next (allMoves_send s st _
        ⟨rfl, rfl, rfl, rfl, rfl, rfl, rfl, rfl, rfl, rfl, rfl, rfl, rfl, rfl, rfl⟩)
    · exact OutMoves.same s
  | downstreamFrameEnd st =>
    show OutMoves s (execDownstreamFrameEnd st s)
    unfold execDownstreamFrameEnd
    split
    · exact OutMoves.next (AllMoves.modSt s st _ fun _ => moves_frameEnded _)
    · exact OutMoves.same s
  | idleMarkSend st =>
    show OutMoves s (execIdleMarkSend st s)
    unfold execIdleMarkSend
    dsimp only
    split
    · exact OutMoves.next (AllMoves.setSt s st _ fun _ =>
        Quiet.moves ⟨rfl, rfl, rfl, rfl, rfl, rfl, rfl, rfl, rfl, rfl, rfl, rfl, rfl, rfl, rfl⟩)
    · exact OutMoves.same s
  | runTimeout st =>
    show OutMoves s (execRunTimeout st s)
    unfold execRunTimeout
    dsimp only
    split
    · rename_i r hr
      split
      · exact OutMoves.next (AllMoves.setSt s st _ fun _ => moves_timeout _ r hr)
      · exact OutMoves.same s
    · exact OutMoves.same s
  | intervalClose st => exact OutMoves.next (AllMoves.modSt s st _ fun _ => moves_closeInterval _)
  | windowEnd st =>
    show OutMoves s (execWindowEnd st s)
    unfold execWindowEnd
    split
    · exact OutMoves.next (allMoves_judgeWindow s st)
    · exact OutMoves.same s
  | testBytePlaced st =>
    show OutMoves s (execTestBytePlaced st s)
    unfold execTestBytePlaced
    dsimp only
    split
    · exact OutMoves.same s
    · split
      · exact OutMoves.next (AllMoves.setSt s st _ fun _ => moves_feedPattern _)
      · split
        · exact OutMoves.next (AllMoves.setSt s st _ fun _ => moves_placePattern _)
        · exact OutMoves.same s
  | testUpstreamByte st byte =>
    show OutMoves s (execTestUpstreamByte st byte s)
    unfold execTestUpstreamByte
    split
    · exact OutMoves.next (AllMoves.modSt s st _ fun _ => moves_echoByte _ _)
    · exact OutMoves.same s
  | testReturnByte st byte =>
    show OutMoves s (execTestReturnByte st byte s)
    unfold execTestReturnByte
    split
    · exact OutMoves.next (AllMoves.modSt s st _ fun _ => moves_returnByte _ _)
    · exact OutMoves.same s
  | testExpiry st =>
    show OutMoves s (execTestExpiry st s)
    unfold execTestExpiry
    dsimp only
    split
    · exact OutMoves.next ((AllMoves.setSt s st _ fun _ => moves_endTest _ .expired).congr rfl)
    · exact OutMoves.same s

/-- What a command can do to a station: moves, or device reset. -/
theorem moves_exec (c : Instr) (s s' : State) (hc : c ≠ .deviceReset) (he : exec c s = .next s') (j : StationNo) :
    Moves (s.isHeld j) (s.st j) (s'.st j) := by
  by_cases hf : c = .form
  · subst hf; exact moves_form s s' he j
  · exact outMoves_exec c s hc hf s' he _ j

/-- What a step can do to a station: moves, or device reset. -/
theorem moves_step (s s' : State) (he : step s = .next s') :
    (∀ j, Moves (s.isHeld j) (s.st j) (s'.st j)) ∨ (∀ j, s'.st j = Station.reset) := by
  unfold step at he
  split at he
  · injection he with he; subst he
    left; intro j
    rw [State.tick, State.st_mapStations]
    exact moves_tick _
  · rename_i c rest _
    by_cases hc : c = .deviceReset
    · subst hc
      right; intro j
      have : s' = { State.reset with pending := rest, freeCount := s.freeCount } := by
        injection he with he; exact he.symm
      subst this
      exact State.reset_st j
    · left; intro j
      exact moves_exec c { s with pending := rest } s' hc he j

/-- A property of a station that holds after device reset and that every move keeps holds at every station after every
step. -/
theorem stationLaw_step {P : Station → Prop} (hr : P Station.reset)
    (hP : ∀ h t t', Move h t t' → P t → P t') (s s' : State) (hs : ∀ j, P (s.st j)) (he : step s = .next s') :
    ∀ j, P (s'.st j) := by
  intro j
  rcases moves_step s s' he with m | m
  · exact Moves.keeps (fun t t' => hP _ t t') (m j) (hs j)
  · rw [m j]; exact hr

end Sys2Proof.Machine
end

