-- ==== Sys2Proof/Laws/StationLaws.lean ====
section
/-! SUPPORT. What each move keeps: the laws of the engine, the grant, the dirty set, the run in flight, the test, and
the law of the display (R119). -/

namespace Sys2Proof.Machine

/-- A change of the form: engine, grant and lines stay, every altered FRONT cell joins the dirty set. -/
structure FormChange (t t' : Station) : Prop where
  engine : t'.engine = t.engine
  grant : t'.grant = t.grant
  monitor : t'.monitor = t.monitor
  lcu : t'.lcu = t.lcu
  port : t'.port = t.port
  dirty : t.display.DirtyLawful → t'.display.DirtyLawful
  paint : Repaints t t'

theorem FormChange.refl (t : Station) : FormChange t t := ⟨rfl, rfl, rfl, rfl, rfl, id, Repaints.refl t⟩

theorem FormChange.trans {a b c : Station} (m : FormChange a b) (n : FormChange b c) : FormChange a c :=
  ⟨n.engine.trans m.engine, n.grant.trans m.grant, n.monitor.trans m.monitor, n.lcu.trans m.lcu,
    n.port.trans m.port, fun h => n.dirty (m.dirty h), m.paint.trans n.paint⟩

theorem dirtyLawful_join {d : Display} {dirty : List Nat} {more : Nat → Bool} (h : d.dirty = joinIndexes dirty more) :
    d.DirtyLawful := by
  refine ⟨h ▸ pairwise_joinIndexes _ _, fun k hk => ?_⟩
  rw [h, mem_joinIndexes] at hk; exact hk.1

theorem FormChange.withFront (t : Station) (p : Page) : FormChange t (t.withFront p) :=
  ⟨rfl, rfl, rfl, rfl, rfl, fun _ => dirtyLawful_join (Station.repainted_dirty _ _), Repaints.withFront t p⟩

theorem FormChange.joinDirty (t : Station) (m : Nat → Bool) : FormChange t (t.joinDirty m) :=
  ⟨rfl, rfl, rfl, rfl, rfl, fun _ => dirtyLawful_join (Station.joinDirty_dirty _ _), Repaints.joinDirty t m⟩

theorem FormChange.promote (t : Station) (hit : Field → Bool) : FormChange t (t.promote hit) :=
  (FormChange.withFront t _).trans (FormChange.joinDirty _ _)

/-- A change of FRONT, BACK and the pending flags that shows nothing new. -/
theorem FormChange.of_shown {t t' : Station} (he : t'.engine = t.engine) (hg : t'.grant = t.grant)
    (hm : t'.monitor = t.monitor) (hl : t'.lcu = t.lcu) (hp : t'.port = t.port)
    (hd : t'.display.dirty = t.display.dirty) (hr : t'.display.run = t.display.run)
    (hc : t'.display.confirmed = t.display.confirmed) (hs : ∀ k, k < 1600 → t'.shown k = t.shown k) :
    FormChange t t' :=
  ⟨he, hg, hm, hl, hp, fun h => by unfold Display.DirtyLawful at *; rwa [hd], Repaints.of_shown hs hd hr hc⟩

/-- A change of BACK alone. -/
theorem FormChange.back (t : Station) (p : Page) : FormChange t { t with back := p } :=
  FormChange.of_shown rfl rfl rfl rfl rfl rfl rfl rfl fun _ _ => rfl

theorem FormChange.withPage (t : Station) (role : Role) (p : Page) : FormChange t (t.withPage role p) := by
  cases role
  · exact FormChange.withFront t p
  · exact FormChange.back t p

/-- A change of the field records that shows nothing new. -/
theorem FormChange.mapFields (t : Station) (hit : Field → Bool) (g : Field → Field)
    (hs : ∀ f, (g f).start = f.start) (hl : ∀ f, (g f).len = f.len) (ht : ∀ f, (g f).tag = f.tag)
    (he : ∀ f, (g f).emph = f.emph) : FormChange t { t with front := t.front.mapFields hit g } :=
  FormChange.of_shown rfl rfl rfl rfl rfl rfl rfl rfl fun k _ =>
    Page.shown_mapFields t.front hit g hs hl ht he t.highlight k

theorem FormChange.moveCursor (t : Station) (dest : Nat) : FormChange t (t.moveCursor dest) := by
  unfold Station.moveCursor
  split
  · exact FormChange.refl t
  · exact FormChange.trans (b := { t with
      front := { t.front with cursor := dest }, display := { t.display with cursorPending := true } })
      (FormChange.of_shown rfl rfl rfl rfl rfl rfl rfl rfl fun _ _ => rfl) (FormChange.promote _ _)

theorem FormChange.put (t : Station) (role : Role) (f : Field) (text : List Byte) : FormChange t (t.put role f text) := by
  unfold Station.put
  split
  · exact FormChange.mapFields t _ _ (fun _ => rfl) (fun _ => rfl) (fun _ => rfl) fun _ => rfl
  · exact FormChange.withPage t role _

theorem FormChange.erase (t : Station) (role : Role) : FormChange t (t.erase role) := by
  cases role
  · exact (FormChange.withFront t Page.reset).trans
      (FormChange.of_shown rfl rfl rfl rfl rfl rfl rfl rfl fun _ _ => rfl)
  · exact FormChange.back t _

theorem FormChange.committed (t : Station) : FormChange t t.committed :=
  (FormChange.mapFields t (fun _ => true) (fun f => { f with mark := false }) (fun _ => rfl) (fun _ => rfl)
    (fun _ => rfl) fun _ => rfl).trans (FormChange.promote _ _)

theorem FormChange.blankOpenFront (t : Station) : FormChange t t.blankOpenFront :=
  (FormChange.withFront t _).trans (FormChange.promote _ _)

theorem FormChange.flip (t : Station) : FormChange t t.flip := by
  refine FormChange.trans (b := t.promoteAll) (FormChange.promote t _) ?_
  exact ⟨rfl, rfl, rfl, rfl, rfl, fun _ => dirtyLawful_join (Station.repainted_dirty _ _),
    Repaints.repainted rfl rfl rfl⟩

/-! ### The engine law (R54, R57) -/

theorem lawful_withQueue {e : Engine} (h : e.Lawful) (q : List Event) (hq : q.length ≤ 32) : (e.withQueue q).Lawful :=
  ⟨h.1, h.2.1, hq, rfl⟩

theorem engineLawful_openKeyboard {t : Station} (h : t.engine.Lawful) : t.openKeyboard.engine.Lawful := by
  unfold Station.openKeyboard
  split
  · exact h
  · exact ⟨by simp, by simp, h.2.2.1, h.2.2.2⟩

/-- Every move keeps the engine law. -/
theorem Move.keeps_engine {h : Bool} {t t' : Station} (m : Move h t t') (hl : t.engine.Lawful) : t'.engine.Lawful := by
  cases m with
  | quiet q =>
    unfold Engine.Lawful at *
    rw [q.kb, q.lockCode, q.lockTag, q.queue, q.pacing]; exact hl
  | lines q => rw [q.engine]; exact hl
  | raise who => exact hl
  | release who => exact hl
  | push e hq => exact lawful_withQueue hl _ (by simp; omega)
  | pop e rest hq => exact lawful_withQueue hl _ (by have := hl.2.2.1; rw [hq] at this; simp at this; omega)
  | lock code tag hk hc ht =>
    refine ⟨⟨fun _ => hc, fun _ => rfl⟩, ht, by simp [Station.enterLocked, Engine.withQueue], ?_⟩
    simp [Station.enterLocked, Engine.withQueue, pacingOf]
  | unlock hk => exact engineLawful_openKeyboard hl
  | reopen hk => exact engineLawful_openKeyboard hl
  | accept hk =>
    have hn : t.engine.lockCode = .none := by
      by_contra hne
      have := hl.1.2 hne
      rw [hk] at this; simp at this
    exact ⟨by simp [Station.accepted, hn], hl.2.1, hl.2.2.1, hl.2.2.2⟩
  | edit f c hf => exact hl
  | put role f text hf => rw [(FormChange.put t role f text).engine]; exact hl
  | promote hit => exact hl
  | cursor dest hd => rw [(FormChange.moveCursor t dest).engine]; exact hl
  | blank => exact hl
  | commit => exact hl
  | erase role => rw [(FormChange.erase t role).engine]; exact hl
  | define role d hd => rw [(FormChange.withPage t role _).engine]; exact hl
  | drop role f hf => rw [(FormChange.withPage t role _).engine]; exact hl
  | lit role pos e text => rw [(FormChange.withPage t role _).engine]; exact hl
  | mark role tag => rw [(FormChange.withPage t role _).engine]; exact hl
  | blankBack => exact hl
  | backCursor dest hd => exact hl
  | flip => exact hl
  | startRun i first hd hf => exact hl
  | confirm r hr => exact hl
  | returnRun r hr => exact hl
  | invalidate => exact hl
  | resetBlocks =>
    refine ⟨by simp [Station.resetBlocks, Engine.stationReset], by simp [Station.resetBlocks, Engine.stationReset], ?_, ?_⟩ <;>
      simp [Station.resetBlocks, Engine.stationReset, Engine.withQueue, pacingOf]

/-! ### The grant law (R21) -/

theorem lawful_pass (g : Grant) : g.pass.Lawful := by
  unfold Grant.pass
  split
  · rename_i w hw; intro h; rw [hw] at h; simp at h
  · split
    · intro h; simp at h
    · split
      · intro h; simp at h
      · rename_i h1 h2
        intro _
        cases hi : g.interpreterWaits <;> cases he : g.engineWaits <;> simp_all

theorem lawful_raise (g : Grant) (who : Requester) : (g.raise who).Lawful := by
  cases who <;> exact lawful_pass _

theorem lawful_release {g : Grant} (h : g.Lawful) (who : Requester) : (g.release who).Lawful := by
  unfold Grant.release
  split
  · exact lawful_pass _
  · exact h

/-- Every move keeps the grant law. -/
theorem Move.keeps_grant {h : Bool} {t t' : Station} (m : Move h t t') (hl : t.grant.Lawful) : t'.grant.Lawful := by
  cases m with
  | quiet q => rw [q.grant]; exact hl
  | lines q => rw [q.grant]; exact hl
  | raise who => exact lawful_raise _ who
  | release who => exact lawful_release hl who
  | push e hq => exact hl
  | pop e rest hq => exact hl
  | lock code tag hk hc ht => exact hl
  | unlock hk => unfold Station.openKeyboard; split <;> exact hl
  | reopen hk => unfold Station.openKeyboard; split <;> exact hl
  | accept hk => exact hl
  | edit f c hf => exact hl
  | put role f text hf => rw [(FormChange.put t role f text).grant]; exact hl
  | promote hit => exact hl
  | cursor dest hd => rw [(FormChange.moveCursor t dest).grant]; exact hl
  | blank => exact hl
  | commit => exact hl
  | erase role => rw [(FormChange.erase t role).grant]; exact hl
  | define role d hd => rw [(FormChange.withPage t role _).grant]; exact hl
  | drop role f hf => rw [(FormChange.withPage t role _).grant]; exact hl
  | lit role pos e text => rw [(FormChange.withPage t role _).grant]; exact hl
  | mark role tag => rw [(FormChange.withPage t role _).grant]; exact hl
  | blankBack => exact hl
  | backCursor dest hd => exact hl
  | flip => exact hl
  | startRun i first hd hf => exact hl
  | confirm r hr => exact hl
  | returnRun r hr => exact hl
  | invalidate => exact hl
  | resetBlocks => intro h; exact ⟨(hl h).1, rfl⟩

/-! ### The dirty set (R119) -/

/-- Every move keeps the order of the dirty set. -/
theorem Move.keeps_dirty {h : Bool} {t t' : Station} (m : Move h t t') (hl : t.display.DirtyLawful) :
    t'.display.DirtyLawful := by
  have all : ∀ {d : Display}, d.dirty = allCells → d.DirtyLawful := fun e =>
    ⟨e ▸ pairwise_allCells, fun k hk => by rw [e, mem_allCells] at hk; exact hk⟩
  cases m with
  | quiet q => unfold Display.DirtyLawful at *; rw [q.dirty]; exact hl
  | lines q => rw [q.display]; exact hl
  | raise who => exact hl
  | release who => exact hl
  | push e hq => exact hl
  | pop e rest hq => exact hl
  | lock code tag hk hc ht => exact dirtyLawful_join (Station.repainted_dirty _ _)
  | unlock hk => unfold Station.openKeyboard; split; exacts [hl, dirtyLawful_join (Station.repainted_dirty _ _)]
  | reopen hk => unfold Station.openKeyboard; split; exacts [hl, dirtyLawful_join (Station.repainted_dirty _ _)]
  | accept hk => exact hl
  | edit f c hf => exact (FormChange.withFront t _).dirty hl
  | put role f text hf => exact (FormChange.put t role f text).dirty hl
  | promote hit => exact (FormChange.promote t hit).dirty hl
  | cursor dest hd => exact (FormChange.moveCursor t dest).dirty hl
  | blank => exact (FormChange.blankOpenFront t).dirty hl
  | commit => exact (FormChange.committed t).dirty hl
  | erase role => exact (FormChange.erase t role).dirty hl
  | define role d hd => exact (FormChange.withPage t role _).dirty hl
  | drop role f hf => exact (FormChange.withPage t role _).dirty hl
  | lit role pos e text => exact (FormChange.withPage t role _).dirty hl
  | mark role tag => exact (FormChange.withPage t role _).dirty hl
  | blankBack => exact hl
  | backCursor dest hd => exact hl
  | flip => exact (FormChange.flip t).dirty hl
  | startRun i first hd hf =>
    exact ⟨hl.1.filter _, fun k hk => hl.2 k (List.mem_filter.mp hk).1⟩
  | confirm r hr => exact hl
  | returnRun r hr => exact dirtyLawful_join rfl
  | invalidate => exact all rfl
  | resetBlocks => exact all rfl

/-! ### The run in flight and the test (R126, R149, R155) -/

/-- A change of the form keeps the run law and the test law. -/
theorem FormChange.keeps_lines {t t' : Station} (c : FormChange t t') (hl : t.RunLawful ∧ t.TestLawful) :
    t'.RunLawful ∧ t'.TestLawful := by
  unfold Station.RunLawful Station.TestLawful at *
  rw [c.paint.run, c.monitor, c.lcu, c.port]; exact hl

/-- Every move keeps the run law and the test law. -/
theorem Move.keeps_lines {h : Bool} {t t' : Station} (m : Move h t t') (hl : t.RunLawful ∧ t.TestLawful) :
    t'.RunLawful ∧ t'.TestLawful := by
  have gone : ∀ {x : Station}, x.display.run = none → x.RunLawful := fun e hr => by rw [e] at hr; simp at hr
  cases m with
  | quiet q =>
    have hr : t'.display.run.isSome = t.display.run.isSome := by
      have := congrArg Option.isSome q.run; simpa using this
    unfold Station.RunLawful Station.TestLawful at *
    rw [hr, q.presence, q.test, q.taken, q.suspended]; exact hl
  | lines q => exact ⟨q.run hl.1 hl.2, q.test hl.2⟩
  | raise who => exact hl
  | release who => exact hl
  | push e hq => exact hl
  | pop e rest hq => exact hl
  | lock code tag hk hc ht => exact hl
  | unlock hk => unfold Station.openKeyboard; split <;> exact hl
  | reopen hk => unfold Station.openKeyboard; split <;> exact hl
  | accept hk => exact hl
  | edit f c hf => exact hl
  | put role f text hf => exact (FormChange.put t role f text).keeps_lines hl
  | promote hit => exact hl
  | cursor dest hd => exact (FormChange.moveCursor t dest).keeps_lines hl
  | blank => exact hl
  | commit => exact hl
  | erase role => exact (FormChange.erase t role).keeps_lines hl
  | define role d hd => exact (FormChange.withPage t role _).keeps_lines hl
  | drop role f hf => exact (FormChange.withPage t role _).keeps_lines hl
  | lit role pos e text => exact (FormChange.withPage t role _).keeps_lines hl
  | mark role tag => exact (FormChange.withPage t role _).keeps_lines hl
  | blankBack => exact hl
  | backCursor dest hd => exact hl
  | flip => exact hl
  | startRun i first hd hf =>
    refine ⟨fun _ => ?_, ?_⟩
    · have hm : t.mayStart = true := by
        by_contra hn
        simp [Station.due, hn] at hd
      simp only [Station.mayStart, Bool.and_eq_true, decide_eq_true_eq, bne_iff_ne] at hm
      exact ⟨hm.1.2, hm.2⟩
    · have e : (t.startRun i first).port.takenByTest = t.port.takenByTest := by
        simp only [Station.startRun, Port.sendRun]
        split <;> rfl
      unfold Station.TestLawful
      rw [e]; exact hl.2
  | confirm r hr => exact ⟨gone rfl, hl.2⟩
  | returnRun r hr => exact ⟨gone rfl, hl.2⟩
  | invalidate => exact ⟨gone rfl, hl.2⟩
  | resetBlocks => exact ⟨gone rfl, hl.2⟩

/-! ### The law of the display (R119) -/

/-- The law of R119 at a station. -/
def Station.Covered (t : Station) : Prop := ∀ k, k < 1600 → t.CellCovered k

/-- A change that repaints keeps the law. -/
theorem Repaints.keeps_covered {t t' : Station} (p : Repaints t t') (hl : t.Covered) : t'.Covered := by
  intro k hk
  by_cases hs : t'.shown k = t.shown k
  · rcases hl k hk with h | ⟨r, h1, h2, h3⟩ | ⟨h1, h2⟩
    · exact .inl (p.keeps k hk h)
    · exact .inr (.inl ⟨r, by rw [p.run]; exact h1, h2, by rw [hs]; exact h3⟩)
    · exact .inr (.inr ⟨by rw [p.run]; exact h1, by rw [p.confirmed, hs]; exact h2⟩)
  · exact .inl (p.joins k hk hs)

/-- R122: the first cell of a run is a dirty one. -/
theorem Display.firstCell_mem {d : Display} {first : Nat} (h : d.firstCell = some first) : first ∈ d.dirty := by
  unfold Display.firstCell at h
  split at h
  · rw [Option.or_eq_some_iff] at h
    rcases h with h | ⟨-, h⟩
    · exact List.mem_of_find?_eq_some h
    · exact List.mem_of_mem_head? h
  · exact List.mem_of_mem_head? h

/-- R123: the indexes of a run are consecutive from its first cell, and dirty. -/
theorem Display.runIndexes_spec (d : Display) (s : Nat) :
    (∃ n, d.runIndexes s = (List.range n).map fun k => s + k) ∧ ∀ k ∈ d.runIndexes s, k ∈ d.dirty := by
  have key : ∀ (q : Nat → Bool) (n : Nat), ∃ m, (((List.range n).map fun k => s + k).takeWhile q)
      = (List.range m).map fun k => s + k := by
    intro q n
    obtain ⟨m, hm⟩ : ∃ m, ((List.range n).map fun k => s + k).takeWhile q
        = ((List.range n).map fun k => s + k).take m :=
      ⟨_, List.takeWhile_eq_take_findIdx_not⟩
    refine ⟨min m n, ?_⟩
    rw [hm, ← List.map_take, List.take_range]
  refine ⟨key _ 16, fun k hk => ?_⟩
  have := List.mem_takeWhile_imp hk
  simp only [Bool.and_eq_true, List.contains_iff_mem] at this
  exact this.1

/-- A run that carries every index of a list of consecutive ones. -/
theorem Station.runRecord_covers (t : Station) (first : Nat) (indexes : List Nat)
    (hi : ∃ n, indexes = (List.range n).map fun k => first + k) (k : Nat) :
    (t.runRecord first indexes).covers k = true ↔ k ∈ indexes := by
  obtain ⟨n, rfl⟩ := hi
  have e : (t.runRecord first ((List.range n).map fun k => first + k)).covers k
      = (decide (first ≤ k) && decide (k < first + n)) := by
    unfold Run.covers Station.runRecord
    rw [List.length_map, List.length_map, List.length_range]
  rw [e]
  simp only [Bool.and_eq_true, decide_eq_true_eq, List.mem_map, List.mem_range]
  constructor
  · rintro ⟨h1, h2⟩; exact ⟨k - first, by omega, by omega⟩
  · rintro ⟨a, h1, rfl⟩; omega

theorem Station.runRecord_cell (t : Station) (first : Nat) (indexes : List Nat)
    (hi : ∃ n, indexes = (List.range n).map fun k => first + k) (k : Nat) (hk : k ∈ indexes) :
    (t.runRecord first indexes).cells[k - first]? = some (t.shown k) := by
  obtain ⟨n, rfl⟩ := hi
  simp only [List.mem_map, List.mem_range] at hk
  obtain ⟨a, h1, rfl⟩ := hk
  simp only [Station.runRecord, List.map_map]
  rw [List.getElem?_map, List.getElem?_range (by omega)]
  simp

theorem Station.due_run {t : Station} (h : t.due = some .run) : t.display.run = none := by
  by_contra hne
  have hs : t.display.run.isSome = true := Option.isSome_iff_ne_none.mpr hne
  unfold Station.due at h
  dsimp only at h
  split at h
  · simp at h
  · split at h
    · simp at h
    · split at h
      · simp at h
      · split at h
        · simp at h
        · split at h
          · simp at h
          · simp at h

/-- R125: a run frame starts. -/
theorem covered_startRun {t : Station} (hl : t.Covered) (i : StationNo) (first : Nat) (hd : t.due = some .run) :
    (t.startRun i first).Covered := by
  have hnone := Station.due_run hd
  obtain ⟨hi, hmem⟩ := t.display.runIndexes_spec first
  intro k hk
  have hshown : (t.startRun i first).shown k = t.shown k := rfl
  have hrun : (t.startRun i first).display.run = some (t.runRecord first (t.display.runIndexes first)) := rfl
  by_cases hk1 : k ∈ t.display.runIndexes first
  · exact .inr (.inl ⟨_, hrun, (t.runRecord_covers first _ hi k).mpr hk1, by
      rw [hshown]; exact t.runRecord_cell first _ hi k hk1⟩)
  · rcases hl k hk with h | ⟨r, h1, -, -⟩ | ⟨-, h2⟩
    · refine .inl (List.mem_filter.mpr ⟨h, ?_⟩)
      simpa using hk1
    · rw [hnone] at h1; simp at h1
    · refine .inr (.inr ⟨fun r hr => ?_, by rw [hshown]; exact h2⟩)
      rw [hrun] at hr
      injection hr with hr; subst hr
      by_contra hc
      exact hk1 ((t.runRecord_covers first _ hi k).mp (by simpa using hc))

/-- R127: a run is confirmed. -/
theorem covered_confirm {t : Station} (hl : t.Covered) (r : Run) (hr : t.display.run = some r) :
    Station.Covered { t with display := t.display.confirm r } := by
  intro k hk
  have hshown : Station.shown { t with display := t.display.confirm r } k = t.shown k := rfl
  by_cases hc : r.covers k = true
  · rcases hl k hk with h | ⟨r', h1, -, h3⟩ | ⟨h1, -⟩
    · exact .inl h
    · rw [hr] at h1; injection h1 with h1; subst h1
      refine .inr (.inr ⟨fun _ h => by simp [Display.confirm] at h, ?_⟩)
      simp only [Run.covers, Bool.and_eq_true, decide_eq_true_eq] at hc
      rw [hshown]
      show Sparse.read none k (Sparse.writeAll none r.first (r.cells.map some) t.display.confirmed) = _
      rw [Sparse.read_writeAll, if_pos (by rw [List.length_map]; exact hc), List.getD_eq_getElem?_getD,
        List.getElem?_map, h3]
      rfl
    · rw [h1 r hr] at hc; simp at hc
  · rcases hl k hk with h | ⟨r', h1, h2, -⟩ | ⟨-, h2⟩
    · exact .inl h
    · rw [hr] at h1; injection h1 with h1; subst h1; exact absurd h2 hc
    · refine .inr (.inr ⟨fun _ h => by simp [Display.confirm] at h, ?_⟩)
      rw [hshown]
      show Sparse.read none k (Sparse.writeAll none r.first (r.cells.map some) t.display.confirmed) = _
      rw [Sparse.read_writeAll, if_neg, h2]
      intro hcon
      apply hc
      simp only [Run.covers, Bool.and_eq_true, decide_eq_true_eq]
      rwa [List.length_map] at hcon

/-- R128, R129: a run is returned. -/
theorem covered_returnRun {t : Station} (hl : t.Covered) (r : Run) (hr : t.display.run = some r) :
    Station.Covered { t with display := t.display.returnRun r } := by
  intro k hk
  have join : ∀ (h : k ∈ t.display.dirty ∨ r.covers k = true),
      Station.CellCovered { t with display := t.display.returnRun r } k := fun h =>
    .inl (mem_joinIndexes.mpr ⟨hk, h⟩)
  rcases hl k hk with h | ⟨r', h1, h2, -⟩ | ⟨h1, h2⟩
  · exact join (.inl h)
  · rw [hr] at h1; injection h1 with h1; subst h1; exact join (.inr h2)
  · exact .inr (.inr ⟨fun _ h => by simp [Display.returnRun] at h, h2⟩)

theorem covered_of_all {t : Station} (h : t.display.dirty = allCells) : t.Covered := fun k hk =>
  .inl (by rw [h]; exact mem_allCells.mpr hk)

/-- Every move keeps the law of R119. -/
theorem Move.keeps_covered {h : Bool} {t t' : Station} (m : Move h t t') (hl : t.Covered) : t'.Covered := by
  have same : ∀ {x : Station}, x.front = t.front → x.engine.kb = t.engine.kb → x.engine.lockTag = t.engine.lockTag →
      x.display = t.display → x.Covered := fun hf hk ht hd =>
    (Repaints.of_same hf (Station.highlight_congr hk ht) (by rw [hd]) (by rw [hd]) (by rw [hd])).keeps_covered hl
  cases m with
  | quiet q =>
    intro k hk
    have hs : t'.shown k = t.shown k := Station.shown_congr q.front (Station.highlight_congr q.kb q.lockTag) k
    rcases hl k hk with h | ⟨r, h1, h2, h3⟩ | ⟨h1, h2⟩
    · exact .inl (by rw [q.dirty]; exact h)
    · have := q.run
      rw [h1] at this
      obtain ⟨r', hr', he⟩ := Option.map_eq_some_iff.mp this
      simp only [Run.carried, Prod.mk.injEq] at he
      exact .inr (.inl ⟨r', hr', by simpa [Run.covers, he.1, he.2] using h2, by rw [hs, he.1, he.2]; exact h3⟩)
    · refine .inr (.inr ⟨fun r' hr' => ?_, by rw [q.confirmed, hs]; exact h2⟩)
      have := q.run
      rw [hr'] at this
      obtain ⟨r, hr, he⟩ := Option.map_eq_some_iff.mp this.symm
      simp only [Run.carried, Prod.mk.injEq] at he
      have h3 := h1 r hr
      simpa [Run.covers, he.1, he.2] using h3
  | lines q => exact same q.front (by rw [q.engine]) (by rw [q.engine]) q.display
  | raise who => exact same rfl rfl rfl rfl
  | release who => exact same rfl rfl rfl rfl
  | push e hq => exact same rfl rfl rfl rfl
  | pop e rest hq => exact same rfl rfl rfl rfl
  | lock code tag hk hc ht => exact (Repaints.enterLocked t code tag).keeps_covered hl
  | unlock hk => exact (Repaints.openKeyboard t).keeps_covered hl
  | reopen hk => exact (Repaints.openKeyboard t).keeps_covered hl
  | accept hk =>
    refine (Repaints.of_same (t := t) (t' := t.accepted) rfl ?_ rfl rfl rfl).keeps_covered hl
    simp [Station.highlight, Station.accepted, hk]
  | edit f c hf => exact (FormChange.withFront t _).paint.keeps_covered hl
  | put role f text hf => exact (FormChange.put t role f text).paint.keeps_covered hl
  | promote hit => exact (FormChange.promote t hit).paint.keeps_covered hl
  | cursor dest hd => exact (FormChange.moveCursor t dest).paint.keeps_covered hl
  | blank => exact (FormChange.blankOpenFront t).paint.keeps_covered hl
  | commit => exact (FormChange.committed t).paint.keeps_covered hl
  | erase role => exact (FormChange.erase t role).paint.keeps_covered hl
  | define role d hd => exact (FormChange.withPage t role _).paint.keeps_covered hl
  | drop role f hf => exact (FormChange.withPage t role _).paint.keeps_covered hl
  | lit role pos e text => exact (FormChange.withPage t role _).paint.keeps_covered hl
  | mark role tag => exact (FormChange.withPage t role _).paint.keeps_covered hl
  | blankBack => exact (FormChange.back t _).paint.keeps_covered hl
  | backCursor dest hd => exact (FormChange.back t _).paint.keeps_covered hl
  | flip => exact (FormChange.flip t).paint.keeps_covered hl
  | startRun i first hd hf => exact covered_startRun hl i first hd
  | confirm r hr => exact covered_confirm hl r hr
  | returnRun r hr => exact covered_returnRun hl r hr
  | invalidate => exact covered_of_all rfl
  | resetBlocks => exact covered_of_all rfl

end Sys2Proof.Machine
end

