-- ==== Sys2Proof/Laws/FormLaws.lean ====
section
/-! SUPPORT. What each move keeps of the Form Store: the Field Table (R6, R8), the cursors and cells (R16), the pending
shadows (R12). -/

namespace Sys2Proof.Machine

/-! ### Field Tables -/

/-- A change of shadow and mark alone. -/
def MarksOnly (g : Field → Field) : Prop := ∀ f, ∃ sh m, g f = { f with shadow := sh, mark := m }

theorem MarksOnly.start {g : Field → Field} (h : MarksOnly g) (f : Field) : (g f).start = f.start := by
  obtain ⟨sh, m, e⟩ := h f; rw [e]

theorem MarksOnly.len {g : Field → Field} (h : MarksOnly g) (f : Field) : (g f).len = f.len := by
  obtain ⟨sh, m, e⟩ := h f; rw [e]

theorem MarksOnly.tag {g : Field → Field} (h : MarksOnly g) (f : Field) : (g f).tag = f.tag := by
  obtain ⟨sh, m, e⟩ := h f; rw [e]

theorem MarksOnly.lawful {g : Field → Field} (h : MarksOnly g) {f : Field} (hf : f.Lawful) : (g f).Lawful := by
  obtain ⟨sh, m, e⟩ := h f; rw [e]; exact hf

/-- A page whose records change in shadow and mark alone keeps its law. -/
theorem Page.Lawful.map {p p' : Page} (hp : p.Lawful) {g : Field → Field} (hg : MarksOnly g)
    (e : p'.fields = p.fields.map g) : p'.Lawful := by
  refine ⟨by rw [e, List.length_map]; exact hp.1, ?_, ?_, fun f hf => ?_⟩
  · rw [e, List.pairwise_map]
    exact hp.2.1.imp fun h => by rw [hg.start, hg.len, hg.start]; exact h
  · have : (Field.tag ∘ g) = Field.tag := funext fun f => hg.tag f
    rw [e, List.map_map, this]; exact hp.2.2.1
  · rw [e] at hf
    obtain ⟨f0, h0, rfl⟩ := List.mem_map.mp hf
    exact hg.lawful (hp.2.2.2 f0 h0)

theorem Page.Lawful.congr {p p' : Page} (hp : p.Lawful) (e : p'.fields = p.fields) : p'.Lawful := by
  unfold Page.Lawful at *; rw [e]; exact hp

theorem Page.lawful_reset : Page.reset.Lawful :=
  ⟨Nat.zero_le _, List.Pairwise.nil, List.nodup_nil, fun _ hf => absurd hf (List.not_mem_nil)⟩

theorem marksOnly_setMark (tag : Nat) (m : Bool) :
    MarksOnly fun f => if decide (f.tag = tag) = true then { f with mark := m } else f := by
  intro f
  by_cases h : decide (f.tag = tag) = true
  · exact ⟨f.shadow, m, by simp [h]⟩
  · exact ⟨f.shadow, f.mark, by simp [h]⟩

theorem mem_insertField {f g : Field} {fs : List Field} : g ∈ insertField f fs ↔ g = f ∨ g ∈ fs := by
  induction fs with
  | nil => simp [insertField]
  | cons x fs ih =>
    simp only [insertField]
    split
    · simp
    · simp only [List.mem_cons, ih]; tauto

theorem length_insertField (f : Field) (fs : List Field) : (insertField f fs).length = fs.length + 1 := by
  induction fs with
  | nil => rfl
  | cons x fs ih =>
    simp only [insertField]
    split
    · rfl
    · simp [ih]

theorem map_insertField_perm (f : Field) (fs : List Field) : (insertField f fs).Perm (f :: fs) := by
  induction fs with
  | nil => exact List.Perm.refl _
  | cons x fs ih =>
    simp only [insertField]
    split
    · exact List.Perm.refl _
    · exact (ih.cons x).trans (List.Perm.swap f x fs)

/-- R38, R39: a record that overlaps none takes its place in the order of starts. -/
theorem pairwise_insertField (f : Field) (fs : List Field) (hf : 1 ≤ f.len) (hl : ∀ g ∈ fs, 1 ≤ g.len)
    (hs : fs.Pairwise fun a b => a.start + a.len ≤ b.start)
    (hn : ∀ g ∈ fs, overlaps f.start f.len g.start g.len = false) :
    (insertField f fs).Pairwise fun a b => a.start + a.len ≤ b.start := by
  have apart : ∀ g ∈ fs, f.start + f.len ≤ g.start ∨ g.start + g.len ≤ f.start := fun g hg => by
    have := hn g hg
    simp only [overlaps, Bool.and_eq_false_iff, decide_eq_false_iff_not] at this
    omega
  induction fs with
  | nil => simp [insertField]
  | cons x fs ih =>
    obtain ⟨h1, h2⟩ := List.pairwise_cons.mp hs
    simp only [insertField]
    split
    · rename_i hlt
      refine List.pairwise_cons.mpr ⟨fun g hg => ?_, hs⟩
      have hx : f.start + f.len ≤ x.start := by
        rcases apart x (List.mem_cons_self) with h | h
        · exact h
        · omega
      rcases List.mem_cons.mp hg with rfl | hg
      · exact hx
      · have := h1 g hg; omega
    · rename_i hlt
      refine List.pairwise_cons.mpr ⟨fun g hg => ?_, ih (fun g hg => hl g (List.mem_cons_of_mem _ hg)) h2
        (fun g hg => hn g (List.mem_cons_of_mem _ hg)) fun g hg => apart g (List.mem_cons_of_mem _ hg)⟩
      rcases mem_insertField.mp hg with rfl | hg
      · rcases apart x (List.mem_cons_self) with h | h
        · omega
        · exact h
      · exact h1 g hg

/-- R39: the attributes that DEF admits. -/
theorem DefOperands.lawful_field {d : DefOperands} (hs : d.sound = true) (h1 : d.start < 1600)
    (h2 : d.start % 80 + d.len ≤ 80) : d.field.Lawful := by
  unfold DefOperands.sound at hs
  simp only [Bool.and_eq_true, decide_eq_true_eq, Bool.not_eq_true', Bool.and_eq_false_iff,
    decide_eq_false_iff_not] at hs
  obtain ⟨⟨⟨⟨⟨⟨a1, a2⟩, a3⟩, a4⟩, a5⟩, a6⟩, a7⟩ := hs
  refine ⟨a1, a2, a3, a4, h1, h2, fun hr => ?_, fun lo hi hr => ?_, fun hc => ?_, fun hc => ?_, fun hc => ?_⟩
  · have hr' : d.required = true := hr
    rcases a5 with h | h
    · rw [hr'] at h; simp at h
    · show d.protection = .openEntry
      cases hp : d.protection with
      | guarded => exact absurd hp h
      | openEntry => rfl
  · have hr' : d.range = some (lo, hi) := hr
    rw [hr'] at a6
    simp only [Bool.and_eq_true, decide_eq_true_eq] at a6
    exact ⟨a6.1.1, a6.1.2, a6.2⟩
  all_goals
    have hc' := hc
    simp only [DefOperands.field] at hc'
    rw [hc'] at a7
    simpa [DefOperands.field] using a7

/-- R38, R39: a DEF that passes its tests keeps the law of the Field Table. -/
theorem Page.Lawful.define {p : Page} (hp : p.Lawful) {d : DefOperands} (hd : defFault p d = none) :
    (p.define d).Lawful := by
  unfold defFault at hd
  split at hd
  · simp at hd
  rename_i hs
  split at hd
  · simp at hd
  rename_i hform
  split at hd
  · simp at hd
  rename_i htag
  split at hd
  · simp at hd
  rename_i hover
  split at hd
  · simp at hd
  rename_i hfull
  have hs' : d.sound = true := by simpa using hs
  have hform' : d.start < 1600 ∧ d.start % 80 + d.len ≤ 80 := by
    simp only [Bool.or_eq_true, decide_eq_true_eq, not_or, not_le, not_lt] at hform
    exact ⟨hform.1, hform.2⟩
  have hlaw := DefOperands.lawful_field hs' hform'.1 hform'.2
  have hnew : ∀ g ∈ p.fields, g.tag ≠ d.tag := fun g hg he => htag (List.any_eq_true.mpr ⟨g, hg, by simpa using he⟩)
  refine ⟨?_, ?_, ?_, fun f hf => ?_⟩
  · show (insertField d.field p.fields).length ≤ 48
    rw [length_insertField]
    simp only [tableSize] at hfull
    omega
  · refine pairwise_insertField d.field p.fields hlaw.2.2.1 (fun g hg => (hp.2.2.2 g hg).2.2.1) hp.2.1 fun g hg => ?_
    by_contra hc
    exact hover (List.any_eq_true.mpr ⟨g, hg, by simpa [DefOperands.field] using hc⟩)
  · show ((insertField d.field p.fields).map Field.tag).Nodup
    rw [((map_insertField_perm d.field p.fields).map Field.tag).nodup_iff]
    refine List.nodup_cons.mpr ⟨fun hm => ?_, hp.2.2.1⟩
    obtain ⟨g, hg, he⟩ := List.mem_map.mp hm
    exact hnew g hg he
  · rcases mem_insertField.mp hf with rfl | hf
    · exact hlaw
    · exact hp.2.2.2 f hf

/-- R40: DROP keeps the law of the Field Table. -/
theorem Page.Lawful.drop {p : Page} (hp : p.Lawful) (f : Field) : (p.drop f).Lawful := by
  refine ⟨le_trans (List.length_filter_le _ _) hp.1, hp.2.1.filter _, ?_, fun g hg => hp.2.2.2 g (List.mem_filter.mp hg).1⟩
  exact List.Nodup.sublist (List.Sublist.map _ List.filter_sublist) hp.2.2.1

/-! ### Cells -/

theorem wf_writeContent {cells : Sparse Cell} (h : Sparse.Wf Cell.blank cells) (f : Field) (text : List Byte) :
    Sparse.Wf Cell.blank (writeContent cells f text) := Sparse.wf_writeAll _ _ h

theorem wf_foldContent (fs : List Field) (text : Field → List Byte) {cells : Sparse Cell}
    (h : Sparse.Wf Cell.blank cells) :
    Sparse.Wf Cell.blank (fs.foldl (fun cs f => writeContent cs f (text f)) cells) := by
  induction fs generalizing cells with
  | nil => exact h
  | cons f fs ih => exact ih (wf_writeContent h f _)

theorem Page.inForm_reset : Page.reset.InForm := ⟨by decide, List.Pairwise.nil, fun e he => absurd he List.not_mem_nil⟩

/-! ### The promotion of shadows -/

theorem marksOnly_promote (hit : Field → Bool) :
    MarksOnly fun f => if (f.shadow.isSome && hit f) = true then { f with shadow := none, mark := false } else f := by
  intro f
  by_cases h : (f.shadow.isSome && hit f) = true
  · exact ⟨none, false, if_pos h⟩
  · exact ⟨f.shadow, f.mark, if_neg h⟩

theorem Page.Lawful.promote {p : Page} (hp : p.Lawful) (hit : Field → Bool) : (p.promote hit).Lawful :=
  hp.map (marksOnly_promote hit) rfl

theorem Page.InForm.promote {p : Page} (hp : p.InForm) (hit : Field → Bool) : (p.promote hit).InForm :=
  ⟨hp.1, wf_foldContent _ _ hp.2⟩

/-- R13: a shadow that a promotion point has left was not reached by it. -/
theorem Page.mem_promote {p : Page} {hit : Field → Bool} {f : Field} (hf : f ∈ (p.promote hit).fields) {text : List Byte}
    (hs : f.shadow = some text) : f ∈ p.fields ∧ hit f = false := by
  obtain ⟨g, hg, e⟩ := List.mem_map.mp hf
  by_cases h : (g.shadow.isSome && hit g) = true
  · rw [if_pos h] at e; subst e; simp at hs
  · rw [if_neg h] at e; subst e
    refine ⟨hg, ?_⟩
    simpa [hs] using h

/-! ### Every move -/

theorem Station.FormLawful.congr {t t' : Station} (h : t.FormLawful) (hf : t'.front = t.front) (hb : t'.back = t.back) :
    t'.FormLawful := by
  unfold Station.FormLawful Station.ShadowLawful at *; rw [hf, hb]; exact h

/-- A new FRONT page that keeps the laws. -/
theorem Station.FormLawful.front {t t' : Station} (h : t.FormLawful) (hb : t'.back = t.back) (h1 : t'.front.Lawful)
    (h2 : t'.front.InForm)
    (h3 : ∀ f ∈ t'.front.fields, ∀ text, f.shadow = some text →
      f.buffering = .shadowed ∧ t'.front.inHand f = true ∧ text.length = f.len) : t'.FormLawful :=
  ⟨h1, by rw [hb]; exact h.2.1, h2, by rw [hb]; exact h.2.2.2.1, h3, by rw [hb]; exact h.2.2.2.2.2⟩

/-- A new BACK page that keeps the laws. -/
theorem Station.FormLawful.back {t t' : Station} (h : t.FormLawful) (hf : t'.front = t.front) (h1 : t'.back.Lawful)
    (h2 : t'.back.InForm) (h3 : ∀ f ∈ t'.back.fields, f.shadow = none) : t'.FormLawful :=
  ⟨by rw [hf]; exact h.1, h1, by rw [hf]; exact h.2.2.1, h2, by
    intro f hm text hs
    rw [hf] at hm
    have := h.2.2.2.2.1 f hm text hs
    rw [hf]; exact this, h3⟩

/-- R13, R14: a promotion point that reaches every field which is not in hand leaves only lawful shadows. -/
theorem formLawful_release {t : Station} (p : Page) (h : t.FormLawful) (h1 : p.Lawful) (h2 : p.InForm)
    (h3 : ∀ f ∈ p.fields, ∀ text, f.shadow = some text → f.buffering = .shadowed ∧ text.length = f.len) :
    ∀ t' : Station, t'.back = t.back → t'.front = p.promote (fun f => !p.inHand f) → t'.FormLawful := by
  intro t' hb hf
  refine h.front hb (by rw [hf]; exact h1.promote _) (by rw [hf]; exact h2.promote _) fun f hm text hs => ?_
  rw [hf] at hm ⊢
  obtain ⟨hm0, hh⟩ := Page.mem_promote hm hs
  obtain ⟨h4, h5⟩ := h3 f hm0 text hs
  have hin : p.inHand f = true := by simpa using hh
  exact ⟨h4, hin, h5⟩

theorem formLawful_promoteAll {t : Station} (p : Page) (h : t.FormLawful) (h1 : p.Lawful) (h2 : p.InForm) :
    ∀ t' : Station, t'.back = t.back → t'.front = p.promote (fun _ => true) → t'.FormLawful := by
  intro t' hb hf
  refine h.front hb (by rw [hf]; exact h1.promote _) (by rw [hf]; exact h2.promote _) fun f hm text hs => ?_
  rw [hf] at hm
  have := (Page.mem_promote hm hs).2
  simp at this

theorem marksOnly_blankOpen : MarksOnly fun f => if f.isOpen = true then { f with mark := false } else f := by
  intro f
  by_cases h : f.isOpen = true
  · exact ⟨f.shadow, false, if_pos h⟩
  · exact ⟨f.shadow, f.mark, if_neg h⟩

theorem Page.InForm.blankOpen {p : Page} (hp : p.InForm) : p.blankOpen.InForm :=
  ⟨hp.1, wf_foldContent _ (fun _ => []) hp.2⟩

theorem Page.Lawful.blankOpen {p : Page} (hp : p.Lawful) : p.blankOpen.Lawful := hp.map marksOnly_blankOpen rfl

/-- A field of a changed table comes from one of the old table. -/
theorem mem_map_marks {fs : List Field} {hit : Field → Bool} {m : Bool} {f : Field}
    (hf : f ∈ fs.map fun g => if hit g then { g with mark := m } else g) :
    ∃ g ∈ fs, f = { g with mark := f.mark } ∧ (f.mark = g.mark ∨ (hit g = true ∧ f.mark = m)) := by
  obtain ⟨g, hg, e⟩ := List.mem_map.mp hf
  refine ⟨g, hg, ?_⟩
  by_cases hh : hit g = true
  · rw [if_pos hh] at e; subst e; exact ⟨rfl, .inr ⟨hh, rfl⟩⟩
  · rw [if_neg hh] at e; subst e; exact ⟨rfl, .inl rfl⟩

/-- R10, R12: setting a mark of FRONT keeps the shadows lawful. -/
theorem formLawful_mark {t t' : Station} (h : t.FormLawful) (tag : Nat) (cells : Sparse Cell)
    (hw : Sparse.Wf Cell.blank cells) (hb : t'.back = t.back)
    (hf : t'.front = Page.setMark { t.front with cells := cells } tag true) : t'.FormLawful := by
  have hfields : t'.front.fields = t.front.fields.map fun f => if decide (f.tag = tag) = true then { f with mark := true } else f := by
    rw [hf]; rfl
  refine h.front hb (h.1.map (marksOnly_setMark tag true) hfields) ?_ fun f hm text hs => ?_
  · rw [hf]; exact ⟨h.2.2.1.1, hw⟩
  · rw [hfields] at hm
    obtain ⟨g, hg, e, hmk⟩ := mem_map_marks (hit := fun f => decide (f.tag = tag)) hm
    have hgs : g.shadow = some text := by rw [e] at hs; exact hs
    obtain ⟨h4, h5, h6⟩ := h.2.2.2.2.1 g hg text hgs
    refine ⟨by rw [e]; exact h4, ?_, by rw [e]; exact h6⟩
    have hcur : t'.front.cursor = t.front.cursor := by rw [hf]; rfl
    simp only [Page.inHand, Bool.or_eq_true] at h5 ⊢
    rcases hmk with hmk | ⟨-, hmk⟩
    · rcases h5 with h5 | h5
      · left; rw [e, hcur]; exact h5
      · right; rw [hmk]; exact h5
    · right; exact hmk

/-- Two fields of a lawful table with one tag are one field. -/
theorem Page.Lawful.tag_inj {p : Page} (hp : p.Lawful) {f g : Field} (hf : f ∈ p.fields) (hg : g ∈ p.fields)
    (h : g.tag = f.tag) : g = f := List.inj_on_of_nodup_map hp.2.2.1 hg hf h

@[simp] theorem padded_length (n : Nat) (text : List Byte) : (padded n text).length = n := by
  simp [padded]; omega

/-- R12, R41: PUT keeps the laws. -/
theorem formLawful_put {t : Station} (h : t.FormLawful) (role : Role) (f : Field) (text : List Byte)
    (hf : f ∈ (t.page role).fields) : (t.put role f text).FormLawful := by
  unfold Station.put
  split
  · rename_i hc
    obtain ⟨hr, hb, hh⟩ := hc
    subst hr
    have hf' : f ∈ t.front.fields := hf
    have hmo : MarksOnly fun g => if decide (g.tag = f.tag) = true then { g with shadow := some (padded f.len text) } else g := by
      intro g
      by_cases hg : decide (g.tag = f.tag) = true
      · exact ⟨some (padded f.len text), g.mark, by simp [hg]⟩
      · exact ⟨g.shadow, g.mark, by simp [hg]⟩
    refine h.front rfl (h.1.map hmo rfl) h.2.2.1 fun g hm txt hs => ?_
    obtain ⟨g0, hg0, e⟩ := List.mem_map.mp hm
    by_cases htag : decide (g0.tag = f.tag) = true
    · have hg0f : g0 = f := h.1.tag_inj hf' hg0 (by simpa using htag)
      subst hg0f
      rw [if_pos htag] at e; subst e
      refine ⟨hb, hh, ?_⟩
      simp only [Option.some.injEq] at hs
      rw [← hs]; simp
    · rw [if_neg htag] at e; subst e
      exact h.2.2.2.2.1 g0 hg0 txt hs
  · rename_i hc
    cases role with
    | front =>
      have hf' : f ∈ t.front.fields := hf
      have hfields : (t.withPage .front (((t.page .front).setContent f text).setMark f.tag false)).front.fields
          = t.front.fields.map fun g => if decide (g.tag = f.tag) = true then { g with mark := false } else g := rfl
      refine h.front rfl (h.1.map (marksOnly_setMark f.tag false) hfields)
        ⟨h.2.2.1.1, wf_writeContent h.2.2.1.2 f text⟩ fun g hm txt hs => ?_
      rw [hfields] at hm
      obtain ⟨g0, hg0, e⟩ := List.mem_map.mp hm
      by_cases htag : decide (g0.tag = f.tag) = true
      · have hg0f : g0 = f := h.1.tag_inj hf' hg0 (by simpa using htag)
        subst hg0f
        rw [if_pos htag] at e; subst e
        obtain ⟨h4, h5, -⟩ := h.2.2.2.2.1 g0 hg0 txt hs
        exact absurd ⟨rfl, h4, h5⟩ hc
      · rw [if_neg htag] at e; subst e
        exact h.2.2.2.2.1 g0 hg0 txt hs
    | back =>
      have hfields : (t.withPage .back (((t.page .back).setContent f text).setMark f.tag false)).back.fields
          = t.back.fields.map fun g => if decide (g.tag = f.tag) = true then { g with mark := false } else g := rfl
      refine h.back rfl (h.2.1.map (marksOnly_setMark f.tag false) hfields)
        ⟨h.2.2.2.1.1, wf_writeContent h.2.2.2.1.2 f text⟩ fun g hm => ?_
      rw [hfields] at hm
      obtain ⟨g0, hg0, e, -⟩ := mem_map_marks (hit := fun f' => decide (f'.tag = f.tag)) hm
      rw [e]; exact h.2.2.2.2.2 g0 hg0

theorem formLawful_moveCursor {t : Station} (h : t.FormLawful) (dest : Nat) (hd : dest < 1600) :
    (t.moveCursor dest).FormLawful := by
  unfold Station.moveCursor
  split
  · exact h
  · exact formLawful_release { t.front with cursor := dest } h (h.1.congr rfl) ⟨hd, h.2.2.1.2⟩
      (fun f hf text hs => ⟨(h.2.2.2.2.1 f hf text hs).1, (h.2.2.2.2.1 f hf text hs).2.2⟩) _ rfl rfl

theorem Page.cells_drop (p : Page) (f : Field) (h : p.InForm) : (p.drop f).InForm :=
  ⟨h.1, Sparse.wf_writeAll _ _ h.2⟩

/-- Every move keeps the laws of the Form Store. -/
theorem Move.keeps_form {b : Bool} {t t' : Station} (m : Move b t t') (h : t.FormLawful) : t'.FormLawful := by
  cases m with
  | quiet q => exact h.congr q.front q.back
  | lines q => exact h.congr q.front q.back
  | raise who => exact h
  | release who => exact h
  | push e hq => exact h
  | pop e rest hq => exact h
  | lock code tag hk hc ht => exact h.congr rfl rfl
  | unlock hk => unfold Station.openKeyboard; split; exacts [h, h.congr rfl rfl]
  | reopen hk => unfold Station.openKeyboard; split; exacts [h, h.congr rfl rfl]
  | accept hk => exact h
  | edit f c hf => exact formLawful_mark h f.tag _ (wf_writeContent h.2.2.1.2 f c) rfl rfl
  | put role f text hf => exact formLawful_put h role f text hf
  | promote hit =>
    refine h.front rfl (h.1.promote hit) (h.2.2.1.promote hit) fun f hm text hs => ?_
    obtain ⟨h0, -⟩ := Page.mem_promote hm hs
    exact h.2.2.2.2.1 f h0 text hs
  | cursor dest hd => exact formLawful_moveCursor h dest (hd h)
  | blank =>
    refine formLawful_release t.front.blankOpen h h.1.blankOpen h.2.2.1.blankOpen (fun f hf text hs => ?_) _ rfl rfl
    obtain ⟨g, hg, e, -⟩ := mem_map_marks (hit := Field.isOpen) hf
    have := h.2.2.2.2.1 g hg text (by rw [e] at hs; exact hs)
    rw [e]; exact ⟨this.1, this.2.2⟩
  | commit =>
    have hmo : MarksOnly fun f => if (fun _ : Field => true) f = true then { f with mark := false } else f := fun f =>
      ⟨f.shadow, false, rfl⟩
    exact formLawful_promoteAll (t.front.mapFields (fun _ => true) fun f => { f with mark := false }) h
      (h.1.map hmo rfl) ⟨h.2.2.1.1, h.2.2.1.2⟩ _ rfl rfl
  | erase role =>
    cases role
    · exact h.front rfl Page.lawful_reset Page.inForm_reset fun f hf => absurd hf List.not_mem_nil
    · exact h.back rfl Page.lawful_reset Page.inForm_reset fun f hf => absurd hf List.not_mem_nil
  | define role d hd =>
    cases role
    · refine h.front rfl (h.1.define hd) ⟨h.2.2.1.1, Sparse.wf_writeAll _ _ h.2.2.1.2⟩ fun f hf text hs => ?_
      rcases mem_insertField.mp hf with rfl | hf
      · simp [DefOperands.field] at hs
      · exact h.2.2.2.2.1 f hf text hs
    · refine h.back rfl (h.2.1.define hd) ⟨h.2.2.2.1.1, Sparse.wf_writeAll _ _ h.2.2.2.1.2⟩ fun f hf => ?_
      rcases mem_insertField.mp hf with rfl | hf
      · rfl
      · exact h.2.2.2.2.2 f hf
  | drop role f hf =>
    cases role
    · exact h.front rfl (h.1.drop f) (Page.cells_drop _ f h.2.2.1) fun g hg text hs =>
        h.2.2.2.2.1 g (List.mem_filter.mp hg).1 text hs
    · exact h.back rfl (h.2.1.drop f) (Page.cells_drop _ f h.2.2.2.1) fun g hg =>
        h.2.2.2.2.2 g (List.mem_filter.mp hg).1
  | lit role pos e text =>
    cases role
    · exact h.front rfl (h.1.congr rfl) ⟨h.2.2.1.1, Sparse.wf_writeAll _ _ h.2.2.1.2⟩ h.2.2.2.2.1
    · exact h.back rfl (h.2.1.congr rfl) ⟨h.2.2.2.1.1, Sparse.wf_writeAll _ _ h.2.2.2.1.2⟩ h.2.2.2.2.2
  | mark role tag =>
    cases role
    · exact formLawful_mark h tag t.front.cells h.2.2.1.2 rfl rfl
    · refine h.back rfl (h.2.1.map (marksOnly_setMark tag true) rfl) ⟨h.2.2.2.1.1, h.2.2.2.1.2⟩ fun f hf => ?_
      obtain ⟨g, hg, e, -⟩ := mem_map_marks (hit := fun f => decide (f.tag = tag)) hf
      rw [e]; exact h.2.2.2.2.2 g hg
  | blankBack =>
    refine h.back rfl h.2.1.blankOpen h.2.2.2.1.blankOpen fun f hf => ?_
    obtain ⟨g, hg, e, -⟩ := mem_map_marks (hit := Field.isOpen) hf
    rw [e]; exact h.2.2.2.2.2 g hg
  | backCursor dest hd => exact h.back rfl (h.2.1.congr rfl) ⟨hd h, h.2.2.2.1.2⟩ h.2.2.2.2.2
  | flip =>
    have hp : ∀ f ∈ (t.front.promote fun _ => true).fields, f.shadow = none := fun f hf => by
      cases hs : f.shadow with
      | none => rfl
      | some text => have := (Page.mem_promote hf hs).2; simp at this
    refine ⟨h.2.1, h.1.promote _, h.2.2.2.1, h.2.2.1.promote _, fun f hf text hs => ?_, hp⟩
    have : f.shadow = none := h.2.2.2.2.2 f hf
    rw [this] at hs; simp at hs
  | startRun i first hd hf => exact h
  | confirm r hr => exact h
  | returnRun r hr => exact h
  | invalidate => exact h
  | resetBlocks =>
    exact ⟨Page.lawful_reset, Page.lawful_reset, Page.inForm_reset, Page.inForm_reset,
      fun f hf => absurd hf List.not_mem_nil, fun f hf => absurd hf List.not_mem_nil⟩

end Sys2Proof.Machine
end

