-- ==== Sys2Proof/Laws/AllocatorLaws.lean ====
section
/-! SUPPORT. What a step does to the Inbound Ring, the held attention list and the service (R107 to R117): most
commands leave them alone; the others append, depart, hold, serve, remove or reset. -/

namespace Sys2Proof.Machine

/-- The ring, the held list and the service are left alone. -/
structure SameAllocator (s s' : State) : Prop where
  ring : s'.ring = s.ring
  held : s'.held = s.held
  service : s'.service = s.service

theorem SameAllocator.refl (s : State) : SameAllocator s s := ⟨rfl, rfl, rfl⟩

theorem SameAllocator.trans {a b c : State} (m : SameAllocator a b) (n : SameAllocator b c) : SameAllocator a c :=
  ⟨n.ring.trans m.ring, n.held.trans m.held, n.service.trans m.service⟩

theorem sameAllocator_deliver (s : State) (i : StationNo) (u : Upstream) : SameAllocator s (s.deliver i u) := by
  cases u with
  | event e => simp only [State.deliver, State.deliverEvent]; split <;> exact ⟨rfl, rfl, rfl⟩
  | _ => exact ⟨rfl, rfl, rfl⟩

theorem sameAllocator_received (s : State) (i : StationNo) (r : RxResult) : SameAllocator s (s.received i r) := by
  cases r with
  | bad => exact ⟨rfl, rfl, rfl⟩
  | good f =>
    exact SameAllocator.trans (b := s.modSt i fun t => { t with monitor := t.monitor.markLive })
      (by exact ⟨rfl, rfl, rfl⟩) (sameAllocator_deliver _ i _)

theorem sameAllocator_receivedAll (i : StationNo) (rs : List RxResult) (s : State) :
    SameAllocator s (rs.foldl (fun s r => s.received i r) s) := by
  induction rs generalizing s with
  | nil => exact SameAllocator.refl s
  | cons r rs ih => exact (sameAllocator_received s i r).trans (ih _)

theorem sameAllocator_upstream (s : State) (i : StationNo) (bytes : List Byte) :
    SameAllocator s (s.upstream i bytes) := by
  unfold State.upstream
  split
  · exact ⟨rfl, rfl, rfl⟩
  · exact SameAllocator.trans (b := s.modSt i fun t =>
        { t with port := { t.port with rx := (rxRun upstreamLimit (s.st i).port.rx bytes).1 } })
      ⟨rfl, rfl, rfl⟩ (sameAllocator_receivedAll i _ _)

theorem sameAllocator_hostReceived (rs : List RxResult) (s : State) :
    SameAllocator s (rs.foldl State.hostReceived s) := by
  induction rs generalizing s with
  | nil => exact SameAllocator.refl s
  | cons r rs ih =>
    refine SameAllocator.trans ?_ (ih _)
    cases r with
    | bad => exact ⟨rfl, rfl, rfl⟩
    | good f =>
      simp only [State.hostReceived, State.sortFrame, State.joinBuffer]
      split
      · exact ⟨rfl, rfl, rfl⟩
      · split
        · exact ⟨rfl, rfl, rfl⟩
        · split <;> exact ⟨rfl, rfl, rfl⟩

theorem sameAllocator_hostBytes (s : State) (bytes : List Byte) : SameAllocator s (s.hostBytes bytes) :=
  SameAllocator.trans (b := { s with hostRx := (rxRun hostLimit s.hostRx bytes).1 }) ⟨rfl, rfl, rfl⟩
    (sameAllocator_hostReceived _ _)

theorem sameAllocator_stationQuery (s : State) (f : Frame) (read : Query → StationNo → State)
    (m : ∀ q i, SameAllocator s (read q i)) : SameAllocator s (s.stationQuery f read) := by
  unfold State.stationQuery
  split
  · exact ⟨rfl, rfl, rfl⟩
  · split
    · exact ⟨rfl, rfl, rfl⟩
    · split
      · exact m _ _
      · exact SameAllocator.refl s

theorem sameAllocator_testRequest (s : State) (f : Frame) (w : Bool) (act : TestAction → StationNo → State)
    (m : ∀ a i, SameAllocator s (act a i)) : SameAllocator s (s.testRequest f w act) := by
  unfold State.testRequest
  split
  · exact ⟨rfl, rfl, rfl⟩
  · split
    · exact ⟨rfl, rfl, rfl⟩
    · split
      · exact ⟨rfl, rfl, rfl⟩
      · split
        · exact ⟨rfl, rfl, rfl⟩
        · exact m _ _

theorem sameAllocator_treat (s : State) (i : StationNo) (k : Key) (f : Station → Station) :
    SameAllocator s (s.treat i k f) := by
  unfold State.treat
  split <;> exact ⟨rfl, rfl, rfl⟩

/-- The commands that reach the ring, the held list or the service. -/
def touchesAllocator : Instr → Bool
  | .deviceReset | .stationReset | .recordDeparture | .heldComposition => true
  | .keyEnter _ | .keyCancel _ | .keyPf _ | .scan _ => true
  | _ => false

/-- Every other command leaves them alone. -/
theorem sameAllocator_exec (c : Instr) (s s' : State) (hc : touchesAllocator c = false) (he : exec c s = .next s') :
    SameAllocator s s' := by
  have out : ∀ {x : State}, SameAllocator s x → (Host.Outcome.next x : Host.Outcome State Fault Refusal) = .next s' →
      SameAllocator s s' := by
    intro x hx h; injection h with h; subst h; exact hx
  have same : (Host.Outcome.next s : Host.Outcome State Fault Refusal) = .next s' → SameAllocator s s' :=
    out (SameAllocator.refl s)
  cases c with
  | deviceReset | stationReset | recordDeparture | heldComposition => simp [touchesAllocator] at hc
  | keyEnter st => simp [touchesAllocator] at hc
  | keyCancel st => simp [touchesAllocator] at hc
  | keyPf st => simp [touchesAllocator] at hc
  | scan st => simp [touchesAllocator] at hc
  | hostRequestFrameComplete kind item body => exact out (sameAllocator_hostBytes s _) he
  | hostBadFrame bytes => exact out (sameAllocator_hostBytes s _) he
  | pause item body => exact out (sameAllocator_hostBytes s _) he
  | go item body => exact out (sameAllocator_hostBytes s _) he
  | requestTake =>
    change execRequestTake s = _ at he
    unfold execRequestTake at he
    split at he
    · refine out ?_ he
      simp only [State.beginRequest]
      split
      · exact ⟨rfl, rfl, rfl⟩
      · split <;> exact ⟨rfl, rfl, rfl⟩
    · exact same he
  | form =>
    change execForm s = _ at he
    unfold execForm at he
    split at he
    · exact same he
    · split at he
      · exact out (by exact ⟨rfl, rfl, rfl⟩) he
      · split at he
        · refine out ?_ he
          unfold State.formMessage
          split <;> exact ⟨rfl, rfl, rfl⟩
        · exact same he
  | readCells =>
    change execReadCells s = _ at he
    unfold execReadCells at he
    split at he
    · exact same he
    · exact out (sameAllocator_stationQuery s _ _ fun q i => by split <;> exact ⟨rfl, rfl, rfl⟩) he
  | readFields =>
    change execReadFields s = _ at he
    unfold execReadFields at he
    split at he
    · exact same he
    · exact out (sameAllocator_stationQuery s _ _ fun q i => by split <;> exact ⟨rfl, rfl, rfl⟩) he
  | readField =>
    change execReadField s = _ at he
    unfold execReadField at he
    split at he
    · exact same he
    · refine out (sameAllocator_stationQuery s _ _ fun q i => ?_) he
      split
      · split <;> exact ⟨rfl, rfl, rfl⟩
      · exact ⟨rfl, rfl, rfl⟩
  | readModified =>
    change execReadModified s = _ at he
    unfold execReadModified at he
    split at he
    · exact same he
    · exact out (sameAllocator_stationQuery s _ _ fun q i => by split <;> exact ⟨rfl, rfl, rfl⟩) he
  | readStatusStation =>
    change execReadStatusStation s = _ at he
    unfold execReadStatusStation at he
    split at he
    · exact same he
    · split at he
      · exact same he
      · exact out (sameAllocator_stationQuery s _ _ fun q i => by exact ⟨rfl, rfl, rfl⟩) he
  | readStatusDevice =>
    change execReadStatusDevice s = _ at he
    unfold execReadStatusDevice at he
    split at he
    · exact same he
    · split at he
      · split at he
        · exact out (by exact ⟨rfl, rfl, rfl⟩) he
        · exact out (by exact ⟨rfl, rfl, rfl⟩) he
      · exact same he
  | configure =>
    change execConfigure s = _ at he
    unfold execConfigure at he
    split at he
    · exact same he
    · split at he
      · exact out (by exact ⟨rfl, rfl, rfl⟩) he
      · split at he
        · refine out ?_ he
          unfold State.configure
          split <;> exact ⟨rfl, rfl, rfl⟩
        · exact same he
  | unknownKind =>
    change execUnknownKind s = _ at he
    unfold execUnknownKind at he
    split at he
    · split at he
      · exact same he
      · exact out (by exact ⟨rfl, rfl, rfl⟩) he
    · exact same he
  | testStart =>
    change execTestStart s = _ at he
    unfold execTestStart at he
    split at he
    · exact same he
    · exact out (sameAllocator_testRequest s _ _ _ fun a i => by split <;> exact ⟨rfl, rfl, rfl⟩) he
  | testStop =>
    change execTestStop s = _ at he
    unfold execTestStop at he
    split at he
    · exact same he
    · exact out (sameAllocator_testRequest s _ _ _ fun a i => by exact ⟨rfl, rfl, rfl⟩) he
  | testInject =>
    change execTestInject s = _ at he
    unfold execTestInject at he
    split at he
    · exact same he
    · exact out (sameAllocator_testRequest s _ _ _ fun a i => by exact ⟨rfl, rfl, rfl⟩) he
  | placeReply =>
    change execPlaceReply s = _ at he
    unfold execPlaceReply at he
    split at he
    · refine out ?_ he
      split <;> exact ⟨rfl, rfl, rfl⟩
    · exact same he
  | txReplyStart =>
    change execTxReplyStart s = _ at he
    unfold execTxReplyStart at he
    split at he
    · split at he
      · exact out (by exact ⟨rfl, rfl, rfl⟩) he
      · exact same he
    · exact same he
  | txNoticeStart =>
    change execTxNoticeStart s = _ at he
    unfold execTxNoticeStart at he
    split at he
    · split at he
      · exact out (by exact ⟨rfl, rfl, rfl⟩) he
      · exact same he
    · exact same he
  | txEntryStart =>
    change execTxEntryStart s = _ at he
    unfold execTxEntryStart at he
    split at he
    · split at he
      · exact out (by exact ⟨rfl, rfl, rfl⟩) he
      · exact same he
    · exact same he
  | txFrameEnd =>
    change execTxFrameEnd s = _ at he
    unfold execTxFrameEnd at he
    split at he
    · split at he
      · exact same he
      · exact out (by exact ⟨rfl, rfl, rfl⟩) he
    · exact same he
  | eventTaken st =>
    change execEventTaken st s = _ at he
    unfold execEventTaken at he
    split at he
    · exact out (by exact ⟨rfl, rfl, rfl⟩) he
    · exact same he
  | keyPrintable st =>
    change execKeyPrintable st s = _ at he
    unfold execKeyPrintable at he
    split at he
    · exact out (sameAllocator_treat s st _ _) he
    · exact same he
  | keyDelete st => exact out (sameAllocator_treat s st _ _) he
  | keyEraseEof st => exact out (sameAllocator_treat s st _ _) he
  | keyEraseInput st => exact out (sameAllocator_treat s st _ _) he
  | keyInsert st => exact out (sameAllocator_treat s st _ _) he
  | keyReset st =>
    change execKeyReset st s = _ at he
    unfold execKeyReset at he
    dsimp only at he
    split at he
    · exact out (by exact ⟨rfl, rfl, rfl⟩) he
    · exact same he
  | keyRight st => exact out (sameAllocator_treat s st _ _) he
  | keyLeft st => exact out (sameAllocator_treat s st _ _) he
  | keyUp st => exact out (sameAllocator_treat s st _ _) he
  | keyDown st => exact out (sameAllocator_treat s st _ _) he
  | keyTab st => exact out (sameAllocator_treat s st _ _) he
  | keyBacktab st => exact out (sameAllocator_treat s st _ _) he
  | keyHome st => exact out (sameAllocator_treat s st _ _) he
  | keyNewline st => exact out (sameAllocator_treat s st _ _) he
  | keyFrameDelivery st item code => exact out (sameAllocator_upstream s st _) he
  | scanFrameDelivery st item symbology data => exact out (sameAllocator_upstream s st _) he
  | unitReady st item => exact out (sameAllocator_upstream s st _) he
  | unitHold st item => exact out (sameAllocator_upstream s st _) he
  | unitResync st item => exact out (sameAllocator_upstream s st _) he
  | unitRunOk st item number => exact out (sameAllocator_upstream s st _) he
  | unitRunBad st item => exact out (sameAllocator_upstream s st _) he
  | upstreamIdle st item => exact out (sameAllocator_upstream s st _) he
  | upstreamRefusedFrame st item kind body => exact out (sameAllocator_upstream s st _) he
  | upstreamBadFrame st bytes => exact out (sameAllocator_upstream s st _) he
  | paceFrame st =>
    change execPaceFrame st s = _ at he
    unfold execPaceFrame at he
    split at he
    · exact out (by exact ⟨rfl, rfl, rfl⟩) he
    · exact same he
  | soundFrame st =>
    change execSoundFrame st s = _ at he
    unfold execSoundFrame at he
    split at he
    · exact out (by exact ⟨rfl, rfl, rfl⟩) he
    · exact same he
  | indicatorFrame st =>
    change execIndicatorFrame st s = _ at he
    unfold execIndicatorFrame at he
    split at he
    · exact out (by exact ⟨rfl, rfl, rfl⟩) he
    · exact same he
  | runFrameStart st =>
    change execRunFrameStart st s = _ at he
    unfold execRunFrameStart at he
    dsimp only at he
    split at he
    · split at he
      · exact out (by exact ⟨rfl, rfl, rfl⟩) he
      · exact same he
    · exact same he
  | cursorFrame st =>
    change execCursorFrame st s = _ at he
    unfold execCursorFrame at he
    split at he
    · exact out (by exact ⟨rfl, rfl, rfl⟩) he
    · exact same he
  | downstreamFrameEnd st =>
    change execDownstreamFrameEnd st s = _ at he
    unfold execDownstreamFrameEnd at he
    split at he
    · exact out (by exact ⟨rfl, rfl, rfl⟩) he
    · exact same he
  | idleMarkSend st =>
    change execIdleMarkSend st s = _ at he
    unfold execIdleMarkSend at he
    dsimp only at he
    split at he
    · exact out (by exact ⟨rfl, rfl, rfl⟩) he
    · exact same he
  | runTimeout st =>
    change execRunTimeout st s = _ at he
    unfold execRunTimeout at he
    dsimp only at he
    split at he
    · split at he
      · exact out (by exact ⟨rfl, rfl, rfl⟩) he
      · exact same he
    · exact same he
  | intervalClose st => exact out (by exact ⟨rfl, rfl, rfl⟩) he
  | windowEnd st =>
    change execWindowEnd st s = _ at he
    unfold execWindowEnd at he
    split at he
    · refine out ?_ he
      unfold State.judgeWindow
      dsimp only
      split <;> exact ⟨rfl, rfl, rfl⟩
    · exact same he
  | testBytePlaced st =>
    change execTestBytePlaced st s = _ at he
    unfold execTestBytePlaced at he
    dsimp only at he
    split at he
    · exact same he
    · split at he
      · exact out (by exact ⟨rfl, rfl, rfl⟩) he
      · split at he
        · exact out (by exact ⟨rfl, rfl, rfl⟩) he
        · exact same he
  | testUpstreamByte st byte =>
    change execTestUpstreamByte st byte s = _ at he
    unfold execTestUpstreamByte at he
    split at he
    · exact out (by exact ⟨rfl, rfl, rfl⟩) he
    · exact same he
  | testReturnByte st byte =>
    change execTestReturnByte st byte s = _ at he
    unfold execTestReturnByte at he
    split at he
    · exact out (by exact ⟨rfl, rfl, rfl⟩) he
    · exact same he
  | testExpiry st =>
    change execTestExpiry st s = _ at he
    unfold execTestExpiry at he
    dsimp only at he
    split at he
    · exact out (by exact ⟨rfl, rfl, rfl⟩) he
    · exact same he

/-! ### The service -/

@[simp] theorem State.startService_ring (s : State) : s.startService.ring = s.ring := by
  unfold State.startService; split <;> rfl

@[simp] theorem State.startService_held (s : State) : s.startService.held = s.held := by
  unfold State.startService; split <;> rfl

/-- R114: after the start of a service, the service is that of the head, or none where the list is empty or one was
already in progress. -/
theorem State.startService_service (s : State) :
    s.startService.service = match s.service, s.held with
      | none, h :: _ => some h.station
      | some i, _ => some i
      | none, [] => none := by
  unfold State.startService
  cases hs : s.service with
  | none => cases hh : s.held <;> simp [hs]
  | some i => simp [hs]

/-! ### The ring (R108, R109, R111) -/

/-- R107, R108: a commit with enough room keeps the ring law. -/
theorem Ring.Lawful.append {r : Ring} (h : r.Lawful) (i : StationNo) (bytes : List Byte) (hb : bytes.length ≤ r.free) :
    (r.append i bytes).Lawful := by
  obtain ⟨h1, h2, h3, h4, h5⟩ := h
  simp only [Ring.free, ringSize] at hb
  refine ⟨?_, ?_, h3, ?_, Sparse.wf_writeRing _ _ _ h5⟩
  · simp [Ring.append, h1]
  · simp only [Ring.append]; omega
  · simp only [Ring.append, h4, ringSize]; omega

/-- R111: a departure keeps the ring law. -/
theorem Ring.Lawful.depart {r : Ring} (h : r.Lawful) : r.depart.Lawful := by
  obtain ⟨h1, h2, h3, h4, h5⟩ := h
  unfold Ring.depart
  split
  · exact ⟨h1, h2, h3, h4, h5⟩
  · rename_i e rest he
    rw [he] at h1
    simp only [List.map_cons, List.sum_cons] at h1
    refine ⟨?_, ?_, ?_, ?_, Sparse.wf_writeRing _ _ _ h5⟩
    · show r.occupancy - e.size = (rest.map RecordEntry.size).sum; omega
    · show r.occupancy - e.size ≤ 8192; omega
    · exact Nat.mod_lt _ (by decide)
    · show r.writeOff = ((r.readOff + e.size) % ringSize + (r.occupancy - e.size)) % 8192
      rw [h4]; simp only [ringSize]; omega

theorem Ring.lawful_reset : Ring.reset.Lawful :=
  ⟨rfl, by decide, by decide, by decide, List.Pairwise.nil, fun e he => absurd he List.not_mem_nil⟩

/-- R107, R112: what an accepted attention does to ring, held list and service: it is committed with enough room and
an empty list, or joins the tail. -/
theorem State.compose_allocator (s : State) (i : StationNo) (k : Attention) (b : Bool) :
    (s.compose i k b).service = s.service ∧
      ((∃ bytes, bytes.length ≤ s.ring.free ∧ (s.compose i k b).ring = s.ring.append i bytes
          ∧ (s.compose i k b).held = s.held)
        ∨ ((s.compose i k b).ring = s.ring ∧ (s.compose i k b).held = s.held ++ [⟨i, k, b⟩])) := by
  unfold State.compose
  split
  · rename_i h
    exact ⟨rfl, .inl ⟨_, h.2, rfl, rfl⟩⟩
  · exact ⟨rfl, .inr ⟨rfl, rfl⟩⟩

/-- R100: what an attention does to them, and the keyboard of its station when it is held. -/
theorem State.attention_allocator (s : State) (i : StationNo) (k : Attention) (b : Bool) :
    (s.attention i k b).service = s.service ∧
      (((s.attention i k b).ring = s.ring ∧ (s.attention i k b).held = s.held)
        ∨ (∃ bytes, bytes.length ≤ s.ring.free ∧ (s.attention i k b).ring = s.ring.append i bytes
          ∧ (s.attention i k b).held = s.held)
        ∨ ((s.attention i k b).ring = s.ring ∧ (s.attention i k b).held = s.held ++ [⟨i, k, b⟩]
          ∧ ((s.attention i k b).st i).engine.kb = .waiting)) := by
  unfold State.attention
  split
  · exact ⟨rfl, .inl ⟨rfl, rfl⟩⟩
  · obtain ⟨h1, h2⟩ := State.compose_allocator (s.modSt i Station.accepted) i k b
    refine ⟨h1, ?_⟩
    rcases h2 with ⟨bytes, ha, hb, hc⟩ | ⟨ha, hb⟩
    · exact .inr (.inl ⟨bytes, ha, hb, hc⟩)
    · refine .inr (.inr ⟨ha, hb, ?_⟩)
      unfold State.compose
      split
      · rename_i hcond
        have : (s.modSt i Station.accepted).held = (s.modSt i Station.accepted).held ++ [⟨i, k, b⟩] := by
          unfold State.compose at hb
          rw [if_pos hcond] at hb
          exact hb
        simp at this
      · show ((State.modSt (s.modSt i Station.accepted) i fun t =>
          { t with display := { t.display with indicatorPending := true } }).st i).engine.kb = .waiting
        rw [State.st_modSt_self, State.st_modSt_self]; rfl

/-- A held station stays WAITING through moves. -/
theorem Move.keeps_waiting {t t' : Station} (m : Move true t t') (h : t.engine.kb = .waiting) :
    t'.engine.kb = .waiting := by
  cases m with
  | quiet q => rw [q.kb]; exact h
  | lines q => rw [q.engine]; exact h
  | raise who => exact h
  | release who => exact h
  | push e hq => exact h
  | pop e rest hq => exact h
  | lock code tag hk hc ht => rw [h] at hk; simp at hk
  | unlock hk => exact absurd h hk
  | reopen hk => simp at hk
  | accept hk => rw [h] at hk; simp at hk
  | edit f c hf => exact h
  | put role f text hf => rw [(FormChange.put t role f text).engine]; exact h
  | promote hit => exact h
  | cursor dest hd => rw [(FormChange.moveCursor t dest).engine]; exact h
  | blank => exact h
  | commit => exact h
  | erase role => rw [(FormChange.erase t role).engine]; exact h
  | define role d hd => rw [(FormChange.withPage t role _).engine]; exact h
  | drop role f hf => rw [(FormChange.withPage t role _).engine]; exact h
  | lit role pos e text => rw [(FormChange.withPage t role _).engine]; exact h
  | mark role tag => rw [(FormChange.withPage t role _).engine]; exact h
  | blankBack => exact h
  | backCursor dest hd => exact h
  | flip => exact h
  | startRun i first hd hf => exact h
  | confirm r hr => exact h
  | returnRun r hr => exact h
  | invalidate => exact h
  | resetBlocks => rfl

/-- Moves of a station with a held attention leave it WAITING. -/
theorem Moves.waiting {t t' : Station} (m : Moves true t t') (h : t.engine.kb = .waiting) : t'.engine.kb = .waiting :=
  Moves.keeps (P := fun t => t.engine.kb = .waiting) (fun _ _ => Move.keeps_waiting) m h

/-! ### What an attention leaves behind (R100, R107, R112) -/

/-- What a command that may raise an attention at a station does to ring, held list and service: nothing; a commit with
enough room; or a held attention of a station that was OPEN and is now WAITING. -/
structure AttentionOutcome (s s' : State) (i : StationNo) : Prop where
  service : s'.service = s.service
  cases : (s'.ring = s.ring ∧ s'.held = s.held)
    ∨ (∃ bytes, bytes.length ≤ s.ring.free ∧ s'.ring = s.ring.append i bytes ∧ s'.held = s.held)
    ∨ (s'.ring = s.ring ∧ (∃ k b, s'.held = s.held ++ [⟨i, k, b⟩]) ∧ (s.st i).engine.kb = .opened
        ∧ (s'.st i).engine.kb = .waiting)

theorem AttentionOutcome.same {s s' : State} {i : StationNo} (h1 : s'.service = s.service) (h2 : s'.ring = s.ring)
    (h3 : s'.held = s.held) : AttentionOutcome s s' i := ⟨h1, .inl ⟨h2, h3⟩⟩

theorem attentionOutcome_attention (s : State) (i : StationNo) (k : Attention) (b : Bool)
    (hk : (s.st i).engine.kb = .opened) : AttentionOutcome s (s.attention i k b) i := by
  obtain ⟨h1, h2⟩ := s.attention_allocator i k b
  refine ⟨h1, ?_⟩
  rcases h2 with h | h | ⟨h, h', h''⟩
  · exact .inl h
  · exact .inr (.inl h)
  · exact .inr (.inr ⟨h, ⟨k, b, h'⟩, hk, h''⟩)

/-- The event completes at the station after the attention. -/
theorem AttentionOutcome.finish {s s' : State} {i : StationNo} (h : AttentionOutcome s s' i) :
    AttentionOutcome s (s'.modSt i Station.finishEvent) i := by
  refine ⟨h.service, ?_⟩
  rcases h.cases with h | h | ⟨h, h', h'', h3⟩
  · exact .inl h
  · exact .inr (.inl h)
  · refine .inr (.inr ⟨h, h', h'', ?_⟩)
    rw [State.st_modSt_self]
    unfold Station.finishEvent Station.raiseEvent
    split <;> exact h3

theorem attentionOutcome_treatAttention (s : State) (i : StationNo) (k : Key) (a : Attention) :
    AttentionOutcome s (s.treatAttention i k a) i := by
  unfold State.treatAttention
  split
  · rename_i h
    exact (attentionOutcome_attention s i a false (State.keyInHand_opened h)).finish
  · exact .same rfl rfl rfl

/-- The keyboard state after a fill. -/
theorem Station.fillField_kb (t : Station) (f : Field) (fill : List Byte) :
    (t.fillField f fill).engine.kb = t.engine.kb := rfl

theorem attentionOutcome_fillAndAct (s : State) (i : StationNo) (f : Field) (fill : List Byte) (a : AfterFill)
    (hk : (s.st i).engine.kb = .opened) : AttentionOutcome s (s.fillAndAct i f fill a) i := by
  unfold State.fillAndAct
  cases a with
  | nextField => exact .same rfl rfl rfl
  | stay => exact .same rfl rfl rfl
  | send =>
    have hk' : ((s.modSt i fun t => t.fillField f fill).st i).engine.kb = .opened := by
      rw [State.st_modSt_self]; exact hk
    obtain ⟨h1, h2⟩ := attentionOutcome_attention (s.modSt i fun t => t.fillField f fill) i .enter true hk'
    refine ⟨h1, ?_⟩
    rcases h2 with h | h | ⟨h, h', -, h3⟩
    · exact .inl h
    · exact .inr (.inl h)
    · exact .inr (.inr ⟨h, h', hk, h3⟩)

theorem attentionOutcome_routeScan (s : State) (i : StationNo) (n : Nat) (data : List Byte)
    (hk : (s.st i).engine.kb = .opened) : AttentionOutcome s (s.routeScan i n data) i := by
  unfold State.routeScan
  simp only
  split
  · exact .same rfl rfl rfl
  · split
    · exact .same rfl rfl rfl
    · split
      · exact .same rfl rfl rfl
      · split
        · exact .same rfl rfl rfl
        · exact attentionOutcome_fillAndAct s i _ _ _ hk

/-- ENTER, CANCEL, PF1 to PF8 and SCAN. -/
theorem attentionOutcome_exec (c : Instr) (i : StationNo) (s s' : State)
    (hc : c = .keyEnter i ∨ c = .keyCancel i ∨ c = .keyPf i ∨ c = .scan i) (he : exec c s = .next s') :
    AttentionOutcome s s' i := by
  rcases hc with rfl | rfl | rfl | rfl
  · injection he with he; subst he; exact attentionOutcome_treatAttention s i _ _
  · injection he with he; subst he; exact attentionOutcome_treatAttention s i _ _
  · have he' : execKeyPf i s = .next s' := he
    unfold execKeyPf at he'
    split at he'
    · injection he' with he'; subst he'; exact attentionOutcome_treatAttention s i _ _
    · injection he' with he'; subst he'; exact .same rfl rfl rfl
  · have he' : execScan i s = .next s' := he
    unfold execScan at he'
    simp only at he'
    split at he'
    · split at he'
      · rename_i h
        injection he' with he'; subst he'
        exact (attentionOutcome_routeScan s i _ _ h.1).finish
      · injection he' with he'; subst he'; exact .same rfl rfl rfl
    · injection he' with he'; subst he'; exact .same rfl rfl rfl

/-- The commands that reach the allocator, one by one. -/
theorem touchesAllocator_cases {c : Instr} (h : touchesAllocator c = true) :
    c = .deviceReset ∨ c = .stationReset ∨ c = .recordDeparture ∨ c = .heldComposition
      ∨ ∃ i, c = .keyEnter i ∨ c = .keyCancel i ∨ c = .keyPf i ∨ c = .scan i := by
  cases c <;> simp [touchesAllocator] at h ⊢

/-! ### The service and the resets (R111, R114, R117) -/

/-- R114: a held composition with room, and one without. -/
theorem heldComposition_allocator (s s' : State) (he : execHeldComposition s = .next s') :
    (s'.ring = s.ring ∧ s'.held = s.held ∧ (s'.service = s.service ∨ s'.service = none))
      ∨ (∃ i k b rest bytes, s.held = ⟨i, k, b⟩ :: rest ∧ s.service = some i ∧ bytes.length ≤ s.ring.free
          ∧ s'.ring = s.ring.append i bytes ∧ s'.held = rest ∧ s'.service = rest.head?.map Held.station) := by
  unfold execHeldComposition at he
  split at he
  · injection he with he; subst he; exact .inl ⟨rfl, rfl, .inl rfl⟩
  · rename_i i h rest hs
    unfold State.serving at hs
    split at hs
    · rename_i i' h' rest' hserv hheld
      split at hs
      · rename_i hcond
        simp only [Option.some.injEq, Prod.mk.injEq] at hs
        obtain ⟨rfl, rfl, rfl⟩ := hs
        split at he
        · rename_i hroom
          injection he with he; subst he
          refine .inr ⟨i', h'.kind, h'.byScan, rest', _, ?_, hserv, hroom, ?_, ?_, ?_⟩
          · rw [hheld, ← hcond.1]
          · rw [State.startService_ring]; rfl
          · rw [State.startService_held]; rfl
          · rw [State.startService_service]
            simp only [State.endService, State.commitHeld]
            cases rest' <;> rfl
        · injection he with he; subst he
          exact .inl ⟨rfl, rfl, .inr rfl⟩
      · cases hs
    · cases hs

/-- R111: a departure: the head record leaves, and a service may start. -/
theorem recordDeparture_allocator (s s' : State) (he : execRecordDeparture s = .next s') :
    s'.held = s.held ∧ ((s'.ring = s.ring ∧ s'.service = s.service)
      ∨ (s'.ring = s.ring.depart ∧ (s'.service = s.service
          ∨ (s.service = none ∧ s'.service = s.held.head?.map Held.station)))) := by
  unfold execRecordDeparture at he
  split at he
  · split at he
    · injection he with he; subst he
      refine ⟨by rw [State.startService_held], .inr ⟨by rw [State.startService_ring], ?_⟩⟩
      rw [State.startService_service]
      cases hs : s.service with
      | none => cases hh : s.held <;> simp
      | some i => simp
    · injection he with he; subst he; exact ⟨rfl, .inl ⟨rfl, rfl⟩⟩
  · injection he with he; subst he; exact ⟨rfl, .inl ⟨rfl, rfl⟩⟩

/-- R117: a station reset takes the station's held attention off the list; the ring stays. -/
theorem stationReset_allocator (s s' : State) (he : execStationReset s = .next s') :
    s'.ring = s.ring ∧ ((s'.held = s.held ∧ s'.service = s.service)
      ∨ ∃ i, s'.held = s.held.filter (fun h => h.station != i)
          ∧ (s'.service = (if s.service = some i then none else s.service)
              ∨ s'.service = s'.held.head?.map Held.station)
          ∧ (∀ j, s'.service = some j → s.service = some i → s'.held.head?.map Held.station = some j)
          ∧ (s.service ≠ some i → s.service ≠ none → s'.service = s.service)) := by
  unfold execStationReset at he
  split at he
  · injection he with he; subst he; exact ⟨rfl, .inl ⟨rfl, rfl⟩⟩
  · split at he
    · injection he with he; subst he; exact ⟨rfl, .inl ⟨rfl, rfl⟩⟩
    · rename_i f _ i _
      split at he
      · injection he with he; subst he; exact ⟨rfl, .inl ⟨rfl, rfl⟩⟩
      · split at he
        · injection he with he; subst he
          simp only [State.answer, State.resetStation, State.removeHeld]
          split
          · rename_i hsv
            refine ⟨by rw [State.startService_ring]; rfl, .inr ⟨i, by rw [State.startService_held]; rfl, ?_⟩⟩
            have hsv' : s.service = some i := hsv
            have e : ∀ (a : State), a.service = none → a.startService.service = a.held.head?.map Held.station := by
              intro a ha
              rw [State.startService_service, ha]
              cases a.held <;> rfl
            refine ⟨.inr ?_, ?_, fun h => absurd hsv' h⟩
            · rw [e _ rfl, State.startService_held]
            · intro j hj _
              rw [State.startService_held]
              rw [e _ rfl] at hj
              exact hj
          · rename_i hsv
            have hsv' : s.service ≠ some i := hsv
            split
            · refine ⟨by rw [State.startService_ring]; rfl, .inr ⟨i, by rw [State.startService_held]; rfl, ?_⟩⟩
              have e : ∀ (a : State), a.startService.service
                  = match a.service with | none => a.held.head?.map Held.station | some j => some j := by
                intro a
                rw [State.startService_service]
                cases a.service <;> cases a.held <;> rfl
              rw [e, State.startService_held]
              refine ⟨?_, fun j _ h => absurd h hsv', fun _ hn => ?_⟩
              · cases hs : s.service with
                | none => right; simp [hs]
                | some j => left; rw [if_neg (by rwa [hs] at hsv')]; simp [hs]
              · cases hs : s.service with
                | none => exact absurd hs hn
                | some j => simp [hs]
            · refine ⟨rfl, .inr ⟨i, rfl, .inl ?_, fun j _ h => absurd h hsv', fun _ _ => rfl⟩⟩
              rw [if_neg hsv']; rfl
        · injection he with he; subst he; exact ⟨rfl, .inl ⟨rfl, rfl⟩⟩

end Sys2Proof.Machine
end

