-- ==== Sys2Proof/Laws/Frames.lean ====
section
/-! SUPPORT. The receivers take back what the part's framing lays on a line: a frame that fits is received whole
(R143, R174, R182, R199). -/

namespace Sys2Proof.Machine

@[simp] theorem beBytes_length (n v : Nat) : (beBytes n v).length = n := by
  induction n generalizing v with
  | zero => rfl
  | succ n ih => simp [beBytes, ih]

/-- Two bytes spell what they were made from. -/
theorem beValue_beBytes_two (v : Nat) (h : v < 65536) : beValue (beBytes 2 v) = v := by
  simp [beBytes, beValue]; omega

/-- Four bytes spell what they were made from. -/
theorem beValue_beBytes_four (v : Nat) (h : v < 4294967296) : beValue (beBytes 4 v) = v := by
  simp [beBytes, beValue]; omega

theorem rxRun_cons (limit : Nat) (rx : RxState) (b : Byte) (bs : List Byte) :
    rxRun limit rx (b :: bs)
      = ((rxRun limit (rxByte limit rx b).1 bs).1,
          (rxByte limit rx b).2.toList ++ (rxRun limit (rxByte limit rx b).1 bs).2) := rfl

/-- Bytes one after the other. -/
theorem rxRun_append (limit : Nat) (rx : RxState) (as bs : List Byte) :
    rxRun limit rx (as ++ bs)
      = ((rxRun limit (rxRun limit rx as).1 bs).1, (rxRun limit rx as).2 ++ (rxRun limit (rxRun limit rx as).1 bs).2) := by
  induction as generalizing rx with
  | nil => simp [rxRun]
  | cons a as ih => simp [rxRun_cons, ih, List.append_assoc]

/-- R143: one escaped byte, received inside a frame that has room for it. -/
theorem rxRun_escaped (limit : Nat) (acc : List Byte) (b : Byte) (h : acc.length < limit) :
    rxRun limit (.inFrame acc false) (escaped b) = (.inFrame (acc ++ [b]) false, []) := by
  by_cases h2 : b = 0x02
  · subst h2; simp [escaped, rxRun, rxByte, rxDecoded, h]
  · by_cases h3 : b = 0x03
    · subst h3; simp [escaped, rxRun, rxByte, rxDecoded, h]
    · by_cases h10 : b = 0x10
      · subst h10; simp [escaped, rxRun, rxByte, rxDecoded, h]
      · have e : escaped b = [b] := by
          unfold escaped
          rw [if_neg (by rintro (hb | hb | hb) <;> contradiction)]
        have r : rxByte limit (.inFrame acc false) b = (.inFrame (acc ++ [b]) false, none) := by
          simp only [rxByte, rxDecoded, if_neg h2, if_neg h3, if_neg h10, if_pos h]
        rw [e, rxRun_cons, r]; rfl

/-- R143: escaped bytes, received inside a frame that has room for them. -/
theorem rxRun_flatMap_escaped (limit : Nat) (l acc : List Byte) (h : acc.length + l.length ≤ limit) :
    rxRun limit (.inFrame acc false) (l.flatMap escaped) = (.inFrame (acc ++ l) false, []) := by
  induction l generalizing acc with
  | nil => simp [rxRun]
  | cons b l ih =>
    have hb : acc.length < limit := by simp at h; omega
    rw [List.flatMap_cons, rxRun_append, rxRun_escaped limit acc b hb]
    have hl : (acc ++ [b]).length + l.length ≤ limit := by simp at h ⊢; omega
    rw [ih _ hl]
    simp

/-- R144, R174: the tests pass on what a frame of the part holds. -/
theorem judge_covered (f : Frame) (h : f.body.length < 65536) :
    judge (f.covered ++ beBytes 2 (frameCheck f.covered).toNat) = .good f := by
  obtain ⟨k, st, body⟩ := f
  have hlen : (Frame.covered ⟨k, st, body⟩ ++ beBytes 2 (frameCheck (Frame.covered ⟨k, st, body⟩)).toNat).length
      = body.length + 6 := by simp [Frame.covered]; omega
  have hcov : (Frame.covered ⟨k, st, body⟩).length = body.length + 4 := by simp [Frame.covered]; omega
  have hbody : ((Frame.covered ⟨k, st, body⟩ ++ beBytes 2 (frameCheck (Frame.covered ⟨k, st, body⟩)).toNat).drop 4).take
      body.length = body := by
    simp [Frame.covered, beBytes]
  have hval : beValue (((Frame.covered ⟨k, st, body⟩
      ++ beBytes 2 (frameCheck (Frame.covered ⟨k, st, body⟩)).toNat).drop 2).take 2) = body.length := by
    have : ((Frame.covered ⟨k, st, body⟩ ++ beBytes 2 (frameCheck (Frame.covered ⟨k, st, body⟩)).toNat).drop 2).take 2
        = beBytes 2 body.length := by simp [Frame.covered, beBytes]
    rw [this, beValue_beBytes_two _ h]
  unfold judge
  simp only [hlen, Nat.add_sub_cancel, hbody, hval]
  have h4 : body.length + 6 - 2 = (Frame.covered ⟨k, st, body⟩).length := by rw [hcov]; omega
  rw [if_neg (by omega), if_neg (by simp), h4, List.take_left, List.drop_left,
    beValue_beBytes_two _ (frameCheck _).isLt, if_neg (by simp)]
  simp [Frame.covered]

/-- 11.1, R143, R174: the line bytes of a frame that fits are received as that frame, from HUNTING. -/
theorem rxRun_frame_hunting (limit : Nat) (f : Frame) (h : f.body.length + 6 ≤ limit) (hb : f.body.length < 65536) :
    rxRun limit .hunting f.onLine.bytes = (.hunting, [.good f]) := by
  have hlen : ([] : List Byte).length + (f.covered ++ beBytes 2 (frameCheck f.covered).toNat).length ≤ limit := by
    simp [Frame.covered]; omega
  have := rxRun_flatMap_escaped limit (f.covered ++ beBytes 2 (frameCheck f.covered).toNat) [] hlen
  simp only [LineFrame.bytes, Frame.onLine, List.cons_append, rxRun_cons, rxByte, if_true, Option.toList_none,
    List.nil_append, rxRun_append]
  rw [List.nil_append] at this
  rw [this]
  simp [rxRun, judge_covered f hb]

/-- R143: a start byte inside a frame discards the frame so far as bad; the frame after it is received whole. -/
theorem rxRun_frame_inFrame (limit : Nat) (f : Frame) (acc : List Byte) (esc : Bool) (h : f.body.length + 6 ≤ limit)
    (hb : f.body.length < 65536) :
    rxRun limit (.inFrame acc esc) f.onLine.bytes = (.hunting, [.bad, .good f]) := by
  have h1 := rxRun_frame_hunting limit f h hb
  simp only [LineFrame.bytes, Frame.onLine, List.cons_append, rxRun_cons, rxByte, if_true, Option.toList_none,
    List.nil_append] at h1
  obtain ⟨h2, h3⟩ := Prod.mk.inj h1
  cases esc <;>
    · simp only [LineFrame.bytes, Frame.onLine, List.cons_append, rxRun_cons, rxByte, if_true]
      rw [h2, h3]; rfl

/-- R144, R174: decoded bytes whose length item and check are those of their body are judged by their check alone. -/
theorem judge_check (f : Frame) (c : Check) (h : f.body.length < 65536) (hc : c ≠ frameCheck f.covered) :
    judge (f.covered ++ beBytes 2 c.toNat) = .bad := by
  have hlen : (f.covered ++ beBytes 2 c.toNat).length = f.body.length + 6 := by
    simp [Frame.covered]; omega
  have hcov : f.covered.length = f.body.length + 4 := by simp [Frame.covered]; omega
  have hbody : ((f.covered ++ beBytes 2 c.toNat).drop 4).take f.body.length = f.body := by
    simp [Frame.covered, beBytes]
  have hval : beValue (((f.covered ++ beBytes 2 c.toNat).drop 2).take 2) = f.body.length := by
    have : ((f.covered ++ beBytes 2 c.toNat).drop 2).take 2 = beBytes 2 f.body.length := by
      simp [Frame.covered, beBytes]
    rw [this, beValue_beBytes_two _ h]
  unfold judge
  simp only [hlen, Nat.add_sub_cancel, hbody, hval]
  have h4 : f.body.length + 6 - 2 = f.covered.length := by rw [hcov]; omega
  rw [if_neg (by omega), if_neg (by simp), h4, List.take_left, List.drop_left,
    beValue_beBytes_two _ c.isLt, if_pos (fun he => hc (BitVec.eq_of_toNat_eq he))]

/-- R143, R174: escaped contents that fit, between a start and an end byte, are judged at the end byte. -/
theorem rxRun_enclosed (limit : Nat) (decoded : List Byte) (h : decoded.length ≤ limit) :
    rxRun limit .hunting (0x02 :: decoded.flatMap escaped ++ [0x03]) = (.hunting, [judge decoded]) := by
  have := rxRun_flatMap_escaped limit decoded [] (by simpa using h)
  rw [List.nil_append] at this
  simp only [List.cons_append, rxRun_cons, rxByte, if_true, Option.toList_none, List.nil_append, rxRun_append]
  rw [this]
  simp [rxRun]

/-- R144, R174: a frame with any other check is discarded as bad. -/
theorem rxRun_frame_badCheck (limit : Nat) (f : Frame) (c : Check) (h : f.body.length + 6 ≤ limit)
    (hb : f.body.length < 65536) (hc : c ≠ frameCheck f.covered) :
    rxRun limit .hunting (LineFrame.mk f c).bytes = (.hunting, [.bad]) := by
  have hl : (f.covered ++ beBytes 2 c.toNat).length ≤ limit := by simp [Frame.covered]; omega
  have := rxRun_enclosed limit _ hl
  rw [judge_check f c hb hc] at this
  exact this

end Sys2Proof.Machine
end

