-- ==== Sys2Proof/Laws/Orders.lean ====
section
/-! SUPPORT. The parts of an order's encoding, decoded one by one: numbers, codes, texts, the DEF flags byte. -/

namespace Sys2Proof.Machine

/-- One byte carries a number below 256. -/
theorem byteOf_toNat (n : Nat) (h : n < 256) : (byteOf n).toNat = n := by
  simp [byteOf, BitVec.toNat_ofNat]; omega

theorem byteOf_eq {n m : Nat} (hn : n < 256) (hm : m < 256) : byteOf n = byteOf m ↔ n = m := by
  constructor
  · intro h
    have := congrArg BitVec.toNat h
    rwa [byteOf_toNat n hn, byteOf_toNat m hm] at this
  · rintro rfl; rfl

@[simp] theorem emphasisOf_emphasisByte (e : Emphasis) : emphasisOf (emphasisByte e) = some e := by
  cases e <;> rfl

@[simp] theorem classOf_classByte (c : FieldClass) : classOf (classByte c) = some c := by
  cases c <;> rfl

@[simp] theorem roleOf_roleByte (r : Role) : roleOf (roleByte r) = some r := by
  cases r <;> rfl

/-- Two bytes, as a list, spell their number. -/
theorem beBytes_two (v : Nat) : beBytes 2 v = [BitVec.ofNat 8 (v / 256), BitVec.ofNat 8 v] := by
  simp [beBytes]

theorem beBytes_four (v : Nat) :
    beBytes 4 v = [BitVec.ofNat 8 (v / 16777216), BitVec.ofNat 8 (v / 65536), BitVec.ofNat 8 (v / 256), BitVec.ofNat 8 v] := by
  simp [beBytes]

/-- A length byte and a text of at most 255 characters are taken back. -/
theorem takeText_textBytes (text rest : List Byte) (h : text.length ≤ 255) :
    takeText (textBytes text ++ rest) = some (text, rest) := by
  simp only [textBytes, List.cons_append, takeText, byteOf_toNat text.length (by omega)]
  rw [if_pos (by simp)]
  simp

/-- 11.3: the five bits of the DEF flags byte, and its upper bits clear. -/
theorem defFlags_bits (p : Protection) (q a : Bool) (b : Buffering) (g : Bool) :
    ((defFlags p q a b g).getLsbD 0 = decide (p = .openEntry)) ∧ (defFlags p q a b g).getLsbD 1 = q
      ∧ (defFlags p q a b g).getLsbD 2 = a ∧ (defFlags p q a b g).getLsbD 3 = decide (b = .shadowed)
      ∧ (defFlags p q a b g).getLsbD 4 = g ∧ (defFlags p q a b g).toNat < 32 := by
  cases p <;> cases q <;> cases a <;> cases b <;> cases g <;> decide

end Sys2Proof.Machine
end

