-- ==== Sys2Proof/Laws/FormMessages.lean ====
section
/-! SUPPORT. FORM messages laid out by the encoder: the orders are decoded one by one as they were written, so the
order-by-order check and the HELD-ENTRY scan run over the orders themselves. -/

namespace Sys2Proof.Machine

/-- The next order of an encoded list; the one numbered by the count may leave no bytes. -/
theorem nextOrder_encode (last : Bool) (o : Order) (rest : List Byte)
    (hd : decodeOrder (encodeOrder o ++ rest) = some (o, rest)) (hr : last = true → rest = []) :
    nextOrder last (encodeOrder o ++ rest) = some (o, rest) := by
  unfold nextOrder
  rw [hd]
  cases last with
  | false => rfl
  | true => simp [hr rfl]

/-- R32: the orders that pass are applied one after the other, and the check goes on behind them. -/
theorem runOrders_encoded (start : Station) (role : Role) (orders : List Order) (more : List Byte) (n index : Nat)
    (v : FormView) (hdec : ∀ o ∈ orders, ∀ rest, decodeOrder (encodeOrder o ++ rest) = some (o, rest))
    (hpass : ∀ k o, orders[k]? = some o →
      orderFault start role ((orders.take k).foldl (fun v o => v.apply role o) v) o = none)
    (hmore : n = 0 → more = []) :
    runOrders start role (orders.length + n) index (orders.flatMap encodeOrder ++ more) v
      = runOrders start role n (index + orders.length) more (orders.foldl (fun v o => v.apply role o) v) := by
  induction orders generalizing index v with
  | nil => simp
  | cons o os ih =>
    have h0 : orderFault start role v o = none := by simpa using hpass 0 o rfl
    have hd := hdec o List.mem_cons_self (os.flatMap encodeOrder ++ more)
    have hlast : decide (os.length + n = 0) = true → os.flatMap encodeOrder ++ more = [] := by
      intro h
      have h' := of_decide_eq_true h
      have : os = [] := List.eq_nil_of_length_eq_zero (by omega)
      subst this
      simpa using hmore (by omega)
    have hstep : (o :: os).length + n = (os.length + n) + 1 := by simp; omega
    rw [hstep, runOrders, List.flatMap_cons, List.append_assoc, nextOrder_encode _ o _ hd hlast]
    simp only [h0]
    rw [ih (index + 1) (v.apply role o) (fun p hp => hdec p (List.mem_cons_of_mem _ hp))
      (fun k p hk => by simpa using hpass (k + 1) p (by simpa using hk))]
    rw [show index + 1 + os.length = index + (o :: os).length by simp only [List.length_cons]; omega]
    rfl

/-- R29: the scan goes past orders that are no FLIP and no RELEASE; `n` orders are left. -/
theorem heldScan_append (before : List Order) (more : List Byte) (n index : Nat)
    (hdec : ∀ o ∈ before, ∀ rest, decodeOrder (encodeOrder o ++ rest) = some (o, rest))
    (hno : ∀ o ∈ before, o.opensForm = false) (hend : n = 0 → more = []) :
    heldScan (before.length + n) index (before.flatMap encodeOrder ++ more)
      = heldScan n (index + before.length) more := by
  induction before generalizing index with
  | nil => simp
  | cons o os ih =>
    have hd := hdec o List.mem_cons_self (os.flatMap encodeOrder ++ more)
    have hlast : decide (os.length + n = 0) = true → os.flatMap encodeOrder ++ more = [] := by
      intro h
      have h : os.length + n = 0 := of_decide_eq_true h
      have h1 : os = [] := List.eq_nil_of_length_eq_zero (by omega)
      subst h1
      simpa using hend (by omega)
    have hn := hno o List.mem_cons_self
    have htail := ih (index + 1) (fun p hp => hdec p (List.mem_cons_of_mem _ hp))
      (fun p hp => hno p (List.mem_cons_of_mem _ hp))
    rw [List.length_cons, Nat.add_right_comm, heldScan, List.flatMap_cons, List.append_assoc,
      nextOrder_encode _ o _ hd hlast, show index + (os.length + 1) = index + 1 + os.length by omega]
    cases o <;> first | exact htail | cases hn

/-- R29: a list without a FLIP or a RELEASE passes the scan. -/
theorem heldScan_passes (orders : List Order) (index : Nat)
    (hdec : ∀ o ∈ orders, ∀ rest, decodeOrder (encodeOrder o ++ rest) = some (o, rest))
    (hno : ∀ o ∈ orders, o.opensForm = false) :
    heldScan orders.length index (orders.flatMap encodeOrder) = none := by
  have h := heldScan_append orders [] 0 index hdec hno (fun _ => rfl)
  simpa [heldScan] using h

/-- R29: the scan stops at a FLIP or RELEASE, whatever follows it. -/
theorem heldScan_stops (o : Order) (rest : List Byte) (n index : Nat)
    (hd : decodeOrder (encodeOrder o ++ rest) = some (o, rest)) (ho : o.opensForm = true) (hend : n = 0 → rest = []) :
    heldScan (n + 1) index (encodeOrder o ++ rest) = some (.heldEntry, index) := by
  rw [heldScan, nextOrder_encode _ o _ hd (fun h => hend (of_decide_eq_true h))]
  cases o <;> first | rfl | cases ho

/-- R29, R200: an order that cannot be decoded ends the scan; the one numbered by the count may leave no bytes. -/
theorem heldScan_undecodable (more : List Byte) (n index : Nat)
    (h : decodeOrder more = none ∨ ∃ o rest, n = 0 ∧ decodeOrder more = some (o, rest) ∧ rest ≠ []) :
    heldScan (n + 1) index more = some (.badOrder, index) := by
  rcases h with h | ⟨o, rest, rfl, h, hr⟩ <;> simp [heldScan, nextOrder, h]
  simp [hr]

end Sys2Proof.Machine
end

