-- ==== Sys2Proof/Laws/Operations.lean ====
section
/-! SUPPORT. What the shared operations do, once each, for the proofs about single commands: a station put back, a
field's content written and read, events under treatment, key moves, attentions, upstream frames, the request in hand,
the decoders of CONFIGURE and TEST, the bytes of the ring, and which frame is due. -/

namespace Sys2Proof.Machine

/-! ### Stations -/

/-- Of two stations put back at one place the later one stands. -/
@[simp] theorem State.setSt_setSt (s : State) (i : StationNo) (a b : Station) :
    (s.setSt i a).setSt i b = s.setSt i b := by simp [State.setSt, Vector.set]

/-- Putting a station back as it stands changes nothing. -/
@[simp] theorem State.setSt_same (s : State) (i : StationNo) : s.setSt i (s.st i) = s := by
  have : s.stations.set i.val (s.st i) i.isLt = s.stations := by
    apply Vector.ext; intro j hj; simp [Vector.getElem_set, State.st]; intro h; subst h; rfl
  simp [State.setSt, this]

/-! ### Contents (R3, R9, R12) -/

@[simp] theorem length_padded (n : Nat) (text : List Byte) : (padded n text).length = n := by simp [padded]; omega

/-- R12: a text that fits is padded with blanks to the length. -/
theorem padded_of_le {n : Nat} {text : List Byte} (h : text.length ≤ n) :
    padded n text = text ++ List.replicate (n - text.length) 0x20 := by
  unfold padded; rw [List.take_of_length_le (by simp; omega)]; rfl

/-- The characters of a padded text. -/
theorem getElem?_padded (n : Nat) (text : List Byte) (k : Nat) (hk : k < n) :
    (padded n text)[k]? = some (text.getD k 0x20) := by
  simp only [padded, List.getElem?_take, hk, if_true, List.getElem?_append, List.getD]
  split
  · rename_i h; simp [List.getElem?_eq_getElem h]
  · rename_i h
    rw [List.getElem?_replicate, if_pos (by omega)]
    simp [List.getElem?_eq_none (Nat.le_of_not_lt h), blank]

/-- R3: the cells after a field's content has been written. -/
theorem read_writeContent (cells : Sparse Cell) (f : Field) (text : List Byte) (k : Nat) :
    Sparse.read Cell.blank k (writeContent cells f text)
      = if f.covers k = true then Cell.plain ((padded f.len text).getD (k - f.start) 0x20)
        else Sparse.read Cell.blank k cells := by
  simp only [writeContent, Sparse.read_writeAll, List.length_map, length_padded]
  simp only [Field.covers, Bool.and_eq_true, decide_eq_true_eq]
  by_cases h : f.start ≤ k ∧ k < f.start + f.len
  · rw [if_pos h, if_pos h]
    simp only [List.getD]
    have hl : k - f.start < (padded f.len text).length := by rw [length_padded]; omega
    simp [List.getElem?_eq_getElem hl]
  · rw [if_neg h, if_neg h]

/-- R3: a field's content is what its cells hold. -/
theorem Page.content_eq (p : Page) (f : Field) (text : List Byte) (hl : text.length = f.len)
    (h : ∀ k, f.covers k = true → (p.cell k).ch = text.getD (k - f.start) 0x20) : p.content f = text := by
  apply List.ext_getElem
  · simp [Page.content, hl]
  · intro k h1 h2
    have hk : k < f.len := by omega
    simp only [Page.content, List.getElem_map, List.getElem_range]
    rw [h _ (by simp [Field.covers]; omega)]
    simp [List.getD, List.getElem?_eq_getElem h2]

/-- R3: two pages with the same cells in a field hold the same content there. -/
theorem Page.content_congr {p q : Page} {f : Field} (h : ∀ k, f.covers k = true → p.cell k = q.cell k) :
    p.content f = q.content f := by
  simp only [Page.content]
  apply List.map_congr_left
  intro k hk
  rw [h]; simp [Field.covers]; simpa using hk

/-- R3: a full content written to a field is its content. -/
theorem Page.content_setContent (p : Page) (f : Field) (text : List Byte) (h : text.length = f.len) :
    (p.setContent f text).content f = text := by
  apply Page.content_eq _ _ _ h
  intro k hk
  show (Sparse.read Cell.blank k (writeContent p.cells f text)).ch = _
  rw [read_writeContent, if_pos hk, padded_of_le (by omega)]
  simp [Cell.plain, h]

/-- R3: a write to a field's content leaves the cells outside it. -/
theorem Page.cell_setContent (p : Page) (f : Field) (text : List Byte) (k : Nat) (h : f.covers k = false) :
    (p.setContent f text).cell k = p.cell k := by
  show Sparse.read Cell.blank k (writeContent p.cells f text) = _
  rw [read_writeContent, if_neg (by simp [h])]; rfl

/-- Contents written to several fields leave the cells outside all of them. -/
theorem read_foldContent_outside (fs : List Field) (text : Field → List Byte) (cells : Sparse Cell) (k : Nat)
    (h : ∀ f ∈ fs, f.covers k = false) :
    Sparse.read Cell.blank k (fs.foldl (fun cs f => writeContent cs f (text f)) cells)
      = Sparse.read Cell.blank k cells := by
  induction fs generalizing cells with
  | nil => rfl
  | cons f fs ih =>
    rw [List.foldl_cons, ih _ fun g hg => h g (List.mem_cons_of_mem _ hg), read_writeContent,
      if_neg (by simp [h f (by simp)])]

/-- Contents written to several fields that share no cell stand in each of them. -/
theorem read_foldContent_inside (fs : List Field) (text : Field → List Byte) (cells : Sparse Cell)
    (hp : fs.Pairwise (fun f g => f.start + f.len ≤ g.start)) (f : Field) (hf : f ∈ fs) (k : Nat)
    (h : f.covers k = true) :
    Sparse.read Cell.blank k (fs.foldl (fun cs f => writeContent cs f (text f)) cells)
      = Cell.plain ((padded f.len (text f)).getD (k - f.start) 0x20) := by
  induction fs generalizing cells with
  | nil => cases hf
  | cons g fs ih =>
    obtain ⟨h1, h2⟩ := List.pairwise_cons.mp hp
    rw [List.foldl_cons]
    rcases List.mem_cons.mp hf with rfl | hf
    · rw [read_foldContent_outside, read_writeContent, if_pos h]
      intro g hg
      have := h1 g hg
      simp [Field.covers] at h ⊢; omega
    · exact ih _ h2 hf

/-- R6: at most one field of a lawful page covers a cell. -/
theorem Page.Lawful.covers_inj {p : Page} (hp : p.Lawful) {f g : Field} (hf : f ∈ p.fields) (hg : g ∈ p.fields)
    {k : Nat} (h1 : f.covers k = true) (h2 : g.covers k = true) : f = g := by
  by_contra hne
  have hd := hp.2.1
  simp [Field.covers] at h1 h2
  obtain ⟨i, hi, rfl⟩ := List.getElem_of_mem hf
  obtain ⟨j, hj, rfl⟩ := List.getElem_of_mem hg
  rcases lt_trichotomy i j with h3 | h3 | h3
  · have := List.pairwise_iff_getElem.mp hd i j hi hj h3; omega
  · subst h3; exact hne rfl
  · have := List.pairwise_iff_getElem.mp hd j i hj hi h3; omega

/-- R6: the field holding an index covers it. -/
theorem Page.fieldAt_covers {p : Page} {k : Nat} {f : Field} (h : p.fieldAt k = some f) : f.covers k = true := by
  have := List.find?_some h; exact this

/-- R13: a promotion leaves the cells outside the promoted fields. -/
theorem Page.cell_promote_outside (p : Page) (hit : Field → Bool) (k : Nat)
    (h : ∀ f ∈ promoted hit p, f.covers k = false) : (p.promote hit).cell k = p.cell k := by
  show Sparse.read Cell.blank k ((promoted hit p).foldl (fun cs f => writeContent cs f (f.shadow.getD [])) p.cells) = _
  rw [read_foldContent_outside _ (fun f => f.shadow.getD []) _ _ h]; rfl

/-- R4: a promotion leaves what a cell outside the promoted fields shows. -/
theorem Page.shown_promote_outside (p : Page) (hit : Field → Bool) (highlight : Option Nat) (k : Nat)
    (h : ∀ f ∈ promoted hit p, f.covers k = false) : (p.promote hit).shown highlight k = p.shown highlight k := by
  have e := Page.shown_mapFields p (fun f => f.shadow.isSome && hit f) (fun f => { f with shadow := none, mark := false })
    (fun _ => rfl) (fun _ => rfl) (fun _ => rfl) (fun _ => rfl) highlight k
  rw [← e]
  simp only [Page.shown, Page.shownEmphasis, Page.cell_promote_outside p hit k h]
  rfl

/-- R13, R19: the dirty set after a promotion has gained the cells of the promoted fields and no others. -/
theorem Station.mem_dirty_promote (t : Station) (hit : Field → Bool) {k : Nat} (hk : k < 1600) :
    k ∈ (t.promote hit).display.dirty ↔ k ∈ t.display.dirty ∨ ∃ f ∈ promoted hit t.front, f.covers k = true := by
  simp only [Station.promote, Station.withFront, Station.joinDirty_dirty, Station.repainted_dirty, mem_joinIndexes, hk,
    true_and, bne_iff_ne, List.any_eq_true]
  by_cases h : ∃ f ∈ promoted hit t.front, f.covers k = true
  · simp [h]
  · have e : t.shown k = Station.shown { t with front := t.front.promote hit } k :=
      (Page.shown_promote_outside t.front hit t.highlight k
        (fun f hf => Bool.eq_false_iff.mpr fun hc => h ⟨f, hf, hc⟩)).symm
    simp [h, e]

/-- An order that names a field keeps of the station what its action keeps, and is passed over without a field. -/
theorem FormView.atField_keeps (P : Station → Prop) (v : FormView) (target : Option Field)
    (act : Station → Field → Station) (h : P v.station) (ha : ∀ f, P (act v.station f)) :
    P (v.atField target act).station := by
  cases target with
  | none => exact h
  | some f => exact ha f

/-- An order that names a field leaves what the message has noted of RELEASE and FLIP. -/
theorem FormView.atField_notes (v : FormView) (target : Option Field) (act : Station → Field → Station) :
    (v.atField target act).released = v.released ∧ (v.atField target act).flipped = v.flipped := by
  cases target <;> exact ⟨rfl, rfl⟩

/-- R40: DROP makes the cells of its field blank NORMAL and leaves every other cell. -/
theorem Page.cell_drop (p : Page) (f : Field) (k : Nat) :
    (p.drop f).cell k = if f.covers k = true then Cell.blank else p.cell k := by
  show Sparse.read Cell.blank k (blankCells p.cells f.start f.len) = _
  simp only [blankCells, Sparse.read_writeAll, List.length_replicate, Field.covers, Bool.and_eq_true, decide_eq_true_eq]
  by_cases h : f.start ≤ k ∧ k < f.start + f.len
  · rw [if_pos h, if_pos h]
    simp [List.getD]
  · rw [if_neg h, if_neg h]; rfl

/-- R40: DROP removes the record of its field and keeps the others in their order. -/
theorem Page.fields_drop {p : Page} (hp : p.Lawful) {before after : List Field} {f : Field}
    (h : p.fields = before ++ f :: after) : (p.drop f).fields = before ++ after := by
  have hn := hp.2.2.1
  rw [h, List.map_append, List.map_cons, List.nodup_append] at hn
  obtain ⟨-, h2, h3⟩ := hn
  have hb : ∀ g ∈ before, (g.tag != f.tag) = true := fun g hg =>
    bne_iff_ne.mpr (h3 _ (List.mem_map_of_mem hg) _ List.mem_cons_self)
  have ha : ∀ g ∈ after, (g.tag != f.tag) = true := fun g hg =>
    bne_iff_ne.mpr fun e => (List.nodup_cons.mp h2).1 (e ▸ List.mem_map_of_mem hg)
  show p.fields.filter _ = _
  rw [h, List.filter_append, List.filter_cons_of_neg (by simp), List.filter_eq_self.mpr hb, List.filter_eq_self.mpr ha]

/-- The first field with a property is the one a search finds. -/
theorem FirstField.find {fs : List Field} {hit : Field → Prop} (q : Field → Bool) (hq : ∀ g, q g = true ↔ hit g)
    {f : Field} (h : FirstField fs hit f) : fs.find? q = some f := by
  obtain ⟨b, a, e, hf, hb⟩ := h
  rw [e, List.find?_append]
  have : b.find? q = none := List.find?_eq_none.mpr (fun g hg => by rw [hq]; exact hb g hg)
  simp [this, (hq f).mpr hf]

/-! ### Events under treatment (R60, R67, R72) -/

/-- R60: a key under treatment has its effect, and the event completes. -/
theorem State.Treating.treat {s : State} {i : StationNo} {k : Key} (h : s.Treating i (.key k))
    (f : Station → Station) : s.treat i k f = s.setSt i (f (s.st i)).finishEvent := by
  obtain ⟨h1, h2, h3⟩ := h
  simp [State.treat, Station.keyInHand, h1, h2, h3, State.modSt]

/-- R67: a move that fails its exit rule locks at the field left. -/
theorem Station.keyMove_fails {t : Station} {dest : Nat} {f : Field} (h : t.ExitFails dest f) :
    t.keyMove dest = t.lockAtField .badEntry f := by
  obtain ⟨h1, h2, h3, h4, h5⟩ := h
  simp [Station.keyMove, h1, h2, Field.isOpen, h3, h4, Page.exitPasses, h5]

/-- R67: any other move takes place. -/
theorem Station.keyMove_passes {t : Station} {dest : Nat} (h : ∀ f, ¬ t.ExitFails dest f) :
    t.keyMove dest = t.moveCursor dest := by
  unfold Station.keyMove
  split
  · rfl
  · rename_i f hf
    have := h f
    simp only [Station.ExitFails, hf, true_and] at this
    split
    · rename_i hc
      simp [Field.isOpen, Page.exitPasses] at hc
      exact absurd ⟨hc.1.1.1, hc.1.1.2, hc.1.2, hc.2⟩ this
    · rfl

/-- R72: outside every OPEN-ENTRY field the keyboard locks PROTECTED. -/
theorem Station.atEntryField_guarded {t : Station} (act : Field → Station)
    (h : ∀ f, t.front.fieldAt t.front.cursor = some f → f.protection = .guarded) :
    t.atEntryField act = t.enterLocked .guarded none := by
  unfold Station.atEntryField
  split
  · rfl
  · rename_i f hf; simp [Field.isOpen, h f hf]

/-- R72: inside one the key acts. -/
theorem Station.atEntryField_open {t : Station} (act : Field → Station) {f : Field}
    (h : t.front.fieldAt t.front.cursor = some f) (ho : f.protection = .openEntry) : t.atEntryField act = act f := by
  simp [Station.atEntryField, h, Field.isOpen, ho]

/-! ### The request in hand (R178) -/

theorem State.inHandOf_handling {s : State} {f : Frame} (h : s.interp = .handling f) (k : Byte) :
    s.inHandOf k = if f.kind = k then some f else none := by simp [State.inHandOf, State.inHand, h]

theorem State.testInHand_handling {s : State} {f : Frame} {k : Byte} (h : s.interp = .handling f)
    (hk : f.kind = 0x45) (hb : f.body.head? = some k) : s.testInHand k = some f := by
  simp [State.testInHand, State.inHandOf_handling h, hk, kindTest, hb]

/-! ### CONFIGURE and TEST bodies (11.2) -/

/-- R195: the first failing setting gives the reason. -/
theorem checkSettings_first (before after : List Setting) (x : Setting) (r : Reason)
    (hb : ∀ y ∈ before, checkSetting y = none) (hx : checkSetting x = some r) :
    checkSettings (before ++ x :: after) = some r := by
  have : checkSettings (before ++ x :: after) = (before ++ x :: after).findSome? checkSetting := by
    cases before <;> rfl
  rw [this, List.findSome?_append]
  have : before.findSome? checkSetting = none := List.findSome?_eq_none_iff.mpr hb
  simp [this, hx]

/-- 11.2: a setting laid out as its row gives is decoded as that setting. -/
theorem decodeSetting_bytes (x : Setting) (rest : List Byte) (h : x.Encodable) :
    decodeSetting (settingBytes x ++ rest) = some (x, rest) := by
  cases x with
  | route e sy l st c a =>
    obtain ⟨h1, h2, h3, h4⟩ := h
    have ht := takeText_textBytes l (byteOf st :: c :: a :: rest) (by omega)
    have hh : settingBytes (.route e sy l st c a) ++ rest
        = 1 :: byteOf e :: byteOf sy :: (textBytes l ++ byteOf st :: c :: a :: rest) := by
      simp [settingBytes, textBytes]
    have h1' : (1 : Byte).toNat = 1 := rfl
    rw [hh]
    simp only [decodeSetting, h1', ht, byteOf_toNat _ h1, byteOf_toNat _ h2, byteOf_toNat _ h4]
  | acceptance o kb a =>
    have h : o < 256 := h
    cases a <;> simp [settingBytes, decodeSetting, byteOf_toNat _ h]
  | runTimeout ms =>
    have h : ms < 256 := h
    simp [settingBytes, decodeSetting, byteOf_toNat _ h]
  | soundOnLock on => cases on <;> simp [settingBytes, decodeSetting, flagByte]
  | fault n k =>
    have h : n < 256 := h
    simp [settingBytes, decodeSetting, byteOf_toNat _ h]
  | faultClear => rfl

theorem length_settingBytes_pos (x : Setting) : 1 ≤ (settingBytes x).length := by cases x <;> simp [settingBytes]

/-- 11.2: settings back to back are decoded as those settings. -/
theorem decodeSettingsFuel_bytes (xs : List Setting) (h : ∀ x ∈ xs, x.Encodable) (n : Nat)
    (hn : (xs.flatMap settingBytes).length ≤ n) : decodeSettingsFuel n (xs.flatMap settingBytes) = some xs := by
  induction xs generalizing n with
  | nil => cases n <;> rfl
  | cons x xs ih =>
    have hp := length_settingBytes_pos x
    simp only [List.flatMap_cons, List.length_append] at hn ⊢
    obtain ⟨m, rfl⟩ : ∃ m, n = m + 1 := ⟨n - 1, by omega⟩
    have hd := decodeSetting_bytes x (xs.flatMap settingBytes) (h x List.mem_cons_self)
    have hi := ih (fun y hy => h y (List.mem_cons_of_mem _ hy)) m (by omega)
    cases e : settingBytes x with
    | nil => rw [e] at hp; simp at hp
    | cons b bs =>
      rw [e] at hd
      simp only [List.cons_append] at hd ⊢
      simp only [decodeSettingsFuel, hd, hi]

@[simp] theorem modeOf_modeByte (m : TestMode) : modeOf (modeByte m) = some m := by cases m <;> rfl

/-- 11.2: the injection of a START. -/
theorem decodeInjection_bytes (p : Injection) (rest : List Byte) (h : ∀ n, p = .rate n → 1 ≤ n ∧ n ≤ 4) :
    decodeInjection (injectionBytes p ++ rest) = some (p, rest) := by
  cases p with
  | none => rfl
  | single => rfl
  | rate n =>
    have := h n rfl
    have hn := byteOf_toNat n (by omega)
    simp [injectionBytes, decodeInjection, hn, this]

/-- 11.2: the pattern of a START. -/
theorem decodePattern_bytes (p : Pattern) (rest : List Byte)
    (h : ∀ bytes, p = .repeated bytes → 1 ≤ bytes.length ∧ bytes.length ≤ 16) :
    decodePattern (patternBytes p ++ rest) = some (p, rest) := by
  cases p with
  | count => rfl
  | repeated b =>
    have := h b rfl
    have ht := takeText_textBytes b rest (by omega)
    have e : patternBytes (.repeated b) ++ rest = 1 :: (textBytes b ++ rest) := by simp [patternBytes, textBytes]
    have hb : ¬ (b = [] ∨ b.length > 16) := by
      rintro (rfl | h16)
      · simp at this
      · omega
    rw [e]
    simp only [decodePattern, ht]
    rw [if_neg (by decide), if_pos trivial]
    exact if_neg hb

/-- 11.2, R160: a START laid out with parameters in range is decoded as that START. -/
theorem decodeTest_start (m : TestMode) (p : Pattern) (j : Injection) (d : Nat) (h : StartInRange p j d) :
    decodeTest (startBody m p j d) = some (.start m p j d) := by
  obtain ⟨h1, h2, h3⟩ := h
  have e : startBody m p j d = 1 :: modeByte m :: (patternBytes p ++ (injectionBytes j ++ beBytes 2 d)) := by
    simp [startBody]
  rw [e]
  have hd : beValue (beBytes 2 d) = d := beValue_beBytes_two d h3
  have hi := decodeInjection_bytes j (beBytes 2 d) h2
  rw [beBytes_two] at hi hd
  rw [beBytes_two]
  simp only [decodeTest, if_pos, decodeStart, modeOf_modeByte, decodePattern_bytes p _ h1, hi, hd]

/-! ### Upstream frames (R143, R145) -/

/-- R149, R161: while a test has the line, upstream bytes act one by one. -/
theorem State.upstream_cons_taken {s : State} {i : StationNo} (h : (s.st i).port.takenByTest = true) (b : Byte)
    (bytes : List Byte) : s.upstream i (b :: bytes) = (s.upstream i [b]).upstream i bytes := by
  have keep : ((s.st i).testByte b).port.takenByTest = true := by
    unfold Station.testByte Station.returnByte
    split
    · split
      · exact h
      · exact h
      · split <;> exact h
    · exact h
  have e : s.upstream i [b] = s.setSt i ((s.st i).testByte b) := by simp [State.upstream, h, State.modSt]
  rw [e]
  simp [State.upstream, h, keep, State.modSt]

/-- R143, R145: the bytes of a frame at a port that has its line: the frame is heard and used. -/
theorem State.upstream_frameBytes (s : State) (i : StationNo) (kind item : Byte) (body : List Byte)
    (ht : (s.st i).port.takenByTest = false) (hb : body.length ≤ 41) :
    s.upstream i (frameBytes kind item body) = (s.setSt i (s.st i).heard).deliver i (classify ⟨kind, item, body⟩) := by
  have h1 : s.upstream i (frameBytes kind item body) = s.portBytes i (frameBytes kind item body) := by
    simp [State.upstream, ht]
  rw [h1]
  unfold State.portBytes frameBytes
  cases hr : (s.st i).port.rx with
  | hunting =>
    rw [rxRun_frame_hunting _ _ (by simp [upstreamLimit]; omega) (by simp; omega)]
    simp only [List.foldl_cons, List.foldl_nil, State.received, State.modSt, State.st_setSt_self, State.setSt_setSt]
    congr 2
    simp [Station.heard, Port.fragmentDropped, hr, Monitor.markLive]
    cases hx : (s.st i).port; simp [hx] at hr ⊢; exact hr.symm
  | inFrame acc esc =>
    rw [rxRun_frame_inFrame _ _ _ _ (by simp [upstreamLimit]; omega) (by simp; omega)]
    simp only [List.foldl_cons, List.foldl_nil, State.received, State.modSt, State.st_setSt_self, State.setSt_setSt]
    congr 2
    simp [Station.heard, Port.fragmentDropped, hr, Monitor.markLive, Port.countBad, satInc, satAdd, max16]

/-! ### Attentions (R100 to R112) -/

/-- R100 to R112: what `attention` makes of an attention. -/
theorem State.attention_leaves (s : State) (i : StationNo) (kind : Attention) (b : Bool) :
    s.AttentionLeaves i kind b (s.attention i kind b) := by
  have hbad : ∀ g : Field, (g.isOpen && g.mark && !(s.st i).front.exitPasses g) = true ↔ (s.st i).front.BadAtEnter g := by
    intro g; simp [Page.BadAtEnter, Field.isOpen, Page.exitPasses, and_assoc]
  have hempty : ∀ g : Field, (g.required && decide ((s.st i).front.valueOf g = [])) = true
      ↔ (s.st i).front.EmptyAtEnter g := by intro g; simp [Page.EmptyAtEnter]
  have hmark : Station.marksGiven { s.st i with
      engine := { (s.st i).engine with kb := .waiting, insert := false }
      display := { (s.st i).display with indicatorPending := true } }
      = Station.committed (Station.accepted (s.st i)) := by
    simp [Station.marksGiven, Station.committed, Station.accepted, Page.mapFields, Station.promoteAll]
  have hfront : ((s.modSt i Station.accepted).st i).front = (s.st i).front := by simp [Station.accepted]
  have hfree : (s.modSt i Station.accepted).ring.free = 8192 - s.ring.occupancy := rfl
  have hpass : (s.st i).front.PassesEnter kind →
      (if kind = .enter then (s.st i).front.enterFailure else none) = none := by
    intro h
    split
    · rename_i hk
      have h' := h hk
      have e1 : (s.st i).front.fields.find? (fun f => f.isOpen && f.mark && !(s.st i).front.exitPasses f) = none :=
        List.find?_eq_none.mpr (fun g hg => by rw [hbad]; exact (h' g hg).1)
      have e2 : (s.st i).front.fields.find? (fun g => g.required && decide ((s.st i).front.valueOf g = [])) = none :=
        List.find?_eq_none.mpr (fun g hg => by rw [hempty]; exact (h' g hg).2)
      simp only [Page.enterFailure, e1, e2]; rfl
    · rfl
  refine ⟨?_, ?_, ?_, ?_⟩
  · intro f hk hf
    have e1 := hf.find _ hbad
    simp [State.attention, hk, Page.enterFailure, e1, State.modSt]
  · intro f hk hn hf
    have e1 : (s.st i).front.fields.find? (fun f => f.isOpen && f.mark && !(s.st i).front.exitPasses f) = none :=
      List.find?_eq_none.mpr (fun g hg => by rw [hbad]; exact hn g hg)
    have e2 := hf.find _ hempty
    simp only [State.attention, hk, Page.enterFailure, e1, e2, State.modSt, if_true]; rfl
  · intro hp hh hl
    have hc : (s.modSt i Station.accepted).held = []
        ∧ (((s.modSt i Station.accepted).st i).front.recordBytes i kind b).length
          ≤ (s.modSt i Station.accepted).ring.free := ⟨hh, by rw [hfront, hfree]; exact hl⟩
    unfold State.attention
    rw [hpass hp]
    show (s.modSt i Station.accepted).compose i kind b = _
    rw [State.compose, if_pos hc, State.commit, hfront]
    simp only [State.modSt, State.setSt_setSt, State.st_setSt_self]
    rw [hmark]
    rfl
  · intro hp hh
    have hc : ¬ ((s.modSt i Station.accepted).held = []
        ∧ (((s.modSt i Station.accepted).st i).front.recordBytes i kind b).length
          ≤ (s.modSt i Station.accepted).ring.free) := by
      rw [hfront, hfree]
      rintro ⟨h1, h2⟩
      rcases hh with h | h
      · exact h h1
      · omega
    unfold State.attention
    rw [hpass hp]
    show (s.modSt i Station.accepted).compose i kind b = _
    unfold State.compose
    rw [if_neg hc]
    simp only [State.hold, State.modSt, State.setSt_setSt, State.st_setSt_self]
    rfl

/-! ### The ring (R109) -/

/-- R109: bytes written round the ring from an offset on read back in their order; the others stay. -/
theorem Sparse.read_writeRing (size : Nat) (hs : 0 < size) (vs : List Byte) (off : Nat) (m : Sparse Byte)
    (hv : vs.length ≤ size) (ho : off < size) (k : Nat) (hk : k < size) :
    Sparse.read 0 ((off + k) % size) (Sparse.writeRing 0 size off vs m)
      = if h : k < vs.length then vs[k] else Sparse.read 0 ((off + k) % size) m := by
  induction vs generalizing off m k with
  | nil => simp [Sparse.writeRing]
  | cons v vs ih =>
    simp only [Sparse.writeRing]
    simp at hv
    cases k with
    | zero =>
      have h2 : (off + 0) % size = ((off + 1) % size + (size - 1)) % size := by
        simp only [Nat.add_zero, Nat.mod_add_mod]; rw [show off + 1 + (size - 1) = off + size by omega]; simp
      rw [h2, ih ((off + 1) % size) _ (by omega) (Nat.mod_lt _ hs) (size - 1) (by omega)]
      rw [dif_neg (by omega), ← h2]
      simp [Sparse.read_write, Nat.mod_eq_of_lt ho]
    | succ k =>
      have h2 : (off + (k + 1)) % size = ((off + 1) % size + k) % size := by
        simp only [Nat.mod_add_mod]; congr 1; omega
      rw [h2, ih ((off + 1) % size) _ (by omega) (Nat.mod_lt _ hs) k (by omega), ← h2]
      by_cases hl : k < vs.length
      · simp [hl]
      · simp only [hl, dif_neg, not_false_eq_true, List.length_cons]
        rw [dif_neg (by omega), Sparse.read_write, if_neg]
        intro e
        have hcase : (off + (k + 1)) % size = off := by exact e.symm
        rcases Nat.lt_or_ge (off + (k + 1)) size with hlt | hge
        · rw [Nat.mod_eq_of_lt hlt] at hcase; omega
        · rw [Nat.mod_eq_sub_mod hge, Nat.mod_eq_of_lt (by omega)] at hcase; omega

/-! ### Which frame is due (R120, R121, R134) -/

theorem Station.mayStart_iff (t : Station) : t.mayStart = true ↔ t.AtBoundary := by
  simp [Station.mayStart, Station.AtBoundary, and_assoc]

theorem Station.paceDue_iff (t : Station) : paceDue t.engine.pacing t.display.paceTold = false ↔ t.PaceIsTold := by
  unfold Station.PaceIsTold
  cases h : t.engine.pacing <;> cases h2 : t.display.paceTold <;> simp [paceDue]

/-- R121: the choice at a boundary, when the pace has been told and the unit is READY. -/
theorem Station.due_ready {t : Station} (hb : t.AtBoundary) (hp : t.PaceIsTold) (hr : t.display.unit = .ready) :
    t.due = if t.display.soundPending then some .sound
      else if t.display.indicatorPending then some .indicator
      else if t.display.run.isSome then none
      else if t.display.dirty ≠ [] then some .run
      else if t.display.cursorPending then some .cursor
      else none := by
  rw [← Station.mayStart_iff] at hb
  rw [← Station.paceDue_iff] at hp
  simp [Station.due, hb, hp, hr]

/-- R120: away from a boundary nothing is due. -/
theorem Station.due_none {t : Station} (h : ¬ t.AtBoundary) : t.due = none := by
  rw [← Station.mayStart_iff] at h; simp [Station.due, h]

end Sys2Proof.Machine
end

