-- ==== Sys2Proof/WellFormed.lean ====
section
/-! DEFINITION. Well-formed commands: the operands are what the command's row says they are (a usable KEY frame holds
a key code, a refused frame is of no use, a frame fits its line). The meanings are total all the same: an ill-formed
command does what its bytes do by R143 to R145 and R174. -/

namespace Sys2Proof

open Machine

/-- R174, 11.1: a body the host line can carry. -/
def bodyFits (limit : Nat) (body : List Byte) : Bool := body.length + 6 ≤ limit

/-- The operands of a command are what its row says. -/
def WellFormed : Instr → Bool
  | .hostRequestFrameComplete kind _ body => kind != kindPause && kind != kindGo && bodyFits hostLimit body
  | .hostBadFrame bytes => bytes.length > 0
  | .pause _ body => bodyFits hostLimit body
  | .go _ body => bodyFits hostLimit body
  | .keyFrameDelivery _ _ code => (keyOf code).isSome
  | .scanFrameDelivery _ _ symbology data =>
    1 ≤ symbology.toNat && symbology.toNat ≤ 15 && 1 ≤ data.length && data.length ≤ 40
  | .unitRunOk _ _ number => number.toNat ≤ 15
  | .upstreamRefusedFrame _ item kind body => bodyFits upstreamLimit body && classify ⟨kind, item, body⟩ = .refused
  | .upstreamBadFrame _ bytes => bytes.length > 0
  | .deviceReset | .requestTake | .form | .readCells | .readFields | .readField | .readModified
  | .readStatusStation | .readStatusDevice | .configure | .stationReset | .unknownKind
  | .testStart | .testStop | .testInject | .placeReply
  | .txReplyStart | .txNoticeStart | .txEntryStart | .txFrameEnd | .recordDeparture | .heldComposition
  | .eventTaken _ | .keyPrintable _ | .keyDelete _ | .keyEraseEof _ | .keyEraseInput _ | .keyInsert _ | .keyReset _
  | .keyRight _ | .keyLeft _ | .keyUp _ | .keyDown _ | .keyTab _ | .keyBacktab _ | .keyHome _ | .keyNewline _
  | .keyEnter _ | .keyCancel _ | .keyPf _ | .scan _
  | .unitReady _ _ | .unitHold _ _ | .unitResync _ _ | .unitRunBad _ _ | .upstreamIdle _ _
  | .paceFrame _ | .soundFrame _ | .indicatorFrame _ | .runFrameStart _ | .cursorFrame _
  | .downstreamFrameEnd _ | .idleMarkSend _ | .runTimeout _ | .intervalClose _ | .windowEnd _
  | .testBytePlaced _ | .testUpstreamByte _ _ | .testReturnByte _ _ | .testExpiry _ => true

end Sys2Proof
end

