-- ==== Sys2Proof/Tests/Slice0.lean ====
section
/-! SUPPORT. The model's own tests: an ill-formed term for each check of WellFormed, examples of the manual run through
the meanings, and for each statement states and operands that meet its hypotheses. -/

namespace Sys2Proof.Tests
open Sys2Proof.Machine

-- One test after another: each waits for the kernel, and elaborated all at once they fill the memory with threads.
set_option Elab.async false

/-! ### Small states -/

/-- The state after a command; the state itself if the command did not answer a next state. -/
def after (c : Instr) (s : State) : State :=
  match exec c s with
  | .next t => t
  | _ => s

/-- Characters as bytes. -/
def txt (cs : List Char) : List Byte := cs.map fun c => BitVec.ofNat 8 c.toNat

/-- An OPEN-ENTRY field. -/
def entry (tag start len : Nat) (cls : FieldClass) : Field :=
  { tag := tag, start := start, len := len, protection := .openEntry, cls := cls, required := false, autoskip := false,
    buffering := .single, emph := .normal, range := none, shadow := none, mark := false }

/-- A page with fields, the given texts at the given indexes, and a cursor. -/
def page (fields : List Field) (texts : List (Nat × List Byte)) (cursor : Nat) : Page :=
  { cells := texts.foldl (fun cs t => Sparse.writeAll Cell.blank t.1 (t.2.map Cell.plain) cs) [],
    fields := fields, cursor := cursor }

/-- The state right after reset with another station 0. -/
def with0 (t : Station) : State := State.reset.setSt 0 t

/-- A station whose keyboard is OPEN, with a FRONT page, an empty dirty set and the grant in the engine's hand. -/
def opened (p : Page) : Station :=
  { Station.reset with
    front := p
    engine := { Engine.reset with kb := .opened }
    display := { Display.reset with dirty := [] }
    grant := ⟨some .engine, false, false, .engine⟩ }

/-- The event in hand at station 0. -/
def treating (e : Event) (p : Page) : State :=
  with0 { opened p with engine := { (opened p).engine with taken := some e } }

/-- A request in hand under the grant of station 0. -/
def asking (kind : Byte) (body : List Byte) (t : Station) : State :=
  { with0 { t with grant := ⟨some .interpreter, false, false, .interpreter⟩ } with
    interp := .handling ⟨kind, 0, body⟩ }

/-! ### Well-formed commands: one ill-formed term for each check -/

theorem test_illformed_host : WellFormed (.hostRequestFrameComplete 0x46 0 []) = false
    ∧ WellFormed (.hostRequestFrameComplete 0x47 0 []) = false
    ∧ WellFormed (.hostRequestFrameComplete 0x41 0 (List.replicate 4001 0)) = false
    ∧ WellFormed (.hostBadFrame []) = false ∧ WellFormed (.pause 0 (List.replicate 4001 0)) = false
    ∧ WellFormed (.go 0 (List.replicate 4001 0)) = false := by decide +kernel

theorem test_illformed_station : WellFormed (.keyFrameDelivery 0 0 0x01) = false
    ∧ WellFormed (.scanFrameDelivery 0 0 0 [0x41]) = false ∧ WellFormed (.scanFrameDelivery 0 0 16 [0x41]) = false
    ∧ WellFormed (.scanFrameDelivery 0 0 1 []) = false
    ∧ WellFormed (.scanFrameDelivery 0 0 1 (List.replicate 41 0x41)) = false
    ∧ WellFormed (.unitRunOk 0 0 16) = false ∧ WellFormed (.upstreamRefusedFrame 0 0 0x20 []) = false
    ∧ WellFormed (.upstreamRefusedFrame 0 0 0x50 (List.replicate 42 0)) = false
    ∧ WellFormed (.upstreamBadFrame 0 []) = false := by decide +kernel

/-! ### The manual's own examples -/

/-- R199: the check value usually given for this generator and this start value (general knowledge, not the manual's). -/
theorem test_check : frameCheck (txt ['1', '2', '3', '4', '5', '6', '7', '8', '9']) = 0x29B1 := by decide +kernel

/-- 03, exit rule examples. -/
theorem test_exit_qty :
    let f : Field := { entry 1 0 9 .qty with range := some (1, 500) }
    exitRule f [] = true ∧ exitRule f (txt ['0', '0', '3', '0']) = true ∧ exitRule f (txt ['6', '0', '0']) = false
      ∧ exitRule f (txt ['0']) = false ∧ exitRule f (txt [' ', '3', '0']) = false
      ∧ exitRule (entry 1 0 9 .qty) (txt ['3', ' ', '0']) = false := by decide +kernel

theorem test_exit_bin :
    let f := entry 1 0 9 .bin
    exitRule f (txt ['K', 'C', '-', '0', '4', '-', '2']) = true
      ∧ exitRule f (txt ['K', 'C', '-', '4', '-', '0', '2']) = false
      ∧ exitRule f (txt ['K', 'C', '-', '0', '4', '-', '2', '1']) = false
      ∧ exitRule f (txt ['k', 'c', '-', '0', '4', '-', '2']) = false := by decide +kernel

theorem test_exit_item :
    let f := entry 1 0 9 .item
    exitRule f (txt ['K', 'C', '7', '7']) = true ∧ exitRule f (txt ['4', '0', '1', '1', '2']) = true
      ∧ exitRule f (txt ['4', '0', '1', '1', '7']) = false ∧ exitRule f (txt ['0', '0']) = true
      ∧ exitRule f (txt ['A', 'B', '1', '2', 'Q']) = false ∧ exitRule f (txt ['5']) = false
      ∧ exitRule f (txt ['A', 'B', '1', '2', '0']) = true := by decide +kernel

/-- R71, the table: the destinations from cell 243. -/
theorem test_destinations :
    let p := page [entry 1 241 5 .text, entry 2 250 5 .text, entry 3 321 5 .text] [] 243
    p.nextOpen 243 = 250 ∧ p.backOpen 243 = 241 ∧ p.home = 241 ∧ p.laterRowOpen 243 = 321 := by decide +kernel

/-- R74, the table: 7 typed over at 501. -/
theorem test_keyPrintable_overwrite :
    let t := (after (.keyPrintable 0) (treating (.key (.printable 0x37))
      (page [entry 20 500 4 .digits] [(500, txt ['1', '2', '3', '4'])] 501))).st 0
    t.front.content (entry 20 500 4 .digits) = txt ['1', '7', '3', '4'] ∧ t.front.cursor = 502
      ∧ t.front.fields = [{ entry 20 500 4 .digits with mark := true }]
      ∧ t.engine.taken = none ∧ t.grant.holder = none := by decide +kernel

/-- R75, the table: 7 inserted at 501. -/
theorem test_keyPrintable_insert :
    let s := treating (.key (.printable 0x37)) (page [entry 20 500 4 .digits] [(500, txt ['1', '2', '3'])] 501)
    let t := (after (.keyPrintable 0) (s.modSt 0 fun t => { t with engine := { t.engine with insert := true } })).st 0
    t.front.content (entry 20 500 4 .digits) = txt ['1', '7', '2', '3'] ∧ t.front.cursor = 502 := by decide +kernel

/-! ### The Form Store and FORM messages -/

/-- 11.3: the bytes of a DEF order, written out: tag 10, start 170, length 7, BIN, OPEN-ENTRY and required, UNDERLINE. -/
theorem test_def_bytes :
    decodeOrder [0x04, 10, 0x00, 0xAA, 7, 3, 0x03, 3, 0x0C]
      = some (.define ⟨10, 170, 7, .bin, .openEntry, true, false, .single, .underline, none⟩, [0x0C]) := by
  decide +kernel

/-- 01, the worked example, message 1 (shortened): a form built on BACK; FRONT stays. -/
theorem test_form_back :
    let t := (after .form (asking 0x41 ([1, 5, 0x01, 0x02, 0, 0, 0x03, 1, 3] ++ txt ['P', 'U', 'T']
      ++ [0x04, 11, 0, 190, 5, 2, 0x19, 0, 0, 0, 0, 1, 0, 0, 1, 0xF4, 0x06, 11, 2] ++ txt ['4', '0']) Station.reset)).st 0
    t.back.content (entry 0 190 5 .qty) = txt ['4', '0', ' ', ' ', ' '] ∧ t.back.cell 1 = ⟨0x55, .bright⟩
      ∧ t.back.fields = [{ entry 11 190 5 .qty with buffering := .shadowed, range := some (1, 500) }]
      ∧ t.front = Page.reset := by decide +kernel

/-- 02, the worked example: the fourth order meets a field of the working view; the message is refused OVERLAP, index 4,
and the station stays as it was. -/
theorem test_form_refused :
    let t := { opened (page [entry 3 160 8 .text, entry 7 400 10 .text] [(400, txt ['C', 'R', 'A', 'T', 'E'])] 162) with
      grant := ⟨some .interpreter, false, false, .interpreter⟩ }
    let s := asking 0x41 ([0, 4, 0x05, 7, 0x04, 30, 0x01, 0x92, 6, 2, 0x01, 3, 0x02, 0x01, 0x90, 0x03, 1, 3]
      ++ txt ['B', 'I', 'N']) t
    (after .form s).interp = .replying ⟨0x41, 0, .overlap, 4, []⟩ (some 0) none none
      ∧ ((after .form s).st 0).front = t.front ∧ ((after .form s).st 0).display = t.display := by decide +kernel

/-! ### Keys, scans and attentions -/

/-- 03, the worked example, step 4: TAB leaves field 1 with "75" above its range; the keyboard locks, the two events
that wait are discarded. -/
theorem test_keyTab_locks :
    let s := treating (.key .tab) (page [{ entry 1 241 4 .qty with range := some (1, 50), mark := true },
      entry 2 321 7 .bin] [(241, txt ['7', '5'])] 243)
    let t := (after (.keyTab 0) (s.modSt 0 fun t => { t with
      engine := { t.engine with queue := [.key (.printable 0x6B), .key (.printable 0x63)] } })).st 0
    t.engine.kb = .locked ∧ t.engine.lockCode = .badEntry ∧ t.engine.lockTag = some 1 ∧ t.front.cursor = 241
      ∧ t.engine.queue = [] ∧ t.engine.lockedDiscards = 2 := by decide +kernel

theorem test_keyTab_moves :
    ((after (.keyTab 0) (treating (.key .tab) (page [{ entry 1 241 4 .qty with range := some (1, 50), mark := true },
      entry 2 321 7 .bin] [(241, txt ['4', '0'])] 243))).st 0).front.cursor = 321 := by decide +kernel

/-- R69: the form wraps. -/
theorem test_arrows :
    ((after (.keyRight 0) (treating (.key .right) (page [] [] 1599))).st 0).front.cursor = 0
      ∧ ((after (.keyLeft 0) (treating (.key .left) (page [] [] 0))).st 0).front.cursor = 1599
      ∧ ((after (.keyUp 0) (treating (.key .up) (page [] [] 3))).st 0).front.cursor = 1523
      ∧ ((after (.keyDown 0) (treating (.key .down) (page [] [] 1523))).st 0).front.cursor = 3 := by decide +kernel

theorem test_keyDelete :
    let t := (after (.keyDelete 0) (treating (.key .delete)
      (page [entry 20 500 4 .digits] [(500, txt ['1', '2', '3', '4'])] 501))).st 0
    t.front.content (entry 20 500 4 .digits) = txt ['1', '3', '4', ' '] ∧ t.front.cursor = 501 := by decide +kernel

theorem test_keyEraseEof :
    ((after (.keyEraseEof 0) (treating (.key .eraseEof)
      (page [entry 20 500 4 .digits] [(500, txt ['1', '2', '3', '4'])] 501))).st 0).front.content (entry 20 500 4 .digits)
      = txt ['1', ' ', ' ', ' '] := by decide +kernel

/-- 04, the worked example: scan A fails the BIN exit rule at its target, scan B is filled in. -/
def scanStation (data : List Byte) : State :=
  (treating (.scan 3 data) (page [{ entry 1 161 6 .item with mark := true }, entry 2 241 7 .bin, entry 3 321 4 .qty]
    [(161, txt ['A', 'B', '1', '2', '0'])] 166)).modSt 0 fun t => { t with
      routes := t.routes.set 0 ⟨3, [0x42], 1, .bin, .nextField⟩ }

theorem test_scan_badEntry :
    let t := (after (.scan 0) (scanStation (txt ['B', 'K', 'C', '-', '4', '-', '0', '2']))).st 0
    t.engine.lockCode = .badEntry ∧ t.engine.lockTag = some 2 ∧ t.front.cursor = 166
      ∧ t.front.content (entry 2 241 7 .bin) = List.replicate 7 0x20 := by decide +kernel

theorem test_scan_fills :
    let t := (after (.scan 0) (scanStation (txt ['B', 'k', 'c', '-', '0', '4', '-', '2']))).st 0
    t.engine.kb = .opened ∧ t.front.cursor = 321
      ∧ t.front.content (entry 2 241 7 .bin) = txt ['K', 'C', '-', '0', '4', '-', '2'] := by decide +kernel

/-- R107, 11.4: an ENTER is committed as its record. -/
theorem test_keyEnter_commits :
    let s := after (.keyEnter 0) (treating (.key .enter)
      (page [{ entry 4 401 7 .text with mark := true }] [(401, txt ['1', '2'])] 401))
    s.ring.records = [⟨0, 10⟩] ∧ s.ring.bytesAt 0 10 = [0x01, 0, 5, 1, 1, 0, 4, 2, 0x31, 0x32]
      ∧ (s.st 0).engine.kb = .waiting ∧ (s.st 0).front.fields = [entry 4 401 7 .text] := by decide +kernel

/-- R107, R112: a record that does not fit is held, and its marks stay. -/
theorem test_keyPf_held :
    let s := after (.keyPf 0) { treating (.key (.pf 2)) (page [{ entry 4 401 7 .text with mark := true }] [] 401) with
      ring := { Ring.reset with occupancy := 8190 } }
    s.held = [⟨0, .pf 2, false⟩] ∧ s.notices.entryHeld = some 0
      ∧ (s.st 0).front.fields = [{ entry 4 401 7 .text with mark := true }] := by decide +kernel

/-! ### The station lines -/

/-- R58: the 33rd event overflows. -/
theorem test_keyFrameDelivery_overflow :
    let s := after (.keyFrameDelivery 0 0 0x41) (with0 { Station.reset with
      engine := { Engine.reset with queue := List.replicate 32 (.key .tab), pacing := true } })
    (s.st 0).engine.overflows = 1 ∧ (s.st 0).engine.queue.length = 32 ∧ s.notices.overflow.get 0 = some 1 := by
  decide +kernel

/-- R59: the 16th event sets the pacing flag; nothing is asked for in WAITING. -/
theorem test_scanFrameDelivery_paces :
    let t := (after (.scanFrameDelivery 0 0 3 [0x42]) (with0 { Station.reset with
      engine := { Engine.reset with queue := List.replicate 15 (.key .tab) } })).st 0
    t.engine.queue.getLast? = some (.scan 3 [0x42]) ∧ t.engine.pacing = true ∧ t.grant.holder = none := by
  decide +kernel

/-- R123, the table: the runs of a row. -/
theorem test_runIndexes :
    let d := { Display.reset with dirty := [250, 251, 252, 253, 254, 255, 256, 257, 258], lastWritten := some 249 }
    d.firstCell = some 250 ∧ d.runIndexes 250 = [250, 251, 252, 253, 254, 255]
      ∧ (Display.runIndexes { d with dirty := [256, 257, 258] } 256) = [256, 257, 258]
      ∧ Display.firstCell { d with dirty := [240, 242], lastWritten := none } = some 240
      ∧ Display.runIndexes { d with dirty := [240, 242] } 240 = [240] := by decide +kernel

/-- A station that is PRESENT with its unit READY and its pace told, and one dirty cell. -/
def ready : Station :=
  { Station.reset with
    monitor := { Monitor.reset with presence := .present }
    display := { Display.reset with
      dirty := [170], unit := .ready, paceTold := .unpace, indicatorPending := false, lastWritten := some 169 } }

/-- R124, R125, R138: a run frame, its check inverted by the fault request. -/
theorem test_runFrameStart_check :
    let t := (after (.runFrameStart 0) (with0 { ready with
      display := { ready.display with fault := some ⟨0, .check⟩ } })).st 0
    t.port.onLine = some ⟨⟨0x31, 0, [0, 0, 0x20, 0]⟩, ~~~ frameCheck [0x31, 0, 0, 4, 0, 0, 0x20, 0]⟩
      ∧ t.display.dirty = [] ∧ t.display.run.map Run.first = some 170 ∧ t.display.fault = none := by decide +kernel

theorem test_runFrameStart_position :
    ((after (.runFrameStart 0) (with0 { ready with display := { ready.display with lastWritten := none } })).st 0).port.onLine
      = some (Frame.onLine ⟨0x31, 0, [0, 1, 2, 10, 0x20, 0]⟩) := by decide +kernel

/-- R127, R130: RUN-OK with the run's number and with another. -/
theorem test_unitRunOk :
    let s := with0 { ready with
      display := { ready.display with run := some ⟨4, 330, List.replicate 6 Cell.blank, false, 50, .running⟩ } }
    ((after (.unitRunOk 0 0 4) s).st 0).display.lastWritten = some 335
      ∧ ((after (.unitRunOk 0 0 4) s).st 0).display.run = none
      ∧ ((after (.unitRunOk 0 0 5) s).st 0).display.stales = 1 := by decide +kernel

/-- R152, R153: a window without a live interval loses the station. -/
theorem test_windowEnd_lost :
    let s := after (.windowEnd 0) (with0 { ready with
      monitor := { Monitor.reset with presence := .present, position := 64, deadRun := 64, longGap := true } })
    (s.st 0).monitor.presence = .absent ∧ (s.st 0).port.lostSeen = true
      ∧ s.notices.stationChange.get 0 = some (.absent, 1) := by decide +kernel

/-- R152: 16 live intervals and no long gap bring it back. -/
theorem test_windowEnd_back :
    let s := after (.windowEnd 0) (with0 { Station.reset with
      monitor := { Monitor.reset with position := 64, liveCount := 16 } })
    (s.st 0).monitor.presence = .present ∧ (s.st 0).port.backSeen = true := by decide +kernel

/-- R151: the 20th dead interval in a row makes a long gap. -/
theorem test_intervalClose :
    let m := ((after (.intervalClose 0) (with0 { Station.reset with
      monitor := { Monitor.reset with position := 19, deadRun := 19 } })).st 0).monitor
    m.position = 20 ∧ m.deadRun = 20 ∧ m.longGap = true := by decide +kernel

/-! ### The Line Check Unit -/

/-- A running ECHO test with the pattern 0x30, 0x31, 0x32. -/
def echo (c : Checker) : Lcu :=
  { Lcu.reset with state := .running, mode := .echo, pattern := .repeated [0x30, 0x31, 0x32], checker := c }

/-- 08, the worked example: the checker acquires SYNC after byte 20, at position 2. -/
theorem test_sync :
    let l := ([0x03, 0xCF, 0x31, 0x32] ++ (List.range 17).map fun k => byteOf (0x30 + k % 3)).foldl Lcu.read
      (echo Checker.reset)
    l.checker.sync = true ∧ l.checker.position = 2 ∧ l.checker.record = [] ∧ l.compared = 0 := by decide +kernel

/-- 08, the worked example: the fourth error among 16 compared bytes loses SYNC. -/
theorem test_syncLoss :
    let l := (echo ⟨true, none, 1, 16, true, [true, false, false, true, false, true, false, false, false]⟩).read 0x7F
    l.checker.sync = false ∧ l.checker.aligned = false ∧ l.errors = 1 ∧ l.losses = 1 ∧ l.compared = 1 := by
  decide +kernel

/-- R161, R163: the first byte of a test with SINGLE is placed inverted. -/
theorem test_testBytePlaced :
    let t := (after (.testBytePlaced 0) (with0 { Station.reset with
      lcu := { echo Checker.reset with single := true } })).st 0
    t.lcu.placed = some 0xCF ∧ t.lcu.sent = 1 ∧ t.lcu.single = false ∧ t.lcu.genPos = 1 := by decide +kernel

theorem test_testReturnByte :
    let l := { echo Checker.reset with mode := .ret }
    ((after (.testReturnByte 0 0x55) (with0 { Station.reset with lcu := l })).st 0).lcu.placed = some 0x55
      ∧ ((after (.testReturnByte 0 0x55) (with0 { Station.reset with
        lcu := l, port := { Port.reset with preTest := true } })).st 0).lcu = l := by decide +kernel

/-! ### The host line -/

/-- R175: the third frame is an overrun. -/
theorem test_hostRequestFrameComplete_overrun :
    let s := after (.hostRequestFrameComplete 0x44 1 []) { State.reset with buffer := [⟨0x44, 0, []⟩, ⟨0x44, 0, []⟩] }
    s.buffer.length = 2 ∧ s.overruns = 1 ∧ s.overrunFlag = true := by decide +kernel

/-- R177, R181: while PAUSED no frame starts. -/
theorem test_pause :
    (after .txNoticeStart (after (.pause 0 []) State.reset)).tx = none := by decide +kernel

/-- R184, the table: the order of pending notices. -/
theorem test_noticeOrder :
    ((((({ Notices.reset with restarted := false }).raiseEntryHeld 1).raiseOverflow 3).raiseStationChange 2 .absent).raiseOverflow
      0).inOrder = [.stationChange 2 .absent 1, .overflow 0 1, .overflow 3 1, .entryHeld 1] := by decide +kernel

/-- 10, the worked example: READ-MODIFIED gives the record an ENTER would compose. -/
theorem test_readModified :
    let p := page [{ entry 4 241 7 .bin with mark := true }, { entry 8 401 4 .qty with mark := true }]
      [(241, txt ['K', 'C', '-', '0', '4', '-', '2']), (401, txt ['1', '2'])] 401
    (after .readModified (asking 0x42 [4, 0] { Station.reset with front := p })).interp
      = .replying ⟨0x42, 0, .none, 0, [0x01, 0, 5, 1, 2, 0, 4, 7] ++ txt ['K', 'C', '-', '0', '4', '-', '2'] ++ [8, 2]
        ++ txt ['1', '2']⟩ (some 0) none none := by decide +kernel

/-- R194: READ-STATUS clears what it reports. -/
theorem test_readStatusStation :
    let s := after .readStatusStation (asking 0x42 [5] { Station.reset with
      engine := { Engine.reset with lockedDiscards := 3 }, display := { Display.reset with timeouts := 1 } })
    (s.st 0).engine.lockedDiscards = 0 ∧ (s.st 0).display.timeouts = 0 := by decide +kernel

/-- 11.2: the bytes of a CONFIGURE, written out: a route entry and a run timeout. -/
theorem test_configure :
    let t := (after .configure (asking 0x43 [1, 2, 7, 1, 0x51, 1, 2, 2, 3, 100] Station.reset)).st 0
    t.routes.get 2 = ⟨7, [0x51], 1, .qty, .send⟩ ∧ t.display.runTimeout = 100 := by decide +kernel

/-- R195: one bad setting and none is applied. -/
theorem test_configure_refused :
    let s := after .configure (asking 0x43 [3, 100, 3, 5] Station.reset)
    (s.st 0).display.runTimeout = 50 ∧ s.interp = .replying ⟨0x43, 0, .badOrder, 0, []⟩ (some 0) none none := by
  decide +kernel

/-- 10, the worked example: the reset station leaves the held list, the head stays. -/
theorem test_stationReset :
    let s := after .stationReset { asking 0x44 [] Station.reset with
      held := [⟨1, .enter, false⟩, ⟨0, .enter, false⟩] }
    s.held = [⟨1, .enter, false⟩] := by decide +kernel

/-- 11.2: the bytes of a START, written out: ECHO, REPEAT of 3, SINGLE, duration 0. -/
theorem test_testStart :
    let s := after .testStart (asking 0x45 [1, 1, 1, 3, 0x30, 0x31, 0x32, 1, 0, 0] Station.reset)
    (s.st 0).lcu = { echo Checker.reset with single := true } ∧ (s.st 0).port.takenByTest = true
      ∧ (s.st 0).monitor.suspended = true := by decide +kernel

/-- R111: the last byte of an ENTRY frame frees the record's bytes. -/
theorem test_recordDeparture :
    let s := after .recordDeparture { State.reset with
      ring := { Ring.reset with records := [⟨1, 10⟩, ⟨2, 6⟩], occupancy := 16, readOff := 8190, writeOff := 14 }
      tx := some (Frame.onLine ⟨0x62, 1, []⟩) }
    s.ring.records = [⟨2, 6⟩] ∧ s.ring.readOff = 8 ∧ s.ring.occupancy = 6 ∧ s.tx = none := by decide +kernel

/-! ### States and operands that meet the hypotheses of the statements -/

theorem treating_met (e : Event) (p : Page) : (treating e p).Treating 0 e := by
  simp [State.Treating, treating, with0, opened]

theorem asking_met (kind : Byte) (body : List Byte) (t : Station) :
    (asking kind body t).UnderGrant ⟨kind, 0, body⟩ 0 := by
  refine ⟨rfl, by show stationOf 0 = some 0; decide, ?_⟩
  show ((with0 _).st 0).grant.holder = _
  simp [with0]

theorem treating_st (e : Event) (p : Page) : ((treating e p).st 0).front = p := by simp [treating, with0, opened]

/-- A page with three fields: a shadow pending under the cursor, a marked field with a shadow, a PROTECTED field. -/
def shadowPage : Page :=
  page [{ entry 1 100 3 .text with buffering := .shadowed, shadow := some (txt ['A', 'B', 'C']) },
    { entry 2 200 3 .text with buffering := .shadowed, mark := true, shadow := some (txt ['D', 'E', 'F']) },
    { entry 3 1597 3 .text with protection := .guarded }] [] 102

theorem shadowPage_lawful : shadowPage.Lawful := by
  refine ⟨by decide, by decide, by decide, ?_⟩
  intro f hf
  simp only [shadowPage, page, List.mem_cons, List.not_mem_nil, or_false] at hf
  rcases hf with rfl | rfl | rfl <;> simp [Field.Lawful, entry]

theorem shadowPage_inForm : shadowPage.InForm := ⟨by decide, List.Pairwise.nil, fun _ he => absurd he List.not_mem_nil⟩

/-- A station with that page. -/
def shadowStation : Station := { opened shadowPage with back := Page.reset }

theorem shadowStation_lawful : shadowStation.FormLawful := by
  refine ⟨shadowPage_lawful, Page.lawful_reset, shadowPage_inForm, Page.inForm_reset, ?_, ?_⟩
  · intro f hf text hs
    have hf : f ∈ shadowPage.fields := hf
    simp only [shadowPage, page, List.mem_cons, List.not_mem_nil, or_false] at hf
    rcases hf with rfl | rfl | rfl
    · cases hs; decide
    · cases hs; decide
    · cases hs
  · intro f hf; cases hf

/-- A state with a command that waits. -/
def busy : State := { State.reset with pause := .paused, pending := [.intervalClose 0] }

theorem busy_st (i : StationNo) : busy.st i = Station.reset := State.reset_st i

theorem test_hyp_stationLaws : busy.EngineLaw ∧ busy.GrantLaw ∧ busy.DirtyLaw ∧ busy.LineLaw ∧ busy.CountersLaw
    ∧ ∃ t, step busy = .next t := by
  refine ⟨fun i => ?_, fun i => ?_, fun i => ?_, fun i => ?_, ⟨fun i => ?_, ?_, by decide, by decide, by decide⟩, _, rfl⟩
  · rw [busy_st]; refine ⟨?_, ?_, ?_, ?_⟩ <;> decide
  · rw [busy_st]; intro _; exact ⟨rfl, rfl⟩
  · rw [busy_st]; exact ⟨pairwise_allCells, fun k hk => mem_allCells.mp hk⟩
  · rw [busy_st]; refine ⟨?_, ?_, ?_⟩
    · intro h; cases h
    · decide
    · decide
  · rw [busy_st]; unfold Station.CountersLawful Monitor.CountsLawful; decide
  · intro i
    have h : busy.notices.stationChange.get i = none ∧ busy.notices.overflow.get i = none := by revert i; decide
    rw [h.1, h.2]; exact ⟨fun _ _ e => (by cases e), fun _ e => (by cases e)⟩

theorem test_hyp_formLaw : ({ with0 shadowStation with pending := [.intervalClose 0] } : State).FormLaw := by
  intro i
  show ((with0 shadowStation).st i).FormLawful
  by_cases h : i = 0
  · subst h; simp only [with0, State.st_setSt_self]; exact shadowStation_lawful
  · simp only [with0, State.st_setSt_ne _ _ h, State.reset_st]
    exact ⟨Page.lawful_reset, Page.lawful_reset, Page.inForm_reset, Page.inForm_reset,
      fun f hf => absurd hf List.not_mem_nil, fun f hf => absurd hf List.not_mem_nil⟩

theorem test_hyp_displayLaw : busy.DisplayLaw := by
  intro i k hk; rw [busy_st]; exact .inl (mem_allCells.mpr hk)

theorem test_hyp_ringLaw : ({ busy with
    ring := ⟨[], 4, 8190, 6, [⟨0, 6⟩]⟩, held := [⟨1, .cancel, false⟩], service := some 1 } : State).RingLaw
    ∧ ({ busy with ring := ⟨[], 4, 8190, 6, [⟨0, 6⟩]⟩, held := [⟨1, .cancel, false⟩], service := some 1 } : State).HeldLaw := by
  refine ⟨⟨rfl, by decide, by decide, rfl, List.Pairwise.nil, fun _ he => absurd he List.not_mem_nil⟩, by decide, ?_, ?_⟩
  · intro h hh
    obtain rfl : h = ⟨1, .cancel, false⟩ := by simpa using hh
    show (busy.st 1).engine.kb = _
    rw [busy_st]; rfl
  · intro i hi; exact hi

theorem test_hyp_stationCommands :
    stationOfCommand (.testExpiry 3) = some 3 ∧ ∃ t, exec (.testExpiry 3) State.reset = .next t := ⟨rfl, _, rfl⟩

theorem test_hyp_emptyQueue : State.reset.pending = [] := rfl

/-- The largest frames of both kinds of line, and a wrong check. -/
theorem test_hyp_frames :
    let f : Frame := ⟨0x22, 0, List.replicate 41 0x41⟩
    let g : Frame := ⟨0x41, 0, List.replicate 4000 0⟩
    f.body.length + 6 ≤ 47 ∧ g.body.length + 6 ≤ 4006 ∧ g.body.length ≤ 4000 ∧ 0 ≠ frameCheck f.covered := by
  decide +kernel

theorem test_hyp_orders :
    Order.encodable (.lit .bright (List.replicate 255 0x41)) = true ∧ Order.encodable (.setPosition 65535) = true
      ∧ Order.encodable (.define ⟨250, 1599, 80, .qty, .openEntry, true, true, .shadowed, .underline,
        some (0, 4294967295)⟩) = true := by decide +kernel

theorem test_hyp_hostFrames :
    (0x41 : Byte) ≠ 0x46 ∧ (0x41 : Byte) ≠ 0x47 ∧ (List.replicate 4000 (0 : Byte)).length ≤ 4000
      ∧ ({ State.reset with buffer := [⟨0x44, 0, []⟩] } : State).buffer.length < 2
      ∧ 2 ≤ ({ State.reset with buffer := [⟨0x44, 0, []⟩, ⟨0x44, 0, []⟩] } : State).buffer.length := by decide +kernel

theorem test_hyp_badHostFrames :
    State.reset.hostRx = .hunting ∧ 0 ≠ frameCheck (Frame.covered ⟨0x41, 0, []⟩)
      ∧ ((65535 : Nat) < 65536 ∧ 65535 ≠ ([] : List Byte).length) ∧ (List.replicate 5 (0 : Byte)).length < 6
      ∧ ((0x11 : Byte) ≠ 0x02 ∧ (0x11 : Byte) ≠ 0x22 ∧ (0x11 : Byte) ≠ 0x23 ∧ (0x11 : Byte) ≠ 0x30)
      ∧ (List.replicate 4007 (0 : Byte)).length = 4007 ∧ (∀ b ∈ ([0x03, 0x10] : List Byte), b ≠ 0x02) := by
  decide +kernel

/-- A frame for each clause of the statement about REQUEST_TAKE. -/
theorem test_hyp_requestTake :
    State.reset.interp = .idle ∧ ({ State.reset with buffer := [⟨0x41, 3, []⟩] } : State).buffer = ⟨0x41, 3, []⟩ :: []
      ∧ stationOf 3 = some 3 ∧ stationOf 4 = none ∧ (decodeQuery [5]).isSome = true ∧ decodeQuery [5, 0] = none
      ∧ ((1 : Byte).toNat = 1 ∧ (3 : Byte).toNat ≤ 3 ∧ 3 < (4 : Byte).toNat ∧ 5 < (6 : Byte).toNat)
      ∧ ((0x50 : Byte) ≠ 0x41 ∧ (0x50 : Byte) ≠ 0x42 ∧ (0x50 : Byte) ≠ 0x43 ∧ (0x50 : Byte) ≠ 0x44
        ∧ (0x50 : Byte) ≠ 0x45) := by decide +kernel

theorem test_hyp_replies :
    (asking 0x50 [] Station.reset).interp = .handling ⟨0x50, 0, []⟩
      ∧ ({ State.reset with interp := .replying ⟨0x44, 0, .none, 0, []⟩ (some 0) none none } : State).replySlot = none
      ∧ ({ State.reset with replySlot := some ⟨0x44, 0, .none, 0, []⟩ } : State).replySlot ≠ none := by
  refine ⟨rfl, rfl, by decide⟩

/-- A grant for each clause, and a station whose event is complete. -/
theorem test_hyp_grant :
    Grant.reset.holder = none ∧ Grant.reset.interpreterWaits = false ∧ Grant.reset.engineWaits = false
      ∧ (⟨some .engine, true, false, .engine⟩ : Grant).holder = some .engine
      ∧ (⟨none, true, true, .engine⟩ : Grant).interpreterWaits = true
      ∧ Grant.reset.holder ≠ some .engine
      ∧ (opened shadowPage).grant.holder = some .engine ∧ (opened shadowPage).grant.engineWaits = false
      ∧ (opened shadowPage).engine.queue = []
      ∧ ({ opened shadowPage with engine := { Engine.reset with kb := .locked, queue := [.key .reset] } } : Station).engine.queue
        ≠ [] := by decide +kernel

/-- Every test passes a SOUND. -/
theorem sound_passes (role : Role) (v : FormView) : orderFault Station.reset role v .sound = none := by
  have h : Station.reset.bars role .sound = false := by cases role <;> decide +kernel
  simp [orderFault, h, mayFollowFlip, ownFault]

/-- A FORM of the largest count, all of whose orders pass. -/
theorem test_hyp_formApplies :
    (List.replicate 128 Order.sound).length ≤ 128 ∧ OrdersPass Station.reset .front (List.replicate 128 .sound)
      ∧ (State.isHeld { asking 0x41 [] Station.reset with held := [⟨0, .enter, false⟩] } 0 = true)
      ∧ OrdersPass Station.reset .back [.sound] ∧ Order.opensForm .sound = false := by
  have pass : ∀ role n, OrdersPass Station.reset role (List.replicate n .sound) := by
    intro role n k o h
    rw [List.getElem?_replicate] at h
    split at h
    · cases h; exact ⟨rfl, sound_passes _ _⟩
    · cases h
  exact ⟨by simp, pass _ _, by decide +kernel, pass .back 1, rfl⟩

/-- Orders for a BACK message while an attention is held: one that fails behind one that passes, and one that cannot be
decoded; a last order that leaves a byte. -/
theorem test_hyp_formHeld :
    (State.isHeld { asking 0x41 [] Station.reset with held := [⟨0, .enter, false⟩] } 0 = true)
      ∧ (∀ p ∈ [Order.sound] ++ Order.setPosition 1600 :: [], p.encodable = true ∧ p.opensForm = false)
      ∧ OrdersPass Station.reset .back [.sound]
      ∧ orderFault Station.reset .back (FormView.after Station.reset .back [.sound]) (.setPosition 1600) = some .outOfForm
      ∧ decodeOrder [0x10] = none ∧ Order.encodable .flip = true ∧ ([0x0D] : List Byte) ≠ [] := by
  refine ⟨by decide +kernel, by decide, ?_, by decide +kernel⟩
  intro k o h
  cases k with
  | zero => cases h; exact ⟨rfl, sound_passes _ _⟩
  | succ k => simp at h

/-- An order for each refusal of a FORM. -/
theorem test_hyp_formRefused :
    OrdersPass Station.reset .front [] ∧ Order.encodable (.setPosition 1600) = true
      ∧ orderFault Station.reset .front (FormView.after Station.reset .front []) (.setPosition 1600) = some .outOfForm
      ∧ decodeOrder [0x10] = none ∧ ([0x0D] : List Byte) ≠ [] ∧ stationOf 4 = none
      ∧ ((2 : Byte).toNat > 1 ∧ (0 : Byte).toNat = 0 ∧ 128 < (129 : Byte).toNat)
      ∧ Order.opensForm .flip = true ∧ Order.opensForm .sound = false := by
  refine ⟨fun k o h => (by simp at h), ?_⟩; decide +kernel

/-- A REFUSE entry and an ACCEPT entry of the acceptance table, a tag that is there and one that is not. -/
theorem test_hyp_orderTests :
    ((Station.applySetting Station.reset (.acceptance 1 1 false)).acceptance.toList[(orderCode .erase - 1) * 3
        + (keyboardByte Station.reset.engine.kb).toNat]? = some false)
      ∧ (Station.reset.acceptance.toList[(orderCode .flip - 1) * 3 + (keyboardByte Keyboard.locked).toNat]? = some true)
      ∧ (∀ g ∈ shadowPage.fields, g.tag ≠ 250) ∧ shadowPage.fieldOf 1 = shadowPage.fields[0]?
      ∧ shadowPage.nextField (some 1597) = none ∧ shadowPage.nextField none = shadowPage.fields[0]?
      ∧ (FormView.apply (FormView.start Station.reset) .back .erase).flipped = false := by decide +kernel

/-- A table of 48 fields. -/
def fullPage : Page := page ((List.range 48).map fun k => entry (k + 1) (20 * k) 20 .text) [] 0

theorem fullPage_lawful : fullPage.Lawful := by
  refine ⟨by decide, by decide +kernel, by decide +kernel, ?_⟩
  intro f hf
  obtain ⟨k, hk, rfl⟩ := List.mem_map.mp hf
  have hk : k < 48 := List.mem_range.mp hk
  simp [Field.Lawful, entry]
  omega

/-- A DEF for each clause: unsound, out of the form, a tag in use, an overlap, a full table, one that passes. -/
theorem test_hyp_def :
    let d : DefOperands := ⟨250, 1519, 1, .text, .openEntry, false, false, .single, .normal, none⟩
    shadowPage.Lawful ∧ fullPage.Lawful ∧ DefOperands.sound { d with tag := 0 } = false ∧ d.sound = true
      ∧ 80 < (1521 % 80) + 80 ∧ (∃ g ∈ shadowPage.fields, g.tag = 1)
      ∧ (∃ g ∈ shadowPage.fields, g.covers 1599 = true) ∧ fullPage.fields.length = 48
      ∧ (∀ g ∈ fullPage.fields, g.tag ≠ d.tag) ∧ fullPage.fieldAt 1519 = none
      ∧ ownFault shadowPage ⟨0, none⟩ (.define d) = none
      ∧ shadowPage.fields = shadowPage.fields.take 1 ++ shadowPage.fields.getD 1 (entry 0 0 0 .text)
          :: shadowPage.fields.drop 2 := by
  refine ⟨shadowPage_lawful, fullPage_lawful, ?_⟩; decide +kernel

/-- A DROP of a field with content: its cells are blank, the next field's stay, and its cells alone join the dirty set. -/
theorem test_drop :
    let v := (FormView.start { opened shadowPage with display := { Display.reset with dirty := [] } }).apply .front (.drop 3)
    v.station.front.cell 1597 = ⟨0x20, .normal⟩ ∧ v.station.front.cell 100 = shadowPage.cell 100
      ∧ v.station.front.fields = shadowPage.fields.take 2 ∧ v.station.display.cursorPending = true
      ∧ v.released = false ∧ v.flipped = false := by decide +kernel

/-- A PUT that is held and one that is written; a promotion and a move; fields for each clause about CLEAR. -/
theorem test_hyp_shadows :
    shadowStation.FormLawful ∧ shadowPage.fieldOf 1 = some { entry 1 100 3 .text with
        buffering := .shadowed, shadow := some (txt ['A', 'B', 'C']) }
      ∧ (txt ['X', 'Y', 'Z']).length ≤ 3 ∧ Field.covers (entry 1 100 3 .text) shadowPage.cursor = true
      ∧ Field.covers (entry 2 200 3 .text) shadowPage.cursor = false ∧ (entry 1 100 3 .text).buffering = .single
      ∧ (∃ f ∈ shadowPage.fields, f.shadow = some (txt ['D', 'E', 'F']) ∧ f.protection = .openEntry)
      ∧ (∃ f ∈ shadowPage.fields, f.protection = .guarded) ∧ shadowPage.fieldAt 1596 = none
      ∧ 1599 ≠ shadowPage.cursor := by
  refine ⟨shadowStation_lawful, ?_⟩; decide +kernel

/-- A view for each clause about RELEASE, and cells inside and outside a field. -/
theorem test_hyp_release :
    (FormView.start Station.reset).released = false
      ∧ (FormView.apply (FormView.start Station.reset) .front .release).released = true
      ∧ Station.reset.engine.kb ≠ .opened ∧ (opened shadowPage).engine.kb = .opened
      ∧ shadowPage.fieldAt 1599 = shadowPage.fields[2]? ∧ (1599 : Nat) < 1600 := by decide +kernel

/-- The requests of each query under the grant of station 0; a tag that is there and one that is not. -/
theorem test_hyp_queries :
    (∀ body, (asking 0x42 body shadowStation).UnderGrant ⟨0x42, 0, body⟩ 0)
      ∧ shadowPage.fieldOf 3 = shadowPage.fields[2]? ∧ (∀ g ∈ shadowPage.fields, g.tag ≠ (255 : Byte).toNat)
      ∧ ({ State.reset with interp := .handling ⟨0x42, 0x0F, [5]⟩ } : State).interp = .handling ⟨0x42, 0x0F, [5]⟩
      ∧ decodeQuery [5, 5] = none ∧ (decodeQuery [3, 1, 0]).isSome = true ∧ stationOf 0x0F = none := by
  refine ⟨fun body => asking_met _ _ _, ?_⟩; decide +kernel

/-- A CONFIGURE for each clause. -/
theorem test_hyp_configure :
    (∀ body, (asking 0x43 body Station.reset).UnderGrant ⟨0x43, 0, body⟩ 0) ∧ decodeSettings [7] = none
      ∧ Setting.Encodable (.route 7 15 (List.replicate 4 0x7E) 4 4 2) ∧ Setting.Encodable (.runTimeout 255)
      ∧ checkSetting (.route 7 15 (List.replicate 4 0x7E) 4 4 2) = none ∧ checkSetting (.runTimeout 250) = none
      ∧ checkSetting (.acceptance 15 2 false) = none ∧ checkSetting (.fault 7 1) = none
      ∧ checkSetting (.runTimeout 255) = some .badOrder ∧ checkSetting (.route 8 0 [] 0 0 0) = some .outOfForm
      ∧ classOf 4 = some .item ∧ afterFillOf 2 = some .send := by
  refine ⟨fun body => asking_met _ _ _, by decide +kernel, ?_, ?_, ?_⟩
  · simp [Setting.Encodable]
  · simp [Setting.Encodable]
  · decide +kernel

/-- A STATION-RESET with each state of the service. -/
theorem test_hyp_stationReset :
    (asking 0x44 [] Station.reset).UnderGrant ⟨0x44, 0, []⟩ 0
      ∧ ({ asking 0x44 [] Station.reset with held := [⟨0, .enter, false⟩], service := some 0 } : State).service = some 0
      ∧ ({ asking 0x44 [] Station.reset with held := [⟨0, .enter, false⟩] } : State).held.head?.map Held.station = some 0
      ∧ ({ asking 0x44 [] Station.reset with held := [⟨1, .enter, false⟩] } : State).held.head?.map Held.station ≠ some 0
      ∧ ({ asking 0x44 [] Station.reset with service := some 1 } : State).service ≠ none := by
  refine ⟨asking_met _ _ _, ?_⟩; decide +kernel

/-- A START at the ends of its ranges, one that is out of them, a running test and one whose time is up. -/
theorem test_hyp_tests :
    StartInRange (.repeated (List.replicate 16 0)) (.rate 4) 65535 ∧ StartInRange .count .none 0
      ∧ (¬ ∃ mode pattern injection duration, StartInRange pattern injection duration
            ∧ ([1] : List Byte) = startBody mode pattern injection duration)
      ∧ (asking 0x45 [2] { Station.reset with lcu := echo Checker.reset }).UnderGrant ⟨0x45, 0, [2]⟩ 0
      ∧ (echo Checker.reset).state = .running ∧ Lcu.reset.state ≠ .running ∧ stationOf 0x0F = none ∧ stationOf 4 = none
      ∧ ({ echo Checker.reset with remaining := some 0 } : Lcu).remaining = some 0 := by
  refine ⟨⟨fun b h => ?_, fun n h => ?_, by decide⟩, ⟨fun b h => (by cases h), fun n h => (by cases h), by decide⟩, ?_,
    asking_met _ _ _, rfl, by decide, by decide, by decide, rfl⟩
  · cases h; decide
  · cases h; decide
  · rintro ⟨m, p, j, d, -, h⟩
    simp [startBody] at h

/-- The transmitter's three choices, PAUSED and a frame on the line. -/
theorem test_hyp_transmitter :
    State.reset.pause = .running ∧ State.reset.tx = none ∧ State.reset.replySlot = none
      ∧ State.reset.notices.inOrder = .restarted :: []
      ∧ ({ Notices.reset with restarted := false } : Notices).inOrder = []
      ∧ ({ Ring.reset with records := [⟨0, 6⟩] } : Ring).records = ⟨0, 6⟩ :: []
      ∧ ({ State.reset with pause := .paused } : State).pause = .paused
      ∧ ({ State.reset with tx := some (Frame.onLine ⟨0x61, 0, []⟩) } : State).tx ≠ none := by decide +kernel

/-- An empty ring takes 8192 bytes; a record departs with attentions held and without. -/
theorem test_hyp_records :
    Ring.reset.Lawful ∧ (List.replicate 8192 (0 : Byte)).length ≤ 8192 - Ring.reset.occupancy
      ∧ ({ State.reset with tx := some (Frame.onLine ⟨0x62, 0, []⟩) } : State).tx = some (Frame.onLine ⟨0x62, 0, []⟩)
      ∧ State.reset.held = [] ∧ ({ State.reset with held := [⟨3, .cancel, false⟩] } : State).held = ⟨3, .cancel, false⟩ :: []
      ∧ State.reset.service = none := by
  refine ⟨Ring.lawful_reset, by rw [List.length_replicate]; decide, rfl, rfl, rfl, rfl⟩

/-- A service in progress whose record fits, and one whose record does not. -/
theorem test_hyp_heldComposition :
    let s : State := { with0 { opened shadowPage with engine := Engine.reset } with
      service := some 0, held := [⟨0, .cancel, false⟩, ⟨1, .cancel, false⟩] }
    s.service = some 0 ∧ (s.st 0).grant.holder = some .engine
      ∧ ((s.st 0).front.recordBytes 0 .cancel false).length ≤ 8192 - s.ring.occupancy
      ∧ 8192 - 8187 < ((s.st 0).front.recordBytes 0 .cancel false).length
      ∧ (([⟨1, .cancel, false⟩] : List Held).map Held.station).Nodup
      ∧ (0 : StationNo) ∉ ([⟨1, .cancel, false⟩] : List Held).map Held.station := by decide +kernel

/-- An event at the head of the queue in each keyboard state, with the grant in the engine's hand. -/
theorem test_hyp_eventTaken :
    let s (kb : Keyboard) : State := with0 { opened shadowPage with
      engine := { Engine.reset with kb := kb, queue := [.key .tab] } }
    (s .opened).service ≠ some 0 ∧ ((s .opened).st 0).grant.holder = some .engine
      ∧ ((s .opened).st 0).engine.taken = none ∧ ((s .opened).st 0).engine.queue = .key .tab :: []
      ∧ ((s .locked).st 0).engine.kb = .locked ∧ Event.key .tab ≠ .key .reset ∧ ((s .waiting).st 0).engine.kb = .waiting := by
  decide +kernel

/-- A move that fails its exit rule, one that passes, and the fields the destinations name. -/
theorem test_hyp_cursorKeys :
    let f : Field := { entry 1 241 4 .qty with range := some (1, 50), mark := true }
    let p := page [f, entry 2 321 7 .bin] [(241, txt ['7', '5'])] 243
    (treating (.key .tab) p).Treating 0 (.key .tab) ∧ (opened p).ExitFails 321 f ∧ (∀ g, ¬ (opened p).ExitFails 244 g)
      ∧ p.cursor < 1600 ∧ p.Lawful
      ∧ FirstField p.fields (fun g => g.protection = .openEntry) f
      ∧ FirstField p.fields (fun g => g.protection = .openEntry ∧ 243 < g.start) (entry 2 321 7 .bin)
      ∧ (∀ g ∈ p.fields, g.protection = .openEntry → g.start ≤ 1599)
      ∧ FirstField p.fields (fun g => g.protection = .openEntry ∧ 243 / 80 < g.start / 80) (entry 2 321 7 .bin)
      ∧ LastField p.fields (fun g => g.protection = .openEntry ∧ g.start < 321) f
      ∧ (f.covers 243 = true ∧ f.start ≠ 243) ∧ (∀ g ∈ p.fields, g.protection = .openEntry → 0 ≤ g.start)
      ∧ (∀ g ∈ Page.reset.fields, g.protection ≠ .openEntry) := by
  intro f p
  refine ⟨treating_met _ _, ⟨rfl, by decide +kernel, rfl, rfl, by decide +kernel⟩, ?_, by decide, ?_,
    ⟨[], _, rfl, rfl, by simp⟩, ⟨[f], [], rfl, by decide, by decide⟩, by decide, ⟨[f], [], rfl, by decide, by decide⟩,
    ⟨[], _, rfl, by decide, by decide⟩, by decide, by decide, by intro g hg; cases hg⟩
  · rintro g ⟨h1, h2, -⟩
    have h1 : p.fieldAt 243 = some g := h1
    have h3 : p.fieldAt 243 = some f := by decide +kernel
    rw [h3] at h1; cases h1
    exact absurd h2 (by decide)
  · refine ⟨by decide, by decide, by decide, ?_⟩
    intro g hg
    simp only [p, page, List.mem_cons, List.not_mem_nil, or_false] at hg
    rcases hg with rfl | rfl <;> simp [Field.Lawful, entry, f]

/-- A cursor outside every OPEN-ENTRY field, a refused character, a full field in insert mode, a place for a character. -/
theorem test_hyp_printable :
    let p := page [entry 20 500 4 .digits] [(500, txt ['1', '2', '3', '4'])] 503
    (treating (.key (.printable 0x37)) p).Treating 0 (.key (.printable 0x37))
      ∧ (∀ f, shadowPage.fieldAt 1598 = some f → f.protection = .guarded)
      ∧ p.fieldAt p.cursor = some (entry 20 500 4 .digits) ∧ accepts .digits 0x41 = false ∧ accepts .digits 0x37 = true
      ∧ (p.content (entry 20 500 4 .digits)).getLast? ≠ some 0x20
      ∧ (page [entry 20 500 4 .digits] [] 503).content (entry 20 500 4 .digits) = List.replicate 4 0x20
      ∧ (opened p).engine.insert = false := by
  refine ⟨treating_met _ _, ?_, ?_⟩
  · intro f h
    have h2 : shadowPage.fieldAt 1598 = some { entry 3 1597 3 .text with protection := .guarded } := by decide +kernel
    rw [h2] at h; cases h; rfl
  · decide +kernel

/-- DELETE and ERASE-EOF at a field's last cell; RESET in each keyboard state. -/
theorem test_hyp_editing :
    (treating (.key .delete) shadowPage).Treating 0 (.key .delete)
      ∧ (treating (.key .eraseEof) shadowPage).Treating 0 (.key .eraseEof)
      ∧ (treating (.key .eraseInput) shadowPage).Treating 0 (.key .eraseInput)
      ∧ (treating (.key .insert) shadowPage).Treating 0 (.key .insert)
      ∧ (treating (.key .reset) shadowPage).Treating 0 (.key .reset)
      ∧ shadowPage.fieldAt shadowPage.cursor = shadowPage.fields[0]?
      ∧ (let t := { opened shadowPage with engine := { Engine.reset with kb := .locked, taken := some (.key .reset) } }
        t.engine.taken = some (.key .reset) ∧ t.grant.holder = some .engine ∧ t.engine.kb = .locked) := by
  refine ⟨treating_met _ _, treating_met _ _, treating_met _ _, treating_met _ _, treating_met _ _, ?_⟩
  decide +kernel

/-- An attention for each outcome: BAD-ENTRY, REQUIRED, committed, held. -/
theorem test_hyp_attentions :
    let bad : Field := { entry 1 0 3 .qty with mark := true }
    let req : Field := { entry 2 80 3 .text with required := true }
    let p := page [bad] [(0, txt ['X'])] 0
    let q := page [req] [] 0
    (∀ k, (treating (.key k) p).Treating 0 (.key k)) ∧ FirstField p.fields p.BadAtEnter bad
      ∧ (∀ g ∈ q.fields, ¬ q.BadAtEnter g) ∧ FirstField q.fields q.EmptyAtEnter req
      ∧ Page.reset.PassesEnter .enter ∧ p.PassesEnter .cancel ∧ State.reset.held = []
      ∧ (Page.reset.recordBytes 0 .enter false).length ≤ 8192 - 8186
      ∧ 8192 - 8187 < (Page.reset.recordBytes 0 .enter false).length := by
  refine ⟨fun k => treating_met _ _, ⟨[], [], rfl, ⟨rfl, rfl, by decide +kernel⟩, by simp⟩, ?_,
    ⟨[], [], rfl, ⟨rfl, by decide +kernel⟩, by simp⟩, ?_, ?_, rfl, by decide +kernel, by decide +kernel⟩
  · intro g hg h
    obtain rfl : g = { entry 2 80 3 .text with required := true } := by simpa [page] using hg
    exact absurd h.2.1 (by decide)
  · intro _ f hf; cases hf
  · intro h; cases h

/-- A scan for each outcome. -/
theorem test_hyp_scan :
    let r : Route := ⟨3, [0x42], 1, .bin, .nextField⟩
    let p := page [{ entry 1 161 6 .item with mark := true }, entry 2 241 7 .bin, entry 3 321 4 .qty] [] 166
    (treating (.scan 3 [0x42]) p).Treating 0 (.scan 3 [0x42])
      ∧ (∀ q ∈ Station.reset.routes.toList, ¬ (q.symbology ≠ 0 ∧ q.symbology = 3 ∧ q.lead <+: [0x42]))
      ∧ (∀ data, (scanStation data).Treating 0 (.scan 3 data))
      ∧ (Station.reset.routes.set 0 r).toList = [] ++ r :: List.replicate 7 Route.reset
      ∧ (r.symbology ≠ 0 ∧ r.lead <+: txt ['B', 'K', 'C', '-', '0', '4', '-', '2'])
      ∧ (∀ g ∈ p.fields, g.protection = .openEntry → g.cls = .bin → g.covers p.cursor = false)
      ∧ FirstField p.fields (fun g => g.protection = .openEntry ∧ g.cls = .bin ∧ p.valueOf g = []) (entry 2 241 7 .bin)
      ∧ FirstField p.fields (fun g => g.protection = .openEntry ∧ g.cls = .item ∧ g.covers p.cursor = true)
        { entry 1 161 6 .item with mark := true }
      ∧ (∀ ch ∈ txt ['K', 'C', '-', '0', '4', '-', '2'], accepts .bin ch = true)
      ∧ exitRule (entry 2 241 7 .bin) (valueText (txt ['K', 'C', '-', '0', '4', '-', '2'])) = true
      ∧ exitRule (entry 2 241 7 .bin) (valueText (txt ['K', 'C'])) = false ∧ 7 < (txt ['K', 'C', '-', '0', '4', '-', '2', '1']).length := by
  refine ⟨treating_met _ _, by decide +kernel, fun data => by simp [State.Treating, scanStation, treating, with0, opened],
    by decide +kernel, by decide +kernel, by decide +kernel,
    ⟨[{ entry 1 161 6 .item with mark := true }], [entry 3 321 4 .qty], rfl, by decide +kernel, by decide +kernel⟩,
    ⟨[], _, rfl, by decide +kernel, by simp⟩, by decide +kernel⟩

/-- The port has its line; the last key code, the largest scan, a queue with one place and a full one. -/
theorem test_hyp_eventFrames :
    Station.reset.port.takenByTest = false ∧ keyOf 0x99 = some (.pf 7) ∧ keyOf 0x20 = some (.printable 0x20)
      ∧ ((1 : Byte).toNat = 1 ∧ (15 : Byte).toNat ≤ 15 ∧ (List.replicate 40 (0x41 : Byte)).length ≤ 40)
      ∧ (List.replicate 31 (Event.key .tab)).length < 32 ∧ 32 ≤ (List.replicate 32 (Event.key .tab)).length
      ∧ classify ⟨0x23, 0, [4, 16]⟩ = .refused ∧ (List.replicate 41 (0 : Byte)).length ≤ 41
      ∧ Station.reset.port.rx = .hunting ∧ (List.replicate 48 (0 : Byte)).length = 48 := by decide +kernel

/-- A run in flight with the number of a RUN-OK, with another, with a time that is up, and none. -/
theorem test_hyp_runs :
    let r : Run := ⟨15, 1584, List.replicate 16 Cell.blank, false, 0, .running⟩
    let t : Station := { ready with display := { ready.display with run := some r } }
    (with0 t).st 0 = t ∧ t.display.run = some r ∧ r.number = (15 : Byte).toNat ∧ r.number ≠ (0 : Byte).toNat
      ∧ r.timer = .running ∧ r.remaining = 0 ∧ ready.display.run = none ∧ t.heard.display.run = some r := by
  refine ⟨by simp [with0], ?_⟩; decide +kernel

/-- A station at a boundary, with each frame due in turn, and the run that R122 and R123 choose. -/
theorem test_hyp_dueFrames :
    ready.AtBoundary ∧ ready.PaceIsTold ∧ ¬ Station.reset.AtBoundary
      ∧ ¬ Station.PaceIsTold { ready with engine := { Engine.reset with pacing := true } }
      ∧ ready.display.unit = .ready ∧ ready.display.soundPending = false ∧ ready.display.indicatorPending = false
      ∧ ready.display.run = none ∧ ready.display.DirtyLawful ∧ ready.display.RunStartsAt 170
      ∧ ready.display.RunHolds 170 1 ∧ Display.RunStartsAt { ready.display with lastWritten := none } 170
      ∧ Display.RunStartsAt { ready.display with lastWritten := some 1599 } 170
      ∧ ({ ready.display with dirty := [], cursorPending := true } : Display).dirty = [] := by
  refine ⟨⟨rfl, rfl, by decide⟩, rfl, fun h => ?_, fun h => ?_, rfl, rfl, rfl, rfl, ⟨by decide, by decide⟩,
    ⟨by decide, .inl ⟨by decide, by decide⟩⟩, ⟨by decide, ?_, ?_⟩, ⟨by decide, ?_⟩, ⟨by decide, .inl ⟨by decide, by decide⟩⟩,
    rfl⟩
  · exact absurd h.2.1 (by decide)
  · have h : PaceTold.unpace = PaceTold.pace := h
    cases h
  · intro k hk
    obtain rfl : k = 0 := by omega
    exact ⟨by decide, rfl, rfl⟩
  · intro h; exact absurd h.1 (by decide)
  · show ∀ j ∈ [170], 170 ≤ j
    decide

/-- A frame that ends, a silence of 1 ms, and lines that carry no IDLE mark. -/
theorem test_hyp_idleMarks :
    ({ Port.reset with onLine := some (Frame.onLine ⟨0x31, 0, []⟩) } : Port).onLine = some (Frame.onLine ⟨0x31, 0, []⟩)
      ∧ ({ Port.reset with silence := 1 } : Port).silence = 1 ∧ Port.reset.onLine = none ∧ Port.reset.silence = 0
      ∧ Port.reset.takenByTest = false ∧ ({ echo Checker.reset with mode := .near } : Lcu).mode = .near
      ∧ (echo Checker.reset).mode ≠ .near := by decide +kernel

/-- Intervals and windows for each clause, with the counts at the ends of their ranges. -/
theorem test_hyp_windows :
    ({ Monitor.reset with suspended := true } : Monitor).suspended = true
      ∧ ({ Monitor.reset with awaiting := true } : Monitor).awaiting = true
      ∧ ({ Monitor.reset with position := 63 } : Monitor).position < 64
      ∧ ({ Monitor.reset with position := 64, presence := .present, liveCount := 1 } : Monitor).liveCount = 1
      ∧ 16 ≤ ({ Monitor.reset with position := 64, liveCount := 16 } : Monitor).liveCount
      ∧ ({ Monitor.reset with position := 64, liveCount := 15 } : Monitor).liveCount < 16
      ∧ ({ Monitor.reset with position := 64, liveCount := 16, longGap := true } : Monitor).longGap = true
      ∧ Monitor.reset.presence = .absent := by decide +kernel

/-- A running test in each mode, before and after the frame of R160 has ended; a byte that the rate marks. -/
theorem test_hyp_testBytes :
    (echo Checker.reset).state = .running ∧ ({ echo Checker.reset with mode := .near } : Lcu).mode = .near
      ∧ ({ echo Checker.reset with mode := .ret } : Lcu).mode = .ret ∧ (echo Checker.reset).mode = .echo
      ∧ Port.reset.preTest = false ∧ ({ Port.reset with preTest := true } : Port).preTest = true
      ∧ ({ Port.reset with takenByTest := true } : Port).takenByTest = true ∧ 9 + 1 = 10 ^ 1 := by decide +kernel

/-- R142: the silence time runs while a RETURN test has the line, and stands still under a frame. -/
theorem test_silence :
    let t : Station := { Station.reset with
      lcu := { echo Checker.reset with mode := .ret }, port := { Port.reset with takenByTest := true } }
    t.tick.port.silence = 1 ∧ t.tick.tick.port.silence = 1
      ∧ Station.silenceTick { t with port := { t.port with onLine := some (Frame.onLine ⟨0x31, 0, []⟩) } } = 0 := by
  decide +kernel

/-- R149, R161: the bytes of a KEY frame that arrive in an ECHO test go to the checker, not to the queue. -/
theorem test_key_in_echo :
    let s := with0 { Station.reset with
      lcu := echo Checker.reset, port := { Port.reset with takenByTest := true } }
    ((after (.keyFrameDelivery 0 0 0x30) s).st 0).engine.queue = []
      ∧ ((after (.keyFrameDelivery 0 0 0x30) s).st 0).lcu.checker ≠ Checker.reset := by decide +kernel

/-- A checker for each clause: the 16th prediction, an alignment, the 4th error and the 3rd. -/
theorem test_hyp_checker :
    Checker.reset.sync = false ∧ Checker.reset.expected = none ∧ Lcu.reset.pattern = .count
      ∧ (⟨false, some 7, 0, 15, false, []⟩ : Checker).correct + 1 = 16
      ∧ (echo Checker.reset).pattern = .repeated [0x30, 0x31, 0x32] ∧ Checker.reset.aligned = false
      ∧ (0x30 : Byte) = [0x30, 0x31, 0x32].getD 0 0
      ∧ ((⟨false, none, 1, 15, true, []⟩ : Checker).aligned = true ∧ (0x31 : Byte) = [0x30, 0x31, 0x32].getD 1 0)
      ∧ (⟨true, some 7, 0, 16, false, [true, true]⟩ : Checker).sync = true
      ∧ (([true, true] ++ [decide ((8 : Byte) ≠ 7)]).drop (2 + 1 - 16)).count true < 4
      ∧ 4 ≤ (([true, true, true] ++ [decide ((8 : Byte) ≠ 7)]).drop (3 + 1 - 16)).count true := by decide +kernel

end Sys2Proof.Tests
end

section
/-! PROOFS. The laws that every step keeps (R6 to R16, R21, R54 to R59, R119, R126, R149, R155), and the state right
after device reset (R24, R84, R116, R140, R156, R172, R187). -/

namespace Sys2Proof.Machine

/-! ### A station right after device reset is lawful -/

theorem Station.formLawful_reset : Station.reset.FormLawful :=
  ⟨Page.lawful_reset, Page.lawful_reset, Page.inForm_reset, Page.inForm_reset,
    fun _ hf => absurd hf List.not_mem_nil, fun _ hf => absurd hf List.not_mem_nil⟩

theorem Engine.lawful_reset : Engine.reset.Lawful := by
  simp [Engine.Lawful, Engine.reset]

theorem Grant.lawful_reset : Grant.reset.Lawful := fun _ => ⟨rfl, rfl⟩

/-- R140: every cell of the form is dirty. -/
theorem Display.mem_dirty_reset {k : Nat} : k ∈ Display.reset.dirty ↔ k < 1600 := mem_allCells

theorem Display.dirtyLawful_reset : Display.reset.DirtyLawful :=
  ⟨pairwise_allCells, fun _ hk => Display.mem_dirty_reset.mp hk⟩

theorem Station.runLawful_reset : Station.reset.RunLawful := fun hr => nomatch hr

theorem Station.testLawful_reset : Station.reset.TestLawful := by
  simp [Station.TestLawful, Station.reset, Port.reset, Monitor.reset, Lcu.reset]

theorem Station.covered_reset : Station.reset.Covered := fun _ hk => .inl (Display.mem_dirty_reset.mpr hk)

theorem Station.countersLawful_reset : Station.reset.CountersLawful := by
  simp [Station.CountersLawful, Station.reset, Engine.reset, Display.reset, Port.reset, Lcu.reset]

theorem Monitor.countsLawful_reset : Monitor.reset.CountsLawful := by
  simp [Monitor.CountsLawful, Monitor.reset]

/-- R187: the only notice pending after device reset is RESTARTED, which has no count. -/
theorem Notices.countsLawful_reset : Notices.reset.CountsLawful := by
  intro i
  simp [Notices.reset, Vector.get]

/-- A property of the station after device reset is one of every station of the part after device reset. -/
theorem State.forall_reset_st {P : Station → Prop} (h : P Station.reset) (i : StationNo) : P (State.reset.st i) := by
  rw [State.reset_st]; exact h

theorem State.countersLaw_reset : State.reset.CountersLaw :=
  ⟨State.forall_reset_st (P := fun t => t.CountersLawful ∧ t.monitor.CountsLawful)
      ⟨Station.countersLawful_reset, Monitor.countsLawful_reset⟩,
    Notices.countsLawful_reset, Nat.zero_le _, Nat.zero_le _, Nat.zero_le _⟩

/-- R116: no attention is held and no service is in progress. -/
theorem State.heldLaw_reset : State.reset.HeldLaw :=
  ⟨List.nodup_nil, fun _ hh => absurd hh List.not_mem_nil, fun _ hi => nomatch hi⟩

/-! ### The obligations -/

/-- Settles O9: the law holds of a station after device reset and each move keeps it. -/
theorem formLawKept : Obligations.FormLawKept := fun s s' hs he =>
  stationLaw_step Station.formLawful_reset (fun _ _ _ m => m.keeps_form) s s' hs he

/-- Settles O7: each of the four laws holds of a station after device reset, and each move keeps it. -/
theorem stationLawsKept : Obligations.StationLawsKept := by
  refine ⟨⟨fun s s' hs he => ?engine, fun s s' hs he => ?grant⟩, fun s s' hs he => ?dirty, fun s s' hs he => ?lines⟩
  case engine =>
    exact stationLaw_step (P := fun t => t.engine.Lawful) Engine.lawful_reset (fun _ _ _ m => m.keeps_engine) s s' hs he
  case grant =>
    exact stationLaw_step (P := fun t => t.grant.Lawful) Grant.lawful_reset (fun _ _ _ m => m.keeps_grant) s s' hs he
  case dirty =>
    exact stationLaw_step (P := fun t => t.display.DirtyLawful) Display.dirtyLawful_reset
      (fun _ _ _ m => m.keeps_dirty) s s' hs he
  case lines =>
    exact stationLaw_step (P := fun t => t.RunLawful ∧ t.TestLawful)
      ⟨Station.runLawful_reset, Station.testLawful_reset⟩ (fun _ _ _ m => m.keeps_lines) s s' hs he

/-- Settles O6: the station laws hold of a station after device reset, the others of the empty ring and list. -/
theorem lawsHoldAtReset : Obligations.LawsHoldAtReset :=
  ⟨State.forall_reset_st (P := fun t => t.engine.Lawful) Engine.lawful_reset,
    State.forall_reset_st (P := fun t => t.grant.Lawful) Grant.lawful_reset,
    State.forall_reset_st Station.formLawful_reset,
    State.forall_reset_st (P := fun t => t.display.DirtyLawful) Display.dirtyLawful_reset,
    State.forall_reset_st (P := fun t => t.RunLawful ∧ t.TestLawful)
      ⟨Station.runLawful_reset, Station.testLawful_reset⟩,
    State.forall_reset_st Station.covered_reset,
    Ring.lawful_reset, State.heldLaw_reset, State.countersLaw_reset⟩

/-- Settles O5: device reset puts every station at its reset value, whose items are those the manual gives. -/
theorem deviceResetStationsAndRing : Obligations.DeviceResetStationsAndRing := by
  intro s
  refine ⟨{ State.reset with pending := s.pending, freeCount := s.freeCount }, rfl, rfl, rfl, rfl, rfl, rfl, rfl, rfl,
    fun i => ?_⟩
  rw [show State.st { State.reset with pending := s.pending, freeCount := s.freeCount } i = Station.reset from
    State.reset_st i]
  refine ⟨⟨fun role => ?page, fun role k => ?cell, rfl, rfl, rfl, rfl⟩, ?engine,
    ⟨fun k => Display.mem_dirty_reset, ?display⟩, ?lines, ?test⟩
  case page => cases role <;> rfl
  case cell => cases role <;> rfl
  case engine => exact ⟨rfl, rfl, rfl, rfl, rfl, rfl, rfl, rfl, rfl, rfl⟩
  case display => exact ⟨rfl, rfl, rfl, rfl, rfl, rfl, rfl, rfl, rfl, rfl, rfl, rfl, rfl, rfl⟩
  case lines => exact ⟨rfl, rfl, rfl, rfl, rfl, rfl, rfl, rfl, rfl, rfl, rfl, rfl, rfl⟩
  case test => exact ⟨rfl, rfl, rfl, rfl, rfl, rfl, rfl, rfl, rfl, rfl, rfl, rfl, rfl, rfl, rfl, rfl⟩

end Sys2Proof.Machine
end
section
/-! PROOFS. Requests in hand and the Form Grant (R20 to R22, R60, R176, R178, R180), STATION-RESET (R197, R198). -/

namespace Sys2Proof.Machine

/-! ### Taking a request (R176, R178) -/

/-- R159, R188: a body that names one of the kinds from 1 to n. -/
theorem leads_iff {body : List Byte} {n : Nat} :
    leads body n = true ↔ ∃ a more, body = a :: more ∧ 1 ≤ a.toNat ∧ a.toNat ≤ n := by
  cases body <;> simp [leads]

/-- A body that is empty, or begins with 0 or a code above n, names none of the kinds from 1 to n. -/
theorem leads_eq_false {body : List Byte} {n : Nat}
    (h : ∀ a more, body = a :: more → a.toNat = 0 ∨ n < a.toNat) : leads body n = false := by
  rw [Bool.eq_false_iff, ne_eq, leads_iff]
  rintro ⟨a, more, hb, h1, hn⟩
  have := h a more hb
  omega

/-- R188: a QUERY that decodes names one of the five kinds. -/
theorem leads_of_decodeQuery {body : List Byte} (h : (decodeQuery body).isSome = true) : leads body 5 = true := by
  rw [leads_iff]
  unfold decodeQuery at h
  split at h
  · rename_i k r
    refine ⟨k, [r], rfl, ?_⟩
    split at h
    · split at h
      · omega
      · omega
      · omega
      · simp at h
    · simp at h
  · rename_i k r t
    refine ⟨k, [r, t], rfl, ?_⟩
    split at h
    · split at h
      · rename_i hk; subst hk; decide
      · simp at h
    · simp at h
  · rename_i k
    refine ⟨k, [], rfl, ?_⟩
    split at h
    · rename_i hk; subst hk; decide
    · simp at h
  · simp at h

/-- R159, R188: only a QUERY or a TEST is refused as it is taken. -/
theorem earlyRefusal_of_kind {f : Frame} (hq : f.kind ≠ 0x42) (ht : f.kind ≠ 0x45) : earlyRefusal f = none := by
  simp only [earlyRefusal, kindQuery, kindTest, hq, ht, if_false]

theorem earlyRefusal_query {f : Frame} (h : f.kind = 0x42) :
    earlyRefusal f = if leads f.body 5 = true then none else some .badOrder := by
  simp [earlyRefusal, kindQuery, h]

theorem earlyRefusal_test {f : Frame} (h : f.kind = 0x45) :
    earlyRefusal f = if leads f.body 3 = true then none
      else if (stationOf f.station).isNone = true then some .badStation else some .badOrder := by
  simp [earlyRefusal, kindQuery, kindTest, h]

/-- R20: the frames whose request takes the grant of the station they name. -/
def Frame.NeedsGrant (f : Frame) : Prop :=
  f.kind = 0x41 ∨ f.kind = 0x43 ∨ (f.kind = 0x44 ∧ f.body = []) ∨ (f.kind = 0x42 ∧ (decodeQuery f.body).isSome = true)

theorem grantOf_of_needsGrant {f : Frame} (h : f.NeedsGrant) : grantOf f = stationOf f.station := by
  rcases h with h | h | ⟨h, hb⟩ | ⟨h, hd⟩ <;>
    simp [grantOf, kindForm, kindQuery, kindConfigure, kindStationReset, *]

theorem grantOf_of_not_needsGrant {f : Frame} (h : ¬ f.NeedsGrant) : grantOf f = none := by
  simp only [Frame.NeedsGrant, not_or, not_and] at h
  obtain ⟨h1, h3, h4, h2⟩ := h
  unfold grantOf
  rw [if_neg (c := f.kind = kindForm ∨ f.kind = kindConfigure) (not_or.mpr ⟨h1, h3⟩)]
  split
  · rename_i hq; exact if_neg (h2 hq)
  · split
    · rename_i hr; exact if_neg (h4 hr)
    · rfl

/-- R20: a frame that names no station raises no request. -/
theorem grantOf_of_no_station {f : Frame} (h : stationOf f.station = none) : grantOf f = none := by
  simp [grantOf, h]

theorem earlyRefusal_of_needsGrant {f : Frame} (h : f.NeedsGrant) : earlyRefusal f = none := by
  rcases h with h | h | ⟨h, -⟩ | ⟨h, hd⟩
  · exact earlyRefusal_of_kind (by simp [h]) (by simp [h])
  · exact earlyRefusal_of_kind (by simp [h]) (by simp [h])
  · exact earlyRefusal_of_kind (by simp [h]) (by simp [h])
  · rw [earlyRefusal_query h, if_pos (leads_of_decodeQuery hd)]

section
variable {s : State} {f : Frame} {rest : List Frame}

/-- R176: the idle interpreter takes the head frame. -/
theorem exec_requestTake (hi : s.interp = .idle) (hb : s.buffer = f :: rest) :
    exec .requestTake s = .next (State.beginRequest { s with buffer := rest } f) := by
  simp [exec, execRequestTake, hi, hb]

/-- R20: the frame is in hand and its request raised. -/
theorem requestTake_raises (hi : s.interp = .idle) (hb : s.buffer = f :: rest) (he : earlyRefusal f = none)
    {i : StationNo} (hg : grantOf f = some i) :
    exec .requestTake s = .next (State.setSt { s with buffer := rest, interp := .handling f } i
      { s.st i with grant := (s.st i).grant.raise .interpreter }) := by
  rw [exec_requestTake hi hb]
  simp only [State.beginRequest, he, hg]
  rfl

/-- R178: the frame is in hand without a request. -/
theorem requestTake_holds (hi : s.interp = .idle) (hb : s.buffer = f :: rest) (he : earlyRefusal f = none)
    (hg : grantOf f = none) :
    exec .requestTake s = .next { s with buffer := rest, interp := .handling f } := by
  rw [exec_requestTake hi hb]
  simp only [State.beginRequest, he, hg]

/-- R159, R188: the frame is refused as it is taken. -/
theorem requestTake_refuses (hi : s.interp = .idle) (hb : s.buffer = f :: rest) {r : Reason}
    (he : earlyRefusal f = some r) :
    exec .requestTake s
      = .next { s with buffer := rest, interp := .replying ⟨f.kind, f.station, r, 0, []⟩ none none none } := by
  rw [exec_requestTake hi hb]
  simp only [State.beginRequest, he]
  rfl

end

/-- Settles O17: by what the frame taken needs (`earlyRefusal`, `grantOf`). -/
theorem requestTakeRaisesItsGrantRequest : Obligations.RequestTakeRaisesItsGrantRequest := by
  intro s f rest hi hb
  refine ⟨fun i hs hn => ?_, fun hn hs => ?_, fun hk hbody => ?_, fun h1 h2 h3 h4 h5 => ?_, fun hk hl => ?_,
    fun hk hl hd => ?_, fun hk hl => ?_, fun hk hl => ?_⟩
  · have hn : f.NeedsGrant := hn
    exact requestTake_raises hi hb (earlyRefusal_of_needsGrant hn) ((grantOf_of_needsGrant hn).trans hs)
  · refine requestTake_holds hi hb ?_ (grantOf_of_no_station hs)
    rcases hn with h | h | h | ⟨h, hd⟩
    · exact earlyRefusal_of_kind (by simp [h]) (by simp [h])
    · exact earlyRefusal_of_kind (by simp [h]) (by simp [h])
    · exact earlyRefusal_of_kind (by simp [h]) (by simp [h])
    · exact earlyRefusal_of_needsGrant (.inr (.inr (.inr ⟨h, hd⟩)))
  · exact requestTake_holds hi hb (earlyRefusal_of_kind (by simp [hk]) (by simp [hk]))
      (grantOf_of_not_needsGrant (by simp [Frame.NeedsGrant, hk, hbody]))
  · exact requestTake_holds hi hb (earlyRefusal_of_kind h2 h5)
      (grantOf_of_not_needsGrant (by
        simp only [Frame.NeedsGrant, h1, h2, h3, h4, false_and, or_self, not_false_eq_true]))
  · exact requestTake_holds hi hb (by rw [earlyRefusal_test hk, if_pos (leads_iff.mpr hl)])
      (grantOf_of_not_needsGrant (by simp [Frame.NeedsGrant, hk]))
  · exact requestTake_holds hi hb (by rw [earlyRefusal_query hk, if_pos (leads_iff.mpr hl)])
      (grantOf_of_not_needsGrant (by simp [Frame.NeedsGrant, hk, hd]))
  · have he : earlyRefusal f = some .badOrder := by rw [earlyRefusal_query hk, leads_eq_false hl]; rfl
    rw [requestTake_refuses hi hb he, hk]
  · have he : earlyRefusal f = some (if (stationOf f.station).isNone = true then .badStation else .badOrder) := by
      rw [earlyRefusal_test hk, leads_eq_false hl, if_neg Bool.false_ne_true, apply_ite some]
    rw [requestTake_refuses hi hb he, hk]

/-! ### Unknown kinds, and the placing of a reply (R178, R180) -/

theorem isRequest_eq_false {k : Byte} (h1 : k ≠ 0x41) (h2 : k ≠ 0x42) (h3 : k ≠ 0x43) (h4 : k ≠ 0x44)
    (h5 : k ≠ 0x45) : isRequest k = false := by
  simp only [isRequest, kindForm, kindQuery, kindConfigure, kindStationReset, kindTest, h1, h2, h3, h4, h5,
    decide_false, Bool.or_self]

/-- Settles O18: the refusal by `isRequest`, the placing by the cases of the release. -/
theorem unknownKindIsRefusedAndReplyPlaced : Obligations.UnknownKindIsRefusedAndReplyPlaced := by
  refine ⟨fun s f hi h1 h2 h3 h4 h5 => ?_, fun s r release done c hi => ⟨fun hslot => ?_, fun hslot => ?_⟩⟩
  · simp [exec, execUnknownKind, State.inHand, hi, isRequest_eq_false h1 h2 h3 h4 h5, State.refuse, State.answer]
  · simp only [exec, execPlaceReply, hi, hslot]
    refine ⟨_, rfl, ?_, fun j => ?_⟩
    · cases release <;> cases done <;> rfl
    · cases release with
      | none => rfl
      | some i =>
        rw [State.st_modSt]
        by_cases hj : j = i
        · subst hj; simp only [if_true]; rfl
        · rw [if_neg hj, if_neg (by simpa using Ne.symm hj)]; rfl
  · obtain ⟨r', hr⟩ := Option.ne_none_iff_exists'.mp hslot
    simp [exec, execPlaceReply, hi, hr]

/-! ### The Form Grant (R21, R60) -/

/-- R21: a free grant with requests raised. -/
theorem Grant.pass_free {g : Grant} (h : g.holder = none) :
    g.pass =
      if g.interpreterWaits = true ∧ (g.engineWaits = false ∨ g.last = .engine) then
        { g with holder := some .interpreter, interpreterWaits := false, last := .interpreter }
      else if g.engineWaits = true then { g with holder := some .engine, engineWaits := false, last := .engine }
      else g := by
  simp [Grant.pass, h]

/-- R21: a held grant passes to nobody. -/
theorem Grant.pass_held {g : Grant} {who : Requester} (h : g.holder = some who) : g.pass = g := by
  simp [Grant.pass, h]

/-- R21: what the holder's release leaves. -/
theorem Grant.release_holder {g : Grant} {who : Requester} (h : g.holder = some who) :
    g.release who =
      if g.interpreterWaits = true ∧ (g.engineWaits = false ∨ g.last = .engine) then
        { g with holder := some .interpreter, interpreterWaits := false, last := .interpreter }
      else if g.engineWaits = true then { g with holder := some .engine, engineWaits := false, last := .engine }
      else { g with holder := none } := by
  rw [Grant.release, if_pos h, Grant.pass_free rfl]

theorem Grant.release_other {g : Grant} {who : Requester} (h : g.holder ≠ some who) : g.release who = g :=
  if_neg h

/-- R21: a request at a grant that is free and that nobody waits for is granted at once. -/
theorem Grant.raise_free {g : Grant} (h : g.holder = none) (hi : g.interpreterWaits = false)
    (he : g.engineWaits = false) (who : Requester) : g.raise who = { g with holder := some who, last := who } := by
  cases who <;> simp [Grant.raise, Grant.pass, h, hi, he]

/-- R21: a request at a held grant waits. -/
theorem Grant.raise_engine_held {g : Grant} {h : Requester} (hh : g.holder = some h) :
    g.raise .engine = { g with engineWaits := true } := Grant.pass_held hh

theorem Grant.raise_interpreter_held {g : Grant} {h : Requester} (hh : g.holder = some h) :
    g.raise .interpreter = { g with interpreterWaits := true } := Grant.pass_held hh

/-- R60: the engine's request changes nothing but the grant. -/
theorem Station.raiseEvent_eq (t : Station) : t.raiseEvent = { t with grant := t.raiseEvent.grant } := by
  unfold Station.raiseEvent
  split <;> rfl

/-- R60: events wait and the keyboard is OPEN or LOCKED. -/
theorem Station.raiseEvent_raises {t : Station} (hq : t.engine.queue ≠ []) (hk : t.engine.kb ≠ .waiting)
    (hw : t.grant.engineWaits = false) (hh : t.grant.holder ≠ some .engine) :
    t.raiseEvent = { t with grant := t.grant.raise .engine } := if_pos ⟨hq, hk, hw, hh⟩

theorem Station.raiseEvent_stays {t : Station} (h : t.engine.queue = [] ∨ t.engine.kb = .waiting) :
    t.raiseEvent = t := by
  refine if_neg fun hc => ?_
  obtain ⟨hq, hk, -, -⟩ := hc
  exact h.elim hq hk

/-- R60: the grant after an event: the release of the engine's hold, then its next request. -/
theorem Station.finishEvent_eq (t : Station) :
    t.finishEvent = { t with engine := { t.engine with taken := none }, grant := t.finishEvent.grant } := by
  unfold Station.finishEvent
  rw [Station.raiseEvent_eq]

/-- R60: with no event to take, the grant after an event is the one released. -/
theorem Station.finishEvent_grant_idle {t : Station} (h : t.engine.queue = [] ∨ t.engine.kb = .waiting) :
    t.finishEvent.grant = t.grant.release .engine := by
  exact congrArg Station.grant
    (Station.raiseEvent_stays (t := { t with engine.taken := none, grant := t.grant.release .engine }) h)

/-- R60: with an event to take, the engine's request is raised at the grant released. -/
theorem Station.finishEvent_grant_busy {t : Station} (hq : t.engine.queue ≠ []) (hk : t.engine.kb ≠ .waiting)
    (hw : (t.grant.release .engine).engineWaits = false) (hh : (t.grant.release .engine).holder ≠ some .engine) :
    t.finishEvent.grant = (t.grant.release .engine).raise .engine := by
  exact congrArg Station.grant
    (Station.raiseEvent_raises (t := { t with engine.taken := none, grant := t.grant.release .engine }) hq hk hw hh)

/-- R21, R60: the interpreter that waits is handed the engine's grant. -/
theorem Grant.release_engine_waited {g : Grant} (h : g.holder = some .engine) (he : g.engineWaits = false)
    (hi : g.interpreterWaits = true) : g.release .engine =
      { g with holder := some .interpreter, interpreterWaits := false, last := .interpreter } := by
  rw [Grant.release_holder h, if_pos ⟨hi, .inl he⟩]

/-- R21, R60: with nobody waiting the engine's grant becomes free. -/
theorem Grant.release_engine_alone {g : Grant} (h : g.holder = some .engine) (he : g.engineWaits = false)
    (hi : g.interpreterWaits = false) : g.release .engine = { g with holder := none } := by
  rw [Grant.release_holder h, if_neg (by simp [hi]), if_neg (by simp [he])]

/-- Settles O19: the grant by its holder and flags; an event's end by whether the interpreter waits and whether the
engine has an event to take. -/
theorem grantIsHandedOutAndReleased : Obligations.GrantIsHandedOutAndReleased := by
  refine ⟨fun g => ⟨Grant.raise_free, fun h hh => ⟨Grant.raise_interpreter_held hh, Grant.raise_engine_held hh⟩,
    fun who hw => Grant.release_holder hw, fun h hi he => ?meet, fun who hw => Grant.release_other hw⟩,
    fun t hh he => ⟨t.finishEvent_eq, fun hi => ?waited, fun hi hn => ?idle, fun hi hq hk => ?busy, fun hi => ?again⟩⟩
  case meet => simp [Grant.pass_free h, hi, he]
  case waited =>
    have hr := Grant.release_engine_waited hh he hi
    by_cases hn : t.engine.queue = [] ∨ t.engine.kb = .waiting
    · rw [Station.finishEvent_grant_idle hn, hr]
    · obtain ⟨hq, hk⟩ := not_or.mp hn
      rw [Station.finishEvent_grant_busy hq hk (by rw [hr]; exact he) (by simp [hr]), hr, Grant.raise_engine_held rfl]
  case idle => rw [Station.finishEvent_grant_idle hn, Grant.release_engine_alone hh he hi]
  case busy =>
    have hr := Grant.release_engine_alone hh he hi
    rw [Station.finishEvent_grant_busy hq hk (by rw [hr]; exact he) (by simp [hr]), hr]
    exact congrArg Grant.holder (Grant.raise_free (g := { t.grant with holder := none }) rfl hi he .engine)
  case again =>
    have hr := Grant.release_engine_waited hh he hi
    by_cases hn : t.engine.queue = [] ∨ t.engine.kb = .waiting
    · rw [Station.finishEvent_grant_idle hn, hr]
      have hno : ¬ (t.engine.queue ≠ [] ∧ t.engine.kb ≠ .waiting) := fun ⟨hq, hk⟩ => hn.elim hq hk
      simp [hno, he]
    · obtain ⟨hq, hk⟩ := not_or.mp hn
      rw [Station.finishEvent_grant_busy hq hk (by rw [hr]; exact he) (by simp [hr]), hr, Grant.raise_engine_held rfl]
      simp [hq, hk]

end Sys2Proof.Machine
end
section
/-! PROOFS. STATION-RESET (R25, R49, R85, R117, R141, R170, R197, R198). -/

namespace Sys2Proof.Machine

/-! ### The service goes on with the new head (R114, R117) -/

/-- R114: the start of a service changes stations and the service in progress alone. -/
theorem State.startService_eq (s : State) :
    s.startService = { s with stations := s.startService.stations, service := s.startService.service } := by
  unfold State.startService
  split <;> rfl

theorem State.startService_service_head {s : State} (h : s.service = none) :
    s.startService.service = s.held.head?.map Held.station := by
  rw [State.startService_service, h]
  cases s.held <;> rfl

theorem State.startService_stations {s : State} (h : s.service = none) {e : Held} {rest : List Held}
    (hh : s.held = e :: rest) : s.startService.stations
      = (s.modSt e.station fun t => { t with grant := t.grant.raise .engine }).stations := by
  simp only [State.startService, h, hh]

/-- R114: with no service in progress, the allocator raises its request at the head station's grant. -/
theorem State.st_startService {s : State} (h : s.service = none) (j : StationNo) :
    s.startService.st j = { s.st j with
      grant := if s.startService.service = some j then (s.st j).grant.raise .engine else (s.st j).grant } := by
  rw [State.startService_service_head h]
  cases hh : s.held with
  | nil => simp [State.startService, h, hh]
  | cons e rest =>
    rw [State.st_congr (State.startService_stations h hh), State.st_modSt]
    by_cases hj : j = e.station
    · subst hj; simp
    · simp [hj, Ne.symm hj]

theorem State.startService_inProgress {s : State} (h : s.service ≠ none) : s.startService = s := by
  obtain ⟨i, hi⟩ := Option.ne_none_iff_exists'.mp h
  simp [State.startService, hi]

/-- R117: the removal of a station's held attention ends its service, or removes the head that waits for one: the
service goes on with the new head. -/
def State.GoesOn (s : State) (i : StationNo) : Prop :=
  s.service = some i ∨ (s.service = none ∧ s.held.head?.map Held.station = some i)

/-- The held list without the attention of a station. -/
def State.withoutHeld (s : State) (i : StationNo) : State := { s with held := s.held.filter fun h => h.station != i }

theorem head_any_station {held : List Held} {i : StationNo} :
    (held.head?.any fun h => h.station = i) = true ↔ held.head?.map Held.station = some i := by
  cases held <;> simp

theorem State.removeHeld_goesOn {s : State} {i : StationNo} (h : s.GoesOn i) :
    s.removeHeld i = State.startService { s.withoutHeld i with service := none } := by
  unfold State.removeHeld
  rcases h with h | ⟨h, hh⟩
  · exact if_pos h
  · rw [if_neg (by simp [h]), if_pos (head_any_station.mpr hh), ← h]
    rfl

theorem State.removeHeld_stays {s : State} {i : StationNo} (h : ¬ s.GoesOn i) :
    s.removeHeld i = s.withoutHeld i := by
  obtain ⟨h1, h2⟩ := not_or.mp h
  unfold State.removeHeld
  rw [if_neg h1]
  split
  · rename_i hh
    exact State.startService_inProgress fun hn => h2 ⟨hn, head_any_station.mp hh⟩
  · rfl

/-- R117: the removal of a held attention changes stations, the list and the service alone. -/
theorem State.removeHeld_eq (s : State) (i : StationNo) :
    s.removeHeld i = { s with
      stations := (s.removeHeld i).stations
      held := s.held.filter fun h => h.station != i
      service := (s.removeHeld i).service } := by
  by_cases h : s.GoesOn i
  · rw [State.removeHeld_goesOn h, State.startService_eq]
    rfl
  · rw [State.removeHeld_stays h]
    rfl

/-- The head of the list without a station's attention is that of another station. -/
theorem head_filter_ne (held : List Held) (i : StationNo) :
    (held.filter fun h => h.station != i).head?.map Held.station ≠ some i := by
  intro h
  obtain ⟨e, he, hs⟩ := Option.map_eq_some_iff.mp h
  have := (List.mem_filter.mp (List.mem_of_head? he)).2
  simp [hs] at this

/-- R117: the service that goes on is that of the new head, at whose grant the request is raised. -/
theorem State.removeHeld_goesOn_spec {s : State} {i : StationNo} (h : s.GoesOn i) :
    (s.removeHeld i).service = (s.removeHeld i).held.head?.map Held.station
      ∧ ∀ j, (s.removeHeld i).st j = { s.st j with
          grant := if (s.removeHeld i).service = some j then (s.st j).grant.raise .engine else (s.st j).grant } := by
  rw [State.removeHeld_goesOn h]
  refine ⟨?_, fun j => State.st_startService rfl j⟩
  rw [State.startService_held]
  exact State.startService_service_head rfl

/-- R117: the station whose attention is removed is not served next. -/
theorem State.st_removeHeld_self (s : State) (i : StationNo) : (s.removeHeld i).st i = s.st i := by
  by_cases h : s.GoesOn i
  · obtain ⟨hv, hj⟩ := State.removeHeld_goesOn_spec h
    have hne : (s.removeHeld i).service ≠ some i := by
      rw [hv, State.removeHeld_eq]
      exact head_filter_ne s.held i
    rw [hj i, if_neg hne]
  · rw [State.removeHeld_stays h]
    rfl

/-! ### The blocks of the station (R197) -/

/-- The state whose station's blocks have been reset and whose pending TEST-DONE has been removed (R197, steps 1, 2
and 4 to 6). -/
def State.blocksReset (s : State) (i : StationNo) : State :=
  { s.modSt i fun t => t.resetBlocks.resetTest with notices := s.notices.dropTestDone i }

theorem State.resetStation_eq (s : State) (i : StationNo) : s.resetStation i = (s.blocksReset i).removeHeld i := rfl

theorem State.st_blocksReset_self (s : State) (i : StationNo) :
    (s.blocksReset i).st i = (s.st i).resetBlocks.resetTest   :=
  State.st_modSt_self s i fun t => t.resetBlocks.resetTest

theorem State.st_blocksReset_ne (s : State) {i j : StationNo} (h : j ≠ i) : (s.blocksReset i).st j = s.st j :=
  State.st_modSt_ne s (fun t => t.resetBlocks.resetTest) h

/-- R85, R25, R49, R141, R170: the station after its reset. -/
theorem Station.resetBlocks_resetTest (t : Station) :
    t.resetBlocks.resetTest = { t with
      front := ⟨[], [], 0⟩
      back := ⟨[], [], 0⟩
      grant := { t.grant with engineWaits := false }
      engine := { t.engine with
        kb := .waiting, lockCode := .none, lockTag := none, insert := false, queue := [], pacing := false
        taken := none }
      bulletin := []
      display := { t.display.invalidate with fault := none }
      port := if t.lcu.state = .running
        then { t.port with rx := .hunting, takenByTest := false, preTest := false } else t.port
      monitor := if t.lcu.state = .running
        then { t.monitor with suspended := false, awaiting := true } else t.monitor
      lcu := if t.lcu.state = .running then { t.lcu with state := .ended .reset } else t.lcu } := by
  unfold Station.resetTest
  have hl : t.resetBlocks.lcu = t.lcu := rfl
  rw [hl]
  by_cases h : t.lcu.state = .running
  · simp only [h, if_true]
    rfl
  · simp only [h, if_false]
    rfl

/-- R197: what the reset of a station changes. -/
theorem State.resetStation_frame (s : State) (i : StationNo) :
    s.resetStation i = { s with
      stations := (s.resetStation i).stations
      notices := s.notices.dropTestDone i
      held := s.held.filter fun h => h.station != i
      service := (s.resetStation i).service } := by
  rw [State.resetStation_eq, State.removeHeld_eq]
  rfl

/-- Settles O36: the reset is that of the station's blocks followed by the removal of its held attention. -/
theorem stationResetActsOnItsStation : Obligations.StationResetActsOnItsStation := by
  intro s f hi hk
  have hin : s.inHandOf kindStationReset = some f := by rw [State.inHandOf_handling hi]; exact if_pos hk
  have hx : exec .stationReset s = execStationReset s := rfl
  rw [hx, execStationReset, hin]
  refine ⟨fun hs => ?station, fun i hs hb => ?body, fun i hg hb => ?done⟩
  case station => simp only [hs, State.refuse, State.answer, hk]
  case body => simp only [hs, hb, State.refuse, State.answer, hk, ne_eq, not_false_eq_true, if_true]
  case done =>
    obtain ⟨-, hs, hh⟩ := hg
    have hgr : s.granted i = true := by simp [State.granted, hh]
    have hx : execStationReset s = .next ((s.resetStation i).answer f .none 0 [] (some i)) := by
      simp [execStationReset, hin, hs, hb, hgr]
    have hst : ∀ j, ((s.resetStation i).answer f .none 0 [] (some i)).st j = (s.resetStation i).st j := fun _ => rfl
    rw [execStationReset, hin] at hx
    refine ⟨_, hx, ?frame, ?self, fun hgo => ?goesOn, fun h1 h2 => ?stays⟩
    case frame =>
      rw [← hk, State.answer, State.resetStation_frame]
      rfl
    case self =>
      rw [hst, State.resetStation_eq, State.st_removeHeld_self, State.st_blocksReset_self,
        Station.resetBlocks_resetTest]
    case goesOn =>
      obtain ⟨hv, hj⟩ := State.removeHeld_goesOn_spec (s := s.blocksReset i) hgo
      refine ⟨hv, fun j hne => ?_⟩
      rw [hst, State.resetStation_eq, hj, State.st_blocksReset_ne s hne]
      rfl
    case stays =>
      have hno : ¬ (s.blocksReset i).GoesOn i := by
        rintro (h | ⟨hn, hd⟩)
        · exact h1 h
        · exact h2.elim (· hn) (· hd)
      refine ⟨?_, fun j hne => ?_⟩
      · show (s.resetStation i).service = s.service
        rw [State.resetStation_eq, State.removeHeld_stays hno]
        rfl
      · rw [hst, State.resetStation_eq, State.removeHeld_stays hno]
        exact State.st_blocksReset_ne s hne

end Sys2Proof.Machine
end
section
/-! PROOFS. The dirty set, promotion, the cursor, FLIP and the orders without a page (R4, R5, R12 to R19,
R43 to R49). -/

namespace Sys2Proof.Machine

/-! ### Repainting (R4, R5, R19) -/

/-- R19: a repainted station's dirty set gains exactly the cells whose appearance changes. -/
theorem Station.mem_dirty_repainted {t t' : Station} (hd : t'.display.dirty = t.display.dirty) {k : Nat}
    (hk : k < 1600) :
    k ∈ (t.repainted t').display.dirty ↔ k ∈ t.display.dirty ∨ t.shown k ≠ (t.repainted t').shown k := by
  simp [hk, hd]

theorem Station.mem_dirty_withFront (t : Station) (p : Page) {k : Nat} (hk : k < 1600) :
    k ∈ (t.withFront p).display.dirty ↔ k ∈ t.display.dirty ∨ t.shown k ≠ (t.withFront p).shown k :=
  Station.mem_dirty_repainted (by rfl) hk

theorem Station.mem_dirty_openKeyboard (t : Station) {k : Nat} (hk : k < 1600) :
    k ∈ t.openKeyboard.display.dirty ↔ k ∈ t.display.dirty ∨ t.shown k ≠ t.openKeyboard.shown k := by
  unfold Station.openKeyboard
  split
  · simp
  · exact Station.mem_dirty_repainted (by rfl) hk

/-- R4: a background cell shows its own emphasis. -/
theorem Station.shown_emph_background {t : Station} {k : Nat} (h : t.front.fieldAt k = none) :
    (t.shown k).emph = (t.front.cell k).emph := by
  simp [Station.shown, Page.shown, Page.shownEmphasis, h]

/-- R4, R5: a field cell shows its field's emphasis, or REVERSE under the lock highlight. -/
theorem Station.shown_emph_field {t : Station} {k : Nat} {f : Field} (h : t.front.fieldAt k = some f) :
    (t.shown k).emph = if t.engine.kb = .locked ∧ t.engine.lockTag = some f.tag then .reverse else f.emph := by
  by_cases hk : t.engine.kb = .locked <;>
    simp [Station.shown, Page.shown, Page.shownEmphasis, Station.highlight, h, hk]

/-- Settles O30: every one of these changes is a repainting. -/
theorem changedFrontCellsJoinTheDirtySet : Obligations.ChangedFrontCellsJoinTheDirtySet := fun t _ hk =>
  ⟨fun p => t.mem_dirty_withFront p hk, fun _ _ => Station.mem_dirty_repainted (by rfl) hk, t.mem_dirty_openKeyboard hk,
    rfl, Station.shown_emph_background, fun _ => Station.shown_emph_field⟩

/-! ### Promotion (R13) -/

theorem mem_promoted {hit : Field → Bool} {p : Page} {f : Field} :
    f ∈ promoted hit p ↔ f ∈ p.fields ∧ f.shadow.isSome = true ∧ hit f = true := by
  simp [promoted]

/-- R12: a text of the full length needs no padding. -/
theorem padded_of_length {n : Nat} {text : List Byte} (h : text.length = n) : padded n text = text := by
  rw [padded_of_le h.le, h, Nat.sub_self, List.replicate_zero, List.append_nil]

/-- R13: a field that takes its shadow holds it as its content. -/
theorem Page.content_promote {p : Page} (hp : p.Lawful) {hit : Field → Bool} {f : Field} (hf : f ∈ p.fields)
    {text : List Byte} (hs : f.shadow = some text) (hh : hit f = true) (hl : text.length = f.len) :
    (p.promote hit).content f = text := by
  refine Page.content_eq _ _ _ hl fun k hk => ?_
  have hpw : (promoted hit p).Pairwise fun f g => f.start + f.len ≤ g.start := hp.2.1.filter _
  have hin := read_foldContent_inside (promoted hit p) (fun f => f.shadow.getD []) p.cells hpw f
    (mem_promoted.mpr ⟨hf, by simp [hs], hh⟩) k hk
  rw [hs, Option.getD_some, padded_of_length hl] at hin
  exact congrArg Cell.ch hin

/-- R13: the records after a promotion. -/
theorem Page.fields_promote (p : Page) (hit : Field → Bool) : (p.promote hit).fields = p.fields.map fun f =>
    if f.shadow.isSome = true ∧ hit f = true then { f with shadow := none, mark := false } else f := by
  simp only [← Bool.and_eq_true]
  rfl

/-- R13: what a promotion can change of a station. -/
theorem Station.promote_frame (t : Station) (hit : Field → Bool) :
    t.promote hit = { t with
      front := { t.front with cells := (t.promote hit).front.cells, fields := (t.promote hit).front.fields }
      display := { t.display with dirty := (t.promote hit).display.dirty } } := rfl

/-! ### The station cursor (R16, R68) -/

theorem Station.moveCursor_same (t : Station) : t.moveCursor t.front.cursor = t := if_pos rfl

/-- R14, R68: a move to another index promotes what is then not in hand. -/
theorem Station.moveCursor_other {t : Station} {dest : Nat} (h : dest ≠ t.front.cursor) :
    t.moveCursor dest = Station.promote { t with
        front := { t.front with cursor := dest }, display := { t.display with cursorPending := true } }
      (fun f => !(f.covers dest || f.mark)) := if_neg h

/-- Settles O26: a promotion on a lawful page, cell by cell, and the move as a promotion. -/
theorem promotionAndCursorMove : Obligations.PromotionAndCursorMove := by
  refine ⟨fun t hit ht => ⟨t.promote_frame hit, t.front.fields_promote hit, fun f hf text hs hh => ?content,
    fun k hk => ?dirty, fun k hk => ?outside⟩, fun t dest => ⟨t.moveCursor_same, fun hne => ?move⟩⟩
  case content =>
    obtain ⟨hfront, -, -, -, hshadow, -⟩ := ht
    obtain ⟨-, -, hl⟩ := hshadow f hf text hs
    exact Page.content_promote hfront hf hs hh hl
  case dirty => simp only [t.mem_dirty_promote hit hk, mem_promoted, and_assoc]
  case outside =>
    refine Page.cell_promote_outside _ _ _ fun f hf => ?_
    obtain ⟨hm, hs, hh⟩ := mem_promoted.mp hf
    exact hk f hm hs hh
  case move =>
    rw [Station.moveCursor_other hne]
    exact ⟨rfl, rfl, rfl⟩

/-! ### FLIP (R17, R18) -/

/-- R17: a page on which everything has been promoted has no pending shadow. -/
theorem Page.shadow_promoteAll {p : Page} {f : Field} (hf : f ∈ (p.promote fun _ => true).fields) :
    f.shadow = none := by
  cases hs : f.shadow with
  | none => rfl
  | some text => exact absurd (Page.mem_promote hf hs).2 (by simp)

/-- Settles O28: FLIP repaints the station it has promoted. -/
theorem flipExchangesThePages : Obligations.FlipExchangesThePages := by
  intro v role
  refine ⟨rfl, rfl, rfl, rfl, fun f hf => Page.shadow_promoteAll (p := v.station.front) hf, fun k hk => ?_⟩
  exact Station.mem_dirty_repainted (t := v.station.promoteAll) (by rfl) hk

/-! ### SHOW, CURSOR, RELEASE, SOUND and NOTE (R43, R46 to R49) -/

/-- R26: an order that names a field acts on it and makes its start the next-field reference. -/
theorem FormView.atField_some (v : FormView) (f : Field) (act : Station → Field → Station) :
    v.atField (some f) act
      = { v with station := act v.station f, context := { v.context with nextField := some f.start } } := rfl

theorem Station.openKeyboard_kb (t : Station) : t.openKeyboard.engine.kb = .opened := by
  unfold Station.openKeyboard
  split
  · assumption
  · rfl

theorem Station.openKeyboard_opened {t : Station} (h : t.engine.kb = .opened) : t.openKeyboard = t := if_pos h

/-- R47, R56: what opening a keyboard changes. -/
theorem Station.openKeyboard_other {t : Station} (h : t.engine.kb ≠ .opened) :
    t.openKeyboard = { t with
      engine := { t.engine with kb := .opened, lockCode := .none, lockTag := none }
      display := { t.display with dirty := t.openKeyboard.display.dirty, indicatorPending := true } } := by
  rw [Station.openKeyboard, if_neg h]
  rfl

/-- R60: the request raised by an engine whose keyboard is OPEN. -/
theorem Station.raiseEvent_opened {t : Station} (h : t.engine.kb = .opened) :
    t.raiseEvent = { t with
      grant := if t.engine.queue ≠ [] ∧ t.grant.engineWaits = false ∧ t.grant.holder ≠ some .engine
        then t.grant.raise .engine else t.grant } := by
  unfold Station.raiseEvent
  simp only [h, ne_eq, reduceCtorEq, not_false_eq_true, true_and]
  split <;> rfl

/-- R47: the end of a message without a RELEASE. -/
theorem FormView.finish_plain {v : FormView} (h : v.released = false) : v.finish = v.station := by
  simp [FormView.finish, h]

/-- R47: the end of a message with one. -/
theorem FormView.finish_released {v : FormView} (h : v.released = true) :
    v.finish = v.station.openKeyboard.raiseEvent := by
  simp [FormView.finish, h]

/-- Settles O29: each order by its effect on the view; RELEASE by whether the keyboard is OPEN already. -/
theorem showCursorReleaseSoundNote : Obligations.ShowCursorReleaseSoundNote := by
  intro v role
  refine ⟨fun f hf => ?named, fun k => ?cursor, rfl, FormView.finish_plain, fun hr => ?release, rfl, fun text => ?note⟩
  case named =>
    simp only [FormView.apply, hf, FormView.atField_some, true_and, and_true]
    cases role <;> exact ⟨rfl, fun _ => rfl⟩
  case cursor => cases role <;> rfl
  case release =>
    rw [FormView.finish_released hr]
    refine ⟨?_, fun ho hq => ?_, fun hn => ?_⟩
    · rw [Station.raiseEvent_eq]
      exact Station.openKeyboard_kb _
    · rw [Station.openKeyboard_opened ho, Station.raiseEvent_stays (.inl hq)]
    · rw [Station.raiseEvent_opened (Station.openKeyboard_kb _), Station.openKeyboard_other hn]
  case note =>
    simp only [FormView.apply, FormView.withStation, Station.note]
    by_cases ht : text = v.station.bulletin <;> simp [ht]

end Sys2Proof.Machine
end
section
/-! PROOFS. DEF and DROP (R6, R38 to R40), PUT and PUT-NEXT (R12, R41, R42). -/

namespace Sys2Proof.Machine

/-! ### The tests of DEF (R8, R39) -/

/-- R8: a range is one of a QTY field, with its bounds in order. -/
def DefOperands.rangeSound (d : DefOperands) : Bool :=
  match d.range with
  | some (lo, hi) => d.cls = .qty && lo ≤ hi && hi ≤ 999999999
  | none => true

/-- R8: the length fits the class. -/
def DefOperands.classSound (d : DefOperands) : Bool :=
  match d.cls with
  | .qty => d.len ≤ 9
  | .bin => 7 ≤ d.len
  | .item => 2 ≤ d.len
  | .text | .digits => true

theorem DefOperands.rangeSound_iff (d : DefOperands) : d.rangeSound = true ↔
    ∀ lo hi, d.range = some (lo, hi) → d.cls = .qty ∧ lo ≤ hi ∧ hi ≤ 999999999 := by
  unfold DefOperands.rangeSound
  cases d.range with
  | none => simp
  | some r =>
    obtain ⟨lo, hi⟩ := r
    simp only [Bool.and_eq_true, decide_eq_true_eq, and_assoc, Option.some.injEq, Prod.mk.injEq]
    exact ⟨fun h _ _ e => e.1 ▸ e.2 ▸ h, fun h => h lo hi ⟨rfl, rfl⟩⟩

theorem DefOperands.classSound_iff (d : DefOperands) : d.classSound = true ↔
    (d.cls = .qty → d.len ≤ 9) ∧ (d.cls = .bin → 7 ≤ d.len) ∧ (d.cls = .item → 2 ≤ d.len) := by
  unfold DefOperands.classSound
  cases d.cls <;> simp

theorem DefOperands.sound_eq (d : DefOperands) : d.sound =
    (1 ≤ d.tag && d.tag ≤ 250 && 1 ≤ d.len && d.len ≤ 80 && !(d.required && d.protection = .guarded)
      && d.rangeSound && d.classSound) := rfl

/-- R8, R39: what a sound DEF satisfies. -/
theorem DefOperands.sound_iff (d : DefOperands) : d.sound = true ↔
    1 ≤ d.tag ∧ d.tag ≤ 250 ∧ 1 ≤ d.len ∧ d.len ≤ 80
      ∧ (d.required = true → d.protection = .openEntry)
      ∧ (∀ lo hi, d.range = some (lo, hi) → d.cls = .qty ∧ lo ≤ hi ∧ hi ≤ 999999999)
      ∧ (d.cls = .qty → d.len ≤ 9) ∧ (d.cls = .bin → 7 ≤ d.len) ∧ (d.cls = .item → 2 ≤ d.len) := by
  have hprot : (!(d.required && decide (d.protection = .guarded))) = true ↔
      (d.required = true → d.protection = .openEntry) := by
    cases d.required <;> cases d.protection <;> decide
  rw [d.sound_eq]
  simp only [Bool.and_eq_true, decide_eq_true_eq, hprot, d.rangeSound_iff, d.classSound_iff, and_assoc]

/-- R39, test 4: stretches that overlap share a cell, if neither is empty. -/
theorem overlaps_iff {s₁ l₁ s₂ l₂ : Nat} (h₁ : 1 ≤ l₁) (h₂ : 1 ≤ l₂) :
    overlaps s₁ l₁ s₂ l₂ = true ↔ ∃ k, s₁ ≤ k ∧ k < s₁ + l₁ ∧ s₂ ≤ k ∧ k < s₂ + l₂ := by
  simp only [overlaps, Bool.and_eq_true, decide_eq_true_eq]
  constructor
  · rintro ⟨h, h'⟩
    exact ⟨max s₁ s₂, by omega, by omega, by omega, by omega⟩
  · rintro ⟨k, a, b, c, e⟩
    omega

/-- R39, test 4: the cells of a DEF against the fields of a page. -/
theorem Page.any_overlaps_iff {p : Page} (hp : p.Lawful) {d : DefOperands} (hd : 1 ≤ d.len) :
    (p.fields.any fun f => overlaps d.start d.len f.start f.len) = true ↔
      ∃ g ∈ p.fields, ∃ k, d.start ≤ k ∧ k < d.start + d.len ∧ g.covers k = true := by
  simp only [List.any_eq_true]
  refine exists_congr fun g => and_congr_right fun hg => ?_
  obtain ⟨-, -, -, hlaw⟩ := hp
  obtain ⟨-, -, hlen, -⟩ := hlaw g hg
  rw [overlaps_iff hd hlen]
  simp [Field.covers]

/-- R3: the cells of a field. -/
theorem Field.covers_iff {f : Field} {k : Nat} : f.covers k = true ↔ f.start ≤ k ∧ k < f.start + f.len := by
  simp [Field.covers]

/-- R6: a cell that no field holds is covered by none. -/
theorem Page.fieldAt_none {p : Page} {k : Nat} (h : p.fieldAt k = none) {f : Field} (hf : f ∈ p.fields) :
    f.covers k = false := by
  simpa using List.find?_eq_none.mp h f hf

section
variable {p : Page} {d : DefOperands}

/-- R39, test 1. -/
theorem defFault_unsound (h : d.sound = false) : defFault p d = some .badOrder := by
  simp [defFault, h]

/-- R39, test 2. -/
theorem defFault_outOfForm (hs : d.sound = true) (h : 1600 ≤ d.start ∨ 80 < d.start % 80 + d.len) :
    defFault p d = some .outOfForm := by
  have h : (decide (formCells ≤ d.start) || decide (rowCells < d.start % rowCells + d.len)) = true := by
    rw [Bool.or_eq_true, decide_eq_true_eq, decide_eq_true_eq]
    exact h
  simp only [defFault, hs, h, Bool.not_true, Bool.false_eq_true, if_false, if_true]

/-- R39: a sound DEF within a row of the form goes on to the tests 3 to 5. -/
theorem defFault_inForm (hs : d.sound = true) (h1 : d.start < 1600) (h2 : d.start % 80 + d.len ≤ 80) :
    defFault p d = if (p.fields.any fun f => f.tag = d.tag) = true then some .tagInUse
      else if (p.fields.any fun f => overlaps d.start d.len f.start f.len) = true then some .overlap
      else if 48 ≤ p.fields.length then some .tableFull else none := by
  have h : (decide (formCells ≤ d.start) || decide (rowCells < d.start % rowCells + d.len)) = false := by
    rw [Bool.or_eq_false_iff, decide_eq_false_iff_not, decide_eq_false_iff_not]
    exact ⟨not_le.mpr h1, not_lt.mpr h2⟩
  simp only [defFault, hs, h, Bool.not_true, Bool.false_eq_true, if_false]
  rfl

/-- R39: a DEF that passes its tests has a tag of its own. -/
theorem tag_new_of_defFault (h : defFault p d = none) : ∀ g ∈ p.fields, g.tag ≠ d.tag := by
  intro g hg he
  have hany : (p.fields.any fun f => f.tag = d.tag) = true := List.any_eq_true.mpr ⟨g, hg, by simpa using he⟩
  simp only [defFault, hany, if_true] at h
  split at h
  · simp at h
  · split at h <;> simp at h

end

/-! ### DEF applied and taken back (R38, R40) -/

/-- R3, R38, R40: the cells after a stretch has been blanked. -/
theorem read_blankCells (cells : Sparse Cell) (start len k : Nat) :
    Sparse.read Cell.blank k (blankCells cells start len)
      = if start ≤ k ∧ k < start + len then Cell.blank else Sparse.read Cell.blank k cells := by
  simp only [blankCells, Sparse.read_writeAll, List.length_replicate]
  split
  · simp [List.getD]
  · rfl

theorem Page.cell_define (p : Page) (d : DefOperands) (k : Nat) :
    (p.define d).cell k = if d.start ≤ k ∧ k < d.start + d.len then Cell.blank else p.cell k :=
  read_blankCells p.cells d.start d.len k

/-- R38, R40: the record that has been put in place is the one that its tag takes away. -/
theorem filter_insertField {f : Field} {fs : List Field} (h : ∀ g ∈ fs, g.tag ≠ f.tag) :
    (insertField f fs).filter (fun g => g.tag != f.tag) = fs := by
  induction fs with
  | nil => simp [insertField]
  | cons x fs ih =>
    have hx : (x.tag != f.tag) = true := bne_iff_ne.mpr (h x List.mem_cons_self)
    simp only [insertField]
    split
    · rw [List.filter_cons_of_neg (by simp)]
      exact List.filter_eq_self.mpr fun g hg => bne_iff_ne.mpr (h g hg)
    · simp only [List.filter_cons, hx, if_true, ih fun g hg => h g (List.mem_cons_of_mem _ hg)]

/-- R40: a DROP of the field just defined gives back the fields that were there. -/
theorem Page.fields_drop_define {p : Page} {d : DefOperands} (h : ∀ g ∈ p.fields, g.tag ≠ d.tag) :
    ((p.define d).drop d.field).fields = p.fields := filter_insertField (f := d.field) h

/-- R38, R40: the cells of the field just defined are blank already. -/
theorem Page.cell_drop_define (p : Page) (d : DefOperands) (k : Nat) :
    ((p.define d).drop d.field).cell k = (p.define d).cell k := by
  rw [Page.cell_drop, Page.cell_define]
  split
  · rename_i h
    exact (if_pos (Field.covers_iff.mp h)).symm
  · rfl

/-- Settles O23: the tests of DEF in their sequence, its effect, and the effect of DROP. -/
theorem defAddsItsFieldAndDropRemovesIt : Obligations.DefAddsItsFieldAndDropRemovesIt := by
  intro p c d hp
  refine ⟨d.sound_iff, defFault_unsound, defFault_outOfForm, fun hs h1 h2 => ?tests, fun hd => ?applied,
    fun before f after he => ?dropped⟩
  case tests =>
    obtain ⟨-, -, hlen, -⟩ := d.sound_iff.mp hs
    have hov := Page.any_overlaps_iff hp hlen
    show ((∃ g ∈ p.fields, g.tag = d.tag) → defFault p d = _) ∧ (_ → (_ → defFault p d = _) ∧
      (_ → (_ → defFault p d = _) ∧ (_ → defFault p d = _)))
    rw [defFault_inForm hs h1 h2]
    refine ⟨fun ht => if_pos (by simpa using ht), fun ht => ?_⟩
    rw [if_neg (by simpa using ht)]
    refine ⟨fun ho => if_pos (hov.mpr ho), fun hfree => ?_⟩
    have hno : ¬ (p.fields.any fun f => overlaps d.start d.len f.start f.len) = true := by
      rw [hov]
      rintro ⟨g, hg, k, ha, hb, hc⟩
      rw [Page.fieldAt_none (hfree k ha hb) hg] at hc
      exact Bool.false_ne_true hc
    rw [if_neg hno]
    exact ⟨fun hl => if_pos hl.ge, fun hl => if_neg (by omega)⟩
  case applied =>
    exact ⟨hp.define hd, fun g => mem_insertField, rfl, p.cell_define d,
      Page.fields_drop_define (tag_new_of_defFault hd), p.cell_drop_define d⟩
  case dropped => exact ⟨Page.fields_drop hp he, hp.drop f, rfl, p.cell_drop f⟩

/-! ### PUT and PUT-NEXT (R12, R41, R42) -/

/-- R12: a value that is held leaves everything but the shadow. -/
theorem Station.put_held {t : Station} {f : Field} (text : List Byte) (hb : f.buffering = .shadowed)
    (hh : f.covers t.front.cursor = true ∨ f.mark = true) :
    t.put .front f text = { t with front := { t.front with fields := t.front.fields.map fun g =>
      if g.tag = f.tag then { g with shadow := some (padded f.len text) } else g } } := by
  have hin : t.front.inHand f = true := by simpa [Page.inHand] using hh
  simp [Station.put, hb, hin, Page.mapFields]

/-- R12: the fields whose values are written directly. -/
theorem Station.put_written {t : Station} {role : Role} {f : Field} (text : List Byte)
    (h : role = .back ∨ f.buffering = .single ∨ (f.covers t.front.cursor = false ∧ f.mark = false)) :
    t.put role f text = t.withPage role (((t.page role).setContent f text).setMark f.tag false) := by
  refine if_neg ?_
  rintro ⟨hr, hb, hin⟩
  rcases h with h | h | ⟨hc, hm⟩
  · rw [hr] at h; simp at h
  · rw [hb] at h; simp at h
  · simp [Page.inHand, hc, hm] at hin

@[simp] theorem Station.page_withPage (t : Station) (role : Role) (p : Page) : (t.withPage role p).page role = p := by
  cases role <;> rfl

theorem Page.content_setMark (p : Page) (tag : Nat) (m : Bool) (f : Field) :
    (p.setMark tag m).content f = p.content f := rfl

/-- R3: a content written to a field is padded to its length. -/
theorem Page.content_setContent_padded (p : Page) (f : Field) (text : List Byte) :
    (p.setContent f text).content f = padded f.len text := by
  refine Page.content_eq _ _ _ (padded_length _ _) fun k hk => ?_
  show (Sparse.read Cell.blank k (writeContent p.cells f text)).ch = _
  rw [read_writeContent, if_pos hk]
  rfl

theorem Page.fields_setMark (p : Page) (tag : Nat) (m : Bool) :
    (p.setMark tag m).fields = p.fields.map fun g => if g.tag = tag then { g with mark := m } else g := by
  simp [Page.setMark, Page.mapFields]

/-- Settles O25: PUT and PUT-NEXT put their text into the field they name, which holds or writes it. -/
theorem putIsHeldOrWritten : Obligations.PutIsHeldOrWritten := by
  intro v role f text o ho hl
  have happly : v.apply role o
      = { v with station := v.station.put role f text, context := { v.context with nextField := some f.start } } := by
    rcases ho with ⟨rfl, hf⟩ | ⟨rfl, hf⟩ <;> simp only [FormView.apply, hf, FormView.atField_some]
  rw [happly]
  refine ⟨rfl, fun hr hb hh => ?held, fun hw => ?written⟩
  case held =>
    subst hr
    rw [← padded_of_le (n := f.len) hl]
    exact Station.put_held text hb hh
  case written =>
    dsimp only
    rw [Station.put_written text hw, Station.page_withPage]
    refine ⟨?_, fun k hk => Page.cell_setContent _ f text k hk, rfl, Page.fields_setMark _ _ _⟩
    rw [Page.content_setMark, Page.content_setContent_padded, padded_of_le hl]

end Sys2Proof.Machine
end
section
/-! PROOFS. CLEAR (R14, R45, R79). -/

namespace Sys2Proof.Machine

/-! ### The blanking of the OPEN-ENTRY fields (R45, R79) -/

theorem Page.mem_openFields {p : Page} {f : Field} : f ∈ p.openFields ↔ f ∈ p.fields ∧ f.protection = .openEntry := by
  simp [Page.openFields, Field.isOpen]

/-- R45: a cell outside every OPEN-ENTRY field stays. -/
theorem Page.cell_blankOpen_outside {p : Page} {k : Nat} (h : ∀ f ∈ p.openFields, f.covers k = false) :
    p.blankOpen.cell k = p.cell k := read_foldContent_outside p.openFields (fun _ => []) p.cells k h

/-- R45: an OPEN-ENTRY field's content becomes all blanks. -/
theorem Page.content_blankOpen_open {p : Page} (hp : p.Lawful) {f : Field} (hf : f ∈ p.fields)
    (ho : f.protection = .openEntry) : p.blankOpen.content f = List.replicate f.len 0x20 := by
  refine Page.content_eq _ _ _ (List.length_replicate ..) fun k hk => ?_
  have hpw : p.openFields.Pairwise fun f g => f.start + f.len ≤ g.start := hp.2.1.filter _
  have hin := read_foldContent_inside p.openFields (fun _ => []) p.cells hpw f (Page.mem_openFields.mpr ⟨hf, ho⟩) k hk
  rw [padded_of_le (Nat.zero_le _), List.nil_append] at hin
  exact congrArg Cell.ch hin

/-- R45: a PROTECTED field keeps its content. -/
theorem Page.content_blankOpen_guarded {p : Page} (hp : p.Lawful) {f : Field} (hf : f ∈ p.fields)
    (hg : f.protection = .guarded) : p.blankOpen.content f = p.content f := by
  refine Page.content_congr fun k hk => Page.cell_blankOpen_outside fun g hgo => ?_
  obtain ⟨hgm, ho⟩ := Page.mem_openFields.mp hgo
  rw [Bool.eq_false_iff]
  intro hc
  rw [hp.covers_inj hf hgm hk hc, ho] at hg
  simp at hg

/-- R45: an OPEN-ENTRY field's mark is cleared. -/
theorem Page.mem_blankOpen_open {p : Page} {f : Field} (hf : f ∈ p.fields) (ho : f.protection = .openEntry) :
    { f with mark := false } ∈ p.blankOpen.fields :=
  List.mem_map.mpr ⟨f, hf, if_pos (by simp [Field.isOpen, ho])⟩

/-- R45: a PROTECTED field's record stays. -/
theorem Page.mem_blankOpen_guarded {p : Page} {f : Field} (hf : f ∈ p.fields) (hg : f.protection = .guarded) :
    f ∈ p.blankOpen.fields :=
  List.mem_map.mpr ⟨f, hf, if_neg (by simp [Field.isOpen, hg])⟩

/-! ### Fields that a promotion reaches or passes over (R13) -/

/-- R13: a field that a promotion does not reach keeps its record. -/
theorem Page.mem_promote_kept {p : Page} {hit : Field → Bool} {f : Field} (hf : f ∈ p.fields)
    (h : f.shadow = none ∨ hit f = false) : f ∈ (p.promote hit).fields := by
  refine List.mem_map.mpr ⟨f, hf, if_neg ?_⟩
  rcases h with h | h <;> simp [h]

/-- R13: a field that a promotion does not reach keeps its content. -/
theorem Page.content_promote_kept {p : Page} (hp : p.Lawful) {hit : Field → Bool} {f : Field} (hf : f ∈ p.fields)
    (h : f.shadow = none ∨ hit f = false) : (p.promote hit).content f = p.content f := by
  refine Page.content_congr fun k hk => Page.cell_promote_outside p hit k fun g hg => ?_
  obtain ⟨hgm, hs, hh⟩ := mem_promoted.mp hg
  rw [Bool.eq_false_iff]
  intro hc
  obtain rfl := hp.covers_inj hf hgm hk hc
  rcases h with h | h
  · simp [h] at hs
  · simp [h] at hh

/-- R13: a field that a promotion reaches has a clear mark and no shadow. -/
theorem Page.mem_promote_taken {p : Page} {hit : Field → Bool} {f : Field} (hf : f ∈ p.fields)
    (hs : f.shadow.isSome = true) (hh : hit f = true) :
    { f with shadow := none, mark := false } ∈ (p.promote hit).fields :=
  List.mem_map.mpr ⟨f, hf, if_pos (by simp [hs, hh])⟩

/-! ### CLEAR (R14, R45) -/

/-- R14, R45: FRONT after CLEAR: its OPEN-ENTRY fields blanked, then the fields released from hand promoted. -/
theorem Station.front_blankOpenFront (t : Station) :
    t.blankOpenFront.front = t.front.blankOpen.promote fun f => !t.front.blankOpen.inHand f := rfl

section
variable {t : Station} {f : Field}

/-- R45: on FRONT the field without a shadow, or with the cursor in it, ends blank. -/
theorem blankOpenFront_blank (ht : t.FormLawful) (hf : f ∈ t.front.fields) (ho : f.protection = .openEntry)
    (h : f.shadow = none ∨ f.covers t.front.cursor = true) :
    t.blankOpenFront.front.content f = List.replicate f.len 0x20
      ∧ { f with mark := false } ∈ t.blankOpenFront.front.fields := by
  have hm := Page.mem_blankOpen_open hf ho
  have hkept : f.shadow = none ∨ (!t.front.blankOpen.inHand { f with mark := false }) = false :=
    h.imp_right fun hc => by
      have hin : t.front.blankOpen.inHand { f with mark := false } = true := Bool.or_eq_true_iff.mpr (.inl hc)
      rw [hin]
      rfl
  rw [Station.front_blankOpenFront]
  refine ⟨?_, Page.mem_promote_kept hm hkept⟩
  exact (Page.content_promote_kept ht.1.blankOpen hm hkept).trans (Page.content_blankOpen_open (f := f) ht.1 hf ho)

/-- R14, R45: on FRONT the field released from hand ends with its pending shadow. -/
theorem blankOpenFront_promoted (ht : t.FormLawful) (hf : f ∈ t.front.fields) (ho : f.protection = .openEntry)
    (hc : f.covers t.front.cursor = false) {text : List Byte} (hs : f.shadow = some text) :
    t.blankOpenFront.front.content f = text
      ∧ { f with mark := false, shadow := none } ∈ t.blankOpenFront.front.fields := by
  obtain ⟨hfront, -, -, -, hshadow, -⟩ := ht
  obtain ⟨-, -, hl⟩ := hshadow f hf text hs
  have hm := Page.mem_blankOpen_open hf ho
  have hout : (!t.front.blankOpen.inHand { f with mark := false }) = true := by
    have hin : t.front.blankOpen.inHand { f with mark := false } = false := Bool.or_eq_false_iff.mpr ⟨hc, rfl⟩
    rw [hin]
    rfl
  rw [Station.front_blankOpenFront]
  refine ⟨?_, Page.mem_promote_taken (f := { f with mark := false }) hm (by simp [hs]) hout⟩
  exact Page.content_promote (f := { f with mark := false }) hfront.blankOpen hm hs hout hl

/-- R12, R45: on FRONT a PROTECTED field stays: with a pending shadow it is in hand. -/
theorem blankOpenFront_guarded (ht : t.FormLawful) (hf : f ∈ t.front.fields) (hg : f.protection = .guarded) :
    t.blankOpenFront.front.content f = t.front.content f ∧ f ∈ t.blankOpenFront.front.fields := by
  obtain ⟨hfront, -, -, -, hshadow, -⟩ := ht
  have hm := Page.mem_blankOpen_guarded hf hg
  have hkept : f.shadow = none ∨ (!t.front.blankOpen.inHand f) = false := by
    cases hs : f.shadow with
    | none => exact .inl rfl
    | some text =>
      obtain ⟨-, hin, -⟩ := hshadow f hf text hs
      exact .inr (by rw [Bool.not_eq_false']; exact hin)
  rw [Station.front_blankOpenFront]
  refine ⟨?_, Page.mem_promote_kept hm hkept⟩
  exact (Page.content_promote_kept hfront.blankOpen hm hkept).trans (Page.content_blankOpen_guarded hfront hf hg)

/-- R45: on FRONT a cell outside every field stays. -/
theorem blankOpenFront_outside {k : Nat} (h : t.front.fieldAt k = none) :
    t.blankOpenFront.front.cell k = t.front.cell k := by
  rw [Station.front_blankOpenFront, Page.cell_promote_outside, Page.cell_blankOpen_outside]
  · exact fun g hg => Page.fieldAt_none h (Page.openFields_mem hg)
  · intro g hg
    obtain ⟨hm, -⟩ := mem_promoted.mp hg
    obtain ⟨f, hf, he, -⟩ := mem_map_marks (hit := Field.isOpen) hm
    rw [he]
    exact Page.fieldAt_none (f := f) h hf

end

/-- Settles O27: BACK is blanked alone; on FRONT the promotion that follows reaches a field exactly when it is released
from hand. -/
theorem clearBlanksTheOpenEntryFields : Obligations.ClearBlanksTheOpenEntryFields := by
  intro v ht
  have hback : v.station.back.Lawful := ht.2.1
  refine ⟨fun role f hf ho => ⟨fun hb => ?blank, fun hr hc text hs => ?promoted⟩, fun role f hf hg => ?guarded,
    fun role k hk => ?outside⟩
  case blank =>
    cases role with
    | front => exact blankOpenFront_blank ht hf ho (by simpa using hb)
    | back => exact ⟨Page.content_blankOpen_open hback hf ho, Page.mem_blankOpen_open hf ho⟩
  case promoted =>
    subst hr
    exact blankOpenFront_promoted ht hf ho hc hs
  case guarded =>
    cases role with
    | front => exact blankOpenFront_guarded ht hf hg
    | back => exact ⟨Page.content_blankOpen_guarded hback hf hg, Page.mem_blankOpen_guarded hf hg⟩
  case outside =>
    cases role with
    | front => exact blankOpenFront_outside hk
    | back => exact Page.cell_blankOpen_outside fun g hg => Page.fieldAt_none hk (Page.openFields_mem hg)

end Sys2Proof.Machine
end
section
/-! PROOFS. What the orders of a FORM message change of their target page and of the station (R13, R16, R19, R26, R35
to R45). -/

namespace Sys2Proof.Machine

/-! ### LIT (R37) -/

/-- R37: the cells after LIT. -/
theorem Page.cell_lit (p : Page) (pos : Nat) (e : Emphasis) (text : List Byte) (k : Nat) :
    (p.lit pos e text).cell k =
      if h : pos ≤ k ∧ k < pos + text.length then ⟨text[k - pos]'(by omega), e⟩ else p.cell k := by
  show Sparse.read Cell.blank k (Sparse.writeAll Cell.blank pos (text.map fun ch => ⟨ch, e⟩) p.cells) = _
  rw [Sparse.read_writeAll, List.length_map]
  by_cases h : pos ≤ k ∧ k < pos + text.length
  · have hk : k - pos < text.length := by omega
    rw [if_pos h, dif_pos h]
    simp [hk]
  · rw [if_neg h, dif_neg h]
    rfl

/-! ### What an order leaves of its station (R16, R19) -/

/-- The orders that write to their page or its records without a promotion. -/
def Order.writes : Order → Bool
  | .erase | .lit _ _ | .define _ | .drop _ | .mark _ | .put _ _ | .putNext _ => true
  | _ => false

/-- R14, R43, R45, R46: the orders that can promote. -/
def Order.promotes : Order → Bool
  | .clear | .showShadow _ | .cursorTag _ _ | .cursorIndex _ => true
  | _ => false

/-- R47, R18: only RELEASE and FLIP are noted. -/
theorem FormView.apply_notes (v : FormView) (role : Role) {o : Order} (h : o.writes = true ∨ o.promotes = true) :
    (v.apply role o).released = v.released ∧ (v.apply role o).flipped = v.flipped := by
  cases o with
  | erase | lit | define | clear | cursorIndex => exact ⟨rfl, rfl⟩
  | drop | put | putNext | showShadow | mark | cursorTag => exact FormView.atField_notes _ _ _
  | setPosition | release | sound | note | flip => simp [Order.writes, Order.promotes] at h

/-- R19: only BACK differs. -/
def Station.BackOnly (t t' : Station) : Prop := t' = { t with back := t'.back }

/-- R16, R19: only FRONT and the dirty set differ, and cursor-pending is set if the station cursor does. -/
def Station.FrontOnly (t t' : Station) : Prop :=
  t' = { t with
    front := t'.front
    display := { t.display with
      dirty := t'.display.dirty
      cursorPending := if t'.front.cursor = t.front.cursor then t.display.cursorPending else true } }

theorem Station.BackOnly.refl (t : Station) : t.BackOnly t := rfl

/-- A change of FRONT and the dirty set that leaves the cursor. -/
theorem Station.FrontOnly.of_cursor {t t' : Station}
    (h : t' = { t with front := t'.front, display := { t.display with dirty := t'.display.dirty } })
    (hc : t'.front.cursor = t.front.cursor) : t.FrontOnly t' := by
  unfold Station.FrontOnly
  rw [if_pos hc]
  exact h

/-- A change of FRONT and the dirty set that moves the cursor. -/
theorem Station.FrontOnly.of_moved {t t' : Station}
    (h : t' = { t with
      front := t'.front, display := { t.display with dirty := t'.display.dirty, cursorPending := true } })
    (hc : t'.front.cursor ≠ t.front.cursor) : t.FrontOnly t' := by
  unfold Station.FrontOnly
  rw [if_neg hc]
  exact h

theorem Station.FrontOnly.refl (t : Station) : t.FrontOnly t := .of_cursor rfl rfl

theorem Station.FrontOnly.withFront (t : Station) {p : Page} (hc : p.cursor = t.front.cursor) :
    t.FrontOnly (t.withFront p) := .of_cursor rfl hc

theorem Station.FrontOnly.promote (t : Station) (hit : Field → Bool) : t.FrontOnly (t.promote hit) :=
  .of_cursor rfl rfl

/-- R16: ERASE sets the cursor to 0. -/
theorem Station.FrontOnly.erase (t : Station) : t.FrontOnly (t.erase .front) := by
  by_cases h : t.front.cursor = 0
  · refine .of_cursor ?_ h.symm
    simp [Station.erase, Station.withFront, Station.repainted, Station.joinDirty, h]
  · refine .of_moved ?_ (Ne.symm h)
    simp [Station.erase, Station.withFront, Station.repainted, Station.joinDirty, h]

/-- R16: a move that takes place sets cursor-pending. -/
theorem Station.FrontOnly.moveCursor (t : Station) (dest : Nat) : t.FrontOnly (t.moveCursor dest) := by
  by_cases h : dest = t.front.cursor
  · subst h
    rw [Station.moveCursor_same]
    exact .refl t
  · rw [Station.moveCursor_other h]
    exact .of_moved rfl h

theorem Station.FrontOnly.put (t : Station) (f : Field) (text : List Byte) : t.FrontOnly (t.put .front f text) := by
  unfold Station.put
  split
  · exact .of_cursor rfl rfl
  · exact .withFront t rfl

theorem Station.BackOnly.put (t : Station) (f : Field) (text : List Byte) : t.BackOnly (t.put .back f text) := by
  unfold Station.put
  split
  · rename_i h; simp at h
  · rfl

/-- R19: an order for BACK changes only BACK. -/
theorem FormView.backOnly_apply (v : FormView) {o : Order} (h : o.writes = true ∨ o.promotes = true) :
    v.station.BackOnly (v.apply .back o).station := by
  have named := fun target act (ha : ∀ f : Field, v.station.BackOnly (act v.station f)) =>
    FormView.atField_keeps v.station.BackOnly v target act (.refl _) ha
  cases o with
  | erase | lit | define | clear | cursorIndex => rfl
  | put tag text => exact named _ _ fun f => .put _ f text
  | putNext text => exact named _ _ fun f => .put _ f text
  | drop | showShadow | mark | cursorTag => exact named _ _ fun _ => rfl
  | setPosition | release | sound | note | flip => simp [Order.writes, Order.promotes] at h

/-- R16, R19: an order for FRONT changes FRONT, the dirty set and cursor-pending. -/
theorem FormView.frontOnly_apply (v : FormView) {o : Order} (h : o.writes = true ∨ o.promotes = true) :
    v.station.FrontOnly (v.apply .front o).station := by
  have named := fun target act (ha : ∀ f : Field, v.station.FrontOnly (act v.station f)) =>
    FormView.atField_keeps v.station.FrontOnly v target act (.refl _) ha
  cases o with
  | erase => exact .erase _
  | lit | define => exact .withFront _ rfl
  | drop | mark => exact named _ _ fun _ => .withFront _ rfl
  | put tag text => exact named _ _ fun f => .put _ f text
  | putNext text => exact named _ _ fun f => .put _ f text
  | showShadow => exact named _ _ fun _ => .promote _ _
  | clear => exact .of_cursor rfl rfl
  | cursorTag => exact named _ _ fun _ => .moveCursor _ _
  | cursorIndex => exact .moveCursor _ _
  | setPosition | release | sound | note | flip => simp [Order.writes, Order.promotes] at h

/-! ### What joins the dirty set (R13, R19) -/

/-- R19: exactly the cells whose appearance changes join the dirty set. -/
def Station.Paints (t t' : Station) : Prop :=
  ∀ k, k < 1600 → (k ∈ t'.display.dirty ↔ k ∈ t.display.dirty ∨ t.shown k ≠ t'.shown k)

theorem Station.Paints.of_shown {t t' : Station} (hd : t'.display.dirty = t.display.dirty)
    (hs : ∀ k, t'.shown k = t.shown k) : t.Paints t' := by
  intro k _
  simp [hd, hs]

theorem Station.Paints.refl (t : Station) : t.Paints t := .of_shown rfl fun _ => rfl

theorem Station.Paints.withFront (t : Station) (p : Page) : t.Paints (t.withFront p) :=
  fun _ hk => t.mem_dirty_withFront p hk

theorem Station.Paints.erase (t : Station) : t.Paints (t.erase .front) := Station.Paints.withFront t Page.reset

/-- R12: a shadow shows nothing. -/
theorem Station.Paints.put (t : Station) (f : Field) (text : List Byte) : t.Paints (t.put .front f text) := by
  unfold Station.put
  split
  · exact .of_shown rfl fun k => Page.shown_mapFields t.front _ (fun g => { g with shadow := some (padded f.len text) })
      (fun _ => rfl) (fun _ => rfl) (fun _ => rfl) (fun _ => rfl) t.highlight k
  · exact .withFront t _

/-- R19: an order that writes to FRONT adds exactly the cells whose appearance it changes. -/
theorem FormView.paints_apply (v : FormView) {o : Order} (h : o.writes = true) :
    v.station.Paints (v.apply .front o).station := by
  have named := fun target act (ha : ∀ f : Field, v.station.Paints (act v.station f)) =>
    FormView.atField_keeps v.station.Paints v target act (.refl _) ha
  cases o with
  | erase => exact .erase _
  | lit | define => exact .withFront _ _
  | drop | mark => exact named _ _ fun _ => .withFront _ _
  | put tag text => exact named _ _ fun f => .put _ f text
  | putNext text => exact named _ _ fun f => .put _ f text
  | setPosition | showShadow | clear | cursorTag | cursorIndex | release | sound | note | flip =>
    simp [Order.writes] at h

/-- R13, R19: exactly the cells whose appearance changes and the cells of the fields whose shadows are gone join the
dirty set. -/
def Station.PaintsPromoting (t t' : Station) : Prop :=
  ∀ k, k < 1600 → (k ∈ t'.display.dirty ↔ k ∈ t.display.dirty ∨ t.shown k ≠ t'.shown k
    ∨ ∃ f ∈ t.front.fields, f.covers k = true ∧ f.shadow.isSome = true
      ∧ ∃ g ∈ t'.front.fields, g.tag = f.tag ∧ g.shadow = none)

/-- Where nothing changes, no shadow is gone. -/
theorem Station.PaintsPromoting.refl {t : Station} (ht : t.front.Lawful) : t.PaintsPromoting t := by
  intro k _
  have hno : ¬ ∃ f ∈ t.front.fields, f.covers k = true ∧ f.shadow.isSome = true
      ∧ ∃ g ∈ t.front.fields, g.tag = f.tag ∧ g.shadow = none := by
    rintro ⟨f, hf, -, hs, g, hg, htag, hn⟩
    rw [ht.tag_inj hf hg htag] at hn
    simp [hn] at hs
  simp [hno]

/-- Each field of a page comes from one of another page with its tag, its cells and its shadow. -/
def Page.SameShadows (p q : Page) : Prop :=
  ∀ f ∈ q.fields, ∃ g ∈ p.fields, g.tag = f.tag ∧ g.shadow = f.shadow ∧ ∀ k, g.covers k = f.covers k

theorem Page.SameShadows.of_fields {p q : Page} (h : q.fields = p.fields) : p.SameShadows q :=
  fun f hf => ⟨f, h ▸ hf, rfl, rfl, fun _ => rfl⟩

theorem Page.SameShadows.blankOpen (p : Page) : p.SameShadows p.blankOpen := by
  intro f hf
  obtain ⟨g, hg, he, -⟩ := mem_map_marks (hit := Field.isOpen) hf
  rw [he]
  exact ⟨g, hg, rfl, rfl, fun _ => rfl⟩

/-- R13: after a change that keeps the shadows, and then a promotion, a shadow is gone exactly where the promotion
reached it. -/
theorem Page.SameShadows.promoted_iff {p q : Page} (hp : p.Lawful) (h : p.SameShadows q) (hit : Field → Bool)
    (k : Nat) :
    (∃ f ∈ promoted hit q, f.covers k = true) ↔
      ∃ f ∈ p.fields, f.covers k = true ∧ f.shadow.isSome = true
        ∧ ∃ g ∈ (q.promote hit).fields, g.tag = f.tag ∧ g.shadow = none := by
  constructor
  · rintro ⟨f, hf, hk⟩
    obtain ⟨hm, hs, hh⟩ := mem_promoted.mp hf
    obtain ⟨g, hg, htag, hsh, hcov⟩ := h f hm
    exact ⟨g, hg, (hcov k).trans hk, by rw [hsh]; exact hs, _, Page.mem_promote_taken hm hs hh, htag.symm, rfl⟩
  · rintro ⟨f, hf, hk, hs, g, hg, htag, hn⟩
    rw [Page.fields_promote] at hg
    obtain ⟨q₁, hq₁, rfl⟩ := List.mem_map.mp hg
    obtain ⟨f₁, hf₁, htag₁, hsh₁, hcov₁⟩ := h q₁ hq₁
    by_cases hc : q₁.shadow.isSome = true ∧ hit q₁ = true
    · rw [if_pos hc] at htag
      obtain rfl := hp.tag_inj hf hf₁ (htag₁.trans htag)
      exact ⟨q₁, mem_promoted.mpr ⟨hq₁, hc⟩, (hcov₁ k).symm.trans hk⟩
    · rw [if_neg hc] at htag hn
      obtain rfl := hp.tag_inj hf hf₁ (htag₁.trans htag)
      rw [hsh₁, hn] at hs
      simp at hs

/-- R13, R19: a repainting that keeps the shadows, and then a promotion. -/
theorem Station.PaintsPromoting.promote {t w : Station} (ht : t.front.Lawful) (hw : t.Paints w)
    (hs : t.front.SameShadows w.front) (hit : Field → Bool) : t.PaintsPromoting (w.promote hit) := by
  intro k hk
  have hprom := hs.promoted_iff ht hit k
  have hfront : (w.promote hit).front = w.front.promote hit := rfl
  rw [Station.mem_dirty_promote w hit hk, hw k hk, hfront, ← hprom, or_assoc]
  by_cases hc : ∃ f ∈ promoted hit w.front, f.covers k = true
  · simp [hc]
  · have hsame : (w.promote hit).shown k = w.shown k :=
      Page.shown_promote_outside w.front hit w.highlight k
        fun f hf => Bool.eq_false_iff.mpr fun hcov => hc ⟨f, hf, hcov⟩
    rw [hsame]

theorem Station.PaintsPromoting.moveCursor {t : Station} (ht : t.front.Lawful) (dest : Nat) :
    t.PaintsPromoting (t.moveCursor dest) := by
  by_cases h : dest = t.front.cursor
  · subst h
    rw [Station.moveCursor_same]
    exact .refl ht
  · rw [Station.moveCursor_other h]
    exact .promote ht (.of_shown rfl fun _ => rfl) (.of_fields rfl) _

/-- R13, R19: SHOW, CLEAR and CURSOR add the cells whose appearance they change and those of the fields they promote. -/
theorem FormView.paintsPromoting_apply (v : FormView) (ht : v.station.front.Lawful) {o : Order}
    (h : o.promotes = true) : v.station.PaintsPromoting (v.apply .front o).station := by
  have named := fun target act (ha : ∀ f : Field, v.station.PaintsPromoting (act v.station f)) =>
    FormView.atField_keeps v.station.PaintsPromoting v target act (.refl ht) ha
  cases o with
  | clear => exact .promote ht (.withFront _ _) (.blankOpen _) _
  | showShadow => exact named _ _ fun _ => .promote ht (.refl _) (.of_fields rfl) _
  | cursorTag => exact named _ _ fun _ => .moveCursor ht _
  | cursorIndex => exact .moveCursor ht _
  | erase | setPosition | lit | define | drop | put | putNext | mark | release | sound | note | flip =>
    simp [Order.promotes] at h

/-- Settles O24: each order's page and context, then what every order leaves of its station and what it paints. -/
theorem ordersChangeTheirTargetPage : Obligations.OrdersChangeTheirTargetPage := by
  intro v role
  refine ⟨fun k => rfl, ⟨?erase, rfl⟩, fun e text => ⟨rfl, ?lit⟩, fun d => ⟨Station.page_withPage _ _ _, rfl⟩,
    fun f hf => ?named, fun o ho => ?frame, fun o ho => ?paints, fun ht o ho => ?promotes⟩
  case erase => cases role <;> rfl
  case lit =>
    simp only [FormView.apply, Station.page_withPage]
    exact ⟨Page.cell_lit _ _ e text, rfl, rfl⟩
  case named =>
    simp only [FormView.apply, hf, FormView.atField_some, Station.page_withPage, true_and, and_true]
    rw [← Page.fields_setMark]
    rfl
  case frame =>
    have hw : o.writes = true ∨ o.promotes = true := by
      rcases ho with rfl | ⟨_, _, rfl⟩ | ⟨_, rfl⟩ | ⟨_, rfl⟩ | ⟨_, rfl⟩ | rfl | ⟨_, _, rfl⟩ | ⟨_, rfl⟩ | ⟨_, rfl⟩
        | ⟨_, _, rfl⟩ | ⟨_, rfl⟩ <;> simp [Order.writes, Order.promotes]
    refine ⟨?_, ?_, v.apply_notes role hw⟩
    · rintro rfl
      exact v.backOnly_apply hw
    · rintro rfl
      exact v.frontOnly_apply hw
  case paints =>
    refine v.paints_apply ?_
    rcases ho with rfl | ⟨_, _, rfl⟩ | ⟨_, rfl⟩ | ⟨_, rfl⟩ | ⟨_, rfl⟩ | ⟨_, _, rfl⟩ | ⟨_, rfl⟩ <;> rfl
  case promotes =>
    refine v.paintsPromoting_apply ht.1 ?_
    rcases ho with rfl | ⟨_, rfl⟩ | ⟨_, _, rfl⟩ | ⟨_, rfl⟩ <;> rfl

end Sys2Proof.Machine
end
section
/-! PROOFS. FORM messages: the orders decoded as they are encoded (11.3, R200), a message applied or refused whole
(R27 to R33, R51, R200), and the tests of each order (R30, R32, R35 to R50). -/

namespace Sys2Proof.Machine

/-! ### Orders decoded as they are encoded (11.3, R200) -/

/-- 11.3: a LIT whose emphasis and text can be decoded. -/
theorem decodeOrder_lit {b : Byte} {e : Emphasis} {bytes text rest : List Byte} (he : emphasisOf b = some e)
    (ht : takeText bytes = some (text, rest)) (hn : text ≠ []) :
    decodeOrder (0x03 :: b :: bytes) = some (.lit e text, rest) := by
  simp [decodeOrder, he, ht, hn]

/-- 11.3: a PUT whose text can be decoded. -/
theorem decodeOrder_put {b : Byte} {bytes text rest : List Byte} (ht : takeText bytes = some (text, rest)) :
    decodeOrder (0x06 :: b :: bytes) = some (.put b.toNat text, rest) := by
  simp [decodeOrder, ht]

/-- 11.3: a PUT-NEXT whose text can be decoded. -/
theorem decodeOrder_putNext {bytes text rest : List Byte} (ht : takeText bytes = some (text, rest)) :
    decodeOrder (0x07 :: bytes) = some (.putNext text, rest) := by
  simp [decodeOrder, ht]

/-- 11.3: a NOTE whose text can be decoded. -/
theorem decodeOrder_note {bytes text rest : List Byte} (ht : takeText bytes = some (text, rest)) :
    decodeOrder (0x0E :: bytes) = some (.note text, rest) := by
  simp [decodeOrder, ht]

/-- 11.3: what the DEF flags byte says of protection and buffering. -/
theorem protection_of_flag (p : Protection) :
    (if decide (p = .openEntry) = true then Protection.openEntry else .guarded) = p := by
  cases p <;> rfl

theorem buffering_of_flag (b : Buffering) :
    (if decide (b = .shadowed) = true then Buffering.shadowed else .single) = b := by
  cases b <;> rfl

section
variable {tag s1 s0 len cls flags emph : Byte} {c : FieldClass} {e : Emphasis} (hc : classOf cls = some c)
  (he : emphasisOf emph = some e) (hu : flags.toNat < 32)
include hc he hu

/-- 11.3: the operands of a DEF without a range. -/
theorem decodeDef_plain (hg : flags.getLsbD 4 = false) (rest : List Byte) :
    decodeDef (tag :: s1 :: s0 :: len :: cls :: flags :: emph :: rest)
      = some (.define ⟨tag.toNat, beValue [s1, s0], len.toNat, c, if flags.getLsbD 0 then .openEntry else .guarded,
          flags.getLsbD 1, flags.getLsbD 2, if flags.getLsbD 3 then .shadowed else .single, e, none⟩, rest) := by
  simp only [decodeDef, hc, he, ge_iff_le, Nat.not_le.mpr hu, if_false, hg, Bool.false_eq_true]

/-- 11.3: the operands of a DEF with a range. -/
theorem decodeDef_ranged (hg : flags.getLsbD 4 = true) (a3 a2 a1 a0 b3 b2 b1 b0 : Byte) (rest : List Byte) :
    decodeDef (tag :: s1 :: s0 :: len :: cls :: flags :: emph :: a3 :: a2 :: a1 :: a0 :: b3 :: b2 :: b1 :: b0 :: rest)
      = some (.define ⟨tag.toNat, beValue [s1, s0], len.toNat, c, if flags.getLsbD 0 then .openEntry else .guarded,
          flags.getLsbD 1, flags.getLsbD 2, if flags.getLsbD 3 then .shadowed else .single, e,
          some (beValue [a3, a2, a1, a0], beValue [b3, b2, b1, b0])⟩, rest) := by
  simp only [decodeDef, hc, he, ge_iff_le, Nat.not_le.mpr hu, if_false, hg, if_true]

end

/-- 11.3: the operands of a DEF are decoded as they are encoded. -/
theorem decodeDef_operands (d : DefOperands) (rest : List Byte) (h : (Order.define d).encodable = true) :
    decodeDef (orderOperands (.define d) ++ rest) = some (.define d, rest) := by
  obtain ⟨tag, start, len, cls, prot, req, skip, buf, emph, range⟩ := d
  simp only [Order.encodable, Bool.and_eq_true, decide_eq_true_eq] at h
  obtain ⟨⟨⟨htag, hstart⟩, hlen⟩, hbounds⟩ := h
  have hs : beValue (beBytes 2 start) = start := beValue_beBytes_two start hstart
  obtain ⟨hprot, hreq, hskip, hbuf, hrange, hupper⟩ := defFlags_bits prot req skip buf range.isSome
  have hc := classOf_classByte cls
  have he := emphasisOf_emphasisByte emph
  cases range with
  | none =>
    refine (decodeDef_plain hc he hupper hrange rest).trans ?_
    rw [hprot, hreq, hskip, hbuf, byteOf_toNat tag htag, byteOf_toNat len hlen, protection_of_flag, buffering_of_flag]
    show some (Order.define ⟨tag, beValue (beBytes 2 start), len, cls, prot, req, skip, buf, emph, none⟩, rest) = _
    rw [hs]
  | some bounds =>
    obtain ⟨lo, hi⟩ := bounds
    simp only [Bool.and_eq_true, decide_eq_true_eq] at hbounds
    have hlo : beValue (beBytes 4 lo) = lo := beValue_beBytes_four lo hbounds.1
    have hhi : beValue (beBytes 4 hi) = hi := beValue_beBytes_four hi hbounds.2
    refine (decodeDef_ranged hc he hupper hrange _ _ _ _ _ _ _ _ rest).trans ?_
    rw [hprot, hreq, hskip, hbuf, byteOf_toNat tag htag, byteOf_toNat len hlen, protection_of_flag, buffering_of_flag]
    show some (Order.define ⟨tag, beValue (beBytes 2 start), len, cls, prot, req, skip, buf, emph,
      some (beValue (beBytes 4 lo), beValue (beBytes 4 hi))⟩, rest) = _
    rw [hs, hlo, hhi]

/-- 11.3, R200: an order whose operands its encoding can carry is decoded as it is encoded. -/
theorem decodeOrder_encodeOrder (o : Order) (rest : List Byte) (h : o.encodable = true) :
    decodeOrder (encodeOrder o ++ rest) = some (o, rest) := by
  cases o with
  | erase | clear | release | sound | flip => rfl
  | setPosition k =>
    have hk : k < 65536 := of_decide_eq_true h
    have hd : decodeOrder (encodeOrder (.setPosition k) ++ rest)
        = some (.setPosition (beValue (beBytes 2 k)), rest) := rfl
    rw [hd, beValue_beBytes_two k hk]
  | cursorIndex k =>
    have hk : k < 65536 := of_decide_eq_true h
    have hd : decodeOrder (encodeOrder (.cursorIndex k) ++ rest)
        = some (.cursorIndex (beValue (beBytes 2 k)), rest) := rfl
    rw [hd, beValue_beBytes_two k hk]
  | lit e text =>
    simp only [Order.encodable, Bool.and_eq_true, decide_eq_true_eq] at h
    exact decodeOrder_lit (emphasisOf_emphasisByte e) (takeText_textBytes text rest h.2)
      (List.ne_nil_of_length_pos h.1)
  | define d => exact decodeDef_operands d rest h
  | drop tag =>
    have hd : decodeOrder (encodeOrder (.drop tag) ++ rest) = some (.drop (byteOf tag).toNat, rest) := rfl
    rw [hd, byteOf_toNat tag (of_decide_eq_true h)]
  | showShadow tag =>
    have hd : decodeOrder (encodeOrder (.showShadow tag) ++ rest) = some (.showShadow (byteOf tag).toNat, rest) := rfl
    rw [hd, byteOf_toNat tag (of_decide_eq_true h)]
  | mark tag =>
    have hd : decodeOrder (encodeOrder (.mark tag) ++ rest) = some (.mark (byteOf tag).toNat, rest) := rfl
    rw [hd, byteOf_toNat tag (of_decide_eq_true h)]
  | cursorTag tag offset =>
    simp only [Order.encodable, Bool.and_eq_true, decide_eq_true_eq] at h
    have hd : decodeOrder (encodeOrder (.cursorTag tag offset) ++ rest)
        = some (.cursorTag (byteOf tag).toNat (byteOf offset).toNat, rest) := rfl
    rw [hd, byteOf_toNat tag h.1, byteOf_toNat offset h.2]
  | put tag text =>
    simp only [Order.encodable, Bool.and_eq_true, decide_eq_true_eq] at h
    have hd := decodeOrder_put (b := byteOf tag) (takeText_textBytes text rest h.2)
    rwa [byteOf_toNat tag h.1] at hd
  | putNext text => exact decodeOrder_putNext (takeText_textBytes text rest (of_decide_eq_true h))
  | note text => exact decodeOrder_note (takeText_textBytes text rest (of_decide_eq_true h))

/-- R32: the orders of a list that passes can all be encoded. -/
theorem OrdersPass.encodable {t : Station} {role : Role} {orders : List Order} (h : OrdersPass t role orders) :
    ∀ o ∈ orders, o.encodable = true := by
  intro o ho
  obtain ⟨k, hk⟩ := List.mem_iff_getElem?.mp ho
  exact (h k o hk).1

/-- 11.3: orders that can be encoded are decoded one by one, whatever follows each. -/
theorem decodable_of_encodable {orders : List Order} (h : ∀ o ∈ orders, o.encodable = true) :
    ∀ o ∈ orders, ∀ rest, decodeOrder (encodeOrder o ++ rest) = some (o, rest) :=
  fun o ho rest => decodeOrder_encodeOrder o rest (h o ho)

/-! ### The message level (R27 to R29, R200) -/

/-- R28: the head of a body whose count is from 1 to 128. -/
theorem formHead_formBody {role : Role} {count : Nat} {orders : List Order} {more : List Byte} (h1 : 1 ≤ count)
    (h2 : count ≤ 128) :
    formHead (formBody role count orders ++ more) = some (role, count, orders.flatMap encodeOrder ++ more) := by
  have hcount : (byteOf count).toNat = count := byteOf_toNat count (by omega)
  simp only [formBody, List.cons_append, List.nil_append, formHead, roleOf_roleByte, hcount, h1, h2, and_self, if_true]

theorem roleOf_eq_none {b : Byte} (h : 1 < b.toNat) : roleOf b = none := by
  unfold roleOf
  split
  · omega
  · omega
  · rfl

/-- R28, R200: a body below 2 bytes, an unknown role, a count of 0 or above 128. -/
theorem formHead_eq_none {body : List Byte} (h : body.length < 2
    ∨ ∃ r c more, body = r :: c :: more ∧ (1 < r.toNat ∨ c.toNat = 0 ∨ 128 < c.toNat)) : formHead body = none := by
  rcases h with hshort | ⟨r, c, more, rfl, hrole | hcount⟩
  · match body, hshort with
    | [], _ => rfl
    | [_], _ => rfl
    | _ :: _ :: _, hshort => simp at hshort
  · simp only [formHead, roleOf_eq_none hrole]
  · have hno : ¬ (1 ≤ c.toNat ∧ c.toNat ≤ 128) := by omega
    cases hr : roleOf r with
    | none => simp only [formHead, hr]
    | some role => simp only [formHead, hr, hno, if_false]

/-- R27: what the check of a body answers, by its head and the check for a held attention. -/
theorem formResult_headless {t : Station} {isHeld : Bool} {body : List Byte} (h : formHead body = none) :
    formResult t isHeld body = .error (.badOrder, 0) := by
  simp only [formResult, h]

theorem formResult_held {t : Station} {isHeld : Bool} {body bytes : List Byte} {role : Role} {count : Nat}
    {e : Reason × Nat} (h : formHead body = some (role, count, bytes))
    (hh : heldFault isHeld role count bytes = some e) : formResult t isHeld body = .error e := by
  simp only [formResult, h, hh]

theorem formResult_orders {t : Station} {isHeld : Bool} {body bytes : List Byte} {role : Role} {count : Nat}
    (h : formHead body = some (role, count, bytes)) (hh : heldFault isHeld role count bytes = none) :
    formResult t isHeld body = runOrders t role count 1 bytes (FormView.start t) := by
  simp only [formResult, h, hh]

section
variable {s : State} {f : Frame} {i : StationNo} (hg : s.UnderGrant f i) (hk : f.kind = 0x41)
include hg hk

/-- R27: a FORM under its grant is the message. -/
theorem exec_form_underGrant : exec .form s = .next (s.formMessage f i) := by
  obtain ⟨hi, hs, hh⟩ := hg
  have hin : s.inHandOf kindForm = some f := by rw [State.inHandOf_handling hi]; exact if_pos hk
  have hgr : s.granted i = true := by simp [State.granted, hh]
  show execForm s = _
  simp only [execForm, hin, hs, hgr, if_true]

/-- R27, R51: a refused message changes nothing but the request in hand. -/
theorem exec_form_refused {r : Reason} {index : Nat}
    (he : formResult (s.st i) (s.isHeld i) f.body = .error (r, index)) :
    exec .form s = .next { s with interp := .replying ⟨0x41, f.station, r, index, []⟩ (some i) none none } := by
  rw [exec_form_underGrant hg hk, State.formMessage, he, ← hk]
  rfl

/-- R27, R51: a message that passes puts its station in place. -/
theorem exec_form_done {v : FormView} (he : formResult (s.st i) (s.isHeld i) f.body = .ok v) :
    exec .form s = .next { s.setSt i v.finish with
      interp := .replying ⟨0x41, f.station, .none, 0, []⟩ (some i) none (some v.context) } := by
  rw [exec_form_underGrant hg hk, State.formMessage, he, ← hk]

end

/-- R27: a FORM that names no station is refused before any grant. -/
theorem exec_form_badStation {s : State} {f : Frame} (hi : s.interp = .handling f) (hk : f.kind = 0x41)
    (hs : stationOf f.station = none) :
    exec .form s = .next { s with interp := .replying ⟨0x41, f.station, .badStation, 0, []⟩ none none none } := by
  have hin : s.inHandOf kindForm = some f := by rw [State.inHandOf_handling hi]; exact if_pos hk
  show execForm s = _
  simp only [execForm, hin, hs, State.refuse, State.answer, hk]

/-! ### The order-by-order check (R32, R33) -/

/-- R32, R33: the orders that pass are applied from the message's start, and the check goes on behind them. -/
theorem runOrders_after {t : Station} {role : Role} {orders : List Order} (h : OrdersPass t role orders) (n : Nat)
    (more : List Byte) (hmore : n = 0 → more = []) :
    runOrders t role (orders.length + n) 1 (orders.flatMap encodeOrder ++ more) (FormView.start t)
      = runOrders t role n (orders.length + 1) more (FormView.after t role orders) := by
  rw [runOrders_encoded t role orders more n 1 (FormView.start t) (decodable_of_encodable h.encodable)
    (fun k o hk => (h k o hk).2) hmore, Nat.add_comm 1]
  rfl

/-- R32, tests 2 to 4: an order that fails refuses the message. -/
theorem runOrders_faulty {t : Station} {role : Role} {v : FormView} {o : Order} {rest : List Byte} {r : Reason}
    {n : Nat} (index : Nat) (he : o.encodable = true) (hend : n = 0 → rest = [])
    (hr : orderFault t role v o = some r) :
    runOrders t role (n + 1) index (encodeOrder o ++ rest) v = .error (r, index) := by
  rw [runOrders, nextOrder_encode _ o rest (decodeOrder_encodeOrder o rest he) fun h => hend (of_decide_eq_true h)]
  simp only [hr]

/-- R32, test 1, R200: an order that cannot be decoded, or is the last and leaves bytes over, refuses the message. -/
theorem runOrders_undecodable {t : Station} {role : Role} {v : FormView} {more : List Byte} {n : Nat} (index : Nat)
    (h : decodeOrder more = none ∨ ∃ o rest, n = 0 ∧ decodeOrder more = some (o, rest) ∧ rest ≠ []) :
    runOrders t role (n + 1) index more v = .error (.badOrder, index) := by
  have hnone : nextOrder (decide (n = 0)) more = none := by
    rcases h with h | ⟨o, rest, rfl, h, hrest⟩
    · simp only [nextOrder, h]
    · simp [nextOrder, h, hrest]
  rw [runOrders, hnone]

/-- R29: at a station without a held attention nothing is checked for it. -/
theorem heldFault_free (role : Role) (count : Nat) (bytes : List Byte) : heldFault false role count bytes = none := rfl

theorem heldFault_back (count : Nat) (bytes : List Byte) : heldFault true .back count bytes = heldScan count 1 bytes :=
  rfl

/-- R29: a held attention lets a BACK message through whose orders hold no FLIP and no RELEASE. -/
theorem heldFault_encoded {isHeld : Bool} {role : Role} {orders : List Order} (he : ∀ o ∈ orders, o.encodable = true)
    (h : isHeld = true → role = .back ∧ ∀ o ∈ orders, o.opensForm = false) :
    heldFault isHeld role orders.length (orders.flatMap encodeOrder) = none := by
  cases isHeld with
  | false => rfl
  | true =>
    obtain ⟨rfl, hno⟩ := h rfl
    exact heldScan_passes orders 1 (decodable_of_encodable he) hno

/-! ### A message whole (R27, R33, R51) -/

/-- Settles O20: the check runs through all orders to the view they leave. -/
theorem formAppliesAllItsOrders : Obligations.FormAppliesAllItsOrders := by
  intro s f i role orders hg hk hbody h1 h2 hpass hheld
  have hhead : formHead f.body = some (role, orders.length, orders.flatMap encodeOrder) := by
    rw [hbody]
    simpa using formHead_formBody (role := role) (orders := orders) (more := []) h1 h2
  have hrun := runOrders_after hpass 0 [] fun _ => rfl
  rw [List.append_nil, Nat.add_zero] at hrun
  exact exec_form_done hg hk
    ((formResult_orders hhead (heldFault_encoded hpass.encodable hheld)).trans hrun)

/-- R32: at a station without a held attention, the check goes on behind the orders that pass. -/
theorem formResult_free {t : Station} {isHeld : Bool} {body more : List Byte} {role : Role} {count n : Nat}
    {orders : List Order} (hheld : isHeld = false) (hbody : body = formBody role count orders ++ more)
    (h2 : count ≤ 128) (hpass : OrdersPass t role orders) (hn : count = orders.length + (n + 1)) :
    formResult t isHeld body
      = runOrders t role (n + 1) (orders.length + 1) more (FormView.after t role orders) := by
  subst hheld hbody
  rw [formResult_orders (formHead_formBody (by omega) h2) (heldFault_free _ _ _), hn,
    runOrders_after hpass (n + 1) more (by simp)]

/-- R29: at a station with a held attention, a BACK message is refused where the scan behind orders that are no FLIP and
no RELEASE stops. -/
theorem formResult_scanned {t : Station} {isHeld : Bool} {body more : List Byte} {count n : Nat} {before : List Order}
    {r : Reason} (hheld : isHeld = true) (hbody : body = formBody .back count before ++ more) (h2 : count ≤ 128)
    (hb : ∀ p ∈ before, p.encodable = true ∧ p.opensForm = false) (hn : count = before.length + (n + 1))
    (hscan : heldScan (n + 1) (before.length + 1) more = some (r, before.length + 1)) :
    formResult t isHeld body = .error (r, before.length + 1) := by
  subst hheld hbody
  refine formResult_held (formHead_formBody (by omega) h2) ?_
  rw [heldFault_back, hn, heldScan_append before more (n + 1) 1 (decodable_of_encodable fun o ho => (hb o ho).1)
    (fun o ho => (hb o ho).2) (by simp), Nat.add_comm 1]
  exact hscan

/-- R29: a FLIP or a RELEASE can be encoded. -/
theorem Order.encodable_of_opensForm {o : Order} (h : o.opensForm = true) : o.encodable = true := by
  cases o with
  | flip | release => rfl
  | _ => cases h

/-- Settles O21: by the head of the body, the check for a held attention, and the check of the order that fails. -/
theorem formIsRefusedWithItsReason : Obligations.FormIsRefusedWithItsReason := by
  refine ⟨fun s f i role count orders more hg hk hbody h1 h2 hheld hpass => ?free, fun s f hi hk =>
    ⟨exec_form_badStation hi hk, fun i hg => ⟨fun hhead => ?headless, fun hheld c more hbody h1 h2 => ?heldFront,
      fun hheld before count more hb hlt h2 hbody => ?heldBack,
      fun hheld before o after r hall hlen hbody hpass hr => ?heldFaulty⟩⟩⟩
  case free =>
    have hrun {n : Nat} (hn : count = orders.length + (n + 1)) := formResult_free hheld hbody h2 hpass hn
    refine ⟨fun o rest r hlt hmore he hend hr => ?faulty, fun hlt hd => ?undecodable,
      fun o rest hlast hmore he hrest => ?leftOver⟩
    case faulty =>
      obtain ⟨n, hn⟩ := Nat.exists_eq_add_of_lt hlt
      refine exec_form_refused hg hk ((hrun hn).trans ?_)
      rw [hmore]
      exact runOrders_faulty _ he (fun h0 => hend (by omega)) hr
    case undecodable =>
      obtain ⟨n, hn⟩ := Nat.exists_eq_add_of_lt hlt
      exact exec_form_refused hg hk ((hrun hn).trans (runOrders_undecodable _ (.inl hd)))
    case leftOver =>
      refine exec_form_refused hg hk ((hrun hlast.symm).trans (runOrders_undecodable _ ?_))
      refine .inr ⟨o, rest, rfl, ?_, hrest⟩
      rw [hmore]
      exact decodeOrder_encodeOrder o rest he
  case headless => exact exec_form_refused hg hk (formResult_headless (formHead_eq_none hhead))
  case heldFront =>
    have hhead : formHead f.body = some (.front, c.toNat, more) := by
      rw [hbody]
      exact if_pos ⟨h1, h2⟩
    refine exec_form_refused hg hk (formResult_held hhead ?_)
    rw [hheld]
    rfl
  case heldBack =>
    obtain ⟨n, hn⟩ := Nat.exists_eq_add_of_lt hlt
    refine ⟨fun o rest ho hmore hend => ?opens, fun hbad => ?undecodable⟩
    case opens =>
      refine exec_form_refused hg hk (formResult_scanned hheld hbody h2 hb hn ?_)
      rw [hmore]
      exact heldScan_stops o rest _ _ (decodeOrder_encodeOrder o rest (Order.encodable_of_opensForm ho)) ho
        fun h0 => hend (by omega)
    case undecodable =>
      refine exec_form_refused hg hk (formResult_scanned hheld hbody h2 hb hn (heldScan_undecodable more _ _ ?_))
      refine hbad.imp_right ?_
      rintro ⟨o, rest, hlast, he, rfl, hrest⟩
      exact ⟨o, rest, by omega, decodeOrder_encodeOrder o rest he, hrest⟩
  case heldFaulty =>
    have hhead : formHead f.body
        = some (.back, (before ++ o :: after).length, (before ++ o :: after).flatMap encodeOrder) := by
      rw [hbody]
      simpa using formHead_formBody (role := .back) (orders := before ++ o :: after) (more := []) (by simp; omega) hlen
    have hpassed : heldFault (s.isHeld i) .back _ _ = none :=
      heldFault_encoded (fun p hp => (hall p hp).1) fun _ => ⟨rfl, fun p hp => (hall p hp).2⟩
    refine exec_form_refused hg hk ((formResult_orders hhead hpassed).trans ?_)
    have hrun := runOrders_after hpass (after.length + 1) (encodeOrder o ++ after.flatMap encodeOrder) (by simp)
    rw [List.flatMap_append, List.flatMap_cons, List.length_append, List.length_cons, hrun]
    refine runOrders_faulty _ (hall o (by simp)).1 (fun h0 => ?_) hr
    rw [List.eq_nil_of_length_eq_zero h0]
    rfl

end Sys2Proof.Machine
end
section
/-! PROOFS. The tests of an order: the acceptance table and the FLIP rule (R30, R32), its own checks (R35 to R50). -/

namespace Sys2Proof.Machine

/-! ### The acceptance table and the FLIP rule (R30, R32) -/

theorem consulted_front (o : Order) : consulted .front o = true := by
  cases o <;> rfl

/-- R30: the orders of a BACK message that are within the table's reach. -/
theorem consulted_back_iff {o : Order} :
    consulted .back o = true ↔ o = .release ∨ o = .sound ∨ o = .flip ∨ ∃ text, o = .note text := by
  cases o <;> simp [consulted]

theorem mayFollowFlip_iff {o : Order} :
    mayFollowFlip o = true ↔ o = .release ∨ o = .sound ∨ ∃ text, o = .note text := by
  cases o <;> simp [mayFollowFlip]

section
variable {t : Station} {role : Role} {v : FormView} {o : Order}

/-- R30: an order within the table's reach whose entry is REFUSE. -/
theorem bars_of_refuse (hc : consulted role o = true)
    (h : t.acceptance.toList[acceptanceIndex (orderCode o) t.engine.kb]? = some false) : t.bars role o = true := by
  simp only [Station.bars, hc, List.getD, h, Option.getD_some, Bool.not_false, Bool.and_self]

/-- R30: an order whose entry is ACCEPT. -/
theorem bars_of_accept (h : t.acceptance.toList[acceptanceIndex (orderCode o) t.engine.kb]? = some true) :
    t.bars role o = false := by
  simp only [Station.bars, List.getD, h, Option.getD_some, Bool.not_true, Bool.and_false]

/-- R30: an order that the table does not reach. -/
theorem bars_of_not_consulted (hc : consulted role o = false) : t.bars role o = false := by
  simp only [Station.bars, hc, Bool.false_and]

/-- R32, test 2. -/
theorem orderFault_barred (hb : t.bars role o = true) : orderFault t role v o = some .barred := if_pos hb

/-- R32, test 3. -/
theorem orderFault_afterFlip (hb : t.bars role o = false) (hv : v.flipped = true) (hm : mayFollowFlip o = false) :
    orderFault t role v o = some .badOrder := by
  simp only [orderFault, hb, hv, hm, Bool.false_eq_true, if_false, Bool.not_false, Bool.and_self, if_true]

/-- R32, test 4. -/
theorem orderFault_own (hb : t.bars role o = false) (h : v.flipped = false ∨ mayFollowFlip o = true) :
    orderFault t role v o = ownFault (v.station.page role) v.context o := by
  have hno : (v.flipped && !mayFollowFlip o) = false := by
    rcases h with h | h <;> simp [h]
  simp only [orderFault, hb, hno, Bool.false_eq_true, if_false]

end

/-! ### The own checks (R35 to R50) -/

/-- A text that is not all printable has a character outside the printable codes. -/
theorem not_printable_iff {text : List Byte} :
    (!text.all isPrintable) = true ↔ ∃ ch ∈ text, ¬ (0x20 ≤ ch.toNat ∧ ch.toNat ≤ 0x7E) := by
  simp [isPrintable]

/-- R37, test 3: a stretch with a cell that a field holds. -/
theorem any_fieldAt_iff {p : Page} {pos n : Nat} :
    ((List.range n).any fun k => (p.fieldAt (pos + k)).isSome) = true
      ↔ ∃ k < n, (p.fieldAt (pos + k)).isSome = true := by
  simp only [List.any_eq_true, List.mem_range]

/-- R6: a tag that no field of a page has. -/
theorem Page.fieldOf_eq_none {p : Page} {tag : Nat} (h : ∀ g ∈ p.fields, g.tag ≠ tag) : p.fieldOf tag = none :=
  List.find?_eq_none.mpr fun g hg => by simpa using h g hg

theorem tagFault_missing {p : Page} {tag : Nat} (check : Field → Option Reason) (h : p.fieldOf tag = none) :
    tagFault p tag check = some .noSuchTag := by
  simp only [tagFault, h]

theorem tagFault_found {p : Page} {tag : Nat} {f : Field} (check : Field → Option Reason) (h : p.fieldOf tag = some f) :
    tagFault p tag check = check f := by
  simp only [tagFault, h]

/-- R41, R42: the checks of a text against its field. -/
theorem putFault_eq (f : Field) (text : List Byte) :
    putFault f text = if ∃ ch ∈ text, ¬ (0x20 ≤ ch.toNat ∧ ch.toNat ≤ 0x7E) then some .badOrder
      else if f.len < text.length then some .tooLong else none := by
  simp only [putFault, not_printable_iff]

/-- Settles O22: the order's place against the table's reach and the FLIP rule, then its own checks one by one. -/
theorem ordersAreTestedInSequence : Obligations.OrdersAreTestedInSequence := by
  refine ⟨fun t role v o => ⟨fun hreach hentry => ?barred, fun hentry => ⟨fun hv hr hs hn => ?afterFlip, fun h => ?own⟩,
      fun hrole hr hs hf hn hv => ?unreached⟩, fun p c => ?checks⟩
  case barred =>
    refine orderFault_barred (bars_of_refuse ?_ hentry)
    cases role with
    | front => exact consulted_front o
    | back => exact consulted_back_iff.mpr (hreach.resolve_left (by simp))
  case afterFlip =>
    refine orderFault_afterFlip (bars_of_accept hentry) hv ?_
    rw [Bool.eq_false_iff, ne_eq, mayFollowFlip_iff]
    rintro (h | h | ⟨text, h⟩)
    · exact hr h
    · exact hs h
    · exact hn text h
  case own => exact orderFault_own (bars_of_accept hentry) (h.imp_right mayFollowFlip_iff.mpr)
  case unreached =>
    subst hrole
    refine orderFault_own (bars_of_not_consulted ?_) (.inl hv)
    rw [Bool.eq_false_iff, ne_eq, consulted_back_iff]
    rintro (h | h | h | ⟨text, h⟩)
    · exact hr h
    · exact hs h
    · exact hf h
    · exact hn text h
  case checks =>
    refine ⟨fun k => rfl, fun e text => ?lit, fun tag ht => ?missing, fun f hf => ?found, fun text hn => ?noNext,
      fun f text hn => ?next, fun k => rfl, fun text => ?note, rfl, rfl, rfl, rfl, rfl⟩
    case lit =>
      simp only [ownFault, litFault, not_printable_iff, any_fieldAt_iff]
      rfl
    case missing =>
      have hnone := Page.fieldOf_eq_none ht
      exact ⟨fun _ => tagFault_missing _ hnone, tagFault_missing _ hnone, tagFault_missing _ hnone,
        tagFault_missing _ hnone, fun _ => tagFault_missing _ hnone⟩
    case found =>
      exact ⟨tagFault_found _ hf, tagFault_found _ hf, tagFault_found _ hf, fun _ => tagFault_found _ hf,
        fun text => (tagFault_found _ hf).trans (putFault_eq f text)⟩
    case noNext => simp only [ownFault, hn]
    case next =>
      simp only [ownFault, hn]
      exact putFault_eq f text
    case note => simp only [ownFault, not_printable_iff]

end Sys2Proof.Machine
end
section
/-! PROOFS. Events taken by the keyboard state (R59 to R61), the lock (R55, R56, R67), attention keys (R81, R100 to R112),
event frames (R57 to R59, R143 to R146). -/

namespace Sys2Proof.Machine

/-! ### Taking an event (R59 to R61) -/

/-- R60: the engine holds the grant for an event: EVENT_TAKEN takes one, or nothing. -/
theorem exec_eventTaken {s : State} {i : StationNo} (hg : (s.st i).grant.holder = some .engine)
    (ht : (s.st i).engine.taken = none) (hs : s.service ≠ some i) :
    exec (.eventTaken i) s = .next (s.setSt i (s.st i).takeEvent) :=
  if_pos (by simp [State.engineGranted, hg, ht, hs])

/-- R60: WAITING, or an empty queue. -/
theorem Station.takeEvent_nothing {t : Station} (h : t.engine.kb = .waiting ∨ t.engine.queue = []) :
    t.takeEvent = t.finishEvent := by
  unfold Station.takeEvent
  split
  · rfl
  · rfl
  · next hk hq => simp [hk, hq] at h
  · next hk hq => simp [hk, hq] at h

section

variable {t : Station} {e : Event} {rest : List Event} (hq : t.engine.queue = e :: rest)

include hq

/-- R61: an event taken in OPEN stays in hand, and so does a RESET taken in LOCKED. -/
theorem Station.takeEvent_inHand (h : t.engine.kb = .opened ∨ (t.engine.kb = .locked ∧ e = .key .reset)) :
    t.takeEvent = { t with engine := { t.engine.withQueue rest with taken := some e } } := by
  rcases h with hk | ⟨hk, rfl⟩ <;> simp [Station.takeEvent, hk, hq]

/-- R61: any other event taken in LOCKED is discarded. -/
theorem Station.takeEvent_discarded (hk : t.engine.kb = .locked) (he : e ≠ .key .reset) :
    t.takeEvent = Station.finishEvent (Station.discardLocked { t with engine := t.engine.withQueue rest }) := by
  simp [Station.takeEvent, hk, hq, he]

end

/-- Settles O43: the grant leads to `takeEvent`, whose answer turns on the keyboard state and the head event. -/
theorem eventsAreTakenByKeyboardState : Obligations.EventsAreTakenByKeyboardState := by
  rintro s i t rfl hs hg ht
  rw [exec_eventTaken hg ht hs]
  refine ⟨fun h => ?nothing, fun e rest hq h => ?inHand, fun e rest hq hk he => ?discarded⟩
  case nothing => rw [Station.takeEvent_nothing h]
  case inHand => rw [Station.takeEvent_inHand hq h]; rfl
  case discarded => rw [Station.takeEvent_discarded hq hk he]; rfl

/-! ### The lock (R55, R56, R67) -/

/-- R55: what entering LOCKED changes. -/
theorem Station.enterLocked_eq (t : Station) (code : LockCode) (tag : Option Nat) :
    t.enterLocked code tag = { t with
      engine := { t.engine with
        kb := .locked, lockCode := code, lockTag := tag, queue := [], pacing := false
        lockedDiscards := min 65535 (t.engine.lockedDiscards + t.engine.queue.length) }
      display := { t.display with
        dirty := (t.enterLocked code tag).display.dirty
        indicatorPending := true
        soundPending := t.display.soundPending || t.engine.soundOnLock } } := rfl

/-- Settles O44: entering a lock by its equation, leaving it by whether the keyboard is OPEN. -/
theorem lockIsEnteredAndLeft : Obligations.LockIsEnteredAndLeft := fun t =>
  ⟨Station.enterLocked_eq t, fun _ _ => rfl, Station.openKeyboard_opened, Station.openKeyboard_other⟩

/-! ### Attention keys (R81, R100 to R112) -/

/-- R61: the key in hand while its event is under treatment. -/
theorem State.Treating.keyInHand {s : State} {i : StationNo} {k : Key} (h : s.Treating i (.key k)) :
    (s.st i).keyInHand = some k := by
  obtain ⟨hk, ht, hg⟩ := h
  simp [Station.keyInHand, hk, ht, hg]

/-- R100: an attention key under treatment goes to the Entry Composer, and the event completes. -/
theorem State.Treating.treatAttention {s : State} {i : StationNo} {k : Key} (h : s.Treating i (.key k))
    (kind : Attention) : s.treatAttention i k kind
      = (s.attention i kind false).setSt i ((s.attention i kind false).st i).finishEvent := if_pos h.keyInHand

/-- R100: the command of an attention key treats the key in hand. -/
theorem exec_keyPf {s : State} {i : StationNo} {n : Fin 8} (h : s.Treating i (.key (.pf n))) :
    exec (.keyPf i) s = .next (s.treatAttention i (.pf n) (.pf n)) := by
  show execKeyPf i s = _
  simp only [execKeyPf, h.keyInHand]

/-- R104, R105, 11.4: the bytes of a record by the attention's kind. -/
theorem Page.recordBytes_eq (p : Page) (i : StationNo) (kind : Attention) (byScan : Bool) :
    p.recordBytes i kind byScan =
      (match kind with | .enter => [0x01] | .cancel => [0x02] | .pf n => [0x11 + byteOf n.val])
      ++ [stationByte i, byteOf (p.cursor / 80), byteOf (p.cursor % 80)]
      ++ (if kind = .enter
        then [byteOf (p.fields.filter Field.mark).length, flagByte byScan]
          ++ (p.fields.filter Field.mark).flatMap fun f => [byteOf f.tag, byteOf (p.valueOf f).length] ++ p.valueOf f
        else [0, flagByte byScan]) := by
  cases kind <;> rfl

/-- Settles O49: each command hands its key to the composer; the record's bytes by the kind. -/
theorem attentionKeysAreComposed : Obligations.AttentionKeysAreComposed := by
  refine fun s i => ⟨fun c key kind hc h => ⟨s.attention i kind false, s.attention_leaves i kind false, ?_⟩,
    fun p => p.recordBytes_eq i⟩
  rw [← h.treatAttention kind]
  simp only [List.mem_cons, Prod.mk.injEq, List.not_mem_nil, or_false] at hc
  rcases hc with (⟨rfl, rfl, rfl⟩ | ⟨rfl, rfl, rfl⟩) | ⟨n, rfl, rfl, rfl⟩
  · rfl
  · rfl
  · exact exec_keyPf h

/-! ### Event frames (R57 to R59, R143 to R146) -/

/-- R145: a usable KEY frame is an event. -/
theorem classify_key {item code : Byte} {k : Key} (h : keyOf code = some k) :
    classify ⟨kindKey, item, [code]⟩ = .event (.key k) := by
  simp [classify, keyEvent, h]

/-- R145: a usable SCAN frame is an event. -/
theorem classify_scan {item sym : Byte} {data : List Byte} (h1 : 1 ≤ sym.toNat) (h2 : sym.toNat ≤ 15)
    (h3 : 1 ≤ data.length) (h4 : data.length ≤ 40) :
    classify ⟨kindScan, item, sym :: data⟩ = .event (.scan sym.toNat data) := by
  show scanEvent (sym :: data) = _
  exact if_pos ⟨h1, h2, h3, h4⟩

/-- R60: the request that an engine with events waiting raises. -/
theorem Station.raiseEvent_queued {t : Station} (h : t.engine.queue ≠ []) :
    t.raiseEvent = { t with
      grant := if t.engine.kb ≠ .waiting ∧ t.grant.engineWaits = false ∧ t.grant.holder ≠ some .engine
        then t.grant.raise .engine else t.grant } := by
  unfold Station.raiseEvent
  simp only [h, ne_eq, not_false_eq_true, true_and]
  split <;> rfl

/-- R57, R58: an event delivered to a queue with room, and to a full one. -/
theorem State.deliverEvent_room {s : State} {i : StationNo} {e : Event} (h : (s.st i).engine.queue.length < 32) :
    s.deliverEvent i e = s.setSt i (Station.raiseEvent { s.st i with
      engine := (s.st i).engine.withQueue ((s.st i).engine.queue ++ [e]) }) := if_pos h

theorem State.deliverEvent_full {s : State} {i : StationNo} {e : Event} (h : 32 ≤ (s.st i).engine.queue.length) :
    s.deliverEvent i e = { s.setSt i { s.st i with
        engine := (s.st i).engine.countOverflow, display := (s.st i).display.requestSound } with
      notices := s.notices.raiseOverflow i } := if_neg (Nat.not_lt.mpr h)

/-- Settles O51: the frame is heard and classified as its event, which finds room in the queue or a full one. -/
theorem eventFramesJoinTheQueueOrOverflow : Obligations.EventFramesJoinTheQueueOrOverflow := by
  rintro s i c e t hline rfl hc
  have hexec : exec c s = .next ((s.setSt i (s.st i).heard).deliverEvent i e) := by
    rcases hc with ⟨item, code, k, rfl, hk, rfl⟩ | ⟨item, sym, data, rfl, h1, h2, h3, h4, rfl⟩
    · show Host.Outcome.next (s.upstream i (frameBytes kindKey item [code])) = _
      rw [State.upstream_frameBytes s i _ _ _ hline (by simp), classify_key hk]
      rfl
    · show Host.Outcome.next (s.upstream i (frameBytes kindScan item (sym :: data))) = _
      rw [State.upstream_frameBytes s i _ _ _ hline (by simp; omega), classify_scan h1 h2 h3 h4]
      rfl
  rw [hexec]
  refine ⟨fun hroom => ?room, fun hfull => ?full⟩
  case room =>
    rw [State.deliverEvent_room (by simpa using hroom), Station.raiseEvent_queued (by simp [Engine.withQueue])]
    simp only [State.st_setSt_self, State.setSt_setSt, Engine.withQueue, pacingOf, List.length_append,
      List.length_singleton]
  case full =>
    rw [State.deliverEvent_full (by simpa using hfull), State.st_setSt_self, State.setSt_setSt]
    rfl

end Sys2Proof.Machine
end
section
/-! PROOFS. The exit rules (R63 to R66), and the characters a class accepts (R73). -/

namespace Sys2Proof.Machine

/-! ### Characters -/

theorem isDigit_iff {b : Byte} : isDigit b = true ↔ 0x30 ≤ b.toNat ∧ b.toNat ≤ 0x39 := by simp [isDigit]

theorem isCapital_iff {b : Byte} : isCapital b = true ↔ 0x41 ≤ b.toNat ∧ b.toNat ≤ 0x5A := by simp [isCapital]

theorem isPrintable_iff {b : Byte} : isPrintable b = true ↔ 0x20 ≤ b.toNat ∧ b.toNat ≤ 0x7E := by simp [isPrintable]

theorem raised_eq (b : Byte) : raised b = if 0x61 ≤ b.toNat ∧ b.toNat ≤ 0x7A then b - 0x20 else b := by
  simp [raised, isLower]

/-! ### QTY (R64) -/

/-- R64: all digits, and a value within the range. -/
theorem qtyRule_iff {range : Option (Nat × Nat)} {text : List Byte} : qtyRule range text = true ↔
    (∀ b ∈ text, 0x30 ≤ b.toNat ∧ b.toNat ≤ 0x39)
      ∧ ∀ lo hi, range = some (lo, hi) → lo ≤ decimalValue text ∧ decimalValue text ≤ hi := by
  cases range with
  | none => simp [qtyRule, isDigit_iff]
  | some bounds =>
    obtain ⟨lo, hi⟩ := bounds
    simp [qtyRule, isDigit_iff]

/-! ### BIN (R65) -/

/-- R65: only a text of 7 characters passes. -/
theorem binRule_eq_false {text : List Byte} (h : text.length ≠ 7) : binRule text = false := by
  unfold binRule
  split
  · exact absurd rfl h
  · rfl

theorem exists_of_length_seven : ∀ {text : List Byte}, text.length = 7 → ∃ a b c d e f g, text = [a, b, c, d, e, f, g]
  | [a, b, c, d, e, f, g], _ => ⟨a, b, c, d, e, f, g, rfl⟩

/-- R65: the shape of a bin number, place by place. -/
theorem binRule_iff {text : List Byte} : binRule text = true ↔
    text.length = 7
      ∧ (∀ k b, text[k]? = some b → (k = 0 ∨ k = 1) → 0x41 ≤ b.toNat ∧ b.toNat ≤ 0x5A)
      ∧ (∀ k b, text[k]? = some b → (k = 2 ∨ k = 5) → b = 0x2D)
      ∧ ∀ k b, text[k]? = some b → (k = 3 ∨ k = 4 ∨ k = 6) → 0x30 ≤ b.toNat ∧ b.toNat ≤ 0x39 := by
  by_cases hlen : text.length = 7
  · obtain ⟨a, b, c, d, e, f, g, rfl⟩ := exists_of_length_seven hlen
    simp only [binRule, Bool.and_eq_true, decide_eq_true_eq, isCapital_iff, isDigit_iff]
    constructor
    · rintro ⟨⟨⟨⟨⟨⟨ha, hb⟩, hc⟩, hd⟩, he⟩, hf⟩, hg⟩
      refine ⟨rfl, fun k x hx hk => ?capital, fun k x hx hk => ?dash, fun k x hx hk => ?digit⟩
      case capital => rcases hk with rfl | rfl <;> cases hx <;> assumption
      case dash => rcases hk with rfl | rfl <;> cases hx <;> assumption
      case digit => rcases hk with rfl | rfl | rfl <;> cases hx <;> assumption
    · rintro ⟨-, hcap, hdash, hdig⟩
      exact ⟨⟨⟨⟨⟨⟨hcap 0 a rfl (by simp), hcap 1 b rfl (by simp)⟩, hdash 2 c rfl (by simp)⟩,
        hdig 3 d rfl (by simp)⟩, hdig 4 e rfl (by simp)⟩, hdash 5 f rfl (by simp)⟩, hdig 6 g rfl (by simp)⟩
  · simp [binRule_eq_false hlen, hlen]

/-! ### ITEM (R66) -/

/-- R66: the weights go to and fro between w and 4 − w. -/
theorem weightedSum_eq (w : Nat) (hw : w ≤ 4) (text : List Byte) : weightedSum w text =
    ((List.range text.length).map fun k => charValue (text.getD k 0) * (if k % 2 = 0 then w else 4 - w)).sum := by
  induction text generalizing w with
  | nil => rfl
  | cons b text ih =>
    have hback : 4 - (4 - w) = w := by omega
    have hturn : ∀ k, (if (k + 1) % 2 = 0 then w else 4 - w) = if k % 2 = 0 then 4 - w else w := by
      intro k
      rcases Nat.mod_two_eq_zero_or_one k with hk | hk <;> simp [Nat.add_mod, hk]
    rw [weightedSum, ih (4 - w) (by omega), List.length_cons, List.range_succ_eq_map, hback]
    simp only [List.map_cons, List.map_map, List.sum_cons, Function.comp_def, Nat.succ_eq_add_one, hturn,
      List.getD_cons_zero, List.getD_cons_succ, Nat.zero_mod, if_true]

/-- R66: the value of a digit or capital. -/
theorem charValue_eq {b : Byte} (h : (0x30 ≤ b.toNat ∧ b.toNat ≤ 0x39) ∨ (0x41 ≤ b.toNat ∧ b.toNat ≤ 0x5A)) :
    charValue b = if b.toNat ≤ 0x39 then b.toNat - 0x30 else b.toNat - 0x41 + 10 := by
  have : isDigit b = true ↔ b.toNat ≤ 0x39 := by rw [isDigit_iff]; omega
  simp only [charValue, this]

theorem getD_reverse {text : List Byte} {k : Nat} (h : k < text.length) :
    text.reverse.getD k 0 = text.getD (text.length - 1 - k) 0 := by
  simp [List.getD, List.getElem?_reverse h]

/-- R66: the check digit, summed from the rightmost character on. -/
theorem checkDigit_eq {text : List Byte}
    (h : ∀ b ∈ text, (0x30 ≤ b.toNat ∧ b.toNat ≤ 0x39) ∨ (0x41 ≤ b.toNat ∧ b.toNat ≤ 0x5A)) :
    checkDigit text = (10 - ((List.range text.length).map fun k =>
        (if (text.getD (text.length - 1 - k) 0).toNat ≤ 0x39
          then (text.getD (text.length - 1 - k) 0).toNat - 0x30
          else (text.getD (text.length - 1 - k) 0).toNat - 0x41 + 10)
        * (if k % 2 = 0 then 3 else 1)).sum % 10) % 10 := by
  rw [checkDigit, weightedSum_eq 3 (by omega), List.length_reverse]
  refine congrArg (fun l : List Nat => (10 - l.sum % 10) % 10) (List.map_congr_left fun k hk => ?_)
  have hlt := List.mem_range.mp hk
  have hmem : text.getD (text.length - 1 - k) 0 ∈ text := by
    rw [List.getD_eq_getElem _ _ (by omega)]
    exact List.getElem_mem _
  rw [getD_reverse hlt, charValue_eq (h _ hmem)]

/-- R66: a text with its last character set apart. -/
theorem itemRule_append (before : List Byte) (last : Byte) : itemRule (before ++ [last]) = true ↔
    2 ≤ (before ++ [last]).length
      ∧ (∀ b ∈ before ++ [last], (0x30 ≤ b.toNat ∧ b.toNat ≤ 0x39) ∨ (0x41 ≤ b.toNat ∧ b.toNat ≤ 0x5A))
      ∧ (0x30 ≤ last.toNat ∧ last.toNat ≤ 0x39) ∧ last.toNat - 0x30 = checkDigit before := by
  simp only [itemRule, List.getLast?_concat, List.dropLast_concat, Bool.and_eq_true, Bool.or_eq_true,
    decide_eq_true_eq, List.all_eq_true, isDigit_iff, isCapital_iff, and_assoc]

/-! ### The rule of a field (R63) -/

theorem exitRule_nil (f : Field) : exitRule f [] = true := by simp [exitRule]

section

variable {f : Field} {text : List Byte} (h : text ≠ [])

include h

/-- R63: a text that is not empty has the rule of its class. -/
theorem exitRule_qty (hc : f.cls = .qty) : exitRule f text = qtyRule f.range text := by simp [exitRule, h, hc]

theorem exitRule_bin (hc : f.cls = .bin) : exitRule f text = binRule text := by simp [exitRule, h, hc]

theorem exitRule_item (hc : f.cls = .item) : exitRule f text = itemRule text := by simp [exitRule, h, hc]

end

/-- Settles O45: the empty text, then the rule of each class on a text that is not empty. -/
theorem exitRulesByClass : Obligations.ExitRulesByClass := by
  refine fun f text => ⟨exitRule_nil f, fun hc => ?free, fun hc hne => ?qty, fun hc hne => ?bin, fun hc hne => ?item⟩
  case free => rcases hc with hc | hc <;> simp [exitRule, hc]
  case qty =>
    rw [exitRule_qty hne hc]
    exact qtyRule_iff
  case bin =>
    rw [exitRule_bin hne hc]
    exact binRule_iff
  case item =>
    rw [exitRule_item hne hc]
    obtain ⟨before, last, rfl⟩ := (List.eq_nil_or_concat' text).resolve_left hne
    refine (itemRule_append before last).trans (and_congr_right fun _ => and_congr_right fun hall => ?_)
    rw [checkDigit_eq fun b hb => hall b (List.mem_append_left _ hb)]
    constructor
    · rintro ⟨⟨hlo, hhi⟩, hcheck⟩
      exact ⟨before, last, rfl, hlo, hhi, hcheck⟩
    · rintro ⟨before', last', heq, hlo, hhi, hcheck⟩
      obtain ⟨rfl, hlast⟩ := List.append_inj' heq rfl
      cases hlast
      exact ⟨⟨hlo, hhi⟩, hcheck⟩

end Sys2Proof.Machine
end
section
/-! PROOFS. Cursor keys (R67, R69 to R71). -/

namespace Sys2Proof.Machine

/-! ### The OPEN-ENTRY fields in form order (R70, R71) -/

theorem Field.isOpen_iff {f : Field} : f.isOpen = true ↔ f.protection = .openEntry := by simp [Field.isOpen]

/-- The last field with a property is the first in reverse order. -/
theorem LastField.reverse {fs : List Field} {hit : Field → Prop} {f : Field} (h : LastField fs hit f) :
    FirstField fs.reverse hit f := by
  obtain ⟨before, after, rfl, hf, ha⟩ := h
  exact ⟨after.reverse, before.reverse, by simp, hf, fun g hg => ha g (List.mem_reverse.mp hg)⟩

section

variable {p : Page} {q : Field → Bool}

theorem Page.find?_openFields : p.openFields.find? q = p.fields.find? fun f => f.isOpen && q f := by
  simp [Page.openFields, List.find?_filter]

theorem Page.find?_openFields_reverse :
    p.openFields.reverse.find? q = p.fields.reverse.find? fun f => f.isOpen && q f := by
  simp [Page.openFields, ← List.filter_reverse, List.find?_filter]

/-- A search of the OPEN-ENTRY fields finds the first with the property. -/
theorem Page.find?_openFields_first {hit : Field → Prop} (hq : ∀ g, q g = true ↔ hit g) {f : Field}
    (h : FirstField p.fields (fun g => g.protection = .openEntry ∧ hit g) f) : p.openFields.find? q = some f := by
  rw [Page.find?_openFields]
  exact h.find _ fun g => by rw [Bool.and_eq_true, Field.isOpen_iff, hq]

/-- Searched from the end, it finds the last. -/
theorem Page.find?_openFields_last {hit : Field → Prop} (hq : ∀ g, q g = true ↔ hit g) {f : Field}
    (h : LastField p.fields (fun g => g.protection = .openEntry ∧ hit g) f) : p.openFields.reverse.find? q = some f := by
  rw [Page.find?_openFields_reverse]
  exact h.reverse.find _ fun g => by rw [Bool.and_eq_true, Field.isOpen_iff, hq]

/-- A search fails where no OPEN-ENTRY field has the property. -/
theorem Page.find?_openFields_none (h : ∀ g ∈ p.fields, g.protection = .openEntry → q g = false) :
    p.openFields.find? q = none := by
  refine List.find?_eq_none.mpr fun g hg => ?_
  obtain ⟨hm, ho⟩ := Page.mem_openFields.mp hg
  simp [h g hm ho]

theorem Page.find?_openFields_reverse_none (h : ∀ g ∈ p.fields, g.protection = .openEntry → q g = false) :
    p.openFields.reverse.find? q = none := by
  refine List.find?_eq_none.mpr fun g hg => ?_
  obtain ⟨hm, ho⟩ := Page.mem_openFields.mp (List.mem_reverse.mp hg)
  simp [h g hm ho]

end

/-! ### The destinations (R70, R71) -/

section

variable {p : Page} {c : Nat} {f : Field}

/-- R71: HOME. -/
theorem Page.home_eq (h : FirstField p.fields (fun g => g.protection = .openEntry) f) : p.home = f.start := by
  rw [Page.home, Page.openFields, List.head?_filter, h.find _ fun g => Field.isOpen_iff]
  rfl

/-- R70: TAB, with an OPEN-ENTRY field behind the index and without one. -/
theorem Page.nextOpen_eq (h : FirstField p.fields (fun g => g.protection = .openEntry ∧ c < g.start) f) :
    p.nextOpen c = f.start := by
  rw [Page.nextOpen, Page.find?_openFields_first (fun g => decide_eq_true_iff) h]
  rfl

theorem Page.nextOpen_home (h : ∀ g ∈ p.fields, g.protection = .openEntry → g.start ≤ c) : p.nextOpen c = p.home := by
  rw [Page.nextOpen, Page.find?_openFields_none fun g hg ho => decide_eq_false (Nat.not_lt.mpr (h g hg ho))]
  rfl

/-- R71: NEWLINE, with an OPEN-ENTRY field on a later row and without one. -/
theorem Page.laterRowOpen_eq (h : FirstField p.fields (fun g => g.protection = .openEntry ∧ c / 80 < g.start / 80) f) :
    p.laterRowOpen c = f.start := by
  rw [Page.laterRowOpen, rowCells, Page.find?_openFields_first (fun g => decide_eq_true_iff) h]
  rfl

theorem Page.laterRowOpen_home (h : ∀ g ∈ p.fields, g.protection = .openEntry → g.start / 80 ≤ c / 80) :
    p.laterRowOpen c = p.home := by
  rw [Page.laterRowOpen, rowCells,
    Page.find?_openFields_none fun g hg ho => decide_eq_false (Nat.not_lt.mpr (h g hg ho))]
  rfl

/-- R70: BACKTAB from inside an OPEN-ENTRY field. -/
theorem Page.backOpen_inside (hp : p.Lawful) (hf : f ∈ p.fields) (ho : f.protection = .openEntry)
    (hc : f.covers c = true) (hs : f.start ≠ c) : p.backOpen c = f.start := by
  have hfind : p.openFields.find? (fun g => g.covers c && g.start != c) = some f := by
    cases he : p.openFields.find? fun g => g.covers c && g.start != c with
    | none =>
      have hno := List.find?_eq_none.mp he f (Page.mem_openFields.mpr ⟨hf, ho⟩)
      simp [hc, hs] at hno
    | some g =>
      have hg := List.find?_some he
      rw [Bool.and_eq_true] at hg
      rw [hp.covers_inj (Page.openFields_mem (List.mem_of_find?_eq_some he)) hf hg.1 hc]
  simp only [Page.backOpen, hfind]

section

variable (hout : ∀ g ∈ p.fields, g.protection = .openEntry → g.covers c = true → g.start = c)

include hout

/-- R70: BACKTAB from elsewhere. -/
theorem Page.backOpen_outside : p.backOpen c
    = (((p.openFields.reverse.find? fun f => f.start < c).or p.openFields.getLast?).map Field.start).getD 0 := by
  have hfind : p.openFields.find? (fun g => g.covers c && g.start != c) = none := by
    refine Page.find?_openFields_none fun g hg ho => ?_
    cases hc : g.covers c with
    | false => rfl
    | true => simp [hout g hg ho hc]
  simp only [Page.backOpen, hfind]
  cases p.openFields.reverse.find? fun f => f.start < c <;> rfl

/-- R70: BACKTAB to the last OPEN-ENTRY field before the index. -/
theorem Page.backOpen_before (h : LastField p.fields (fun g => g.protection = .openEntry ∧ g.start < c) f) :
    p.backOpen c = f.start := by
  rw [Page.backOpen_outside hout, Page.find?_openFields_last (fun g => decide_eq_true_iff) h]
  rfl

/-- R70: BACKTAB with no OPEN-ENTRY field before the index. -/
theorem Page.backOpen_around (hnone : ∀ g ∈ p.fields, g.protection = .openEntry → c ≤ g.start) :
    p.backOpen c = ((p.openFields.getLast?).map Field.start).getD 0 := by
  rw [Page.backOpen_outside hout,
    Page.find?_openFields_reverse_none fun g hg ho => decide_eq_false (Nat.not_lt.mpr (hnone g hg ho))]
  rfl

end

theorem Page.getLast?_openFields (h : LastField p.fields (fun g => g.protection = .openEntry) f) :
    p.openFields.getLast? = some f := by
  rw [← List.head?_reverse, Page.openFields, ← List.filter_reverse, List.head?_filter]
  exact h.reverse.find _ fun g => Field.isOpen_iff

/-- R70, R71: a page without OPEN-ENTRY fields. -/
theorem Page.openFields_nil (h : ∀ g ∈ p.fields, g.protection ≠ .openEntry) : p.openFields = [] :=
  List.filter_eq_nil_iff.mpr fun g hg => by rw [Field.isOpen_iff]; exact h g hg

end

/-! ### The cursor keys (R67, R69) -/

/-- R67, R69 to R71: a cursor key under treatment is a key-driven move to its destination. -/
theorem exec_cursorKey {s : State} {i : StationNo} {c : Instr} {key : Key} {dest : Nat}
    (hc : (c, key, dest) ∈ [
      (.keyRight i, .right, ((s.st i).front.cursor + 1) % 1600),
      (.keyLeft i, .left, ((s.st i).front.cursor + 1599) % 1600),
      (.keyDown i, .down, ((s.st i).front.cursor + 80) % 1600),
      (.keyUp i, .up, ((s.st i).front.cursor + 1520) % 1600),
      (.keyTab i, .tab, (s.st i).front.nextOpen (s.st i).front.cursor),
      (.keyBacktab i, .backtab, (s.st i).front.backOpen (s.st i).front.cursor),
      (.keyHome i, .home, (s.st i).front.home),
      (.keyNewline i, .newline, (s.st i).front.laterRowOpen (s.st i).front.cursor)])
    (h : s.Treating i (.key key)) : exec c s = .next (s.setSt i ((s.st i).keyMove dest).finishEvent) := by
  simp only [List.mem_cons, Prod.mk.injEq, List.not_mem_nil, or_false] at hc
  rcases hc with ⟨rfl, rfl, hd⟩ | ⟨rfl, rfl, hd⟩ | ⟨rfl, rfl, hd⟩ | ⟨rfl, rfl, hd⟩ | ⟨rfl, rfl, hd⟩ | ⟨rfl, rfl, hd⟩
    | ⟨rfl, rfl, hd⟩ | ⟨rfl, rfl, hd⟩ <;>
  · rw [hd]
    exact congrArg Host.Outcome.next (h.treat _)

/-- Settles O46: each key by the move it makes, then the destinations one by one. -/
theorem cursorKeysMoveOrLock : Obligations.CursorKeysMoveOrLock := by
  refine ⟨?keys, fun p c hp => ⟨fun f => Page.home_eq, fun f => Page.nextOpen_eq, Page.nextOpen_home,
    fun f => Page.laterRowOpen_eq, Page.laterRowOpen_home, fun f => Page.backOpen_inside hp,
    fun hout => ⟨fun f => Page.backOpen_before hout, fun hnone f hf => ?around⟩, fun hopen => ?empty⟩⟩
  case keys =>
    rintro s i c key dest t rfl - hc h
    rw [exec_cursorKey hc h]
    exact ⟨fun f hf => by rw [Station.keyMove_fails hf], fun hf => by rw [Station.keyMove_passes hf]⟩
  case around =>
    rw [Page.backOpen_around hout hnone, Page.getLast?_openFields hf]
    rfl
  case empty =>
    have hnil := Page.openFields_nil hopen
    simp [Page.home, Page.nextOpen, Page.laterRowOpen, Page.backOpen, hnil]

end Sys2Proof.Machine
end
section
/-! PROOFS. Typing and editing (R67, R72 to R80). -/

namespace Sys2Proof.Machine

/-! ### What a class accepts (R73) -/

/-- R73: BIN and ITEM raise a lower-case letter. -/
theorem raisedFor_eq (cls : FieldClass) (ch : Byte) : raisedFor cls ch =
    if (cls = .bin ∨ cls = .item) ∧ 0x61 ≤ ch.toNat ∧ ch.toNat ≤ 0x7A then ch - 0x20 else ch := by
  cases cls <;> simp [raisedFor, raised_eq]

theorem accepts_text {ch : Byte} : accepts .text ch = true ↔ 0x20 ≤ ch.toNat ∧ ch.toNat ≤ 0x7E := isPrintable_iff

theorem accepts_digits {cls : FieldClass} (h : cls = .digits ∨ cls = .qty) {ch : Byte} :
    accepts cls ch = true ↔ 0x30 ≤ ch.toNat ∧ ch.toNat ≤ 0x39 := by
  rcases h with rfl | rfl <;> exact isDigit_iff

theorem accepts_bin {ch : Byte} : accepts .bin ch = true ↔
    (0x41 ≤ ch.toNat ∧ ch.toNat ≤ 0x5A) ∨ (0x30 ≤ ch.toNat ∧ ch.toNat ≤ 0x39) ∨ ch = 0x2D := by
  simp only [accepts, Bool.or_eq_true, isCapital_iff, isDigit_iff, decide_eq_true_eq, or_assoc]

theorem accepts_item {ch : Byte} : accepts .item ch = true ↔
    (0x41 ≤ ch.toNat ∧ ch.toNat ≤ 0x5A) ∨ (0x30 ≤ ch.toNat ∧ ch.toNat ≤ 0x39) := by
  simp only [accepts, Bool.or_eq_true, isCapital_iff, isDigit_iff]

/-! ### A field's content and the cursor in it (R3, R74 to R78) -/

@[simp] theorem Page.length_content (p : Page) (f : Field) : (p.content f).length = f.len := by simp [Page.content]

/-- R6: the cursor's place in the field that holds it. -/
theorem Page.cursor_in_content {p : Page} {f : Field} (h : p.fieldAt p.cursor = some f) :
    f.start ≤ p.cursor ∧ p.cursor - f.start < (p.content f).length := by
  obtain ⟨hlo, hhi⟩ := Field.covers_iff.mp (Page.fieldAt_covers h)
  rw [Page.length_content]
  omega

/-- R75: the characters behind the place move on, and the last is lost. -/
theorem insertAt_eq {content : List Byte} {k : Nat} (c : Byte) (h : k < content.length) :
    insertAt content k c = content.take k ++ [c] ++ (content.drop k).dropLast := by
  have hne : content.drop k ≠ [] := by simp; omega
  have hlen : content.length = (content.take k ++ c :: content.drop k).length - 1 := by simp; omega
  rw [insertAt, hlen, ← List.dropLast_eq_take, List.dropLast_append_of_ne_nil (by simp),
    List.dropLast_cons_of_ne_nil hne]
  simp

/-- R77: the character at the place is removed. -/
theorem deleteAt_eq (content : List Byte) (k : Nat) : deleteAt content k = content.eraseIdx k ++ [0x20] := by
  rw [deleteAt, List.eraseIdx_eq_take_drop_succ]
  rfl

theorem length_deleteAt {content : List Byte} {k : Nat} (h : k < content.length) :
    (deleteAt content k).length = content.length := by
  simp [deleteAt]
  omega

theorem length_eraseFrom {content : List Byte} {k : Nat} (h : k < content.length) :
    (eraseFrom content k).length = content.length := by
  simp [eraseFrom]
  omega

/-- R75: whether the last cell of a field is blank. -/
theorem last_blank_iff {content : List Byte} (h : content ≠ []) :
    (content.getLastD blank != blank) = false ↔ content.getLast? = some 0x20 := by
  rw [bne_eq_false_iff_eq, List.getLastD_eq_getLast?, List.getLast?_eq_some_getLast h]
  simp [blank]

/-! ### The advance (R76) -/

/-- R70: the destinations depend on the starts of the OPEN-ENTRY fields alone. -/
theorem Page.nextOpen_congr {p p' : Page} (h : p'.openFields.map Field.start = p.openFields.map Field.start) (i : Nat) :
    p'.nextOpen i = p.nextOpen i := by
  have hstarts : ∀ q : Page, q.nextOpen i
      = ((q.openFields.map Field.start).find? fun n => i < n).getD (((q.openFields.map Field.start).head?).getD 0) := by
    intro q
    rw [List.find?_map, List.head?_map]
    rfl
  rw [hstarts, hstarts, h]

theorem Page.openFields_setMark (p : Page) (tag : Nat) (m : Bool) :
    (p.setMark tag m).openFields = p.openFields.map fun f => if f.tag = tag then { f with mark := m } else f := by
  rw [Page.openFields, Page.fields_setMark, List.filter_map]
  congr 1
  refine List.filter_congr fun f _ => ?_
  simp only [Function.comp_apply]
  split <;> rfl

/-- R74 to R76: an edit leaves where the cursor advances to. -/
theorem Page.nextOpen_edit (p : Page) (f : Field) (content : List Byte) (i : Nat) :
    ((p.setContent f content).setMark f.tag true).nextOpen i = p.nextOpen i := by
  refine Page.nextOpen_congr ?_ i
  rw [Page.openFields_setMark, List.map_map]
  refine List.map_congr_left fun g _ => ?_
  simp only [Function.comp_apply]
  split <;> rfl

/-! ### A printable character (R72 to R76) -/

/-- R72: the printable character in hand is treated. -/
theorem exec_keyPrintable {s : State} {i : StationNo} {ch : Byte} (h : s.Treating i (.key (.printable ch))) :
    exec (.keyPrintable i) s = .next (s.setSt i ((s.st i).keyChar ch).finishEvent) := by
  show execKeyPrintable i s = _
  simp only [execKeyPrintable, h.keyInHand, h.treat]

section

variable {t : Station} {ch c : Byte} {f : Field} (hc : c = raisedFor f.cls ch)

include hc

/-- R73: WRONG-CHAR. -/
theorem Station.typeChar_refused (h : accepts f.cls c = false) : t.typeChar ch f = t.enterLocked .wrongChar none := by
  subst hc
  simp [Station.typeChar, h]

/-- R75: NO-ROOM. -/
theorem Station.typeChar_noRoom (h : accepts f.cls c = true) (hi : t.engine.insert = true)
    (hne : t.front.content f ≠ []) (hl : (t.front.content f).getLast? ≠ some 0x20) :
    t.typeChar ch f = t.enterLocked .noRoom none := by
  subst hc
  have hlast := Bool.eq_true_of_not_eq_false fun hb => hl ((last_blank_iff hne).mp hb)
  simp only [Station.typeChar, h, hi, hlast, Bool.not_true, Bool.false_eq_true, if_false, Bool.and_self, if_true]

/-- R74 to R76: the character is placed, and the cursor advances by a key-driven move. -/
theorem Station.typeChar_placed (h : accepts f.cls c = true) (hne : t.front.content f ≠ [])
    (hroom : t.engine.insert = false ∨ (t.front.content f).getLast? = some 0x20) :
    t.typeChar ch f = (t.editField f (if t.engine.insert then insertAt (t.front.content f) (t.front.cursor - f.start) c
        else overwriteAt (t.front.content f) (t.front.cursor - f.start) c)).keyMove
      (if t.front.cursor + 1 < f.start + f.len then t.front.cursor + 1
        else if f.autoskip then t.front.nextOpen f.start else (t.front.cursor + 1) % 1600) := by
  subst hc
  have hfree : (t.engine.insert && (t.front.content f).getLastD blank != blank) = false := by
    rcases hroom with hi | hl
    · rw [hi, Bool.false_and]
    · rw [(last_blank_iff hne).mpr hl, Bool.and_false]
  simp only [Station.typeChar, h, Bool.not_true, Bool.false_eq_true, if_false, hfree]
  simp only [Page.advance, Station.editField, Station.withFront_front, Page.nextOpen_edit]
  rfl

end

/-- Settles O47: the character's field, its class, the room in the field, and the move that advances. -/
theorem printableCharacterIsPlacedOrLocks : Obligations.PrintableCharacterIsPlacedOrLocks := by
  refine ⟨?typing, fun ch => ⟨accepts_text, fun cls h => accepts_digits h, accepts_bin, accepts_item,
    fun cls h => ?raises, fun cls h => ?keeps⟩⟩
  case raises => simp [raisedFor_eq, h]
  case keeps => rcases h with rfl | rfl | rfl <;> rfl
  case typing =>
    rintro s i ch t rfl h
    rw [exec_keyPrintable h]
    refine ⟨fun hg => by rw [Station.keyChar, Station.atEntryField_guarded _ hg],
      fun f c text placed hf ho hc htext hplaced => ?_⟩
    obtain ⟨-, hk⟩ := Page.cursor_in_content hf
    have hne : (s.st i).front.content f ≠ [] := List.ne_nil_of_length_pos (by omega)
    rw [← raisedFor_eq] at hc
    subst htext
    rw [Station.keyChar, Station.atEntryField_open _ hf ho]
    refine ⟨fun ha => by rw [Station.typeChar_refused hc ha],
      fun ha hi hl => by rw [Station.typeChar_noRoom hc ha hi hne hl], fun ha hroom t' dest ht' hdest => ?_⟩
    have htyped : (s.st i).typeChar ch f = t'.keyMove dest := by
      rw [Station.typeChar_placed hc ha hne hroom, insertAt_eq c hk, ht', hdest, hplaced]
      rfl
    rw [htyped]
    exact ⟨fun g hg => by rw [Station.keyMove_fails hg], fun hg => by rw [Station.keyMove_passes hg]⟩

/-! ### DELETE and ERASE-EOF (R77, R78) -/

/-- R78: the characters from the cursor to the end of the field become blanks. -/
theorem eraseFrom_content {p : Page} {f : Field} (h : p.fieldAt p.cursor = some f) :
    eraseFrom (p.content f) (p.cursor - f.start)
      = (p.content f).take (p.cursor - f.start) ++ List.replicate (f.start + f.len - p.cursor) 0x20 := by
  obtain ⟨hlo, -⟩ := Page.cursor_in_content h
  have hn : f.len - (p.cursor - f.start) = f.start + f.len - p.cursor := by omega
  rw [eraseFrom, Page.length_content, hn]
  rfl

/-- R77, R78: what DELETE or ERASE-EOF makes of the content of the cursor's field. -/
def Page.erased (p : Page) (key : Key) (f : Field) : List Byte :=
  if key = .delete then deleteAt (p.content f) (p.cursor - f.start) else eraseFrom (p.content f) (p.cursor - f.start)

theorem Page.length_erased {p : Page} {f : Field} (h : p.fieldAt p.cursor = some f) (key : Key) :
    (p.erased key f).length = f.len := by
  obtain ⟨-, hk⟩ := Page.cursor_in_content h
  unfold Page.erased
  split
  · rw [length_deleteAt hk, Page.length_content]
  · rw [length_eraseFrom hk, Page.length_content]

/-- R77, R78: the text of the manual. -/
theorem Page.erased_eq {p : Page} {f : Field} (h : p.fieldAt p.cursor = some f) (key : Key) :
    p.erased key f = if key = .delete then (p.content f).eraseIdx (p.cursor - f.start) ++ [0x20]
      else (p.content f).take (p.cursor - f.start) ++ List.replicate (f.start + f.len - p.cursor) 0x20 := by
  rw [Page.erased, deleteAt_eq, eraseFrom_content h]

/-- R77, R78: the two commands act at the cursor's field. -/
theorem exec_erasingKey {s : State} {i : StationNo} {c : Instr} {key : Key}
    (hc : (c = .keyDelete i ∧ key = .delete) ∨ (c = .keyEraseEof i ∧ key = .eraseEof)) (h : s.Treating i (.key key)) :
    exec c s = .next (s.setSt i ((s.st i).atEntryField fun f =>
      (s.st i).editField f ((s.st i).front.erased key f)).finishEvent) := by
  rcases hc with ⟨rfl, rfl⟩ | ⟨rfl, rfl⟩
  · exact congrArg Host.Outcome.next (h.treat _)
  · exact congrArg Host.Outcome.next (h.treat _)

/-! ### INSERT and RESET (R56, R80) -/

/-- R80: a change of the insert flag. -/
theorem Station.setInsert_change {t : Station} {on : Bool} (h : t.engine.insert ≠ on) :
    t.setInsert on = { t with
      engine := { t.engine with insert := on }, display := { t.display with indicatorPending := true } } := if_neg h

theorem Station.setInsert_same (t : Station) : t.setInsert t.engine.insert = t := if_pos rfl

/-- R80: with the indicator row due, clearing the insert flag leaves it due. -/
theorem Station.setInsert_pending {t : Station} (h : t.display.indicatorPending = true) (on : Bool) :
    t.setInsert on = { t with
      engine := { t.engine with insert := on }, display := { t.display with indicatorPending := true } } := by
  by_cases hi : t.engine.insert = on
  · rw [← hi, ← h, Station.setInsert_same]
  · exact Station.setInsert_change hi

/-- R56, R80: RESET is treated in OPEN and in LOCKED. -/
theorem exec_keyReset {s : State} {i : StationNo} (ht : (s.st i).engine.taken = some (.key .reset))
    (hg : (s.st i).grant.holder = some .engine) (hk : (s.st i).engine.kb ≠ .waiting) :
    exec (.keyReset i) s = .next (s.setSt i ((s.st i).openKeyboard.setInsert false).finishEvent) :=
  if_pos ⟨ht, hg, hk⟩

/-- Settles O48: DELETE and ERASE-EOF by the cursor's field, the other keys one by one. -/
theorem editingKeysAct : Obligations.EditingKeysAct := by
  refine ⟨?erasing, ?others⟩
  case erasing =>
    rintro s i c key t rfl hc h
    rw [exec_erasingKey hc h]
    refine ⟨fun hg => by rw [Station.atEntryField_guarded _ hg], fun f text hf ho htext => ?_⟩
    rw [← Page.erased_eq hf key] at htext
    subst htext
    exact ⟨by rw [Station.atEntryField_open _ hf ho]; rfl,
      Page.content_setContent _ _ _ (Page.length_erased hf key), fun k hk => Page.cell_setContent _ _ _ k hk, rfl, rfl⟩
  case others =>
    rintro s i t rfl
    refine ⟨fun h => congrArg Host.Outcome.next (h.treat _), fun h => ?insert, fun h => ?reset, fun ht hg hk => ?locked⟩
    case insert =>
      rw [← Station.setInsert_change (Bool.eq_not.mp rfl).symm]
      exact congrArg Host.Outcome.next (h.treat _)
    case reset =>
      obtain ⟨hk, ht, hg⟩ := h
      rw [exec_keyReset ht hg (by simp [hk]), Station.openKeyboard_opened hk]
      exact ⟨fun hi => by rw [← hi, Station.setInsert_same], fun hi => by rw [Station.setInsert_change (by simp [hi])]⟩
    case locked =>
      rw [exec_keyReset ht hg (by simp [hk]), Station.setInsert_pending]
      rw [Station.openKeyboard_other (by simp [hk])]

end Sys2Proof.Machine
end
section
/-! PROOFS. Every counter stays within its width: the counters of a station's blocks (R52, R118, R142, R151, R158). -/

namespace Sys2Proof.Machine

/-! ### The counters block by block -/

/-- A saturating sum stays within its limit. -/
theorem satAdd_le (limit n k : Nat) : satAdd limit n k ≤ limit := Nat.min_le_left _ _

/-- R52: the counters of a Keystroke Engine. -/
def Engine.Within (e : Engine) : Prop := e.overflows ≤ 65535 ∧ e.lockedDiscards ≤ 65535

/-- R118, R139: the counters of a Display Writer, and the run number. -/
def Display.Within (d : Display) : Prop :=
  d.runFaults ≤ 65535 ∧ d.timeouts ≤ 65535 ∧ d.stales ≤ 65535 ∧ d.runNumber ≤ 15

/-- R142: the counters of a Station Line Port. -/
def Port.Within (p : Port) : Prop := p.badFrames ≤ 65535 ∧ p.refusedFrames ≤ 65535

/-- R158: the counters of a Line Check Unit. -/
def Lcu.Within (l : Lcu) : Prop :=
  l.sent ≤ 4294967295 ∧ l.compared ≤ 4294967295 ∧ l.errors ≤ 16777215 ∧ l.losses ≤ 255

/-- The counters of a station, the window counts of its monitor (R151) among them. -/
def Station.Within (t : Station) : Prop :=
  t.engine.Within ∧ t.display.Within ∧ t.port.Within ∧ t.lcu.Within ∧ t.monitor.CountsLawful

theorem Station.within_iff {t : Station} : t.Within ↔ t.CountersLawful ∧ t.monitor.CountsLawful := by
  simp only [Station.Within, Engine.Within, Display.Within, Port.Within, Lcu.Within, Station.CountersLawful, and_assoc]

/-- The counters of a station are those of its blocks, whatever the rest of it. -/
theorem Station.within_mk {front back : Page} {grant : Grant} {routes : Vector Route 8} {acceptance : Vector Bool 45}
    {engine : Engine} {display : Display} {bulletin : List Byte} {port : Port} {monitor : Monitor} {lcu : Lcu}
    (he : engine.Within) (hd : display.Within) (hp : port.Within) (hl : lcu.Within) (hm : monitor.CountsLawful) :
    Station.Within ⟨front, back, grant, routes, acceptance, engine, display, bulletin, port, monitor, lcu⟩ :=
  ⟨he, hd, hp, hl, hm⟩

/-- R58, R61: the engine's counters saturate. -/
theorem Engine.Within.countOverflow {e : Engine} (h : e.Within) : e.countOverflow.Within := ⟨satAdd_le _ _ _, h.2⟩

theorem Engine.Within.countDiscards {e : Engine} (h : e.Within) (n : Nat) : (e.countDiscards n).Within :=
  ⟨h.1, satAdd_le _ _ _⟩

section

variable {d : Display} (h : d.Within)

include h

/-- R128, R129, R130: the Display Writer's counters saturate. -/
theorem Display.Within.countRunFault : d.countRunFault.Within := ⟨satAdd_le _ _ _, h.2⟩

theorem Display.Within.countTimeout : d.countTimeout.Within := by
  obtain ⟨hfaults, -, hrest⟩ := h
  exact ⟨hfaults, satAdd_le _ _ _, hrest⟩

theorem Display.Within.countStale : d.countStale.Within := by
  obtain ⟨hfaults, htimeouts, -, hnumber⟩ := h
  exact ⟨hfaults, htimeouts, satAdd_le _ _ _, hnumber⟩

theorem Display.Within.withoutRun (dirty : List Nat) : Display.Within { d with
    run := none, dirty := dirty, lastWritten := none, indicatorPending := true, cursorPending := true } := h

/-- R133: invalidation counts nothing. -/
theorem Display.Within.invalidate : d.invalidate.Within := h.withoutRun allCells

theorem Display.Within.runOk (n : Nat) : (d.runOk n).Within := by
  unfold Display.runOk
  split
  · split
    · exact h
    · exact h.countStale
  · exact h.countStale

theorem Display.Within.runBad : d.runBad.Within := by
  unfold Display.runBad
  split
  · exact Display.Within.countRunFault (d := d.returnRun _) h
  · exact h.countStale

end

/-- R144, R145: the port's counters saturate. -/
theorem Port.Within.countBad {p : Port} (h : p.Within) : p.countBad.Within := ⟨satAdd_le _ _ _, h.2⟩

theorem Port.Within.countRefused {p : Port} (h : p.Within) : p.countRefused.Within := ⟨h.1, satAdd_le _ _ _⟩

/-- R161, R163: bytes sent saturate. -/
theorem Lcu.Within.countPlaced {l : Lcu} (h : l.Within) : l.countPlaced.Within := ⟨satAdd_le _ _ _, h.2⟩

/-- R166: bytes compared, errors and losses saturate. -/
theorem Lcu.Within.read {l : Lcu} (h : l.Within) (b : Byte) : (l.read b).Within := by
  obtain ⟨hsent, hcompared, herrors, hlosses⟩ := h
  have hcount : ∀ error : Bool, (if error then satInc max24 l.errors else l.errors) ≤ 16777215 := by
    intro error
    split
    · exact satAdd_le _ _ _
    · exact herrors
  unfold Lcu.read
  dsimp only
  split
  · exact ⟨hsent, hcompared, herrors, hlosses⟩
  · split
    · exact ⟨hsent, satAdd_le _ _ _, hcount _, satAdd_le _ _ _⟩
    · exact ⟨hsent, satAdd_le _ _ _, hcount _, hlosses⟩

/-- R151: a closed interval takes the window's position with it, up to 64. -/
theorem Monitor.CountsLawful.closeInterval {m : Monitor} (h : m.CountsLawful) : m.closeInterval.CountsLawful := by
  obtain ⟨hpos, hlive, hdead⟩ := h
  unfold Monitor.closeInterval
  split
  · exact ⟨hpos, hlive, hdead⟩
  · split
    · exact ⟨Nat.zero_le _, Nat.le_refl _, Nat.le_refl _⟩
    · split
      · exact ⟨hpos, hlive, hdead⟩
      · have hnext : m.position + 1 ≤ 64 := by omega
        split
        · exact ⟨hnext, Nat.succ_le_succ hlive, Nat.zero_le _⟩
        · exact ⟨hnext, Nat.le_succ_of_le hlive, Nat.succ_le_succ hdead⟩

/-- R151, R155: a window that begins afresh. -/
theorem Monitor.CountsLawful.fresh {m : Monitor} (hp : m.position = 0) (hl : m.liveCount = 0) (hd : m.deadRun = 0) :
    m.CountsLawful := ⟨by omega, by omega, by omega⟩

theorem Monitor.CountsLawful.markLive {m : Monitor} (h : m.CountsLawful) : m.markLive.CountsLawful := by
  unfold Monitor.markLive
  split <;> exact h

/-! ### The operations of a station -/

section

variable {t : Station} (h : t.Within)

include h

/-- A change of FRONT, the dirty set and cursor-pending has no counter in it. -/
theorem Station.Within.frontOnly {t' : Station} (hf : t.FrontOnly t') : t'.Within := by
  rw [hf]
  exact h

theorem Station.Within.backOnly {t' : Station} (hb : t.BackOnly t') : t'.Within := by
  rw [hb]
  exact h

theorem Station.Within.raiseEvent : t.raiseEvent.Within := by
  rw [Station.raiseEvent_eq]
  exact h

theorem Station.Within.finishEvent : t.finishEvent.Within := by
  rw [Station.finishEvent_eq]
  exact h

/-- R55: the queue discarded is counted. -/
theorem Station.Within.enterLocked (code : LockCode) (tag : Option Nat) : (t.enterLocked code tag).Within :=
  ⟨h.1.countDiscards _, h.2⟩

theorem Station.Within.moveCursor (dest : Nat) : (t.moveCursor dest).Within := h.frontOnly (.moveCursor t dest)

theorem Station.Within.lockAtField (code : LockCode) (f : Field) : (t.lockAtField code f).Within :=
  (h.enterLocked code (some f.tag)).moveCursor f.start

theorem Station.Within.openKeyboard : t.openKeyboard.Within := by
  by_cases hk : t.engine.kb = .opened
  · rw [Station.openKeyboard_opened hk]
    exact h
  · rw [Station.openKeyboard_other hk]
    exact h

theorem Station.Within.setInsert (on : Bool) : (t.setInsert on).Within := by
  unfold Station.setInsert
  split <;> exact h

/-- R61: an event discarded in LOCKED is counted. -/
theorem Station.Within.discardLocked : t.discardLocked.Within := ⟨h.1.countDiscards 1, h.2⟩

theorem Station.Within.takeEvent : t.takeEvent.Within := by
  unfold Station.takeEvent
  split
  · exact h.finishEvent
  · exact h.finishEvent
  · exact h
  · next e rest _ _ =>
    have hq : Station.Within { t with engine := t.engine.withQueue rest } := h
    dsimp only
    split
    · exact hq
    · exact hq.discardLocked.finishEvent

theorem Station.Within.keyMove (dest : Nat) : (t.keyMove dest).Within := by
  by_cases hf : ∃ f, t.ExitFails dest f
  · obtain ⟨f, hf⟩ := hf
    rw [Station.keyMove_fails hf]
    exact h.lockAtField _ f
  · rw [Station.keyMove_passes (not_exists.mp hf)]
    exact h.moveCursor dest

theorem Station.Within.editField (f : Field) (content : List Byte) : (t.editField f content).Within :=
  h.frontOnly (.withFront t rfl)

theorem Station.Within.atEntryField {act : Field → Station} (ha : ∀ f, (act f).Within) : (t.atEntryField act).Within := by
  unfold Station.atEntryField
  split
  · exact h.enterLocked _ _
  · split
    · exact ha _
    · exact h.enterLocked _ _

theorem Station.Within.typeChar (ch : Byte) (f : Field) : (t.typeChar ch f).Within := by
  unfold Station.typeChar
  dsimp only
  split
  · exact h.enterLocked _ _
  · split
    · exact h.enterLocked _ _
    · exact (h.editField f _).keyMove _

theorem Station.Within.blankOpenFront : t.blankOpenFront.Within := h.frontOnly (.of_cursor rfl rfl)

/-- R108: marks cleared and shadows promoted. -/
theorem Station.Within.committed : t.committed.Within := h.frontOnly (.of_cursor rfl rfl)

theorem Station.Within.unitReady : t.unitReady.Within := h

/-- R125: run numbers go from 0 to 15. -/
theorem Station.Within.startRun (i : StationNo) (first : Nat) : (t.startRun i first).Within := by
  obtain ⟨hengine, ⟨hfaults, htimeouts, hstales, -⟩, ⟨hbad, hrefused⟩, hrest⟩ := h
  refine ⟨hengine, ⟨hfaults, htimeouts, hstales, Nat.le_of_lt_succ (Nat.mod_lt _ (by decide))⟩, ?_, hrest⟩
  simp only [Station.startRun, Port.sendRun]
  split <;> exact ⟨hbad, hrefused⟩

theorem Station.Within.frameEnded : t.frameEnded.Within := by
  obtain ⟨hengine, hdisplay, hrest⟩ := h
  refine ⟨hengine, ?_, hrest⟩
  simp only [Station.frameEnded]
  split <;> exact hdisplay

/-- R160: a test starts with its counters at 0. -/
theorem Station.Within.startTest (m : TestMode) (p : Pattern) (j : Injection) (d : Nat) :
    (t.startTest m p j d).Within := by
  obtain ⟨hengine, hdisplay, hport, -, -⟩ := h
  have hzero : (Lcu.started m p j d).Within := ⟨Nat.zero_le _, Nat.zero_le _, Nat.zero_le _, Nat.zero_le _⟩
  exact Station.within_mk hengine hdisplay.invalidate hport hzero (.fresh rfl rfl rfl)

/-- R169: a test ends with its counters as they are. -/
theorem Station.Within.endTest (c : EndCause) : (t.endTest c).Within := by
  obtain ⟨hengine, hdisplay, hport, hlcu, hmonitor⟩ := h
  exact Station.within_mk hengine hdisplay.invalidate hport hlcu hmonitor

theorem Station.Within.resetTest : t.resetTest.Within := by
  unfold Station.resetTest
  split
  · exact h.endTest .reset
  · exact h

/-- R85, R141: a station's reset leaves its counters. -/
theorem Station.Within.resetBlocks : t.resetBlocks.Within := by
  obtain ⟨hengine, hdisplay, hport, hlcu, hmonitor⟩ := h
  exact Station.within_mk hengine hdisplay.invalidate hport hlcu hmonitor

/-- R153: the loss of a station is not counted there. -/
theorem Station.Within.lost : t.lost.Within := by
  obtain ⟨hengine, hdisplay, hport, hlcu, hmonitor⟩ := h
  exact Station.within_mk hengine hdisplay.invalidate hport hlcu hmonitor

theorem Station.Within.withLcu {l : Lcu} (hl : l.Within) : Station.Within { t with lcu := l } := by
  obtain ⟨hengine, hdisplay, hport, -, hmonitor⟩ := h
  exact ⟨hengine, hdisplay, hport, hl, hmonitor⟩

theorem Station.Within.withMonitor {m : Monitor} (hm : m.CountsLawful) : Station.Within { t with monitor := m } := by
  obtain ⟨hengine, hdisplay, hport, hlcu, -⟩ := h
  exact ⟨hengine, hdisplay, hport, hlcu, hm⟩

theorem Station.Within.withDisplay {d : Display} (hd : d.Within) : Station.Within { t with display := d } := by
  obtain ⟨hengine, -, hrest⟩ := h
  exact ⟨hengine, hd, hrest⟩

theorem Station.Within.withPort {p : Port} (hp : p.Within) : Station.Within { t with port := p } := by
  obtain ⟨hengine, hdisplay, -, hrest⟩ := h
  exact ⟨hengine, hdisplay, hp, hrest⟩

theorem Station.Within.display : t.display.Within := by
  obtain ⟨-, hdisplay, -⟩ := h
  exact hdisplay

theorem Station.Within.port : t.port.Within := by
  obtain ⟨-, -, hport, -⟩ := h
  exact hport

theorem Station.Within.lcu : t.lcu.Within := by
  obtain ⟨-, -, -, hlcu, -⟩ := h
  exact hlcu

theorem Station.Within.monitor : t.monitor.CountsLawful := by
  obtain ⟨-, -, -, -, hmonitor⟩ := h
  exact hmonitor

theorem Station.Within.feedPattern : t.feedPattern.Within := h.withLcu (h.lcu.countPlaced.read _)

theorem Station.Within.placeByte (b : Byte) : (t.placeByte b).Within := h.withLcu h.lcu.countPlaced

theorem Station.Within.placePattern : t.placePattern.Within :=
  h.placeByte (t.lcu.pattern.byteAt t.lcu.genPos)

theorem Station.Within.echoByte (b : Byte) : (t.echoByte b).Within := h.withLcu (h.lcu.read b)

theorem Station.Within.returnByte (b : Byte) : (t.returnByte b).Within := by
  unfold Station.returnByte
  split
  · exact h
  · exact h.placeByte b

theorem Station.Within.testByte (b : Byte) : (t.testByte b).Within := by
  unfold Station.testByte
  split
  · split
    · exact h
    · exact h.echoByte b
    · exact h.returnByte b
  · exact h

/-- R194: the counters a read reports start again at 0. -/
theorem Station.Within.clearCounters : t.clearCounters.Within := by
  obtain ⟨-, ⟨-, -, -, hnumber⟩, -, hrest⟩ := h
  exact ⟨⟨Nat.zero_le _, Nat.zero_le _⟩, ⟨Nat.zero_le _, Nat.zero_le _, Nat.zero_le _, hnumber⟩,
    ⟨Nat.zero_le _, Nat.zero_le _⟩, hrest⟩

theorem Station.Within.applySetting (x : Setting) : (t.applySetting x).Within := by
  cases x <;> exact h

theorem Station.Within.tick : t.tick.Within := by
  refine h.withLcu (l := t.lcu.tick) ?_
  unfold Lcu.tick
  split <;> exact h.lcu

end

theorem Station.Within.testBytes {t : Station} (h : t.Within) (bytes : List Byte) :
    (bytes.foldl Station.testByte t).Within := by
  induction bytes generalizing t with
  | nil => exact h
  | cons b bytes ih => exact ih (h.testByte b)

theorem Station.Within.applySettings {t : Station} (h : t.Within) (xs : List Setting) :
    (xs.foldl Station.applySetting t).Within := by
  induction xs generalizing t with
  | nil => exact h
  | cons x xs ih => exact ih (h.applySetting x)

/-! ### FORM messages -/

/-- R33: no order of a FORM message has a counter in its effect. -/
theorem FormView.within_apply {v : FormView} (h : v.station.Within) (role : Role) (o : Order) :
    (v.apply role o).station.Within := by
  by_cases ho : o.writes = true ∨ o.promotes = true
  · cases role with
    | front => exact h.frontOnly (v.frontOnly_apply ho)
    | back => exact h.backOnly (v.backOnly_apply ho)
  · cases o with
    | setPosition | release | sound | note | flip => exact h
    | _ => simp [Order.writes, Order.promotes] at ho

theorem within_runOrders {start : Station} {role : Role} {n index : Nat} {bytes : List Byte} {v v' : FormView}
    (h : v.station.Within) (hr : runOrders start role n index bytes v = .ok v') : v'.station.Within := by
  induction n generalizing index bytes v with
  | zero =>
    simp only [runOrders, Except.ok.injEq] at hr
    exact hr ▸ h
  | succ n ih =>
    simp only [runOrders] at hr
    split at hr
    · simp at hr
    · split at hr
      · simp at hr
      · exact ih (FormView.within_apply h role _) hr

theorem within_formResult {t : Station} {isHeld : Bool} {body : List Byte} {v : FormView} (h : t.Within)
    (hr : formResult t isHeld body = .ok v) : v.station.Within := by
  unfold formResult at hr
  split at hr
  · simp at hr
  · split at hr
    · simp at hr
    · exact within_runOrders (v := FormView.start t) h hr

theorem FormView.within_finish {v : FormView} (h : v.station.Within) : v.finish.Within := by
  unfold FormView.finish
  split
  · exact h.openKeyboard.raiseEvent
  · exact h

end Sys2Proof.Machine
end
section
/-! PROOFS. Every counter stays within its width: the notice counts (R183), the counters of the Host Line Port (R173), the
buffer (R176), and every command. -/

namespace Sys2Proof.Machine

/-! ### The Notice Set (R183) -/

theorem Vector.get_set_station {α : Type} (v : Vector α 4) (i j : StationNo) (x : α) :
    (v.set i.val x i.isLt).get j = if j = i then x else v.get j := by
  simp only [Vector.get_eq_getElem, Vector.getElem_set, Fin.val_inj, eq_comm (a := i)]

section

variable {n : Notices} (h : n.CountsLawful)

include h

/-- R183: a STATION-CHANGE of a station is replaced by one within the width, or removed. -/
theorem Notices.CountsLawful.setStationChange (i : StationNo) {x : Option (Presence × Nat)}
    (hx : ∀ p c, x = some (p, c) → c ≤ 255) :
    Notices.CountsLawful { n with stationChange := n.stationChange.set i.val x i.isLt } := by
  intro j
  obtain ⟨hchange, hoverflow⟩ := h j
  refine ⟨fun p c hc => ?_, hoverflow⟩
  rw [Vector.get_set_station] at hc
  split at hc
  · exact hx p c hc
  · exact hchange p c hc

/-- R183: and so is an OVERFLOW. -/
theorem Notices.CountsLawful.setOverflow (i : StationNo) {x : Option Nat} (hx : ∀ c, x = some c → c ≤ 65535) :
    Notices.CountsLawful { n with overflow := n.overflow.set i.val x i.isLt } := by
  intro j
  obtain ⟨hchange, hoverflow⟩ := h j
  refine ⟨hchange, fun c hc => ?_⟩
  rw [Vector.get_set_station] at hc
  split at hc
  · exact hx c hc
  · exact hoverflow c hc

theorem Notices.CountsLawful.raiseStationChange (i : StationNo) (p : Presence) :
    (n.raiseStationChange i p).CountsLawful := by
  refine h.setStationChange i fun q c hc => ?_
  simp only [Option.some.injEq, Prod.mk.injEq] at hc
  obtain ⟨-, rfl⟩ := hc
  split
  · exact satAdd_le _ _ _
  · decide

theorem Notices.CountsLawful.raiseOverflow (i : StationNo) : (n.raiseOverflow i).CountsLawful := by
  refine h.setOverflow i fun c hc => ?_
  simp only [Option.some.injEq] at hc
  subst hc
  split
  · exact satAdd_le _ _ _
  · decide

theorem Notices.CountsLawful.remove (x : Notice) : (n.remove x).CountsLawful := by
  cases x with
  | stationChange i p c => exact h.setStationChange i fun _ _ hc => nomatch hc
  | overflow i c => exact h.setOverflow i fun _ hc => nomatch hc
  | restarted | testDone | ringHalf | entryHeld => exact h

theorem Notices.CountsLawful.ringHalfNotices (before after : Nat) : (ringHalfNotices n before after).CountsLawful := by
  unfold Machine.ringHalfNotices
  split <;> exact h

end

/-! ### The state -/

section

variable {s : State} (h : s.CountersLaw)

include h

theorem State.CountersLaw.st (i : StationNo) : (s.st i).Within := by
  obtain ⟨hst, -⟩ := h
  exact Station.within_iff.mpr (hst i)

theorem State.CountersLaw.notices : s.notices.CountsLawful := by
  obtain ⟨-, hn, -⟩ := h
  exact hn

/-- R183: another Notice Set within its widths may stand in the place of the one held. -/
theorem State.CountersLaw.withNotices {n : Notices} (hn : n.CountsLawful) :
    State.CountersLaw { s with notices := n } := by
  obtain ⟨hst, -, hhost⟩ := h
  exact ⟨hst, hn, hhost⟩

theorem State.CountersLaw.setSt (i : StationNo) {t : Station} (ht : t.Within) : (s.setSt i t).CountersLaw := by
  obtain ⟨hst, hrest⟩ := h
  refine ⟨fun j => ?_, hrest⟩
  rw [State.st_setSt]
  split
  · exact Station.within_iff.mp ht
  · exact hst j

theorem State.CountersLaw.modSt (i : StationNo) {f : Station → Station}
    (hf : (s.st i).Within → (f (s.st i)).Within) : (s.modSt i f).CountersLaw := h.setSt i (hf (h.st i))

/-- R21: a grant has no counter. -/
theorem State.CountersLaw.grant (i : StationNo) (g : Grant → Grant) :
    (s.modSt i fun t => { t with grant := g t.grant }).CountersLaw := h.modSt i fun ht => ht

theorem State.CountersLaw.indicator (i : StationNo) :
    (s.modSt i fun t => { t with display.indicatorPending := true }).CountersLaw := h.modSt i fun ht => ht

/-! ### The Keystroke Engine and the attentions -/

theorem State.CountersLaw.treat (i : StationNo) (k : Key) {f : Station → Station}
    (hf : (s.st i).Within → (f (s.st i)).Within) : (s.treat i k f).CountersLaw := by
  unfold State.treat
  split
  · exact h.modSt i fun ht => (hf ht).finishEvent
  · exact h

theorem State.CountersLaw.commit (i : StationNo) (k : Attention) (b : Bool) : (s.commit i k b).CountersLaw :=
  (h.modSt i fun ht => ht.committed).withNotices (h.notices.ringHalfNotices _ _)

theorem State.CountersLaw.hold (i : StationNo) (k : Attention) (b : Bool) : (s.hold i k b).CountersLaw := by
  have hnotices : Notices.CountsLawful (if s.held = [] then s.notices.raiseEntryHeld i else s.notices) := by
    split <;> exact h.notices
  exact (h.indicator i).withNotices hnotices

theorem State.CountersLaw.compose (i : StationNo) (k : Attention) (b : Bool) : (s.compose i k b).CountersLaw := by
  unfold State.compose
  split
  · exact h.commit i k b
  · exact h.hold i k b

theorem State.CountersLaw.attention (i : StationNo) (k : Attention) (b : Bool) : (s.attention i k b).CountersLaw := by
  unfold State.attention
  split
  · exact h.modSt i fun ht => ht.lockAtField _ _
  · exact State.CountersLaw.compose (h.modSt i fun ht => ht) i k b

theorem State.CountersLaw.treatAttention (i : StationNo) (k : Key) (a : Attention) :
    (s.treatAttention i k a).CountersLaw := by
  unfold State.treatAttention
  split
  · exact (h.attention i a false).modSt i Station.Within.finishEvent
  · exact h

theorem State.CountersLaw.startService : s.startService.CountersLaw := by
  unfold State.startService
  split
  · exact h.grant _ fun g => g.raise .engine
  · exact h

theorem State.CountersLaw.endService (i : StationNo) : (s.endService i).CountersLaw :=
  h.grant i fun g => g.release .engine

theorem State.CountersLaw.commitHeld (i : StationNo) (m : Held) (rest : List Held) :
    (s.commitHeld i m rest).CountersLaw := (h.commit i m.kind m.byScan).indicator i

theorem State.CountersLaw.fillAndAct (i : StationNo) (f : Field) (fill : List Byte) (a : AfterFill) :
    (s.fillAndAct i f fill a).CountersLaw := by
  have hfill : (s.modSt i fun t => t.fillField f fill).CountersLaw := h.modSt i fun ht => ht.editField f fill
  unfold State.fillAndAct
  dsimp only
  split
  · exact hfill.modSt i fun ht => ht.moveCursor _
  · exact hfill.modSt i fun ht => ht.moveCursor _
  · exact hfill.attention i .enter true

theorem State.CountersLaw.routeScan (i : StationNo) (n : Nat) (data : List Byte) :
    (s.routeScan i n data).CountersLaw := by
  have hlock : ∀ code tag, (s.setSt i ((s.st i).enterLocked code tag)).CountersLaw := fun code tag =>
    h.setSt i ((h.st i).enterLocked code tag)
  unfold State.routeScan
  dsimp only
  split
  · exact hlock _ _
  · split
    · exact hlock _ _
    · split
      · exact hlock _ _
      · split
        · exact hlock _ _
        · exact h.fillAndAct i _ _ _

/-! ### The station lines -/

/-- R57, R58: an overflow is counted at the engine and in its notice. -/
theorem State.CountersLaw.deliverEvent (i : StationNo) (e : Event) : (s.deliverEvent i e).CountersLaw := by
  obtain ⟨hengine, hrest⟩ := h.st i
  unfold State.deliverEvent
  dsimp only
  split
  · exact h.setSt i (Station.Within.raiseEvent ⟨hengine, hrest⟩)
  · have hfull : Station.Within { s.st i with
        engine := (s.st i).engine.countOverflow, display := (s.st i).display.requestSound } :=
      ⟨hengine.countOverflow, hrest⟩
    exact (h.setSt i hfull).withNotices (h.notices.raiseOverflow i)

theorem State.CountersLaw.deliver (i : StationNo) (u : Upstream) : (s.deliver i u).CountersLaw := by
  cases u with
  | event e => exact h.deliverEvent i e
  | unitReady => exact h.modSt i fun ht => ht.unitReady
  | unitHold => exact h.modSt i fun ht => ht
  | unitResync => exact h.modSt i fun ht => ht.withDisplay (d := (s.st i).display.unitResync) ht.display.invalidate
  | unitRunOk n => exact h.modSt i fun ht => ht.withDisplay (ht.display.runOk n)
  | unitRunBad => exact h.modSt i fun ht => ht.withDisplay ht.display.runBad
  | idle => exact h
  | refused => exact h.modSt i fun ht => ht.withPort ht.port.countRefused

theorem State.CountersLaw.received (i : StationNo) (r : RxResult) : (s.received i r).CountersLaw := by
  cases r with
  | bad => exact h.modSt i fun ht => ht.withPort ht.port.countBad
  | good f => exact State.CountersLaw.deliver (h.modSt i fun ht => ht.withMonitor ht.monitor.markLive) i _

/-- R152: a new window begins; a change of the declaration is counted in its notice. -/
theorem State.CountersLaw.judgeWindow (i : StationNo) : (s.judgeWindow i).CountersLaw := by
  have hfresh : Station.Within { s.st i with
      monitor := { (s.st i).monitor.freshWindow with presence := (s.st i).monitor.judged } } :=
    (h.st i).withMonitor (.fresh rfl rfl rfl)
  unfold State.judgeWindow
  dsimp only
  split
  · exact h.setSt i hfresh
  · refine State.CountersLaw.withNotices (h.setSt i ?_) (h.notices.raiseStationChange i _)
    split
    · exact hfresh.lost
    · exact hfresh

/-! ### The host line and the requests -/

/-- R174 to R176: frames received are counted, and join a buffer below 2. -/
theorem State.CountersLaw.hostReceived (r : RxResult) : (s.hostReceived r).CountersLaw := by
  obtain ⟨hst, hnotices, hbad, hoverruns, hbuffer⟩ := h
  cases r with
  | bad => exact ⟨hst, hnotices, satAdd_le _ _ _, hoverruns, hbuffer⟩
  | good f =>
    simp only [State.hostReceived, State.sortFrame, State.joinBuffer]
    split
    · exact ⟨hst, hnotices, hbad, hoverruns, hbuffer⟩
    · split
      · exact ⟨hst, hnotices, hbad, hoverruns, hbuffer⟩
      · split
        · exact ⟨hst, hnotices, hbad, hoverruns, by simp; omega⟩
        · exact ⟨hst, hnotices, hbad, satAdd_le _ _ _, hbuffer⟩

theorem State.CountersLaw.stationQuery (f : Frame) {read : Query → StationNo → State}
    (hr : ∀ q i, (read q i).CountersLaw) : (s.stationQuery f read).CountersLaw := by
  unfold State.stationQuery
  split
  · exact h
  · split
    · exact h
    · split
      · exact hr _ _
      · exact h

theorem State.CountersLaw.testRequest (f : Frame) (w : Bool) {act : TestAction → StationNo → State}
    (ha : ∀ a i, (act a i).CountersLaw) : (s.testRequest f w act).CountersLaw := by
  unfold State.testRequest
  split
  · exact h
  · split
    · exact h
    · split
      · exact h
      · split
        · exact h
        · exact ha _ _

theorem State.CountersLaw.formMessage (f : Frame) (i : StationNo) : (s.formMessage f i).CountersLaw := by
  unfold State.formMessage
  split
  · exact h
  · next v hv => exact h.setSt i (FormView.within_finish (within_formResult (h.st i) hv))

theorem State.CountersLaw.configure (f : Frame) (i : StationNo) : (s.configure f i).CountersLaw := by
  unfold State.configure
  split
  · exact h
  · exact h.setSt i ((h.st i).applySettings ((decodeSettings f.body).getD []))

theorem State.CountersLaw.beginRequest (f : Frame) : (s.beginRequest f).CountersLaw := by
  unfold State.beginRequest
  split
  · exact h
  · dsimp only
    split
    · exact State.CountersLaw.grant (s := { s with interp := .handling f }) h _ fun g => g.raise .interpreter
    · exact h

theorem State.CountersLaw.removeHeld (i : StationNo) : (s.removeHeld i).CountersLaw := by
  have hfilter : State.CountersLaw { s with held := s.held.filter fun m => m.station != i } := h
  unfold State.removeHeld
  dsimp only
  split
  · exact State.CountersLaw.startService hfilter
  · split
    · exact hfilter.startService
    · exact hfilter

/-- R197: a station's reset keeps its counters, or ends its test with them. -/
theorem State.CountersLaw.resetStation (i : StationNo) : (s.resetStation i).CountersLaw := by
  have hreset : (s.modSt i fun t => t.resetBlocks.resetTest).CountersLaw :=
    h.modSt i fun ht => ht.resetBlocks.resetTest
  have hnotices : (s.notices.dropTestDone i).CountsLawful := h.notices
  exact State.CountersLaw.removeHeld (hreset.withNotices hnotices) i

end

theorem State.CountersLaw.receivedAll (i : StationNo) (rs : List RxResult) {s : State} (h : s.CountersLaw) :
    (rs.foldl (fun s r => s.received i r) s).CountersLaw := by
  induction rs generalizing s with
  | nil => exact h
  | cons r rs ih => exact ih (h.received i r)

theorem State.CountersLaw.upstream {s : State} (h : s.CountersLaw) (i : StationNo) (bytes : List Byte) :
    (s.upstream i bytes).CountersLaw := by
  unfold State.upstream
  split
  · exact h.modSt i fun ht => ht.testBytes bytes
  · exact State.CountersLaw.receivedAll i _ (h.modSt i fun ht => ht)

theorem State.CountersLaw.hostReceivedAll (rs : List RxResult) {s : State} (h : s.CountersLaw) :
    (rs.foldl State.hostReceived s).CountersLaw := by
  induction rs generalizing s with
  | nil => exact h
  | cons r rs ih => exact ih (h.hostReceived r)

theorem State.CountersLaw.hostBytes {s : State} (h : s.CountersLaw) (bytes : List Byte) :
    (s.hostBytes bytes).CountersLaw := State.CountersLaw.hostReceivedAll _ h

theorem State.CountersLaw.tick {s : State} (h : s.CountersLaw) : s.tick.CountersLaw := by
  obtain ⟨hst, hrest⟩ := h
  refine ⟨fun i => ?_, hrest⟩
  rw [State.tick, State.st_mapStations]
  exact Station.within_iff.mp (Station.Within.tick (Station.within_iff.mpr (hst i)))

end Sys2Proof.Machine
end
section
/-! PROOFS. Every counter stays within its width (R52, R118, R139, R142, R151, R158, R167, R173, R176, R183): every command
keeps it, and so does a millisecond that passes. -/

namespace Sys2Proof.Machine

/-- An outcome whose next state has every counter within its width. -/
def OutWithin (o : Host.Outcome State Fault Refusal) : Prop := ∀ s', o = .next s' → s'.CountersLaw

theorem OutWithin.next {s : State} (h : s.CountersLaw) : OutWithin (.next s) := fun s' he => by
  injection he with he
  exact he ▸ h

theorem OutWithin.ite {p : Prop} [Decidable p] {a b : Host.Outcome State Fault Refusal} (ha : OutWithin a)
    (hb : OutWithin b) : OutWithin (if p then a else b) := by
  split
  · exact ha
  · exact hb

section

variable {s : State} (h : s.CountersLaw)

include h

/-! ### The requests -/

theorem outWithin_requestTake : OutWithin (execRequestTake s) := by
  obtain ⟨hst, hnotices, hbad, hoverruns, hbuffer⟩ := h
  unfold execRequestTake
  split
  · next f rest _ hb =>
    rw [hb, List.length_cons] at hbuffer
    have hrest : State.CountersLaw { s with buffer := rest } :=
      ⟨hst, hnotices, hbad, hoverruns, Nat.le_of_succ_le hbuffer⟩
    exact .next (hrest.beginRequest f)
  · exact .next ⟨hst, hnotices, hbad, hoverruns, hbuffer⟩

theorem outWithin_form : OutWithin (execForm s) := by
  unfold execForm
  split
  · exact .next h
  · split
    · exact .next h
    · exact .ite (.next (h.formMessage _ _)) (.next h)

theorem outWithin_readCells : OutWithin (execReadCells s) := by
  unfold execReadCells
  split
  · exact .next h
  · exact .next (h.stationQuery _ fun q i => by split <;> exact h)

theorem outWithin_readFields : OutWithin (execReadFields s) := by
  unfold execReadFields
  split
  · exact .next h
  · exact .next (h.stationQuery _ fun q i => by split <;> exact h)

theorem outWithin_readField : OutWithin (execReadField s) := by
  unfold execReadField
  split
  · exact .next h
  · refine .next (h.stationQuery _ fun q i => ?_)
    split
    · split <;> exact h
    · exact h

theorem outWithin_readModified : OutWithin (execReadModified s) := by
  unfold execReadModified
  split
  · exact .next h
  · exact .next (h.stationQuery _ fun q i => by split <;> exact h)

/-- R194: the read clears the station's counters. -/
theorem outWithin_readStatusStation : OutWithin (execReadStatusStation s) := by
  unfold execReadStatusStation
  split
  · exact .next h
  · refine .ite (.next h) (.next (h.stationQuery _ fun q i => ?_))
    exact State.CountersLaw.modSt (s := s.done _ _ i) h i Station.Within.clearCounters

/-- R194: the read clears the counters of the Host Line Port. -/
theorem outWithin_readStatusDevice : OutWithin (execReadStatusDevice s) := by
  unfold execReadStatusDevice
  split
  · exact .next h
  · refine .ite ?_ (.next h)
    split
    · exact .next h
    · obtain ⟨hst, hnotices, -, -, hbuffer⟩ := h
      exact .next ⟨hst, hnotices, Nat.zero_le _, Nat.zero_le _, hbuffer⟩

theorem outWithin_configure : OutWithin (execConfigure s) := by
  unfold execConfigure
  split
  · exact .next h
  · split
    · exact .next h
    · exact .ite (.next (h.configure _ _)) (.next h)

theorem outWithin_stationReset : OutWithin (execStationReset s) := by
  unfold execStationReset
  split
  · exact .next h
  · split
    · exact .next h
    · exact .ite (.next h) (.ite (.next (h.resetStation _)) (.next h))

theorem outWithin_unknownKind : OutWithin (execUnknownKind s) := by
  unfold execUnknownKind
  split
  · exact .ite (.next h) (.next h)
  · exact .next h

theorem outWithin_testStart : OutWithin (execTestStart s) := by
  unfold execTestStart
  split
  · exact .next h
  · refine .next (h.testRequest _ _ fun a i => ?_)
    split
    · next m p j d => exact h.setSt i ((h.st i).startTest m p j d)
    · exact h

theorem outWithin_testStop : OutWithin (execTestStop s) := by
  unfold execTestStop
  split
  · exact .next h
  · exact .next (h.testRequest _ _ fun a i => h.setSt i ((h.st i).endTest .stopped))

theorem outWithin_testInject : OutWithin (execTestInject s) := by
  unfold execTestInject
  split
  · exact .next h
  · exact .next (h.testRequest _ _ fun a i => h.setSt i ((h.st i).withLcu (l := { (s.st i).lcu with single := true })
      (h.st i).lcu))

/-- R178, R180: the reply is placed, and the grant released. -/
theorem outWithin_placeReply : OutWithin (execPlaceReply s) := by
  unfold execPlaceReply
  split
  · next r release done _ _ _ =>
    have hplaced : ∀ n : Notices, n.CountsLawful →
        State.CountersLaw { s with replySlot := some r, interp := .idle, notices := n } := fun n hn => h.withNotices hn
    refine .next ?_
    split
    · refine (hplaced _ ?_).grant _ fun g => g.release .interpreter
      split <;> exact h.notices
    · refine hplaced _ ?_
      split <;> exact h.notices
  · exact .next h

/-! ### The transmitter and the ring -/

theorem outWithin_txReplyStart : OutWithin (execTxReplyStart s) := by
  unfold execTxReplyStart
  split
  · exact .ite (.next h) (.next h)
  · exact .next h

/-- R184: the notice that starts leaves the set. -/
theorem outWithin_txNoticeStart : OutWithin (execTxNoticeStart s) := by
  unfold execTxNoticeStart
  split
  · exact .ite (.next (h.withNotices (h.notices.remove _))) (.next h)
  · exact .next h

theorem outWithin_txEntryStart : OutWithin (execTxEntryStart s) := by
  unfold execTxEntryStart
  split
  · exact .ite (.next h) (.next h)
  · exact .next h

theorem outWithin_txFrameEnd : OutWithin (execTxFrameEnd s) := by
  unfold execTxFrameEnd
  split
  · exact .ite (.next h) (.next h)
  · exact .next h

theorem outWithin_recordDeparture : OutWithin (execRecordDeparture s) := by
  unfold execRecordDeparture
  split
  · exact .ite (.next (State.CountersLaw.startService (s := { s with tx := none, ring := s.ring.depart }) h)) (.next h)
  · exact .next h

theorem outWithin_heldComposition : OutWithin (execHeldComposition s) := by
  unfold execHeldComposition
  split
  · exact .next h
  · exact .ite (.next ((h.commitHeld _ _ _).endService _).startService) (.next (h.endService _))

/-! ### The Keystroke Engine -/

theorem outWithin_keyPrintable (i : StationNo) : OutWithin (execKeyPrintable i s) := by
  unfold execKeyPrintable
  split
  · exact .next (h.treat i _ fun ht => ht.atEntryField (ht.typeChar _))
  · exact .next h

theorem outWithin_keyPf (i : StationNo) : OutWithin (execKeyPf i s) := by
  unfold execKeyPf
  split
  · exact .next (h.treatAttention i _ _)
  · exact .next h

theorem outWithin_scan (i : StationNo) : OutWithin (execScan i s) := by
  unfold execScan
  dsimp only
  split
  · exact .ite (.next ((h.routeScan i _ _).modSt i Station.Within.finishEvent)) (.next h)
  · exact .next h

/-! ### The station lines -/

theorem outWithin_runFrameStart (i : StationNo) : OutWithin (execRunFrameStart i s) := by
  unfold execRunFrameStart
  dsimp only
  split
  · exact .ite (.next (h.setSt i ((h.st i).startRun i _))) (.next h)
  · exact .next h

/-- R129: a run timeout is counted. -/
theorem outWithin_runTimeout (i : StationNo) : OutWithin (execRunTimeout i s) := by
  unfold execRunTimeout
  dsimp only
  split
  · next r _ =>
    have hreturned : ((s.st i).display.returnRun r).Within := (h.st i).display
    exact .ite (.next (h.setSt i ((h.st i).withDisplay hreturned.countTimeout))) (.next h)
  · exact .next h

/-! ### Every command -/

theorem outWithin_exec (c : Instr) : OutWithin (exec c s) := by
  cases c with
  | deviceReset => exact .next State.countersLaw_reset
  | hostRequestFrameComplete kind item body => exact .next (h.hostBytes _)
  | hostBadFrame bytes => exact .next (h.hostBytes _)
  | pause item body => exact .next (h.hostBytes _)
  | go item body => exact .next (h.hostBytes _)
  | requestTake => exact outWithin_requestTake h
  | form => exact outWithin_form h
  | readCells => exact outWithin_readCells h
  | readFields => exact outWithin_readFields h
  | readField => exact outWithin_readField h
  | readModified => exact outWithin_readModified h
  | readStatusStation => exact outWithin_readStatusStation h
  | readStatusDevice => exact outWithin_readStatusDevice h
  | configure => exact outWithin_configure h
  | stationReset => exact outWithin_stationReset h
  | unknownKind => exact outWithin_unknownKind h
  | testStart => exact outWithin_testStart h
  | testStop => exact outWithin_testStop h
  | testInject => exact outWithin_testInject h
  | placeReply => exact outWithin_placeReply h
  | txReplyStart => exact outWithin_txReplyStart h
  | txNoticeStart => exact outWithin_txNoticeStart h
  | txEntryStart => exact outWithin_txEntryStart h
  | txFrameEnd => exact outWithin_txFrameEnd h
  | recordDeparture => exact outWithin_recordDeparture h
  | heldComposition => exact outWithin_heldComposition h
  | eventTaken i => exact .ite (.next (h.modSt i Station.Within.takeEvent)) (.next h)
  | keyPrintable i => exact outWithin_keyPrintable h i
  | keyDelete i => exact .next (h.treat i _ fun ht => ht.atEntryField fun f => ht.editField f _)
  | keyEraseEof i => exact .next (h.treat i _ fun ht => ht.atEntryField fun f => ht.editField f _)
  | keyEraseInput i => exact .next (h.treat i _ fun ht => ht.blankOpenFront.moveCursor _)
  | keyInsert i => exact .next (h.treat i _ fun ht => ht.setInsert _)
  | keyReset i => exact .ite (.next (h.setSt i ((h.st i).openKeyboard.setInsert false).finishEvent)) (.next h)
  | keyRight i | keyLeft i | keyUp i | keyDown i | keyTab i | keyBacktab i | keyHome i | keyNewline i =>
    exact .next (h.treat i _ fun ht => ht.keyMove _)
  | keyEnter i | keyCancel i => exact .next (h.treatAttention i _ _)
  | keyPf i => exact outWithin_keyPf h i
  | scan i => exact outWithin_scan h i
  | keyFrameDelivery i item code => exact .next (h.upstream i _)
  | scanFrameDelivery i item symbology data => exact .next (h.upstream i _)
  | unitReady i item | unitHold i item | unitResync i item | unitRunBad i item | upstreamIdle i item =>
    exact .next (h.upstream i _)
  | unitRunOk i item number => exact .next (h.upstream i _)
  | upstreamRefusedFrame i item kind body => exact .next (h.upstream i _)
  | upstreamBadFrame i bytes => exact .next (h.upstream i _)
  | paceFrame i => exact .ite (.next (h.setSt i (t := (s.st i).sendPace i) (h.st i))) (.next h)
  | soundFrame i => exact .ite (.next (h.setSt i (t := (s.st i).sendSound i) (h.st i))) (.next h)
  | indicatorFrame i => exact .ite (.next (h.setSt i (t := (s.st i).sendIndicator i (s.isHeld i)) (h.st i))) (.next h)
  | runFrameStart i => exact outWithin_runFrameStart h i
  | cursorFrame i => exact .ite (.next (h.setSt i (t := (s.st i).sendCursor i) (h.st i))) (.next h)
  | downstreamFrameEnd i => exact .ite (.next (h.modSt i Station.Within.frameEnded)) (.next h)
  | idleMarkSend i => exact .ite (.next (h.setSt i ((h.st i).withPort (h.st i).port))) (.next h)
  | runTimeout i => exact outWithin_runTimeout h i
  | intervalClose i => exact .next (h.modSt i fun ht => ht.withMonitor ht.monitor.closeInterval)
  | windowEnd i => exact .ite (.next (h.judgeWindow i)) (.next h)
  | testBytePlaced i =>
    exact .ite (.next h) (.ite (.next (h.setSt i (h.st i).feedPattern))
      (.ite (.next (h.setSt i (h.st i).placePattern)) (.next h)))
  | testUpstreamByte i b => exact .ite (.next (h.modSt i fun ht => ht.echoByte b)) (.next h)
  | testReturnByte i b => exact .ite (.next (h.modSt i fun ht => ht.returnByte b)) (.next h)
  | testExpiry i =>
    exact .ite (.next ((h.setSt i ((h.st i).endTest .expired)).withNotices
      (n := s.notices.raiseTestDone i ((s.st i).lcu.contents .expired)) h.notices)) (.next h)

end

/-- Settles O8: each command keeps the law by what it does to the counters, and a millisecond counts nothing. -/
theorem countersStayWithinTheirWidths : Obligations.CountersStayWithinTheirWidths := by
  intro s s' h he
  unfold step at he
  split at he
  · injection he with he
    exact he ▸ h.tick
  · next c rest _ => exact outWithin_exec (s := { s with pending := rest }) h c s' he

end Sys2Proof.Machine
end
section
/-! PROOFS. A command about one station stays at it: of the state, its effect names the station, the Notice Set, the
ring and the held list alone (00_scope.md, R99, R183). -/

namespace Sys2Proof.Machine

/-- Another state differs from this one at one station, in the Notice Set, the ring and the held list alone. -/
def State.StaysAt (s : State) (i : StationNo) (s' : State) : Prop :=
  ∃ t notices ring held, s' = { s.setSt i t with notices := notices, ring := ring, held := held }

/-- An outcome whose next state differs so. -/
def OutStaysAt (s : State) (i : StationNo) (o : Host.Outcome State Fault Refusal) : Prop :=
  ∀ s', o = .next s' → s.StaysAt i s'

section

variable {s a b : State} {i : StationNo}

theorem State.StaysAt.setSt (s : State) (i : StationNo) (t : Station) : s.StaysAt i (s.setSt i t) :=
  ⟨t, _, _, _, rfl⟩

theorem State.StaysAt.modSt (s : State) (i : StationNo) (f : Station → Station) : s.StaysAt i (s.modSt i f) :=
  .setSt s i _

theorem State.StaysAt.refl (s : State) (i : StationNo) : s.StaysAt i s :=
  ⟨s.st i, s.notices, s.ring, s.held, by rw [State.setSt_same]⟩

theorem State.StaysAt.trans (m : s.StaysAt i a) (n : a.StaysAt i b) : s.StaysAt i b := by
  obtain ⟨t, notices, ring, held, rfl⟩ := m
  obtain ⟨t', notices', ring', held', rfl⟩ := n
  refine ⟨t', notices', ring', held', ?_⟩
  rw [← State.setSt_setSt s i t t']
  rfl

/-- Every other station is as it was. -/
theorem State.StaysAt.st_ne (m : s.StaysAt i a) {j : StationNo} (h : j ≠ i) : a.st j = s.st j := by
  obtain ⟨t, notices, ring, held, rfl⟩ := m
  exact State.st_setSt_ne s t h

theorem OutStaysAt.next (m : s.StaysAt i a) : OutStaysAt s i (.next a) := fun s' he => by
  injection he with he
  exact he ▸ m

theorem OutStaysAt.ite {p : Prop} [Decidable p] {x y : Host.Outcome State Fault Refusal} (hx : OutStaysAt s i x)
    (hy : OutStaysAt s i y) : OutStaysAt s i (if p then x else y) := by
  split
  · exact hx
  · exact hy

/-- A command whose conditions do not hold changes nothing (log entry 2). -/
theorem OutStaysAt.iteNext {p : Prop} [Decidable p] (m : s.StaysAt i a) :
    OutStaysAt s i (if p then .next a else .next s) := .ite (.next m) (.next (.refl s i))

end

section

variable (s : State) (i : StationNo)

/-! ### The Keystroke Engine and the attentions -/

theorem staysAt_treat (k : Key) (f : Station → Station) : s.StaysAt i (s.treat i k f) := by
  unfold State.treat
  split
  · exact .modSt s i _
  · exact .refl s i

/-- R107, R112: a composition commits to the ring or joins the held list, and may raise RING-HALF or ENTRY-HELD. -/
theorem staysAt_compose (k : Attention) (b : Bool) : s.StaysAt i (s.compose i k b) := by
  unfold State.compose
  split
  · exact ⟨_, _, _, _, rfl⟩
  · exact ⟨_, _, _, _, rfl⟩

theorem staysAt_attention (k : Attention) (b : Bool) : s.StaysAt i (s.attention i k b) := by
  unfold State.attention
  split
  · exact .modSt s i _
  · exact (State.StaysAt.modSt s i _).trans (staysAt_compose _ i k b)

theorem staysAt_treatAttention (k : Key) (a : Attention) : s.StaysAt i (s.treatAttention i k a) := by
  unfold State.treatAttention
  split
  · exact (staysAt_attention s i a false).trans (.modSt _ i _)
  · exact .refl s i

theorem staysAt_fillAndAct (f : Field) (fill : List Byte) (a : AfterFill) : s.StaysAt i (s.fillAndAct i f fill a) := by
  have hfill : s.StaysAt i (s.modSt i fun t => t.fillField f fill) := .modSt s i _
  cases a with
  | nextField | stay => exact hfill.trans (.setSt _ i _)
  | send => exact hfill.trans (staysAt_attention _ i .enter true)

theorem staysAt_routeScan (n : Nat) (data : List Byte) : s.StaysAt i (s.routeScan i n data) := by
  unfold State.routeScan
  dsimp only
  split
  · exact .setSt s i _
  · split
    · exact .setSt s i _
    · split
      · exact .setSt s i _
      · split
        · exact .setSt s i _
        · exact staysAt_fillAndAct s i _ _ _

theorem outStaysAt_keyPrintable : OutStaysAt s i (execKeyPrintable i s) := by
  unfold execKeyPrintable
  split
  · exact .next (staysAt_treat s i _ _)
  · exact .next (.refl s i)

theorem outStaysAt_keyPf : OutStaysAt s i (execKeyPf i s) := by
  unfold execKeyPf
  split
  · exact .next (staysAt_treatAttention s i _ _)
  · exact .next (.refl s i)

theorem outStaysAt_scan : OutStaysAt s i (execScan i s) := by
  unfold execScan
  dsimp only
  split
  · exact .iteNext ((staysAt_routeScan s i _ _).trans (.modSt _ i _))
  · exact .next (.refl s i)

/-! ### The station lines -/

/-- R57, R58: an event joins its station's queue, or its OVERFLOW is raised. -/
theorem staysAt_deliverEvent (e : Event) : s.StaysAt i (s.deliverEvent i e) := by
  unfold State.deliverEvent
  dsimp only
  split
  · exact .setSt s i _
  · exact ⟨_, _, _, _, rfl⟩

theorem staysAt_deliver (u : Upstream) : s.StaysAt i (s.deliver i u) := by
  cases u with
  | event e => exact staysAt_deliverEvent s i e
  | idle => exact .refl s i
  | unitReady | unitHold | unitResync | unitRunOk | unitRunBad | refused => exact .setSt s i _

theorem staysAt_received (r : RxResult) : s.StaysAt i (s.received i r) := by
  cases r with
  | bad => exact .setSt s i _
  | good f => exact (State.StaysAt.modSt s i _).trans (staysAt_deliver _ i _)

theorem staysAt_receivedAll (rs : List RxResult) : s.StaysAt i (rs.foldl (fun s r => s.received i r) s) := by
  induction rs generalizing s with
  | nil => exact .refl s i
  | cons r rs ih => exact (staysAt_received s i r).trans (ih _)

/-- R143, R149: upstream bytes go to their station's port, or to its Line Check Unit. -/
theorem staysAt_upstream (bytes : List Byte) : s.StaysAt i (s.upstream i bytes) := by
  unfold State.upstream
  split
  · exact .modSt s i _
  · exact (State.StaysAt.modSt s i _).trans (staysAt_receivedAll _ i _)

/-- R152: a judgement that changes the declaration raises STATION-CHANGE. -/
theorem staysAt_judgeWindow : s.StaysAt i (s.judgeWindow i) := by
  unfold State.judgeWindow
  dsimp only
  split
  · exact .setSt s i _
  · exact ⟨_, _, _, _, rfl⟩

theorem outStaysAt_runFrameStart : OutStaysAt s i (execRunFrameStart i s) := by
  unfold execRunFrameStart
  dsimp only
  split
  · exact .iteNext (.setSt s i _)
  · exact .next (.refl s i)

theorem outStaysAt_runTimeout : OutStaysAt s i (execRunTimeout i s) := by
  unfold execRunTimeout
  dsimp only
  split
  · exact .iteNext (.setSt s i _)
  · exact .next (.refl s i)

/-- R161: the byte of a NEAR or an ECHO test. -/
theorem outStaysAt_testBytePlaced : OutStaysAt s i (execTestBytePlaced i s) :=
  .ite (.next (.refl s i)) (.ite (.next (.setSt s i _)) (.iteNext (.setSt s i _)))

/-- R169: an expiry raises TEST-DONE. -/
theorem outStaysAt_testExpiry : OutStaysAt s i (execTestExpiry i s) := .iteNext ⟨_, _, _, _, rfl⟩

end

/-! ### Every command about a station -/

theorem outStaysAt_exec (s : State) {i : StationNo} {c : Instr} (h : stationOfCommand c = some i) :
    OutStaysAt s i (exec c s) := by
  match c, h with
  | .eventTaken i, rfl => exact .iteNext (.modSt s i _)
  | .keyPrintable i, rfl => exact outStaysAt_keyPrintable s i
  | .keyDelete i, rfl | .keyEraseEof i, rfl | .keyEraseInput i, rfl | .keyInsert i, rfl | .keyRight i, rfl
  | .keyLeft i, rfl | .keyUp i, rfl | .keyDown i, rfl | .keyTab i, rfl | .keyBacktab i, rfl | .keyHome i, rfl
  | .keyNewline i, rfl => exact .next (staysAt_treat s i _ _)
  | .keyReset i, rfl => exact .iteNext (.setSt s i _)
  | .keyEnter i, rfl | .keyCancel i, rfl => exact .next (staysAt_treatAttention s i _ _)
  | .keyPf i, rfl => exact outStaysAt_keyPf s i
  | .scan i, rfl => exact outStaysAt_scan s i
  | .keyFrameDelivery i _ _, rfl | .scanFrameDelivery i _ _ _, rfl | .unitReady i _, rfl | .unitHold i _, rfl
  | .unitResync i _, rfl | .unitRunOk i _ _, rfl | .unitRunBad i _, rfl | .upstreamIdle i _, rfl
  | .upstreamRefusedFrame i _ _ _, rfl | .upstreamBadFrame i _, rfl => exact .next (staysAt_upstream s i _)
  | .paceFrame i, rfl | .soundFrame i, rfl | .indicatorFrame i, rfl | .cursorFrame i, rfl
  | .downstreamFrameEnd i, rfl => exact .iteNext (.modSt s i _)
  | .runFrameStart i, rfl => exact outStaysAt_runFrameStart s i
  | .idleMarkSend i, rfl => exact .iteNext (.setSt s i _)
  | .runTimeout i, rfl => exact outStaysAt_runTimeout s i
  | .intervalClose i, rfl => exact .next (.modSt s i _)
  | .windowEnd i, rfl => exact .iteNext (staysAt_judgeWindow s i)
  | .testBytePlaced i, rfl => exact outStaysAt_testBytePlaced s i
  | .testUpstreamByte i _, rfl | .testReturnByte i _, rfl => exact .iteNext (.modSt s i _)
  | .testExpiry i, rfl => exact outStaysAt_testExpiry s i

/-- Settles O3: the command's next state is the state with its station, the Notice Set, the ring and the held list put
anew; the other fields are those of the state. -/
theorem stationCommandsStayAtTheirStation : Obligations.StationCommandsStayAtTheirStation := by
  intro c i s t hc he
  have hstays : s.StaysAt i t := outStaysAt_exec s hc t he
  refine ⟨fun j hj => hstays.st_ne hj, ?_⟩
  obtain ⟨u, notices, ring, held, rfl⟩ := hstays
  exact ⟨rfl, rfl, rfl, rfl, rfl, rfl, rfl, rfl, rfl, rfl, rfl⟩

end Sys2Proof.Machine
end
section
/-! PROOFS. Scan routing (R86, R89 to R97): the route, the target, the fill, the after-fill action. -/

namespace Sys2Proof.Machine

/-! ### The route (R89) -/

theorem Route.routes_iff {r : Route} {sym : Nat} {data : List Byte} :
    r.routes sym data = true ↔ r.symbology ≠ 0 ∧ r.symbology = sym ∧ r.lead <+: data := by
  simp [Route.routes, and_assoc]

theorem Station.routeOf_none {t : Station} {sym : Nat} {data : List Byte}
    (h : ∀ r ∈ t.routes.toList, ¬ (r.symbology ≠ 0 ∧ r.symbology = sym ∧ r.lead <+: data)) :
    t.routeOf sym data = none :=
  List.find?_eq_none.mpr fun r hr => by rw [Route.routes_iff]; exact h r hr

theorem Station.routeOf_first {t : Station} {sym : Nat} {data : List Byte} {before after : List Route} {r : Route}
    (hroutes : t.routes.toList = before ++ r :: after) (hr : r.symbology ≠ 0 ∧ r.symbology = sym ∧ r.lead <+: data)
    (hbefore : ∀ q ∈ before, ¬ (q.symbology ≠ 0 ∧ q.symbology = sym ∧ q.lead <+: data)) :
    t.routeOf sym data = some r := by
  refine List.find?_eq_some_iff_append.mpr ⟨Route.routes_iff.mpr hr, before, after, hroutes, fun q hq => ?_⟩
  rw [Bool.not_eq_true', ← Bool.not_eq_true, Route.routes_iff]
  exact hbefore q hq

/-! ### The target (R91) -/

section

variable {p : Page} {cls : FieldClass} {f : Field}

/-- R91: the field holding the cursor. -/
theorem Page.scanTarget_holding (h : FirstField p.fields
    (fun g => g.protection = .openEntry ∧ g.cls = cls ∧ g.covers p.cursor = true) f) :
    p.scanTarget cls = some f := by
  have hfind := Page.find?_openFields_first (q := fun g => g.covers p.cursor && g.cls = cls)
    (fun g => by simp [and_comm]) h
  simp only [Page.scanTarget, hfind]

section

variable (hout : ∀ g ∈ p.fields, g.protection = .openEntry → g.cls = cls → g.covers p.cursor = false)

include hout

/-- R91: no field of the class holds the cursor, and the fields whose value text is empty are searched. -/
theorem Page.scanTarget_outside : p.scanTarget cls = p.openFields.find? fun g => g.cls = cls && p.valueOf g = [] := by
  have hnone : p.openFields.find? (fun g => g.covers p.cursor && g.cls = cls) = none :=
    Page.find?_openFields_none fun g hg ho => by
      by_cases hc : g.cls = cls
      · rw [hout g hg ho hc, Bool.false_and]
      · rw [decide_eq_false hc, Bool.and_false]
  simp only [Page.scanTarget, hnone]

/-- R91: the first empty field. -/
theorem Page.scanTarget_empty (h : FirstField p.fields
    (fun g => g.protection = .openEntry ∧ g.cls = cls ∧ p.valueOf g = []) f) : p.scanTarget cls = some f := by
  rw [Page.scanTarget_outside hout]
  exact Page.find?_openFields_first (fun g => by simp) h

theorem Page.scanTarget_none
    (hfull : ∀ g ∈ p.fields, g.protection = .openEntry → g.cls = cls → p.valueOf g ≠ []) :
    p.scanTarget cls = none := by
  rw [Page.scanTarget_outside hout]
  refine Page.find?_openFields_none fun g hg ho => ?_
  by_cases hc : g.cls = cls
  · rw [decide_eq_false (hfull g hg ho hc), Bool.and_false]
  · rw [decide_eq_false hc, Bool.false_and]

end

end

/-! ### The steps of routing (R86, R89 to R97) -/

theorem fillPasses_iff {f : Field} {fill : List Byte} :
    fillPasses f fill = true ↔ (∀ ch ∈ fill, accepts f.cls ch = true) ∧ exitRule f (valueText fill) = true := by
  simp [fillPasses]

section

variable {s : State} {i : StationNo} {sym : Nat} {data : List Byte}

/-- R60, R86: the scan in hand is routed, and the event completes. -/
theorem exec_scan (h : s.Treating i (.scan sym data)) : exec (.scan i) s
    = .next ((s.routeScan i sym data).setSt i ((s.routeScan i sym data).st i).finishEvent) := by
  obtain ⟨hkb, htaken, hholder⟩ := h
  show execScan i s = _
  simp only [execScan, hkb, htaken, hholder, and_self, if_true]
  rfl

/-- R60, R86: routing that puts its station back anew, and the event's completion. -/
theorem exec_scan_setSt (h : s.Treating i (.scan sym data)) {t : Station}
    (hr : s.routeScan i sym data = s.setSt i t) : exec (.scan i) s = .next (s.setSt i t.finishEvent) := by
  rw [exec_scan h, hr, State.st_setSt_self, State.setSt_setSt]

/-- R89: SCAN-UNROUTED. -/
theorem State.routeScan_unrouted (h : (s.st i).routeOf sym data = none) :
    s.routeScan i sym data = s.setSt i ((s.st i).enterLocked .scanUnrouted none) := by
  simp only [State.routeScan, h]

section

variable {r : Route} (hroute : (s.st i).routeOf sym data = some r)

include hroute

/-- R91: SCAN-NO-FIELD. -/
theorem State.routeScan_noField (h : (s.st i).front.scanTarget r.cls = none) :
    s.routeScan i sym data = s.setSt i ((s.st i).enterLocked .scanNoField none) := by
  simp only [State.routeScan, hroute, h]

section

variable {f : Field} {fill : List Byte} (htarget : (s.st i).front.scanTarget r.cls = some f)
  (hfill : fill = (data.drop r.strip).map (raisedFor f.cls))

include htarget hfill

/-- R92: SCAN-TOO-LONG. -/
theorem State.routeScan_tooLong (h : f.len < fill.length) :
    s.routeScan i sym data = s.setSt i ((s.st i).enterLocked .scanTooLong none) := by
  rw [hfill, List.length_map] at h
  simp only [State.routeScan, hroute, htarget, gt_iff_lt, h, if_true]

/-- R93, R94: the fill is tested, and acted upon if it passes. -/
theorem State.routeScan_fits (h : fill.length ≤ f.len) : s.routeScan i sym data =
    if fillPasses f fill = true then s.fillAndAct i f fill r.after
      else s.setSt i ((s.st i).enterLocked .badEntry (some f.tag)) := by
  have hlen : ¬ f.len < (data.drop r.strip).length := by
    rw [hfill, List.length_map] at h
    omega
  simp only [State.routeScan, hroute, htarget, gt_iff_lt, hlen, if_false, ← hfill]
  cases fillPasses f fill <;> rfl

end

end

end

/-- R96: NEXT-FIELD moves the cursor with no exit rule. -/
theorem State.fillAndAct_nextField (s : State) (i : StationNo) (f : Field) (fill : List Byte) :
    s.fillAndAct i f fill .nextField
      = s.setSt i (((s.st i).fillField f fill).moveCursor ((s.st i).front.nextOpen f.start)) := by
  simp only [State.fillAndAct, State.modSt, State.st_setSt_self, State.setSt_setSt, Station.fillField,
    Station.withFront_front, Page.nextOpen_edit]

/-- R96: STAY moves it to the field's start. -/
theorem State.fillAndAct_stay (s : State) (i : StationNo) (f : Field) (fill : List Byte) :
    s.fillAndAct i f fill .stay = s.setSt i (((s.st i).fillField f fill).moveCursor f.start) := by
  simp only [State.fillAndAct, State.modSt, State.st_setSt_self, State.setSt_setSt]

/-- R97: SEND performs ENTER by scan. -/
theorem State.fillAndAct_send (s : State) (i : StationNo) (f : Field) (fill : List Byte) :
    s.fillAndAct i f fill .send = (s.setSt i ((s.st i).fillField f fill)).attention i .enter true := rfl

/-- Settles O50: the route by its first matching entry, the target by R91's two searches, the fill by its length and
its tests, the after-fill action by its kind. -/
theorem scanIsRoutedOrLocks : Obligations.ScanIsRoutedOrLocks := by
  rintro s i sym data t rfl h
  refine ⟨fun hnone => exec_scan_setSt h (State.routeScan_unrouted (Station.routeOf_none hnone)),
    fun before r after hroutes hsym heq hlead hbefore => ?_⟩
  have hroute := Station.routeOf_first hroutes ⟨hsym, heq, hlead⟩ hbefore
  refine ⟨fun hno => ?noField, fun f fill hf hfill => ?_⟩
  case noField =>
    have htarget : (s.st i).front.scanTarget r.cls = none :=
      Page.scanTarget_none (fun g hg ho hc => (hno g hg ho hc).left) fun g hg ho hc => (hno g hg ho hc).right
    exact exec_scan_setSt h (State.routeScan_noField hroute htarget)
  have htarget : (s.st i).front.scanTarget r.cls = some f := by
    rcases hf with hhold | ⟨hout, hempty⟩
    · exact Page.scanTarget_holding hhold
    · exact Page.scanTarget_empty hout hempty
  refine ⟨fun hlong => exec_scan_setSt h (State.routeScan_tooLong hroute htarget hfill hlong), fun hfit => ?_⟩
  have hfits := State.routeScan_fits hroute htarget hfill hfit
  rw [← fillPasses_iff]
  refine ⟨fun hbad => exec_scan_setSt h (hfits.trans (if_neg hbad)), fun hch hexit t' ht' => ?_⟩
  have hfilled := hfits.trans (if_pos (fillPasses_iff.mpr ⟨hch, hexit⟩))
  have hwritten : (s.st i).fillField f fill = t' := ht'.symm
  refine ⟨fun ha => ?nextField, fun ha => ?stay, fun ha => ?send⟩
  case nextField => exact exec_scan_setSt h (by rw [hfilled, ha, State.fillAndAct_nextField, hwritten])
  case stay => exact exec_scan_setSt h (by rw [hfilled, ha, State.fillAndAct_stay, hwritten])
  case send =>
    rw [exec_scan h, hfilled, ha, State.fillAndAct_send, hwritten]
    exact ⟨_, State.attention_leaves _ i .enter true, rfl⟩

end Sys2Proof.Machine
end
section
/-! PROOFS. The laws of the allocator that every step keeps: the Inbound Ring's (R109) and the held list's (R112,
R114). -/

namespace Sys2Proof.Machine

/-! ### What a step does to the allocator -/

/-- R107 to R117: the steps as the allocator sees them: it is left alone, or an attention reaches it at a station, or
the step is one of its own commands or a reset. -/
inductive AllocatorStep (s s' : State) : Prop where
  | alone (h : SameAllocator s s')
  | attention (i : StationNo) (h : AttentionOutcome s s' i)
  | composition (h : execHeldComposition s = .next s')
  | departure (h : execRecordDeparture s = .next s')
  | stationReset (h : execStationReset s = .next s')
  | deviceReset (h : execDeviceReset s = .next s')

theorem exec_allocatorStep {c : Instr} {s s' : State} (he : exec c s = .next s') : AllocatorStep s s' := by
  by_cases hc : touchesAllocator c = true
  · rcases touchesAllocator_cases hc with rfl | rfl | rfl | rfl | ⟨i, hi⟩
    · exact .deviceReset he
    · exact .stationReset he
    · exact .departure he
    · exact .composition he
    · exact .attention i (attentionOutcome_exec c i s s' hi he)
  · exact .alone (sameAllocator_exec c s s' (Bool.eq_false_iff.mpr hc) he)

/-- A step is one of these from the state with the queue's rest; the millisecond of an empty queue leaves the allocator
alone. -/
theorem step_allocatorStep {s s' : State} (he : step s = .next s') :
    ∃ q, AllocatorStep { s with pending := q } s' := by
  unfold step at he
  split at he
  · injection he with he
    subst he
    exact ⟨s.pending, .alone ⟨rfl, rfl, rfl⟩⟩
  · next c rest hq => exact ⟨rest, exec_allocatorStep he⟩

/-! ### The Inbound Ring (R109) -/

/-- R108, R111, R116: what becomes of the ring: it stays, takes a record that fits, loses its head, or is reset. -/
inductive RingChange (r : Ring) : Ring → Prop where
  | same : RingChange r r
  | append (i : StationNo) (bytes : List Byte) (hfits : bytes.length ≤ r.free) : RingChange r (r.append i bytes)
  | depart : RingChange r r.depart
  | reset : RingChange r Ring.reset

theorem RingChange.keeps_lawful {r r' : Ring} (m : RingChange r r') (h : r.Lawful) : r'.Lawful := by
  cases m with
  | same => exact h
  | append i bytes hfits => exact h.append i bytes hfits
  | depart => exact h.depart
  | reset => exact Ring.lawful_reset

theorem RingChange.of_eq {r r' : Ring} (h : r' = r) : RingChange r r' := h ▸ .same

theorem AllocatorStep.ringChange {s s' : State} (m : AllocatorStep s s') : RingChange s.ring s'.ring := by
  cases m with
  | alone h => exact .of_eq h.ring
  | attention i h =>
    rcases h.cases with ⟨hr, -⟩ | ⟨bytes, hfits, hr, -⟩ | ⟨hr, -⟩
    · exact .of_eq hr
    · exact hr ▸ .append i bytes hfits
    · exact .of_eq hr
  | composition h =>
    rcases heldComposition_allocator s s' h with ⟨hr, -⟩ | ⟨i, -, -, -, bytes, -, -, hfits, hr, -⟩
    · exact .of_eq hr
    · exact hr ▸ .append i bytes hfits
  | departure h =>
    obtain ⟨-, ⟨hr, -⟩ | ⟨hr, -⟩⟩ := recordDeparture_allocator s s' h
    · exact .of_eq hr
    · exact hr ▸ .depart
  | stationReset h => exact .of_eq (stationReset_allocator s s' h).1
  | deviceReset h =>
    injection h with h
    subst h
    exact .reset

/-- Settles O11: each change of the ring keeps its law. -/
theorem ringLawKept : Obligations.RingLawKept := by
  intro s s' hs he
  obtain ⟨q, m⟩ := step_allocatorStep he
  exact m.ringChange.keeps_lawful hs

/-! ### The held list (R112, R114) -/

/-- R103, R117: a station that is WAITING with an attention held stays so through a step; device reset leaves it
WAITING too. -/
theorem step_keeps_waiting {s s' : State} (he : step s = .next s') {h : Held} (hh : h ∈ s.held)
    (hw : (s.st h.station).engine.kb = .waiting) : (s'.st h.station).engine.kb = .waiting := by
  have hheld : s.isHeld h.station = true := List.any_eq_true.mpr ⟨h, hh, decide_eq_true rfl⟩
  rcases moves_step s s' he with m | m
  · exact (hheld ▸ m h.station).waiting hw
  · rw [m]
    rfl

section

variable {s s' : State} (hl : s.HeldLaw) (hw : ∀ h ∈ s.held, (s'.st h.station).engine.kb = .waiting)

include hl hw

/-- R112, R114: attentions leave the list, or none do; a service that goes on is that of the head that is left. -/
theorem State.HeldLaw.of_sublist (hsub : s'.held.Sublist s.held)
    (hserv : ∀ i, s'.service = some i → s'.held.head?.map Held.station = some i) : s'.HeldLaw := by
  obtain ⟨hnodup, -, -⟩ := hl
  exact ⟨hnodup.sublist (hsub.map _), fun h hh => hw h (hsub.subset hh), hserv⟩

/-- R112: the list stays, and so does the service, or it ends. -/
theorem State.HeldLaw.of_same (hheld : s'.held = s.held) (hserv : s'.service = s.service ∨ s'.service = none) :
    s'.HeldLaw := by
  refine hl.of_sublist hw (hheld ▸ .refl _) fun i hi => ?_
  obtain ⟨-, -, hhead⟩ := hl
  rcases hserv with h | h
  · rw [hheld]
    exact hhead i (h ▸ hi)
  · rw [h] at hi
    cases hi

/-- R112: the attention of a station that was OPEN and is WAITING joins the tail. -/
theorem State.HeldLaw.of_joined {h : Held} (hheld : s'.held = s.held ++ [h]) (hserv : s'.service = s.service)
    (hopen : (s.st h.station).engine.kb = .opened) (hwait : (s'.st h.station).engine.kb = .waiting) : s'.HeldLaw := by
  obtain ⟨hnodup, hwaiting, hhead⟩ := hl
  have hnew : h.station ∉ s.held.map Held.station := by
    intro hm
    obtain ⟨g, hg, hgh⟩ := List.mem_map.mp hm
    have := hwaiting g hg
    rw [hgh, hopen] at this
    cases this
  refine ⟨?_, fun g hg => ?_, fun i hi => ?_⟩
  · rw [hheld, List.map_append]
    exact List.concat_eq_append ▸ hnodup.concat hnew
  · rw [hheld] at hg
    rcases List.mem_append.mp hg with hg | hg
    · exact hw g hg
    · rw [List.mem_singleton.mp hg]
      exact hwait
  · have := hhead i (hserv ▸ hi)
    rw [hheld]
    cases hlist : s.held with
    | nil =>
      rw [hlist] at this
      cases this
    | cons g rest => simpa [hlist] using this

/-- R117: a station reset leaves the service at the head: that of another station stays, and one at the station goes on
with the new head. -/
theorem State.HeldLaw.stationReset (he : execStationReset s = .next s') : s'.HeldLaw := by
  obtain ⟨-, ⟨hheld, hserv⟩ | ⟨i, hheld, hserv, hgoes, hstays⟩⟩ := stationReset_allocator s s' he
  · exact hl.of_same hw hheld (.inl hserv)
  refine hl.of_sublist hw (hheld ▸ List.filter_sublist) fun j hj => ?_
  obtain ⟨-, -, hhead⟩ := hl
  by_cases hi : s.service = some i
  · exact hgoes j hj hi
  rcases hserv with h | h
  · rw [if_neg hi] at h
    have hjs : s.service = some j := h ▸ hj
    have hji : j ≠ i := fun e => hi (e ▸ hjs)
    have hfirst := hhead j hjs
    cases hlist : s.held with
    | nil =>
      rw [hlist] at hfirst
      cases hfirst
    | cons g rest =>
      obtain rfl : g.station = j := by simpa [hlist] using hfirst
      simp [hheld, hlist, hji]
  · exact h ▸ hj

theorem AllocatorStep.keeps_heldLaw (m : AllocatorStep s s') : s'.HeldLaw := by
  cases m with
  | alone h => exact hl.of_same hw h.held (.inl h.service)
  | attention i h =>
    rcases h.cases with ⟨-, hheld⟩ | ⟨-, -, -, hheld⟩ | ⟨-, ⟨k, b, hheld⟩, hopen, hwait⟩
    · exact hl.of_same hw hheld (.inl h.service)
    · exact hl.of_same hw hheld (.inl h.service)
    · exact hl.of_joined hw hheld h.service hopen hwait
  | composition h =>
    rcases heldComposition_allocator s s' h with ⟨-, hheld, hserv⟩ | ⟨i, k, b, rest, -, hlist, -, -, -, hheld, hserv⟩
    · exact hl.of_same hw hheld hserv
    · refine hl.of_sublist hw ?_ fun j hj => ?_
      · rw [hheld, hlist]
        exact List.sublist_cons_self _ _
      · rw [hheld, ← hserv, hj]
  | departure h =>
    obtain ⟨hheld, ⟨-, hserv⟩ | ⟨-, hserv | ⟨-, hserv⟩⟩⟩ := recordDeparture_allocator s s' h
    · exact hl.of_same hw hheld (.inl hserv)
    · exact hl.of_same hw hheld (.inl hserv)
    · refine hl.of_sublist hw (hheld ▸ .refl _) fun j hj => ?_
      rw [hheld, ← hserv, hj]
  | stationReset h => exact hl.stationReset hw h
  | deviceReset h =>
    injection h with h
    subst h
    exact State.heldLaw_reset

end

/-- Settles O12: a held station stays WAITING through every step, and each change of list and service keeps the rest. -/
theorem heldLawKept : Obligations.HeldLawKept := by
  intro s s' hs he
  obtain ⟨q, m⟩ := step_allocatorStep he
  have ⟨_, hwaiting, _⟩ := hs
  exact m.keeps_heldLaw (s := { s with pending := q }) hs fun h hh => step_keeps_waiting he hh (hwaiting h hh)

end Sys2Proof.Machine
end
section
/-! PROOFS. The bytes of the ring, the departure of a record and the composition of a held attention (R108, R109, R111,
R114). -/

namespace Sys2Proof.Machine

/-! ### The bytes of the ring (R109, R111) -/

theorem Ring.bytesAt_congr {r r' : Ring} {a b n : Nat}
    (h : ∀ k < n, Sparse.read 0 ((a + k) % ringSize) r.store = Sparse.read 0 ((b + k) % ringSize) r'.store) :
    r.bytesAt a n = r'.bytesAt b n :=
  List.map_congr_left fun k hk => h k (List.mem_range.mp hk)

/-- R109: bytes written round the ring stand at the places after the offset, as far as they reach. -/
theorem Ring.read_written (bytes : List Byte) (m : Sparse Byte) {off k : Nat} (hlen : bytes.length ≤ ringSize)
    (hoff : off < ringSize) (hk : k < bytes.length) :
    Sparse.read 0 ((off + k) % ringSize) (Sparse.writeRing 0 ringSize off bytes m) = bytes[k] := by
  rw [Sparse.read_writeRing _ (by decide) _ _ _ hlen hoff _ (by omega), dif_pos hk]

/-- R109: the places further on keep what they hold, all round to the offset. -/
theorem Ring.read_unwritten (bytes : List Byte) (m : Sparse Byte) {off k : Nat} (hoff : off < ringSize)
    (hk : bytes.length ≤ k) (hsize : k < ringSize) :
    Sparse.read 0 ((off + k) % ringSize) (Sparse.writeRing 0 ringSize off bytes m)
      = Sparse.read 0 ((off + k) % ringSize) m := by
  rw [Sparse.read_writeRing _ (by decide) _ _ _ (by omega) hoff _ hsize, dif_neg (by omega)]

section

variable {r : Ring} (hr : r.Lawful)

include hr

theorem Ring.Lawful.writeOff_lt : r.writeOff < ringSize := by
  obtain ⟨-, -, -, hwrite, -⟩ := hr
  rw [hwrite]
  exact Nat.mod_lt _ (by decide)

/-- R109: a record that fits reads back whole. -/
theorem Ring.Lawful.bytesAt_append_record (i : StationNo) {bytes : List Byte} (hfits : bytes.length ≤ r.free) :
    (r.append i bytes).bytesAt r.writeOff bytes.length = bytes := by
  have hlen : bytes.length ≤ ringSize := hfits.trans (Nat.sub_le _ _)
  refine List.ext_getElem (by simp [Ring.bytesAt]) fun k _ hk => ?_
  simp only [Ring.bytesAt, List.getElem_map, List.getElem_range]
  exact Ring.read_written bytes r.store hlen hr.writeOff_lt hk

/-- R109: the bytes of the records before it stay: from the write offset on they lie beyond the free space. -/
theorem Ring.Lawful.bytesAt_append_before (i : StationNo) {bytes : List Byte} (hfits : bytes.length ≤ r.free) :
    (r.append i bytes).bytesAt r.readOff r.occupancy = r.bytesAt r.readOff r.occupancy := by
  refine Ring.bytesAt_congr fun k hk => ?_
  have hplace : (r.readOff + k) % ringSize = (r.writeOff + (r.free + k)) % ringSize := by
    obtain ⟨-, hocc, -, hwrite, -⟩ := hr
    simp only [hwrite, Ring.free, ringSize]
    omega
  rw [hplace]
  refine Ring.read_unwritten bytes r.store hr.writeOff_lt (by omega) ?_
  obtain ⟨-, hocc, -⟩ := hr
  simp only [Ring.free, ringSize]
  omega

/-- R109: the size of the head record is part of the occupancy. -/
theorem Ring.Lawful.head_size_le {e : RecordEntry} {rest : List RecordEntry} (he : r.records = e :: rest) :
    e.size ≤ r.occupancy := by
  obtain ⟨hsum, -⟩ := hr
  rw [hsum, he, List.map_cons, List.sum_cons]
  exact Nat.le_add_right _ _

/-- R111: the departure of the head leaves the bytes of the other records. -/
theorem Ring.Lawful.bytesAt_depart {e : RecordEntry} {rest : List RecordEntry} (he : r.records = e :: rest) :
    r.depart.bytesAt r.depart.readOff r.depart.occupancy = r.bytesAt (r.readOff + e.size) (r.occupancy - e.size) := by
  have hsize := hr.head_size_le he
  obtain ⟨-, hocc, hread, -⟩ := hr
  simp only [Ring.depart, he]
  refine Ring.bytesAt_congr fun k hk => ?_
  rw [Nat.mod_add_mod, Nat.add_assoc]
  exact Ring.read_unwritten _ r.store hread (by simp) (by simp only [ringSize]; omega)

end

/-! ### The departure of a record (R111, R114) -/

theorem exec_recordDeparture {s : State} {l : LineFrame} (ht : s.tx = some l) (hk : l.frame.kind = 0x62) :
    exec .recordDeparture s = .next (State.startService { s with tx := none, ring := s.ring.depart }) := by
  show execRecordDeparture s = _
  simp only [execRecordDeparture, ht, hk, kindEntry, if_true]

/-- R114: no service starts while one is in progress, nor from an empty list. -/
theorem State.startService_none {s : State} (h : s.service ≠ none ∨ s.held = []) : s.startService = s := by
  rcases h with h | h
  · exact State.startService_inProgress h
  · cases hs : s.service with
    | none => simp only [State.startService, hs, h]
    | some i => exact State.startService_inProgress (hs ▸ nofun)

/-- R114: a service begins at the grant of the head's station. -/
theorem State.startService_begins {s : State} {h : Held} {rest : List Held} (hs : s.service = none)
    (hh : s.held = h :: rest) : s.startService.service = some h.station
      ∧ ∀ j, s.startService.st j = { s.st j with
          grant := if j = h.station then (s.st j).grant.raise .engine else (s.st j).grant } := by
  have hserv : s.startService.service = some h.station := by rw [State.startService_service_head hs, hh]; rfl
  refine ⟨hserv, fun j => ?_⟩
  rw [State.st_startService hs, hserv]
  simp only [Option.some.injEq, eq_comm (a := h.station)]

/-- Settles O41: what an append and a departure do to the ring's bytes, and the service that may start. -/
theorem recordsLieWholeAndDepart : Obligations.RecordsLieWholeAndDepart := by
  refine ⟨fun r hr => ⟨fun i bytes hfits => ?append, fun e rest he => ?depart⟩, fun s l ht hk => ?departure⟩
  case append =>
    exact ⟨hr.bytesAt_append_record i hfits, hr.bytesAt_append_before i hfits, rfl, rfl, rfl, rfl⟩
  case depart =>
    refine ⟨?_, ?_, ?_, ?_, hr.bytesAt_depart he⟩ <;> simp only [Ring.depart, he, ringSize]
  case departure =>
    refine ⟨_, exec_recordDeparture ht hk, State.startService_eq _, fun hno => ?_, fun h rest hs hh => ?_⟩
    · rw [State.startService_none (by exact hno)]
      exact ⟨rfl, rfl⟩
    · exact State.startService_begins (s := { s with tx := none, ring := s.ring.depart }) hs hh

/-! ### The composition of a held attention (R108, R114) -/

theorem Station.committed_eq_marksGiven (t : Station) : t.committed = t.marksGiven := by
  simp only [Station.committed, Station.marksGiven, Page.mapFields, Station.promoteAll, if_true]

section

variable {s : State} {h : Held} {rest : List Held}

/-- R114: the allocator holds the grant of the head's station. -/
theorem State.serving_head (hs : s.service = some h.station) (hh : s.held = h :: rest)
    (hg : (s.st h.station).grant.holder = some .engine) : s.serving = some (h.station, h, rest) := by
  simp only [State.serving, hs, hh, hg, and_self, if_true]

/-- R114, step 4: the state as the head's record has been committed and the grant released, before the service goes
on. -/
def State.composed (s : State) (h : Held) (rest : List Held) : State :=
  (s.commitHeld h.station h rest).endService h.station

theorem exec_heldComposition (hs : s.service = some h.station) (hh : s.held = h :: rest)
    (hg : (s.st h.station).grant.holder = some .engine) :
    exec .heldComposition s = .next
      (if ((s.st h.station).front.recordBytes h.station h.kind h.byScan).length ≤ s.ring.free
        then (s.composed h rest).startService else s.endService h.station) := by
  show execHeldComposition s = _
  simp only [execHeldComposition, State.serving_head hs hh hg]
  split <;> rfl

/-- R114: to the stations a composition is a commit at the head's station, with its row HELD and its grant released. -/
theorem State.st_composed (s : State) (h : Held) (rest : List Held) (j : StationNo) :
    (s.composed h rest).st j = if j = h.station then { (s.st h.station).marksGiven with
        grant := (s.st h.station).grant.release .engine
        display := { (s.st h.station).marksGiven.display with indicatorPending := true } }
      else s.st j := by
  show (((s.modSt h.station Station.committed).modSt h.station fun t =>
    { t with display := { t.display with indicatorPending := true } }).modSt h.station fun t =>
      { t with grant := t.grant.release .engine }).st j = _
  rw [← Station.committed_eq_marksGiven]
  by_cases hj : j = h.station
  · subst hj
    simp only [State.st_modSt_self, if_true]
    rfl
  · simp only [State.st_modSt_ne _ _ hj, if_neg hj]

end

/-- Settles O42: a record that fits is committed and the service goes on; otherwise it ends. -/
theorem heldAttentionIsComposed : Obligations.HeldAttentionIsComposed := by
  rintro s h rest bytes hs hh hg rfl
  refine ⟨fun hfull => ?full, fun hfits _ hother => ?fits⟩
  case full =>
    rw [exec_heldComposition hs hh hg, if_neg (by simpa [Ring.free, ringSize] using hfull)]
    rfl
  case fits =>
    have hserv : (s.composed h rest).startService.service = rest.head?.map Held.station :=
      State.startService_service_head rfl
    have hhead : rest.head?.map Held.station ≠ some h.station := fun e =>
      hother (List.mem_of_mem_head? (List.head?_map.trans e))
    refine ⟨(s.composed h rest).startService, ?_, ?_, ?_, fun j hj => ?_⟩
    · rw [exec_heldComposition hs hh hg, if_pos (by exact hfits)]
    · rw [State.startService_eq, hserv]
      rfl
    · rw [State.st_startService rfl, hserv, if_neg hhead, State.st_composed, if_pos rfl]
    · rw [State.st_startService rfl, hserv, State.st_composed, if_neg hj]

end Sys2Proof.Machine
end
section
/-! PROOFS. The order of the Notice Set (R183, R184) and the transmitter's choice (R111, R181, R182). -/

namespace Sys2Proof.Machine

/-! ### Runs of notices in sending order (R184) -/

/-- R184: notices whose places ascend and lie from `a` on and below `b`. -/
structure Ascending (l : List Notice) (a b : Nat) : Prop where
  pairwise : (l.map Notice.place).Pairwise (· < ·)
  range : ∀ x ∈ l, a ≤ x.place ∧ x.place < b

theorem Ascending.append {l m : List Notice} {a b c : Nat} (hl : Ascending l a b) (hm : Ascending m b c)
    (hab : a ≤ b) (hbc : b ≤ c) : Ascending (l ++ m) a c := by
  refine ⟨?_, fun x hx => ?_⟩
  · rw [List.map_append]
    refine List.pairwise_append.mpr ⟨hl.pairwise, hm.pairwise, fun p hp q hq => ?_⟩
    obtain ⟨x, hx, rfl⟩ := List.mem_map.mp hp
    obtain ⟨y, hy, rfl⟩ := List.mem_map.mp hq
    exact (hl.range x hx).2.trans_le (hm.range y hy).1
  · rcases List.mem_append.mp hx with hx | hx
    · exact ⟨(hl.range x hx).1, (hl.range x hx).2.trans_le hbc⟩
    · exact ⟨hab.trans (hm.range x hx).1, (hm.range x hx).2⟩

theorem Ascending.toList {o : Option Notice} {a : Nat} (h : ∀ x, o = some x → x.place = a) :
    Ascending o.toList a (a + 1) := by
  cases o with
  | none => exact ⟨List.Pairwise.nil, nofun⟩
  | some x => exact ⟨List.pairwise_singleton _ _, fun y hy => by
      rw [Option.toList_some, List.mem_singleton] at hy
      rw [hy, h x rfl]
      omega⟩

/-- R184: without the notice of a place outside a run, the run is as it was. -/
theorem Ascending.filter_outside {l : List Notice} {a b p : Nat} (h : Ascending l a b) (hp : p < a ∨ b ≤ p) :
    (l.filter fun x => x.place != p) = l :=
  List.filter_eq_self.mpr fun x hx => bne_iff_ne.mpr (by have := h.range x hx; omega)

/-- R184: a run of one place is empty without it. -/
theorem Ascending.filter_only {l : List Notice} {a p : Nat} (h : Ascending l a (a + 1)) (hp : p = a) :
    (l.filter fun x => x.place != p) = [] :=
  List.filter_eq_nil_iff.mpr fun x hx => by have := h.range x hx; simp only [bne_iff_ne]; omega

/-- R183: the notices of one kind that the stations have, by ascending station. -/
def stationNotices {α : Type} (v : Vector (Option α) 4) (mk : StationNo → α → Notice) : List Notice :=
  allStations.filterMap fun i => (v.get i).map (mk i)

section

variable {α : Type} {mk : StationNo → α → Notice} {b : Nat} (hmk : ∀ i a, (mk i a).place = b + i.val)

include hmk

theorem ascending_stationNotices (v : Vector (Option α) 4) : Ascending (stationNotices v mk) b (b + 4) := by
  refine ⟨?_, fun x hx => ?_⟩
  · have hst : allStations.Pairwise (· < ·) := by decide
    rw [stationNotices, List.pairwise_map, List.pairwise_filterMap]
    refine hst.imp fun {i j} hij x hx y hy => ?_
    obtain ⟨p, -, rfl⟩ := Option.map_eq_some_iff.mp hx
    obtain ⟨q, -, rfl⟩ := Option.map_eq_some_iff.mp hy
    rw [hmk, hmk]
    exact Nat.add_lt_add_left hij b
  · obtain ⟨i, -, hi⟩ := List.mem_filterMap.mp hx
    obtain ⟨p, -, rfl⟩ := Option.map_eq_some_iff.mp hi
    rw [hmk]
    omega

/-- R184: the run without the notice of one station. -/
theorem filter_stationNotices (v : Vector (Option α) 4) {j : StationNo} {p : Nat} (hp : p = b + j.val) :
    ((stationNotices v mk).filter fun x => x.place != p) = stationNotices (v.set j.val none j.isLt) mk := by
  subst hp
  rw [stationNotices, stationNotices, List.filter_filterMap]
  refine List.filterMap_congr fun i _ => ?_
  rw [Vector.get_set_station]
  by_cases hij : i = j
  · subst hij
    cases v.get i <;> simp [hmk]
  · cases v.get i <;> simp [hmk, hij, Fin.val_inj]

end

/-! ### The Notice Set in sending order (R183, R184) -/

theorem Notices.inOrder_eq (n : Notices) :
    n.inOrder = (if n.restarted then [.restarted] else [])
      ++ stationNotices n.stationChange (fun i pc => .stationChange i pc.1 pc.2)
      ++ stationNotices n.overflow .overflow ++ stationNotices n.testDone .testDone
      ++ (n.ringHalf.map .ringHalf).toList ++ (n.entryHeld.map .entryHeld).toList := rfl

section

variable (n : Notices)

theorem Notices.ascending_restarted : Ascending (if n.restarted then [.restarted] else []) 0 1 := by
  cases n.restarted
  · exact ⟨List.Pairwise.nil, nofun⟩
  · exact ⟨List.pairwise_singleton _ _, by simp [Notice.place]⟩

theorem Notices.ascending_changes :
    Ascending (stationNotices n.stationChange fun i pc => .stationChange i pc.1 pc.2) 1 5 :=
  ascending_stationNotices (fun _ _ => rfl) _

theorem Notices.ascending_overflows : Ascending (stationNotices n.overflow .overflow) 5 9 :=
  ascending_stationNotices (fun _ _ => rfl) _

theorem Notices.ascending_testDones : Ascending (stationNotices n.testDone .testDone) 9 13 :=
  ascending_stationNotices (fun _ _ => rfl) _

theorem Notices.ascending_ringHalf : Ascending (n.ringHalf.map .ringHalf).toList 13 14 :=
  .toList fun x hx => by obtain ⟨o, -, rfl⟩ := Option.map_eq_some_iff.mp hx; rfl

theorem Notices.ascending_entryHeld : Ascending (n.entryHeld.map .entryHeld).toList 14 15 :=
  .toList fun x hx => by obtain ⟨i, -, rfl⟩ := Option.map_eq_some_iff.mp hx; rfl

/-- R184: the sending order is that of the places. -/
theorem Notices.ascending_inOrder : Ascending n.inOrder 0 15 :=
  ((((n.ascending_restarted.append n.ascending_changes (by decide) (by decide)).append
    n.ascending_overflows (by decide) (by decide)).append n.ascending_testDones (by decide) (by decide)).append
      n.ascending_ringHalf (by decide) (by decide)).append n.ascending_entryHeld (by decide) (by decide)

/-- R184: the set without a notice, in sending order, is the order without the notice at that place. -/
theorem Notices.inOrder_remove (x : Notice) :
    (n.remove x).inOrder = n.inOrder.filter fun y => y.place != x.place := by
  generalize hp : x.place = p
  have hrestarted := n.ascending_restarted.filter_outside (p := p)
  have hchanges := n.ascending_changes.filter_outside (p := p)
  have hoverflows := n.ascending_overflows.filter_outside (p := p)
  have htestDones := n.ascending_testDones.filter_outside (p := p)
  have hringHalf := n.ascending_ringHalf.filter_outside (p := p)
  have hentryHeld := n.ascending_entryHeld.filter_outside (p := p)
  simp only [n.inOrder_eq, List.filter_append]
  cases x with
  | restarted =>
    have hp : p = 0 := hp.symm
    rw [n.ascending_restarted.filter_only hp, hchanges (by omega), hoverflows (by omega), htestDones (by omega),
      hringHalf (by omega), hentryHeld (by omega)]
    rfl
  | stationChange i _ _ =>
    have hp : p = 1 + i.val := hp.symm
    rw [hrestarted (by omega), filter_stationNotices (fun _ _ => rfl) n.stationChange hp, hoverflows (by omega),
      htestDones (by omega), hringHalf (by omega), hentryHeld (by omega)]
    rfl
  | overflow i _ =>
    have hp : p = 5 + i.val := hp.symm
    rw [hrestarted (by omega), hchanges (by omega), filter_stationNotices (fun _ _ => rfl) n.overflow hp,
      htestDones (by omega), hringHalf (by omega), hentryHeld (by omega)]
    rfl
  | testDone i _ =>
    have hp : p = 9 + i.val := hp.symm
    rw [hrestarted (by omega), hchanges (by omega), hoverflows (by omega),
      filter_stationNotices (fun _ _ => rfl) n.testDone hp, hringHalf (by omega), hentryHeld (by omega)]
    rfl
  | ringHalf =>
    have hp : p = 13 := hp.symm
    rw [hrestarted (by omega), hchanges (by omega), hoverflows (by omega), htestDones (by omega),
      n.ascending_ringHalf.filter_only hp, hentryHeld (by omega)]
    rfl
  | entryHeld =>
    have hp : p = 14 := hp.symm
    rw [hrestarted (by omega), hchanges (by omega), hoverflows (by omega), htestDones (by omega),
      hringHalf (by omega), n.ascending_entryHeld.filter_only hp]
    rfl

end

/-- R184: once the first notice has left the set, the others stand in their order. -/
theorem Notices.inOrder_remove_first {n : Notices} {x : Notice} {rest : List Notice} (h : n.inOrder = x :: rest) :
    (n.remove x).inOrder = rest := by
  have hsorted := n.ascending_inOrder.pairwise
  rw [h, List.map_cons, List.pairwise_cons] at hsorted
  obtain ⟨hfirst, -⟩ := hsorted
  rw [Notices.inOrder_remove, h, List.filter_cons_of_neg (by simp)]
  exact List.filter_eq_self.mpr fun y hy => bne_iff_ne.mpr (hfirst _ (List.mem_map_of_mem hy)).ne'

/-! ### The transmitter (R111, R181, R182) -/

theorem State.mayTransmit_iff {s : State} : s.mayTransmit = true ↔ s.pause = .running ∧ s.tx = none := by
  simp [State.mayTransmit]

section

variable {s : State}

/-- R181: the reply first of all. -/
theorem exec_txReplyStart {r : Reply} (hm : s.mayTransmit = true) (hr : s.replySlot = some r) :
    exec .txReplyStart s = .next { s with tx := some r.frame, replySlot := none } := by
  show execTxReplyStart s = _
  simp only [execTxReplyStart, hr, hm, if_true]

/-- R181: with the Reply Slot empty, the first notice. -/
theorem exec_txNoticeStart {n : Notice} {rest : List Notice} (hm : s.mayTransmit = true) (hr : s.replySlot = none)
    (hn : s.notices.inOrder = n :: rest) :
    exec .txNoticeStart s = .next { s with tx := some n.frame, notices := s.notices.remove n } := by
  show execTxNoticeStart s = _
  simp only [execTxNoticeStart, hr, hn, hm, if_true]

/-- R111: with no notice pending either, the head record. -/
theorem exec_txEntryStart {e : RecordEntry} {rest : List RecordEntry} (hm : s.mayTransmit = true)
    (hr : s.replySlot = none) (hn : s.notices.inOrder = []) (he : s.ring.records = e :: rest) :
    exec .txEntryStart s = .next { s with tx := some (s.ring.entryFrame e) } := by
  show execTxEntryStart s = _
  simp only [execTxEntryStart, hr, hn, he, hm, if_true]

/-- R181: away from a boundary, and while PAUSED, no frame starts. -/
theorem exec_txStart_stopped (hm : s.mayTransmit = false) :
    exec .txReplyStart s = .next s ∧ exec .txNoticeStart s = .next s ∧ exec .txEntryStart s = .next s := by
  refine ⟨?_, ?_, ?_⟩
  · show execTxReplyStart s = _
    unfold execTxReplyStart
    split <;> simp [hm]
  · show execTxNoticeStart s = _
    unfold execTxNoticeStart
    split <;> simp [hm]
  · show execTxEntryStart s = _
    unfold execTxEntryStart
    split <;> simp [hm]

/-- R181: behind a reply no notice and no record starts. -/
theorem exec_txNoticeStart_reply {r : Reply} (hr : s.replySlot = some r) : exec .txNoticeStart s = .next s := by
  show execTxNoticeStart s = _
  simp only [execTxNoticeStart, hr]

theorem exec_txEntryStart_reply {r : Reply} (hr : s.replySlot = some r) : exec .txEntryStart s = .next s := by
  show execTxEntryStart s = _
  simp only [execTxEntryStart, hr]

/-- R181: behind a notice no record starts. -/
theorem exec_txEntryStart_notice {n : Notice} {rest : List Notice} (hn : s.notices.inOrder = n :: rest) :
    exec .txEntryStart s = .next s := by
  show execTxEntryStart s = _
  cases hr : s.replySlot <;> simp only [execTxEntryStart, hr, hn]

/-- R181: the last byte of a REPLY or NOTICE frame frees the line. -/
theorem exec_txFrameEnd {l : LineFrame} (ht : s.tx = some l) (hk : l.frame.kind ≠ 0x62) :
    exec .txFrameEnd s = .next { s with tx := none } := by
  show execTxFrameEnd s = _
  simp only [execTxFrameEnd, ht]
  exact if_neg hk

end

/-- Settles O39: what each start does at a boundary, and what holds it back. -/
theorem transmitterStartsTheFirstPresent : Obligations.TransmitterStartsTheFirstPresent := by
  refine fun s => ⟨fun hp ht => ?boundary, fun hr => ?reply, fun hn => ?notice, fun hstop => ?stopped,
    fun l => exec_txFrameEnd⟩
  case boundary =>
    have hm : s.mayTransmit = true := State.mayTransmit_iff.mpr ⟨hp, ht⟩
    refine ⟨fun r => exec_txReplyStart hm, fun n rest hr hn => ?_, fun e rest => exec_txEntryStart hm⟩
    refine ⟨_, exec_txNoticeStart hm hr hn, ?_, Notices.inOrder_remove_first hn⟩
    cases n <;> rfl
  case reply =>
    obtain ⟨r, hr⟩ := Option.ne_none_iff_exists'.mp hr
    exact ⟨exec_txNoticeStart_reply hr, exec_txEntryStart_reply hr⟩
  case notice =>
    obtain ⟨n, rest, hn⟩ := List.exists_cons_of_ne_nil hn
    exact exec_txEntryStart_notice hn
  case stopped =>
    refine exec_txStart_stopped (Bool.eq_false_iff.mpr fun hm => ?_)
    obtain ⟨hp, ht⟩ := State.mayTransmit_iff.mp hm
    rcases hstop with h | h
    · rw [hp] at h
      cases h
    · exact h ht

end Sys2Proof.Machine
end
section
/-! PROOFS. The law of the Display Writer that every step keeps (R119), the millisecond that passes on an empty queue
(R118, R129, R142, R148, R168), and the end of a downstream frame and the IDLE mark (R120, R125, R132, R148). -/

namespace Sys2Proof.Machine

/-! ### The law of the Display Writer (R119) -/

/-- Settles O10: the law holds of a station after device reset, and each move keeps it. -/
theorem displayLawKept : Obligations.DisplayLawKept := fun s s' hs he =>
  stationLaw_step Station.covered_reset (fun _ _ _ m => m.keeps_covered) s s' hs he

/-! ### A millisecond (R118, R129, R142, R148, R168) -/

/-- R129: only a RUNNING confirmation timer loses time. -/
theorem Run.tick_eq (r : Run) :
    r.tick = { r with remaining := if r.timer = .running then r.remaining - 1 else r.remaining } := by
  unfold Run.tick
  split <;> rfl

/-- R168: only a running test loses time. -/
theorem Lcu.tick_eq (l : Lcu) :
    l.tick = { l with remaining := if l.state = .running then l.remaining.map fun n => n - 1 else l.remaining } := by
  unfold Lcu.tick
  split <;> rfl

/-- R142, R148: 1 ms after the last frame ended, the line has been silent for 1 ms. -/
theorem Station.silenceTick_eq (t : Station) :
    t.silenceTick = if t.port.onLine = none then 1 else t.port.silence := by
  rw [Station.silenceTick, Nat.min_eq_left (Nat.le_add_left 1 _)]

theorem step_empty {s : State} (h : s.pending = []) : step s = .next s.tick := by
  simp only [step, h]

/-- Settles O2: the timer, the silence and the test of each station tick. -/
theorem emptyQueueLetsAMillisecondPass : Obligations.EmptyQueueLetsAMillisecondPass := by
  refine fun s hempty => ⟨s.tick, step_empty hempty, rfl, fun i => ?_⟩
  rw [State.tick, State.st_mapStations, Station.tick, Station.silenceTick_eq, Lcu.tick_eq,
    show Run.tick = _ from funext Run.tick_eq]

/-! ### Frame ends and IDLE marks (R120, R125, R132, R148) -/

theorem Port.carriesRun_eq {p : Port} {l : LineFrame} (h : p.onLine = some l) :
    p.carriesRun = decide (l.frame.kind = 0x31) := by
  simp only [Port.carriesRun, h]
  rfl

/-- R125, R132: the end of a RUN frame sets the timer of the run in flight going; the end of any other leaves it. -/
theorem Station.frameEnded_eq {t : Station} {l : LineFrame} (h : t.port.onLine = some l) :
    t.frameEnded = { t with
      port := { t.port with onLine := none, silence := 0, preTest := false }
      display := { t.display with
        run := if l.frame.kind = 0x31
          then t.display.run.map fun r => { r with timer := if t.display.unit = .hold then .suspended else .running }
          else t.display.run } } := by
  simp only [Station.frameEnded, Port.carriesRun_eq h, decide_eq_true_eq]
  split <;> rfl

theorem Station.marksIdle_iff {t : Station} : t.marksIdle = true ↔
    t.port.takenByTest = false ∨ (t.lcu.state = .running ∧ t.lcu.mode = .near) := by
  simp [Station.marksIdle, Station.testing]

/-- Settles O57: a frame's end frees the line, and an IDLE mark starts under its three conditions alone. -/
theorem framesEndAndIdleMarksFillSilence : Obligations.FramesEndAndIdleMarksFillSilence := by
  rintro s i t rfl
  refine ⟨fun l hl => ?ended, fun hline hsilent hmay => ?mark, fun hnot => ?noMark⟩
  case ended =>
    show execDownstreamFrameEnd i s = _
    rw [execDownstreamFrameEnd, if_pos (by rw [hl]; rfl), State.modSt, Station.frameEnded_eq hl]
  case mark =>
    exact if_pos ⟨Station.marksIdle_iff.mpr hmay, hline, hsilent⟩
  case noMark =>
    refine if_neg fun ⟨hmarks, hline, hsilent⟩ => ?_
    rcases hnot with h | h | ⟨htaken, hfar⟩
    · exact h hline
    · omega
    · rcases Station.marksIdle_iff.mp hmarks with h | h
      · rw [htaken] at h
        cases h
      · exact hfar h

end Sys2Proof.Machine
end
section
/-! PROOFS. TEST: the bodies that are no START (11.2, R160, R200), and the start, the stop, the injection and the expiry of
a test (R133, R149, R150, R155, R159, R160, R163, R168, R169). -/

namespace Sys2Proof.Machine

/-! ### A body that is decoded as a START is the encoding of one (11.2, R160) -/

theorem byteOf_of_toNat (b : Byte) : byteOf b.toNat = b := BitVec.ofNat_toNat 8 b

theorem modeByte_of_modeOf {b : Byte} {m : TestMode} (h : modeOf b = some m) : modeByte m = b := by
  unfold modeOf at h
  split at h
  case h_4 => cases h
  all_goals
    rename_i hb
    cases h
    exact BitVec.eq_of_toNat_eq hb.symm

/-- Two bytes are those of the number they spell. -/
theorem beBytes_beValue_two (d1 d0 : Byte) :
    beBytes 2 (beValue [d1, d0]) = [d1, d0] ∧ beValue [d1, d0] < 65536 := by
  have hv : beValue [d1, d0] = d1.toNat * 256 + d0.toNat := by simp [beValue]
  have h1 := d1.isLt
  have h0 := d0.isLt
  rw [hv, beBytes_two]
  refine ⟨?_, by omega⟩
  congr 1
  · apply BitVec.eq_of_toNat_eq
    rw [BitVec.toNat_ofNat]
    omega
  · congr 1
    apply BitVec.eq_of_toNat_eq
    rw [BitVec.toNat_ofNat]
    omega

theorem takeText_eq_some {bytes text rest : List Byte} (h : takeText bytes = some (text, rest)) :
    bytes = textBytes text ++ rest := by
  cases bytes with
  | nil => cases h
  | cons n bytes =>
    rw [takeText] at h
    split at h
    case isFalse => cases h
    case isTrue hn =>
      cases h
      rw [textBytes, List.length_take_of_le hn, byteOf_of_toNat, List.cons_append, List.take_append_drop]

theorem decodePattern_eq_some {bytes rest : List Byte} {p : Pattern} (h : decodePattern bytes = some (p, rest)) :
    bytes = patternBytes p ++ rest ∧ ∀ text, p = .repeated text → 1 ≤ text.length ∧ text.length ≤ 16 := by
  cases bytes with
  | nil => cases h
  | cons kind bytes =>
    rw [decodePattern] at h
    split at h
    case isTrue h0 =>
      cases h
      exact ⟨by rw [h0]; rfl, fun _ he => by cases he⟩
    case isFalse =>
      split at h
      case isFalse => cases h
      case isTrue h1 =>
        split at h
        case h_2 => cases h
        case h_1 text more ht =>
          split at h
          case isTrue => cases h
          case isFalse hlen =>
            obtain ⟨hne, hle⟩ := not_or.mp hlen
            cases h
            refine ⟨by rw [h1, takeText_eq_some ht]; rfl, fun _ he => ?_⟩
            cases he
            exact ⟨List.length_pos_iff.mpr hne, Nat.le_of_not_lt hle⟩

theorem decodeInjection_eq_some {bytes rest : List Byte} {j : Injection}
    (h : decodeInjection bytes = some (j, rest)) :
    bytes = injectionBytes j ++ rest ∧ ∀ n, j = .rate n → 1 ≤ n ∧ n ≤ 4 := by
  cases bytes with
  | nil => cases h
  | cons kind bytes =>
    unfold decodeInjection at h
    dsimp only at h
    split at h
    case isTrue h0 =>
      cases h
      exact ⟨by rw [h0]; rfl, fun _ he => by cases he⟩
    case isFalse =>
      split at h
      case isTrue h1 =>
        cases h
        exact ⟨by rw [h1]; rfl, fun _ he => by cases he⟩
      case isFalse =>
        split at h
        case isFalse => cases h
        case isTrue h2 =>
          cases bytes with
          | nil => cases h
          | cons n bytes =>
            dsimp only at h
            split at h
            case isFalse => cases h
            case isTrue hn =>
              cases h
              refine ⟨by rw [h2, injectionBytes, byteOf_of_toNat]; rfl, fun m he => ?_⟩
              cases he
              exact hn

/-- 11.2, R160: what the decoder takes for a START is laid out as one, with its parameters in range. -/
theorem decodeStart_eq_some {bytes : List Byte} {a : TestAction} (h : decodeStart bytes = some a) :
    ∃ mode pattern injection duration, StartInRange pattern injection duration
      ∧ 1 :: bytes = startBody mode pattern injection duration := by
  unfold decodeStart at h
  split at h
  case h_2 => cases h
  case h_1 m rest =>
    split at h
    case h_2 => cases h
    case h_1 mode pattern rest' hm hp =>
      split at h
      case h_2 => cases h
      case h_1 injection d1 d0 hj =>
        obtain ⟨hrest, hpat⟩ := decodePattern_eq_some hp
        obtain ⟨hrest', hinj⟩ := decodeInjection_eq_some hj
        obtain ⟨hbytes, hdur⟩ := beBytes_beValue_two d1 d0
        refine ⟨mode, pattern, injection, beValue [d1, d0], ⟨hpat, hinj, hdur⟩, ?_⟩
        rw [startBody, hbytes, modeByte_of_modeOf hm, hrest, hrest']
        simp

/-- 11.2, R160, R200: a body that leads with START and is no START in range cannot be decoded. -/
theorem decodeTest_start_eq_none {body : List Byte} (hlead : body.head? = some 1)
    (h : ¬ ∃ mode pattern injection duration, StartInRange pattern injection duration
      ∧ body = startBody mode pattern injection duration) : decodeTest body = none := by
  obtain ⟨rest, rfl⟩ := List.head?_eq_some_iff.mp hlead
  rw [Option.eq_none_iff_forall_ne_some]
  intro a ha
  exact h (decodeStart_eq_some (a := a) (by simpa [decodeTest] using ha))

theorem decodeTest_stop : decodeTest [2] = some .stop := rfl

theorem decodeTest_inject : decodeTest [3] = some .inject := rfl

/-- 11.2, R200: STOP and INJECT leave no bytes over. -/
theorem decodeTest_leftOver (b : Byte) (more : List Byte) :
    decodeTest (2 :: b :: more) = none ∧ decodeTest (3 :: b :: more) = none := by
  simp [decodeTest]

/-! ### The checks of a TEST (R159) -/

section
variable {s : State} {f : Frame} {i : StationNo} {wants : Bool}

theorem State.testRequest_badStation (hs : stationOf f.station = none) (act : TestAction → StationNo → State) :
    s.testRequest f wants act = s.refuse f .badStation := by
  simp only [State.testRequest, hs]

theorem State.testRequest_badOrder (hs : stationOf f.station = some i) (hd : decodeTest f.body = none)
    (act : TestAction → StationNo → State) : s.testRequest f wants act = s.refuse f .badOrder := by
  simp only [State.testRequest, hs, hd]

variable {a : TestAction} (hs : stationOf f.station = some i) (hd : decodeTest f.body = some a)
include hs hd

theorem State.testRequest_notInTest (ht : (s.st i).lcu.state ≠ .running) (act : TestAction → StationNo → State) :
    s.testRequest f true act = s.refuse f .notInTest := by
  simp [State.testRequest, hs, hd, ht]

theorem State.testRequest_inTest (ht : (s.st i).lcu.state = .running) (act : TestAction → StationNo → State) :
    s.testRequest f false act = s.refuse f .inTest := by
  simp [State.testRequest, hs, hd, ht]

/-- R159: a START acts where no test runs. -/
theorem State.testRequest_starts (ht : (s.st i).lcu.state ≠ .running) (act : TestAction → StationNo → State) :
    s.testRequest f false act = act a i := by
  simp [State.testRequest, hs, hd, ht]

/-- R159: a STOP and an INJECT act on a running test. -/
theorem State.testRequest_running (ht : (s.st i).lcu.state = .running) (act : TestAction → StationNo → State) :
    s.testRequest f true act = act a i := by
  simp [State.testRequest, hs, hd, ht]

end

/-! ### START, STOP and INJECT in hand (R159, R160, R163, R169) -/

/-- R179: a TEST that is refused. -/
theorem State.refuse_test {s : State} {f : Frame} (hk : f.kind = 0x45) (r : Reason) :
    s.refuse f r = { s with interp := .replying ⟨0x45, f.station, r, 0, []⟩ none none none } := by
  rw [State.refuse, State.answer, hk]

section
variable {s : State} {f : Frame} (hi : s.interp = .handling f) (hk : f.kind = 0x45)
include hi hk

theorem exec_testStart_refused (hb : f.body.head? = some 1) {r : Reason}
    (h : ∀ act, s.testRequest f false act = s.refuse f r) : exec .testStart s
      = .next { s with interp := .replying ⟨0x45, f.station, r, 0, []⟩ none none none } := by
  show execTestStart s = _
  simp only [execTestStart, State.testInHand_handling hi hk hb, h, State.refuse_test hk]

theorem exec_testStop_refused (hb : f.body.head? = some 2) {r : Reason}
    (h : ∀ act, s.testRequest f true act = s.refuse f r) : exec .testStop s
      = .next { s with interp := .replying ⟨0x45, f.station, r, 0, []⟩ none none none } := by
  show execTestStop s = _
  simp only [execTestStop, State.testInHand_handling hi hk hb, h, State.refuse_test hk]

theorem exec_testInject_refused (hb : f.body.head? = some 3) {r : Reason}
    (h : ∀ act, s.testRequest f true act = s.refuse f r) : exec .testInject s
      = .next { s with interp := .replying ⟨0x45, f.station, r, 0, []⟩ none none none } := by
  show execTestInject s = _
  simp only [execTestInject, State.testInHand_handling hi hk hb, h, State.refuse_test hk]

variable {i : StationNo} (hs : stationOf f.station = some i)
include hs

theorem exec_testStart_acts {mode : TestMode} {pattern : Pattern} {injection : Injection} {duration : Nat}
    (hb : f.body.head? = some 1) (hd : decodeTest f.body = some (.start mode pattern injection duration))
    (ht : (s.st i).lcu.state ≠ .running) : exec .testStart s
      = .next (State.setSt { s with interp := .replying ⟨0x45, f.station, .none, 0, []⟩ none none none } i
          ((s.st i).startTest mode pattern injection duration)) := by
  show execTestStart s = _
  simp only [execTestStart, State.testInHand_handling hi hk hb, State.testRequest_starts hs hd ht]
  rw [State.answer, hk]
  rfl

theorem exec_testStop_acts (hb : f.body = [2]) (ht : (s.st i).lcu.state = .running) : exec .testStop s
    = .next (State.setSt { s with
        interp := .replying ⟨0x45, f.station, .none, 0, ((s.st i).lcu.contents .stopped).bytes⟩ none
          (some (i, (s.st i).lcu.contents .stopped)) none } i ((s.st i).endTest .stopped)) := by
  show execTestStop s = _
  simp only [execTestStop, State.testInHand_handling hi hk (by rw [hb]; rfl),
    State.testRequest_running hs (hb ▸ decodeTest_stop) ht]
  rw [hk]
  rfl

theorem exec_testInject_acts (hb : f.body = [3]) (ht : (s.st i).lcu.state = .running) : exec .testInject s
    = .next (State.setSt { s with interp := .replying ⟨0x45, f.station, .none, 0, []⟩ none none none } i
        { s.st i with lcu := { (s.st i).lcu with single := true } }) := by
  show execTestInject s = _
  simp only [execTestInject, State.testInHand_handling hi hk (by rw [hb]; rfl),
    State.testRequest_running hs (hb ▸ decodeTest_inject) ht]
  rw [State.answer, hk]
  rfl

end

/-- R160: the unit at the start of a test. -/
theorem Lcu.started_eq (mode : TestMode) (pattern : Pattern) (injection : Injection) (duration : Nat) :
    Lcu.started mode pattern injection duration =
      { state := .running, mode := mode, pattern := pattern, checker := ⟨false, none, 0, 0, false, []⟩,
        rate := match injection with | .rate n => some n | _ => none,
        single := decide (injection = .single), posCount := 0, duration := duration,
        remaining := if duration = 0 then none else some (duration * 64),
        sent := 0, compared := 0, errors := 0, losses := 0, genPos := 0, placed := none } := by
  cases injection <;> rfl

/-- Settles O37: by the station, the decoding of the body and the test state. -/
theorem testStartTakesTheLine : Obligations.TestStartTakesTheLine := by
  refine fun s f hi hk hb => ⟨fun hs => ?badStation, fun i hs => ⟨fun hnone => ?badOrder,
    fun mode pattern injection duration hrange hbody => ⟨fun ht => ?inTest, fun ht => ?started⟩⟩⟩
  case badStation => exact exec_testStart_refused hi hk hb (State.testRequest_badStation hs)
  case badOrder =>
    exact exec_testStart_refused hi hk hb (State.testRequest_badOrder hs (decodeTest_start_eq_none hb hnone))
  case inTest =>
    have hd := decodeTest_start mode pattern injection duration hrange
    exact exec_testStart_refused hi hk hb (State.testRequest_inTest hs (hbody ▸ hd) ht)
  case started =>
    have hd := decodeTest_start mode pattern injection duration hrange
    rw [exec_testStart_acts hi hk hs hb (hbody ▸ hd) ht, Station.startTest, Lcu.started_eq]
    rfl

/-! ### Expiry (R168, R169) -/

section
variable {s : State} {i : StationNo}

theorem exec_testExpiry (ht : (s.st i).lcu.state = .running) (h0 : (s.st i).lcu.remaining = some 0) :
    exec (.testExpiry i) s = .next { s.setSt i ((s.st i).endTest .expired) with
      notices := s.notices.raiseTestDone i ((s.st i).lcu.contents .expired) } := if_pos ⟨ht, h0⟩

theorem exec_testExpiry_early (h : (s.st i).lcu.state ≠ .running ∨ (s.st i).lcu.remaining ≠ some 0) :
    exec (.testExpiry i) s = .next s :=
  if_neg fun ⟨ht, h0⟩ => h.elim (fun hne => hne ht) fun hne => hne h0

end

/-- Settles O38: each request by its station, its body and the test state; the expiry by the remaining time. -/
theorem testsAreStoppedInjectedAndExpire : Obligations.TestsAreStoppedInjectedAndExpire := by
  rintro s i t ended contents rfl rfl rfl
  refine ⟨fun f hi hk hs => ⟨exec_testStop_acts hi hk hs, exec_testInject_acts hi hk hs, fun ht => ?notInTest,
    fun b more => ?leftOver⟩, fun f more hi hk hs => ?badStation, exec_testExpiry, exec_testExpiry_early⟩
  case notInTest =>
    exact ⟨fun hb => exec_testStop_refused hi hk (by rw [hb]; rfl)
        (State.testRequest_notInTest hs (hb ▸ decodeTest_stop) ht),
      fun hb => exec_testInject_refused hi hk (by rw [hb]; rfl)
        (State.testRequest_notInTest hs (hb ▸ decodeTest_inject) ht)⟩
  case leftOver =>
    obtain ⟨hstop, hinject⟩ := decodeTest_leftOver b more
    exact ⟨fun hb => exec_testStop_refused hi hk (by rw [hb]; rfl) (State.testRequest_badOrder hs (hb ▸ hstop)),
      fun hb => exec_testInject_refused hi hk (by rw [hb]; rfl) (State.testRequest_badOrder hs (hb ▸ hinject))⟩
  case badStation =>
    exact ⟨fun hb => exec_testStop_refused hi hk (by rw [hb]; rfl) (State.testRequest_badStation hs),
      fun hb => exec_testInject_refused hi hk (by rw [hb]; rfl) (State.testRequest_badStation hs)⟩

end Sys2Proof.Machine
end
section
/-! PROOFS. What the unit sends about its display (R127 to R133, R139, R145, R147), and the timer of a run that has run
out (R129). -/

namespace Sys2Proof.Machine

/-! ### Unit frames at a port that has its line (R131 to R133, R145, R147) -/

@[simp] theorem State.modSt_setSt (s : State) (i : StationNo) (t : Station) (f : Station → Station) :
    (s.setSt i t).modSt i f = s.setSt i (f t) := by
  rw [State.modSt, State.st_setSt_self, State.setSt_setSt]

/-- R145: the bytes of a frame that is classified as `u` do at the heard station what `u` is for. -/
theorem State.upstream_classified {s : State} {i : StationNo} {kind item : Byte} {body : List Byte} {u : Upstream}
    (hline : (s.st i).port.takenByTest = false) (hb : body.length ≤ 41) (hc : classify ⟨kind, item, body⟩ = u) :
    s.upstream i (frameBytes kind item body) = (s.setSt i (s.st i).heard).deliver i u := by
  rw [State.upstream_frameBytes s i kind item body hline hb, hc]

theorem classify_runOk {item n : Byte} (h : n.toNat ≤ 15) :
    classify ⟨kindUnit, item, [4, n]⟩ = .unitRunOk n.toNat := by
  show (if (4 : Byte) = 4 ∧ n.toNat ≤ 15 then Upstream.unitRunOk n.toNat else .refused) = _
  exact if_pos ⟨rfl, h⟩

section
variable {s : State} {i : StationNo} (hline : (s.st i).port.takenByTest = false) (item : Byte)
include hline

theorem exec_unitReady : exec (.unitReady i item) s = .next (s.setSt i (s.st i).heard.unitReady) := by
  show Host.Outcome.next (s.upstream i (frameBytes kindUnit item [1])) = _
  rw [State.upstream_classified (u := .unitReady) hline (by simp) rfl, State.deliver, State.modSt_setSt]

theorem exec_unitHold : exec (.unitHold i item) s
    = .next (s.setSt i { (s.st i).heard with display := (s.st i).heard.display.unitHold }) := by
  show Host.Outcome.next (s.upstream i (frameBytes kindUnit item [2])) = _
  rw [State.upstream_classified (u := .unitHold) hline (by simp) rfl, State.deliver, State.modSt_setSt]

theorem exec_unitResync : exec (.unitResync i item) s
    = .next (s.setSt i { (s.st i).heard with display := (s.st i).heard.display.unitResync }) := by
  show Host.Outcome.next (s.upstream i (frameBytes kindUnit item [3])) = _
  rw [State.upstream_classified (u := .unitResync) hline (by simp) rfl, State.deliver, State.modSt_setSt]

theorem exec_unitRunOk {n : Byte} (hn : n.toNat ≤ 15) : exec (.unitRunOk i item n) s
    = .next (s.setSt i { (s.st i).heard with display := (s.st i).heard.display.runOk n.toNat }) := by
  show Host.Outcome.next (s.upstream i (frameBytes kindUnit item [4, n])) = _
  rw [State.upstream_classified hline (by simp) (classify_runOk hn), State.deliver, State.modSt_setSt]

theorem exec_unitRunBad : exec (.unitRunBad i item) s
    = .next (s.setSt i { (s.st i).heard with display := (s.st i).heard.display.runBad }) := by
  show Host.Outcome.next (s.upstream i (frameBytes kindUnit item [5])) = _
  rw [State.upstream_classified (u := .unitRunBad) hline (by simp) rfl, State.deliver, State.modSt_setSt]

theorem exec_upstreamIdle : exec (.upstreamIdle i item) s = .next (s.setSt i (s.st i).heard) := by
  show Host.Outcome.next (s.upstream i (frameBytes kindIdle item [])) = _
  rw [State.upstream_classified (u := .idle) hline (by simp) rfl, State.deliver]

end

/-- R125: the frame on the line is that of a run. -/
theorem Port.carriesRun_any (p : Port) : p.carriesRun = p.onLine.any fun l => l.frame.kind = 0x31 := by
  unfold Port.carriesRun
  cases p.onLine <;> rfl

/-- R131, R132: READY sets a suspended timer going after HOLD, unless its frame is still on the line. -/
theorem Station.unitReady_eq (t : Station) : t.unitReady = { t with
    display := { t.display with
      unit := .ready
      run := if t.display.unit = .hold ∧ (t.port.onLine.any fun l => l.frame.kind = 0x31) = false
        then t.display.run.map fun r => { r with timer := .running } else t.display.run } } := by
  rw [Station.unitReady, Port.carriesRun_any]

/-- Settles O52: each frame is heard, and acts as its unit status or, an IDLE mark, not at all. -/
theorem unitFramesAndIdleMarksAct : Obligations.UnitFramesAndIdleMarksAct := by
  rintro s i item t hline rfl
  refine ⟨?ready, exec_unitHold hline item, exec_unitResync hline item, exec_upstreamIdle hline item,
    fun d => ⟨rfl, fun k => mem_allCells⟩⟩
  rw [exec_unitReady hline, Station.unitReady_eq]

/-! ### The end of a run (R127 to R130, R139) -/

section
variable {d : Display}

theorem Display.runOk_confirms {r : Run} (hr : d.run = some r) {n : Nat} (hn : r.number = n) :
    d.runOk n = d.confirm r := by
  simp only [Display.runOk, hr, if_pos hn]

theorem Display.runOk_stale {n : Nat} (h : d.run = none ∨ ∃ r, d.run = some r ∧ r.number ≠ n) :
    d.runOk n = d.countStale := by
  rcases h with hr | ⟨r, hr, hn⟩
  · simp only [Display.runOk, hr]
  · simp only [Display.runOk, hr, if_neg hn]

theorem Display.runBad_stale (hr : d.run = none) : d.runBad = d.countStale := by
  simp only [Display.runBad, hr]

theorem Display.runBad_returns {r : Run} (hr : d.run = some r) : d.runBad = (d.returnRun r).countRunFault := by
  simp only [Display.runBad, hr]

end

/-- R128, R129: the dirty set once the cells of a run have come back. -/
theorem mem_dirty_returnRun (d : Display) (r : Run) {k : Nat} (hk : k < 1600) :
    k ∈ (d.returnRun r).dirty ↔ k ∈ d.dirty ∨ (r.first ≤ k ∧ k < r.first + r.cells.length) := by
  simp [Display.returnRun, Run.covers, hk]

section
variable {s : State} {i : StationNo}

theorem exec_runTimeout {r : Run} (hr : (s.st i).display.run = some r) (ht : r.timer = .running)
    (h0 : r.remaining = 0) : exec (.runTimeout i) s
      = .next (s.setSt i { s.st i with display := ((s.st i).display.returnRun r).countTimeout }) := by
  show execRunTimeout i s = _
  simp only [execRunTimeout, hr]
  exact if_pos ⟨ht, h0⟩

theorem exec_runTimeout_early
    (h : ∀ r, (s.st i).display.run = some r → r.timer = .suspended ∨ r.remaining ≠ 0) :
    exec (.runTimeout i) s = .next s := by
  show execRunTimeout i s = _
  cases hr : (s.st i).display.run with
  | none => simp only [execRunTimeout, hr]
  | some r =>
    simp only [execRunTimeout, hr]
    refine if_neg fun ⟨ht, h0⟩ => ?_
    rcases h r hr with hs | hne
    · rw [ht] at hs
      cases hs
    · exact hne h0

end

/-- Settles O54: by the run in flight and the number that a RUN-OK carries. -/
theorem runsEndByConfirmationRejectionOrTimeout : Obligations.RunsEndByConfirmationRejectionOrTimeout := by
  rintro s i item n t rfl hn
  refine ⟨fun hline => ⟨fun r hr hnum => ?confirmed, fun hstale => ?staleOk, fun hnone => ?staleBad,
    fun r hr => ⟨_, ?rejected, fun k => mem_dirty_returnRun _ r⟩⟩,
    fun r hr ht h0 => ⟨_, exec_runTimeout hr ht h0, fun k => mem_dirty_returnRun _ r⟩, exec_runTimeout_early⟩
  case confirmed =>
    rw [exec_unitRunOk hline item hn, Display.runOk_confirms hr hnum]
    rfl
  case staleOk =>
    rw [exec_unitRunOk hline item hn, Display.runOk_stale hstale]
    rfl
  case staleBad =>
    rw [exec_unitRunBad hline, Display.runBad_stale hnone]
    rfl
  case rejected =>
    rw [exec_unitRunBad hline, Display.runBad_returns hr]
    rfl

end Sys2Proof.Machine
end
section
/-! PROOFS. The frame that is due and its contents (R82, R120, R121, R134 to R137), and the start of a run (R122 to R125,
R138). -/

namespace Sys2Proof.Machine

/-! ### The table of frames that may be due (R120, R121, R131, R134) -/

/-- R121: what every row but the first asks for: a boundary, the pace told, a unit that is READY. -/
def Station.UnitListens (t : Station) : Prop := t.AtBoundary ∧ t.PaceIsTold ∧ t.display.unit = .ready

/-- R121: the conditions of a row of the table, with those that the rows above it fail. -/
def Station.DueWhen (t : Station) : Due → Prop
  | .pace => t.AtBoundary ∧ ¬ t.PaceIsTold
  | .sound => t.UnitListens ∧ t.display.soundPending = true
  | .indicator => t.UnitListens ∧ t.display.soundPending = false ∧ t.display.indicatorPending = true
  | .run => t.UnitListens ∧ t.display.soundPending = false ∧ t.display.indicatorPending = false
      ∧ t.display.run = none ∧ t.display.dirty ≠ []
  | .cursor => t.UnitListens ∧ t.display.soundPending = false ∧ t.display.indicatorPending = false
      ∧ t.display.run = none ∧ t.display.dirty = [] ∧ t.display.cursorPending = true

/-- R134: until the unit knows the pacing flag, its pace frame comes first. -/
theorem Station.due_pace {t : Station} (hb : t.AtBoundary) (hp : ¬ t.PaceIsTold) : t.due = some .pace := by
  rw [← Station.mayStart_iff] at hb
  rw [← Station.paceDue_iff, Bool.not_eq_false] at hp
  simp [Station.due, hb, hp]

/-- R131: while the unit is not READY, nothing but the pace is due. -/
theorem Station.due_notReady {t : Station} (hp : t.PaceIsTold) (hr : t.display.unit ≠ .ready) : t.due = none := by
  rw [← Station.paceDue_iff] at hp
  simp [Station.due, hp, hr]

/-- R121: a frame is due exactly under the conditions of its row. -/
theorem Station.due_iff {t : Station} {x : Due} : t.due = some x ↔ t.DueWhen x := by
  by_cases hb : t.AtBoundary
  · by_cases hp : t.PaceIsTold
    · by_cases hr : t.display.unit = .ready
      · rw [Station.due_ready hb hp hr]
        simp only [Option.isSome_iff_ne_none]
        cases x <;> simp [Station.DueWhen, Station.UnitListens, hb, hp, hr] <;> grind
      · rw [Station.due_notReady hp hr]
        cases x <;> simp [Station.DueWhen, Station.UnitListens, hp, hr]
    · rw [Station.due_pace hb hp]
      cases x <;> simp [Station.DueWhen, Station.UnitListens, hb, hp]
  · rw [Station.due_none hb]
    cases x <;> simp [Station.DueWhen, Station.UnitListens, hb]

/-! ### A frame that is due starts; one that is not does not (R120, R121, R134 to R137) -/

section
variable {s : State} {i : StationNo}

theorem exec_paceFrame (h : (s.st i).DueWhen .pace) :
    exec (.paceFrame i) s = .next (s.setSt i ((s.st i).sendPace i)) := if_pos (Station.due_iff.mpr h)

theorem exec_soundFrame (h : (s.st i).DueWhen .sound) :
    exec (.soundFrame i) s = .next (s.setSt i ((s.st i).sendSound i)) := if_pos (Station.due_iff.mpr h)

theorem exec_indicatorFrame (h : (s.st i).DueWhen .indicator) :
    exec (.indicatorFrame i) s = .next (s.setSt i ((s.st i).sendIndicator i (s.isHeld i))) :=
  if_pos (Station.due_iff.mpr h)

theorem exec_runFrameStart (h : (s.st i).DueWhen .run) {first : Nat} (hf : (s.st i).display.firstCell = some first) :
    exec (.runFrameStart i) s = .next (s.setSt i ((s.st i).startRun i first)) := by
  show execRunFrameStart i s = _
  simp only [execRunFrameStart, hf]
  exact if_pos (Station.due_iff.mpr h)

theorem exec_cursorFrame (h : (s.st i).DueWhen .cursor) :
    exec (.cursorFrame i) s = .next (s.setSt i ((s.st i).sendCursor i)) := if_pos (Station.due_iff.mpr h)

theorem exec_paceFrame_heldBack (h : ¬ (s.st i).DueWhen .pace) : exec (.paceFrame i) s = .next s :=
  if_neg (mt Station.due_iff.mp h)

theorem exec_soundFrame_heldBack (h : ¬ (s.st i).DueWhen .sound) : exec (.soundFrame i) s = .next s :=
  if_neg (mt Station.due_iff.mp h)

theorem exec_indicatorFrame_heldBack (h : ¬ (s.st i).DueWhen .indicator) : exec (.indicatorFrame i) s = .next s :=
  if_neg (mt Station.due_iff.mp h)

theorem exec_runFrameStart_heldBack (h : ¬ (s.st i).DueWhen .run) : exec (.runFrameStart i) s = .next s := by
  show execRunFrameStart i s = _
  unfold execRunFrameStart
  dsimp only
  split
  · exact if_neg (mt Station.due_iff.mp h)
  · rfl

theorem exec_cursorFrame_heldBack (h : ¬ (s.st i).DueWhen .cursor) : exec (.cursorFrame i) s = .next s :=
  if_neg (mt Station.due_iff.mp h)

end

/-! ### The indicator row (R82, R136) -/

/-- The bytes of a padded text and of what follows it. -/
theorem getElem?_padded_append (n : Nat) (text rest : List Byte) (col : Nat) :
    (padded n text ++ rest)[col]? = if col < n then some (text.getD col 0x20) else rest[col - n]? := by
  split
  · rename_i h
    rw [List.getElem?_append_left (by rwa [length_padded]), getElem?_padded n text col h]
  · rename_i h
    rw [List.getElem?_append_right (by rw [length_padded]; exact Nat.le_of_not_lt h), length_padded]

theorem length_keyboardWord (kb : Keyboard) : (keyboardWord kb).length ≤ 5 := by
  cases kb <;> decide

theorem length_lockWord (code : LockCode) : (lockWord code).length ≤ 13 := by
  cases code <;> decide

theorem Station.length_indicatorRow (t : Station) (isHeld : Bool) : (t.indicatorRow isHeld).length = 80 := by
  simp [Station.indicatorRow]

/-- A word that is shown under a condition, from its column on. -/
theorem getD_word {shown : Prop} [Decidable shown] {word : List Byte} {n k : Nat} (h : word.length ≤ n) :
    (if shown then word else []).getD k 0x20 = if k < n ∧ shown then word.getD k 0x20 else 0x20 := by
  by_cases hs : shown
  · by_cases hk : k < n
    · simp [hs, hk]
    · rw [if_pos hs, if_neg fun hc => hk hc.1, List.getD_eq_default _ _ (by omega)]
  · simp [hs]

/-- R136: what each column of row 20 shows. -/
theorem Station.indicatorRow_column (t : Station) (isHeld : Bool) {col : Nat} (hcol : col < 80) :
    (t.indicatorRow isHeld)[col]? = some (
      if col < 5 then (keyboardWord t.engine.kb).getD col 0x20
      else if 6 ≤ col ∧ col < 19 ∧ t.engine.kb = .locked then (lockWord t.engine.lockCode).getD (col - 6) 0x20
      else if 20 ≤ col ∧ col < 23 ∧ t.engine.insert = true then [0x49, 0x4E, 0x53].getD (col - 20) 0x20
      else if 24 ≤ col ∧ col < 28 ∧ isHeld = true then [0x48, 0x45, 0x4C, 0x44].getD (col - 24) 0x20
      else if 48 ≤ col then t.bulletin.getD (col - 48) 0x20
      else 0x20) := by
  have hgap (h5 : ¬ col < 5) : (keyboardWord t.engine.kb).getD col 0x20 = 0x20 :=
    List.getD_eq_default _ _ (le_trans (length_keyboardWord _) (Nat.le_of_not_lt h5))
  have hbulletin (h48 : 48 ≤ col) : (padded 32 t.bulletin)[col - 48]? = some (t.bulletin.getD (col - 48) 0x20) :=
    getElem?_padded 32 t.bulletin (col - 48) (by omega)
  simp only [Station.indicatorRow, List.append_assoc, getElem?_padded_append, getD_word (length_lockWord _),
    getD_word (word := [0x49, 0x4E, 0x53]) (n := 3) (by decide),
    getD_word (word := [0x48, 0x45, 0x4C, 0x44]) (n := 4) (by decide), Nat.sub_sub, Nat.reduceAdd]
  have hsegment : col < 6 ∨ (6 ≤ col ∧ col < 20) ∨ (20 ≤ col ∧ col < 24) ∨ (24 ≤ col ∧ col < 48) ∨ 48 ≤ col := by
    omega
  rcases hsegment with h | h | h | h | h
  all_goals grind

/-- Settles O55: a frame whose row of the table holds starts, and one whose row fails does not. -/
theorem dueFramesStartWithTheirContents : Obligations.DueFramesStartWithTheirContents := by
  rintro s i t d rfl rfl
  refine ⟨fun hb hp => exec_paceFrame ⟨hb, hp⟩, fun hb hp hr => ⟨fun hs => exec_soundFrame ⟨⟨hb, hp, hr⟩, hs⟩,
    fun hs hi => ⟨_, Station.length_indicatorRow _ _, exec_indicatorFrame ⟨⟨hb, hp, hr⟩, hs, hi⟩,
      fun col => Station.indicatorRow_column _ _⟩,
    fun hs hi hrun hd hc => exec_cursorFrame ⟨⟨hb, hp, hr⟩, hs, hi, hrun, hd, hc⟩⟩,
    fun h => ?pace, fun h => ?unit, fun h => ?sound, fun h => ?indicator, fun h => ?run, fun h => ?dirty⟩
  case pace =>
    exact exec_paceFrame_heldBack fun ⟨hb, hp⟩ => h.elim (fun hn => hn hb) hp
  case unit =>
    have deaf : ¬ (s.st i).UnitListens := fun ⟨hb, hp, hr⟩ => by
      rcases h with h | h | h
      · exact h hb
      · exact h hp
      · exact h hr
    exact ⟨exec_soundFrame_heldBack fun hw => deaf hw.1, exec_indicatorFrame_heldBack fun hw => deaf hw.1,
      exec_runFrameStart_heldBack fun hw => deaf hw.1, exec_cursorFrame_heldBack fun hw => deaf hw.1⟩
  case sound =>
    exact ⟨exec_indicatorFrame_heldBack fun ⟨_, hs, _⟩ => by simp [h] at hs,
      exec_runFrameStart_heldBack fun ⟨_, hs, _⟩ => by simp [h] at hs,
      exec_cursorFrame_heldBack fun ⟨_, hs, _⟩ => by simp [h] at hs⟩
  case indicator =>
    exact ⟨exec_runFrameStart_heldBack fun ⟨_, _, hi, _⟩ => by simp [h] at hi,
      exec_cursorFrame_heldBack fun ⟨_, _, hi, _⟩ => by simp [h] at hi⟩
  case run =>
    exact ⟨exec_runFrameStart_heldBack fun ⟨_, _, _, hrun, _⟩ => h hrun,
      exec_cursorFrame_heldBack fun ⟨_, _, _, hrun, _⟩ => h hrun⟩
  case dirty => exact exec_cursorFrame_heldBack fun ⟨_, _, _, _, hd, _⟩ => h hd

/-! ### The cells of a run (R122, R123) -/

/-- The least member of an ascending list that satisfies a test is the one a search finds. -/
theorem find?_eq_least {l : List Nat} (hl : l.Pairwise (· < ·)) {q : Nat → Bool} {a : Nat} (ha : a ∈ l)
    (hq : q a = true) (hmin : ∀ j ∈ l, q j = true → a ≤ j) : l.find? q = some a := by
  induction l with
  | nil => cases ha
  | cons b l ih =>
    obtain ⟨hb, hl⟩ := List.pairwise_cons.mp hl
    rcases List.mem_cons.mp ha with rfl | ha
    · exact List.find?_cons_of_pos hq
    · have hqb : ¬ q b = true := fun h => absurd (hb a ha) (Nat.not_lt.mpr (hmin b List.mem_cons_self h))
      rw [List.find?_cons_of_neg hqb]
      exact ih hl ha fun j hj => hmin j (List.mem_cons_of_mem _ hj)

theorem head?_eq_least {l : List Nat} (hl : l.Pairwise (· < ·)) {a : Nat} (ha : a ∈ l) (hmin : ∀ j ∈ l, a ≤ j) :
    l.head? = some a := by
  have h := find?_eq_least hl (q := fun _ => true) ha rfl fun j hj _ => hmin j hj
  cases l with
  | nil => cases ha
  | cons b l => exact h

/-- R122: the search for a run's first cell finds the cell at which the run starts. -/
theorem Display.RunStartsAt.firstCell {d : Display} {first : Nat} (h : d.RunStartsAt first) (hd : d.DirtyLawful) :
    d.firstCell = some first := by
  obtain ⟨hmem, hstart⟩ := h
  have hhead := head?_eq_least hd.1 hmem
  cases hw : d.lastWritten with
  | none =>
    simp only [hw] at hstart
    simp only [Display.firstCell, Display.expectedFirst, hw, Option.map_none, hhead hstart]
  | some w =>
    simp only [hw] at hstart
    simp only [Display.firstCell, Display.expectedFirst, hw, Option.map_some, formCells]
    rcases hstart with ⟨hfrom, hmin⟩ | ⟨hbelow, hmin⟩
    · rw [find?_eq_least hd.1 hmem (by simpa using hfrom) fun j hj hq => hmin j hj (by simpa using hq)]
      rfl
    · have hnone : d.dirty.find? (fun j => (w + 1) % 1600 ≤ j) = none :=
        List.find?_eq_none.mpr fun j hj => by simpa using hbelow j hj
      rw [hnone, hhead hmin]
      rfl

/-- R123: the column groups of a row are those of the form, counted through. -/
theorem sameGroup_iff {j k : Nat} : SameGroup j k ↔ j / 16 = k / 16 := by
  unfold SameGroup
  omega

/-- The consecutive indexes up to the first that fails a test. -/
theorem takeWhile_consecutive {q : Nat → Bool} {a n m : Nat} (hn : n ≤ m) (hall : ∀ k < n, q (a + k) = true)
    (hend : n < m → q (a + n) = false) :
    ((List.range m).map fun k => a + k).takeWhile q = (List.range n).map fun k => a + k := by
  obtain ⟨r, rfl⟩ := Nat.exists_eq_add_of_le hn
  rw [List.range_add, List.map_append, List.takeWhile_append_of_pos (by simpa using hall)]
  cases r with
  | zero => simp
  | succ r => simp [List.range_succ_eq_map, hend (by omega)]

/-- R123: a run has at most 16 cells, those of one column group. -/
theorem Display.RunHolds.le {d : Display} {first n : Nat} (h : d.RunHolds first n) : n ≤ 16 := by
  by_contra hn
  have := sameGroup_iff.mp (h.2.1 16 (by omega)).2
  omega

/-- R123: the indexes of the run are those of the cells it holds. -/
theorem Display.RunHolds.runIndexes {d : Display} {first n : Nat} (h : d.RunHolds first n) :
    d.runIndexes first = (List.range n).map fun k => first + k := by
  have hle := h.le
  obtain ⟨-, hheld, hend⟩ := h
  have hq (j : Nat) : (d.dirty.contains j && decide (j / groupCells = first / groupCells)) = true
      ↔ j ∈ d.dirty ∧ SameGroup j first := by
    rw [Bool.and_eq_true, List.contains_iff_mem, decide_eq_true_eq, sameGroup_iff, groupCells]
  exact takeWhile_consecutive hle (fun k hk => (hq _).mpr (hheld k hk))
    fun _ => Bool.eq_false_iff.mpr fun hc => hend ((hq _).mp hc)

/-- R125: the cells of the run leave the dirty set. -/
theorem filter_not_consecutive (l : List Nat) (a n : Nat) :
    (l.filter fun j => !((List.range n).map fun k => a + k).contains j)
      = l.filter fun j => !(decide (a ≤ j) && decide (j < a + n)) := by
  refine List.filter_congr fun j _ => ?_
  have hmem : j ∈ ((List.range n).map fun k => a + k) ↔ a ≤ j ∧ j < a + n := by
    simp only [List.mem_map, List.mem_range]
    exact ⟨fun ⟨k, hk, he⟩ => by omega, fun hj => ⟨j - a, by omega, by omega⟩⟩
  rw [List.contains_eq_mem, decide_eq_decide.mpr hmem, Bool.decide_and]

/-! ### The frame of a run (R124, R125, R138) -/

/-- R138: a fault falls on the run frame at which its countdown stands at 0. -/
theorem faultNow_iff {request : Option FaultRequest} {kind : FaultKind} :
    faultNow request = some kind ↔ request = some ⟨0, kind⟩ := by
  unfold faultNow
  split
  · simp
  · rename_i hne
    exact ⟨(nomatch ·), fun h => absurd h (hne kind)⟩

/-- R138: what goes on the line: nothing for DROP, an inverted check for CHECK, else the RUN frame as it is. -/
theorem Port.sendRun_eq (p : Port) (request : Option FaultRequest) (i : StationNo) (body : List Byte) :
    p.sendRun (faultNow request) (downFrame i kindRun body) =
      if request = some ⟨0, .drop⟩ then p
      else if request = some ⟨0, .check⟩ then { p with
        onLine := some ⟨⟨0x31, stationByte i, body⟩, ~~~ frameCheck (Frame.covered ⟨0x31, stationByte i, body⟩)⟩ }
      else { p with onLine := some (Frame.onLine ⟨0x31, stationByte i, body⟩) } := by
  simp only [← faultNow_iff]
  cases hf : faultNow request with
  | none => rfl
  | some kind => cases kind <;> simp [Port.sendRun, Port.send, downFrame, LineFrame.corrupted, Frame.onLine, kindRun]

/-- R124, 11.6: the body of the run's frame, with a position order unless the run follows on. -/
theorem runBody_eq (d : Display) (first : Nat) (cells : List Cell) :
    runBody d.runNumber first (d.needsPosition first) cells
      = (if d.lastWritten.map (fun w => (w + 1) % 1600) = some first then [byteOf d.runNumber, 0]
          else [byteOf d.runNumber, 1, byteOf (first / 80), byteOf (first % 80)])
        ++ cells.flatMap fun c => [c.ch, emphasisByte c.emph] := by
  have hpos : d.needsPosition first = !decide (d.lastWritten.map (fun w => (w + 1) % 1600) = some first) := by
    rw [Bool.eq_iff_iff]
    simp [Display.needsPosition, Display.expectedFirst, formCells]
  by_cases h : d.lastWritten.map (fun w => (w + 1) % 1600) = some first
  · rw [runBody, hpos, decide_eq_true h, if_pos h]
    rfl
  · rw [runBody, hpos, decide_eq_false h, if_neg h]
    rfl

/-- R125, R138: the record of a run over consecutive indexes, whose timer runs at once where its frame is dropped. -/
theorem Station.runRecord_eq (t : Station) (first n : Nat) :
    t.runRecord first ((List.range n).map fun k => first + k) =
      { number := t.display.runNumber, first := first, cells := (List.range n).map fun k => t.shown (first + k),
        dropped := decide (t.display.fault = some ⟨0, .drop⟩), remaining := t.display.runTimeout,
        timer := if t.display.fault = some ⟨0, .drop⟩ then .running else .suspended } := by
  simp only [Station.runRecord, faultNow_iff, List.map_map]
  rfl

/-- Settles O56: the search finds the run's first cell, the run takes the cells it holds, and the fault request says
what goes on the line. -/
theorem runFrameTakesTheDirtyCells : Obligations.RunFrameTakesTheDirtyCells := by
  rintro s i t d first n cells body rfl rfl hb hp hr hs hi hrun hlaw hstart hholds hcells hbody
  refine ⟨?_, hholds.le⟩
  have hdue : (s.st i).DueWhen .run := ⟨⟨hb, hp, hr⟩, hs, hi, hrun, List.ne_nil_of_mem hstart.1⟩
  rw [exec_runFrameStart hdue (hstart.firstCell hlaw)]
  simp only [Station.startRun, hholds.runIndexes, Station.runRecord_eq, ← hcells, runBody_eq, ← hbody,
    filter_not_consecutive, Port.sendRun_eq]
  rfl

end Sys2Proof.Machine
end
section
/-! PROOFS. What the receivers make of line bytes (R143, R144, R174), and the bad and the refused frames of a station line
(R143 to R145). -/

namespace Sys2Proof.Machine

/-! ### Frames received (11.1, R143, R174, R199) -/

/-- Settles O13: from HUNTING, from inside a frame, and with a wrong check. -/
theorem framesReceivedWhole : Obligations.FramesReceivedWhole := by
  intro limit f check hfit hbody
  have h16 : f.body.length < 65536 := by omega
  exact ⟨rxRun_frame_hunting limit f hfit h16, fun acc esc => rxRun_frame_inFrame limit f acc esc hfit h16,
    rxRun_frame_badCheck limit f check hfit h16⟩

/-! ### Bytes that are no good frame (R143, R144, R174) -/

theorem judge_short {decoded : List Byte} (h : decoded.length < 6) : judge decoded = .bad := if_pos h

/-- R144, R174: decoded bytes whose length item disagrees with their body. -/
theorem judge_wrongLength {kind item : Byte} {n : Nat} {body check : List Byte} (hn : n < 65536)
    (hne : n ≠ body.length) (hc : check.length = 2) :
    judge ([kind, item] ++ beBytes 2 n ++ body ++ check) = .bad := by
  have hlen : ([kind, item] ++ beBytes 2 n ++ body ++ check).length = body.length + 6 := by simp [hc]; omega
  have hitem : (([kind, item] ++ beBytes 2 n ++ body ++ check).drop 2).take 2 = beBytes 2 n := by simp [beBytes]
  have hbody : (([kind, item] ++ beBytes 2 n ++ body ++ check).drop 4).take body.length = body := by simp [beBytes]
  unfold judge
  simp only [hlen, hitem, Nat.add_sub_cancel, hbody, beValue_beBytes_two n hn]
  rw [if_neg (by omega), if_pos hne]

/-- R143: in HUNTING only a start byte is acted on. -/
theorem rxRun_hunting_noStart (limit : Nat) {bytes : List Byte} (h : ∀ b ∈ bytes, b ≠ 0x02) :
    rxRun limit .hunting bytes = (.hunting, []) := by
  induction bytes with
  | nil => rfl
  | cons b bs ih =>
    obtain ⟨hb, hbs⟩ := List.forall_mem_cons.mp h
    have hskip : rxByte limit .hunting b = (.hunting, none) := if_neg hb
    rw [rxRun_cons, hskip, ih hbs]
    rfl

/-- R143: a start byte inside a frame discards the fragment and opens a new frame. -/
theorem rxRun_restart (limit : Nat) : rxRun limit .hunting [0x02, 0x02] = (.inFrame [] false, [.bad]) := rfl

/-- R144, R174: an escape followed by a byte that no escape stands for. -/
theorem rxRun_badEscape (limit : Nat) {b : Byte} (h02 : b ≠ 0x02) (h22 : b ≠ 0x22) (h23 : b ≠ 0x23) (h30 : b ≠ 0x30) :
    rxRun limit .hunting [0x02, 0x10, b] = (.hunting, [.bad]) := by
  have hfault : rxByte limit (.inFrame [] true) b = (.hunting, some .bad) := by
    simp only [rxByte, h02, h22, h23, h30, if_false, or_self]
  show rxRun limit (.inFrame [] true) [b] = _
  rw [rxRun_cons, hfault]
  rfl

/-- R144, R174: one escaped byte more than a frame may hold. -/
theorem rxRun_escaped_full {limit : Nat} {acc : List Byte} (h : acc.length = limit) (b : Byte) :
    rxRun limit (.inFrame acc false) (escaped b) = (.hunting, [.bad]) := by
  have hfull : ∀ c, rxDecoded limit acc c = (.hunting, some .bad) := fun c => if_neg (by omega)
  by_cases hb : b = 0x02 ∨ b = 0x03 ∨ b = 0x10
  · rcases hb with rfl | rfl | rfl <;> simp [escaped, rxRun, rxByte, hfull]
  · have hplain : escaped b = [b] := if_neg hb
    obtain ⟨h02, h03, h10⟩ : b ≠ 0x02 ∧ b ≠ 0x03 ∧ b ≠ 0x10 := by simpa only [not_or] using hb
    have hbyte : rxByte limit (.inFrame acc false) b = (.hunting, some .bad) := by
      simp only [rxByte, h02, h03, h10, if_false, hfull]
    rw [hplain, rxRun_cons, hbyte]
    rfl

/-- R144, R174: a frame is over-length at its first decoded byte beyond the limit. -/
theorem rxRun_overLength {limit : Nat} {bytes : List Byte} (h : bytes.length = limit + 1) :
    rxRun limit .hunting (0x02 :: bytes.flatMap escaped) = (.hunting, [.bad]) := by
  obtain ⟨held, last, rfl⟩ := List.eq_nil_or_concat bytes |>.resolve_left (by rintro rfl; simp at h)
  have hheld : held.length = limit := by simpa using h
  have hfill : rxRun limit (.inFrame [] false) (held.flatMap escaped) = (.inFrame held false, []) :=
    rxRun_flatMap_escaped limit held [] (by simp [hheld])
  show rxRun limit (.inFrame [] false) _ = _
  rw [List.concat_eq_append, List.flatMap_append, List.flatMap_singleton, rxRun_append, hfill, rxRun_escaped_full hheld]
  rfl

/-! ### Upstream frames that are not used (R145) -/

theorem keyEvent_refused_iff {body : List Byte} :
    keyEvent body = .refused ↔ ¬ ∃ code, body = [code] ∧ (keyOf code).isSome = true := by
  rcases body with _ | ⟨code, _ | ⟨b, rest⟩⟩
  · simp [keyEvent]
  · cases h : keyOf code <;> simp [keyEvent, h]
  · simp [keyEvent]

theorem scanEvent_refused_iff {body : List Byte} : scanEvent body = .refused ↔
    ¬ ∃ sym data, body = sym :: data ∧ 1 ≤ sym.toNat ∧ sym.toNat ≤ 15 ∧ 1 ≤ data.length ∧ data.length ≤ 40 := by
  cases body with
  | nil => simp [scanEvent]
  | cons sym data =>
    by_cases h : 1 ≤ sym.toNat ∧ sym.toNat ≤ 15 ∧ 1 ≤ data.length ∧ data.length ≤ 40
    · have hused : scanEvent (sym :: data) = .event (.scan sym.toNat data) := if_pos h
      exact iff_of_false (by simp [hused]) (not_not.mpr ⟨sym, data, rfl, h⟩)
    · refine iff_of_true (if_neg h) ?_
      rintro ⟨_, _, ⟨⟩, h'⟩
      exact h h'

theorem unitStatus_refused_iff {body : List Byte} : unitStatus body = .refused ↔
    ¬ (body = [1] ∨ body = [2] ∨ body = [3] ∨ body = [5] ∨ ∃ n, body = [4, n] ∧ n.toNat ≤ 15) := by
  rcases body with _ | ⟨status, _ | ⟨n, _ | ⟨b, rest⟩⟩⟩
  · simp [unitStatus]
  · simp only [unitStatus]
    split_ifs <;> simp_all
  · by_cases h : status = 4 ∧ n.toNat ≤ 15
    · simp [unitStatus, h]
    · have hno : ∀ m, [status, n] = [4, m] → ¬ m.toNat ≤ 15 := by
        rintro m ⟨⟩ hm
        exact h ⟨rfl, hm⟩
      exact iff_of_true (if_neg h) (by simpa using hno)
  · simp [unitStatus]

/-- R145: the four usable kinds are distinct, so a frame is refused by the row of its own kind, or has none. -/
theorem classify_refused_iff {kind item : Byte} {body : List Byte} : classify ⟨kind, item, body⟩ = .refused ↔
    ¬ ((kind = 0x21 ∧ ∃ code, body = [code] ∧ (keyOf code).isSome = true)
      ∨ (kind = 0x22 ∧ ∃ sym data, body = sym :: data ∧ 1 ≤ sym.toNat ∧ sym.toNat ≤ 15 ∧ 1 ≤ data.length
        ∧ data.length ≤ 40)
      ∨ (kind = 0x23 ∧ (body = [1] ∨ body = [2] ∨ body = [3] ∨ body = [5] ∨ ∃ n, body = [4, n] ∧ n.toNat ≤ 15))
      ∨ (kind = 0x20 ∧ body = [])) := by
  by_cases hkey : kind = 0x21
  · subst hkey
    exact keyEvent_refused_iff.trans (by simp)
  by_cases hscan : kind = 0x22
  · subst hscan
    exact scanEvent_refused_iff.trans (by simp)
  by_cases hunit : kind = 0x23
  · subst hunit
    exact unitStatus_refused_iff.trans (by simp)
  by_cases hidle : kind = 0x20
  · subst hidle
    show (if body = [] then Upstream.idle else .refused) = .refused ↔ _
    by_cases hbody : body = [] <;> simp [hbody]
  · have hno : classify ⟨kind, item, body⟩ = .refused :=
      (if_neg hkey).trans ((if_neg hscan).trans ((if_neg hunit).trans (if_neg hidle)))
    exact iff_of_true hno (by simp only [hkey, hscan, hunit, hidle, false_and, or_self, not_false_eq_true])

theorem exec_upstreamRefusedFrame {s : State} {i : StationNo} {kind item : Byte} {body : List Byte}
    (hline : (s.st i).port.takenByTest = false) (hb : body.length ≤ 41)
    (hc : classify ⟨kind, item, body⟩ = .refused) : exec (.upstreamRefusedFrame i item kind body) s
      = .next (s.setSt i { (s.st i).heard with port := (s.st i).heard.port.countRefused }) := by
  show Host.Outcome.next (s.upstream i (frameBytes kind item body)) = _
  rw [State.upstream_classified hline hb hc, State.deliver, State.modSt_setSt]

/-! ### Bad upstream frames (R143, R144) -/

/-- R143: at a port that has its line, the receiver takes the bytes. -/
theorem State.upstream_port {s : State} {i : StationNo} (hline : (s.st i).port.takenByTest = false)
    (bytes : List Byte) : s.upstream i bytes = s.portBytes i bytes :=
  if_neg (by rw [hline]; exact Bool.false_ne_true)

section
variable {s : State} {i : StationNo} (hline : (s.st i).port.takenByTest = false)
  (hrx : (s.st i).port.rx = .hunting) {bytes : List Byte}
include hline hrx

/-- R144: bytes that the receiver discards as one bad frame are counted once. -/
theorem exec_upstreamBadFrame_bad {rx : RxState} (h : rxRun 47 .hunting bytes = (rx, [.bad])) :
    exec (.upstreamBadFrame i bytes) s = .next (s.setSt i { s.st i with
      port := { (s.st i).port with rx := rx, badFrames := min 65535 ((s.st i).port.badFrames + 1) } }) := by
  show Host.Outcome.next (s.upstream i bytes) = _
  simp only [State.upstream_port hline, State.portBytes, upstreamLimit, hrx, h, List.foldl_cons, List.foldl_nil,
    State.received, State.modSt, State.st_setSt_self, State.setSt_setSt]
  rfl

/-- R143: bytes that leave the receiver in HUNTING, and no frame complete, have no effect. -/
theorem exec_upstreamBadFrame_ignored (h : rxRun 47 .hunting bytes = (.hunting, [])) :
    exec (.upstreamBadFrame i bytes) s = .next s := by
  show Host.Outcome.next (s.upstream i bytes) = _
  simp only [State.upstream_port hline, State.portBytes, upstreamLimit, hrx, h, List.foldl_nil, State.modSt]
  rw [← hrx, State.setSt_same]

end

/-- Settles O53: a refused frame by what no block uses, a bad frame by what the receiver makes of its bytes. -/
theorem unusableUpstreamFramesAreCounted : Obligations.UnusableUpstreamFramesAreCounted := by
  refine ⟨fun kind item body => ⟨classify_refused_iff, ?refused⟩, ?bad⟩
  case refused =>
    rintro s i t hline rfl hc hb
    exact exec_upstreamRefusedFrame hline hb hc
  case bad =>
    rintro s i counted hline hrx hcounted
    have hbad : ∀ {bytes : List Byte}, rxRun 47 .hunting bytes = (.hunting, [.bad]) →
        exec (.upstreamBadFrame i bytes) s = .next (s.setSt i counted) := fun h => by
      rw [exec_upstreamBadFrame_bad hline hrx h, hcounted, ← hrx]
    have henclosed : ∀ {decoded : List Byte}, decoded.length ≤ 47 → judge decoded = .bad →
        exec (.upstreamBadFrame i (0x02 :: decoded.flatMap escaped ++ [0x03])) s = .next (s.setSt i counted) :=
      fun hfit hj => hbad (hj ▸ rxRun_enclosed 47 _ hfit)
    refine ⟨fun f check hb hc => hbad (rxRun_frame_badCheck 47 f check (by omega) (by omega) hc),
      fun kind item n body check hn hb hne =>
        henclosed (by simp; omega) (judge_wrongLength hn hne (beBytes_length 2 _)),
      fun bytes hb => henclosed (by omega) (judge_short hb),
      fun b h02 h22 h23 h30 => hbad (rxRun_badEscape 47 h02 h22 h23 h30),
      fun bytes hb => hbad (rxRun_overLength hb), ?restart,
      fun bytes hb => exec_upstreamBadFrame_ignored hline hrx (rxRun_hunting_noStart 47 hb)⟩
    rw [exec_upstreamBadFrame_bad hline hrx (rxRun_restart 47), hcounted]

end Sys2Proof.Machine
end
section
/-! PROOFS. Intervals and windows of the Presence Monitor (R151 to R155), and the bytes of a running test (R149, R160 to
R163). -/

namespace Sys2Proof.Machine

/-! ### The close of an interval (R151, R155) -/

section
variable {m : Monitor}

theorem Monitor.closeInterval_suspended (h : m.suspended = true) : m.closeInterval = m := if_pos h

variable (hs : m.suspended = false)
include hs

theorem Monitor.closeInterval_awaiting (ha : m.awaiting = true) : m.closeInterval = { m with
    position := 0, live := false, liveCount := 0, deadRun := 0, longGap := false, awaiting := false } := by
  simp [Monitor.closeInterval, Monitor.freshWindow, hs, ha]

theorem Monitor.closeInterval_closed (ha : m.awaiting = false) (hp : m.position = 64) : m.closeInterval = m := by
  simp [Monitor.closeInterval, hs, ha, hp]

theorem Monitor.closeInterval_live (ha : m.awaiting = false) (hp : m.position < 64) (hl : m.live = true) :
    m.closeInterval = { m with
      position := m.position + 1, live := false, liveCount := m.liveCount + 1, deadRun := 0 } := by
  simp [Monitor.closeInterval, hs, ha, hp.ne, hl]

theorem Monitor.closeInterval_dead (ha : m.awaiting = false) (hp : m.position < 64) (hl : m.live = false) :
    m.closeInterval = { m with
      position := m.position + 1, deadRun := m.deadRun + 1
      longGap := if m.deadRun + 1 = 20 then true else m.longGap } := by
  have hgap : (m.longGap || decide (m.deadRun + 1 = 20)) = if m.deadRun + 1 = 20 then true else m.longGap := by
    split <;> simp [*]
  simp only [Monitor.closeInterval, hs, ha, hp.ne, hl, hgap, Bool.false_eq_true, if_false]

end

theorem exec_intervalClose (i : StationNo) (s : State) : exec (.intervalClose i) s
    = .next (s.setSt i { s.st i with monitor := (s.st i).monitor.closeInterval }) := rfl

/-- An interval close that the monitor does not count leaves the part as it is. -/
theorem exec_intervalClose_same {i : StationNo} {s : State}
    (h : (s.st i).monitor.closeInterval = (s.st i).monitor) : exec (.intervalClose i) s = .next s := by
  rw [exec_intervalClose, h, State.setSt_same]

/-! ### The judgement of a window (R152 to R154) -/

theorem Monitor.judged_present {m : Monitor} (h : m.presence = .present) :
    m.judged = if m.liveCount = 0 then .absent else .present := by
  simp only [Monitor.judged, h]

theorem Monitor.judged_absent {m : Monitor} (h : m.presence = .absent) :
    m.judged = if 16 ≤ m.liveCount ∧ m.longGap = false then .present else .absent := by
  simp only [Monitor.judged, h]

section
variable {s : State} {i : StationNo} (hp : (s.st i).monitor.position = 64)
  (hs : (s.st i).monitor.suspended = false) (ha : (s.st i).monitor.awaiting = false)
include hp hs ha

theorem exec_windowEnd : exec (.windowEnd i) s = .next (s.judgeWindow i) := by
  have hclosed : (s.st i).monitor.windowClosed = true := by simp [Monitor.windowClosed, hp, hs, ha]
  exact if_pos hclosed

/-- R152: a judgement that finds the presence as it was only begins a new window. -/
theorem exec_windowEnd_same {p : Presence} (hwas : (s.st i).monitor.presence = p)
    (hj : (s.st i).monitor.judged = p) : exec (.windowEnd i) s = .next (s.setSt i { s.st i with
      monitor := { (s.st i).monitor.freshWindow with presence := p } }) := by
  rw [exec_windowEnd hp hs ha, State.judgeWindow]
  simp only [hj, hwas, if_true]

theorem exec_windowEnd_lost (hwas : (s.st i).monitor.presence = .present)
    (hj : (s.st i).monitor.judged = .absent) : exec (.windowEnd i) s = .next { s.setSt i (Station.lost { s.st i with
      monitor := { (s.st i).monitor.freshWindow with presence := .absent } }) with
      notices := s.notices.raiseStationChange i .absent } := by
  rw [exec_windowEnd hp hs ha, State.judgeWindow]
  simp only [hj, hwas, reduceCtorEq, if_false]

theorem exec_windowEnd_returned (hwas : (s.st i).monitor.presence = .absent)
    (hj : (s.st i).monitor.judged = .present) :
    exec (.windowEnd i) s = .next { s.setSt i (Station.returned { s.st i with
      monitor := { (s.st i).monitor.freshWindow with presence := .present } }) with
      notices := s.notices.raiseStationChange i .present } := by
  rw [exec_windowEnd hp hs ha, State.judgeWindow]
  simp only [hj, hwas, reduceCtorEq, if_false]

end

/-- Settles O58: the close of an interval by the monitor's state, a judgement by the presence and the counts. -/
theorem intervalsAndWindowsAreJudged : Obligations.IntervalsAndWindowsAreJudged := by
  refine ⟨?closes, ?judged⟩
  case closes =>
    rintro s i m rfl
    refine ⟨fun hs => exec_intervalClose_same (Monitor.closeInterval_suspended hs), fun hs ha => ?fresh,
      fun hs ha hp => ⟨fun hl => ?live, fun hl => ?dead⟩,
      fun hs ha hp => exec_intervalClose_same (Monitor.closeInterval_closed hs ha hp)⟩
    case fresh => rw [exec_intervalClose, Monitor.closeInterval_awaiting hs ha]
    case live => rw [exec_intervalClose, Monitor.closeInterval_live hs ha hp hl]
    case dead => rw [exec_intervalClose, Monitor.closeInterval_dead hs ha hp hl]
  case judged =>
    rintro s i t fresh rfl rfl hp hs ha
    refine ⟨fun hwas h0 => ?lost, fun hwas h1 => ?stays, fun hwas h16 hgap => ?back, fun hwas hfew => ?away⟩
    case lost =>
      exact exec_windowEnd_lost hp hs ha hwas ((Monitor.judged_present hwas).trans (if_pos h0))
    case stays =>
      exact exec_windowEnd_same hp hs ha hwas ((Monitor.judged_present hwas).trans (if_neg (by omega)))
    case back =>
      exact exec_windowEnd_returned hp hs ha hwas ((Monitor.judged_absent hwas).trans (if_pos ⟨h16, hgap⟩))
    case away =>
      refine exec_windowEnd_same hp hs ha hwas ((Monitor.judged_absent hwas).trans (if_neg ?_))
      rintro ⟨h16, hgap⟩
      rcases hfew with h | h
      · omega
      · simp [hgap] at h

/-! ### The bytes of a running test (R149, R160 to R163) -/

section
variable {s : State} {i : StationNo} {b : Byte}

theorem exec_testBytePlaced_waits (h : (s.st i).port.preTest = true) :
    exec (.testBytePlaced i) s = .next s := if_pos h

section
variable (hrun : (s.st i).lcu.state = .running)
include hrun

theorem exec_testBytePlaced_near (hm : (s.st i).lcu.mode = .near) (h : (s.st i).port.preTest = false) :
    exec (.testBytePlaced i) s = .next (s.setSt i (s.st i).feedPattern) := by
  show execTestBytePlaced i s = _
  simp [execTestBytePlaced, Station.testing, hrun, hm, h]

theorem exec_testBytePlaced_echo (hm : (s.st i).lcu.mode = .echo) (h : (s.st i).port.preTest = false) :
    exec (.testBytePlaced i) s = .next (s.setSt i (s.st i).placePattern) := by
  show execTestBytePlaced i s = _
  simp [execTestBytePlaced, Station.testing, hrun, hm, h]

theorem exec_testUpstreamByte (hm : (s.st i).lcu.mode = .echo) :
    exec (.testUpstreamByte i b) s = .next (s.setSt i ((s.st i).echoByte b)) := by
  have htest : (s.st i).testing .echo = true := by simp [Station.testing, hrun, hm]
  exact if_pos htest

theorem exec_testReturnByte (hm : (s.st i).lcu.mode = .ret) :
    exec (.testReturnByte i b) s = .next (s.setSt i ((s.st i).returnByte b)) := by
  have htest : (s.st i).testing .ret = true := by simp [Station.testing, hrun, hm]
  exact if_pos htest

end

theorem Station.returnByte_placed {t : Station} (h : t.port.preTest = false) : t.returnByte b = t.placeByte b := by
  simp [Station.returnByte, h]

theorem Station.returnByte_discarded {t : Station} (h : t.port.preTest = true) : t.returnByte b = t := if_pos h

/-- R161: what a running test does with an upstream byte, mode by mode. -/
theorem Station.testByte_near {t : Station} (hrun : t.lcu.state = .running) (hm : t.lcu.mode = .near) :
    t.testByte b = t := by
  simp [Station.testByte, hrun, hm]

theorem Station.testByte_echo {t : Station} (hrun : t.lcu.state = .running) (hm : t.lcu.mode = .echo) :
    t.testByte b = t.echoByte b := by
  simp [Station.testByte, hrun, hm]

theorem Station.testByte_ret {t : Station} (hrun : t.lcu.state = .running) (hm : t.lcu.mode = .ret) :
    t.testByte b = t.returnByte b := by
  simp [Station.testByte, hrun, hm]

section
variable (htaken : (s.st i).port.takenByTest = true)
include htaken

/-- R149: bytes at a taken line go to the Line Check Unit in their order. -/
theorem State.upstream_taken (bytes : List Byte) :
    s.upstream i bytes = s.setSt i (bytes.foldl Station.testByte (s.st i)) := if_pos htaken

/-- R149, R161: bytes that a test discards have no effect. -/
theorem exec_upstreamBadFrame_discarded (h : ∀ b, (s.st i).testByte b = s.st i) (bytes : List Byte) :
    exec (.upstreamBadFrame i bytes) s = .next s := by
  show Host.Outcome.next (s.upstream i bytes) = _
  rw [State.upstream_taken htaken, List.foldl_fixed' h, State.setSt_same]

theorem exec_upstreamBadFrame_nil : exec (.upstreamBadFrame i []) s = .next s := by
  show Host.Outcome.next (s.upstream i []) = _
  rw [State.upstream_taken htaken, List.foldl_nil, State.setSt_same]

/-- R149, R161: the first of the bytes does what the test's mode does with it; the rest follow. -/
theorem exec_upstreamBadFrame_cons {t : Station} (hb : (s.st i).testByte b = t) (bytes : List Byte) :
    exec (.upstreamBadFrame i (b :: bytes)) s = exec (.upstreamBadFrame i bytes) (s.setSt i t) := by
  show Host.Outcome.next (s.upstream i (b :: bytes)) = .next ((s.setSt i t).upstream i bytes)
  rw [State.upstream_cons_taken htaken, State.upstream_taken htaken [b], ← hb]
  rfl

end

end

/-- R163: 255 − b stands for a byte that the rate or single pending marks. -/
theorem Lcu.injected_eq (l : Lcu) :
    l.injected = fun b => if rateMarks l.rate l.posCount = true ∨ l.single = true then 255 - b else b := by
  funext b
  simp only [Lcu.injected, Bool.or_eq_true]

/-- Settles O59: the words of the statement are the model's injection, counts and generator, and each byte goes by the
test's mode. -/
theorem testBytesFollowTheMode : Obligations.TestBytesFollowTheMode := by
  rintro s i t l byRate inject placed pattern pos rfl rfl hrate hinject hplaced hpattern hpos hrun
  have hrate' : byRate = rateMarks (s.st i).lcu.rate (s.st i).lcu.posCount := hrate
  have hinject' : inject = (s.st i).lcu.injected := by rw [hinject, hrate', Lcu.injected_eq]
  have hplaced' : placed = (s.st i).lcu.countPlaced := by rw [hplaced, hrate']; rfl
  have hpattern' : pattern = (s.st i).lcu.pattern.byteAt (s.st i).lcu.genPos := by
    rw [hpattern]
    cases (s.st i).lcu.pattern <;> rfl
  have hpos' : pos = (s.st i).lcu.pattern.next (s.st i).lcu.genPos := by
    rw [hpos]
    cases (s.st i).lcu.pattern <;> rfl
  clear hrate hinject hplaced hpattern hpos
  subst hinject' hplaced' hpattern' hpos'
  refine ⟨exec_testBytePlaced_near hrun, exec_testBytePlaced_echo hrun, exec_testBytePlaced_waits,
    fun b => ⟨exec_testUpstreamByte hrun, fun hm hpre => ?returned, fun hm hpre => ?discarded,
      fun htaken bytes => ⟨exec_upstreamBadFrame_nil htaken,
        fun hm => exec_upstreamBadFrame_discarded htaken (fun _ => Station.testByte_near hrun hm) bytes,
        fun hm => ⟨_, exec_testUpstreamByte hrun hm,
          exec_upstreamBadFrame_cons htaken (Station.testByte_echo hrun hm) bytes⟩,
        fun hm => ⟨_, exec_testReturnByte hrun hm,
          exec_upstreamBadFrame_cons htaken (Station.testByte_ret hrun hm) bytes⟩,
        fun item kind => ⟨rfl, rfl, rfl, rfl, rfl, rfl, rfl, rfl, rfl⟩⟩⟩⟩
  case returned =>
    rw [exec_testReturnByte hrun hm, Station.returnByte_placed hpre]
    rfl
  case discarded =>
    rw [exec_testReturnByte hrun hm, Station.returnByte_discarded hpre, State.setSt_same]

end Sys2Proof.Machine
end

section
/-! PROOFS. The checker of the Line Check Unit (R164 to R166): what a byte does in HUNT and in SYNC. -/

namespace Sys2Proof.Machine

/-! ### The count of correct predictions (R164, R165) -/

section
variable {c : Checker} {p : Pattern} {b e : Byte}

/-- R164, R165: short of 16 correct predictions in a row the checker stays in HUNT. -/
theorem Checker.settle_of_ne (h : c.correct ≠ 16) : c.settle = c := if_neg h

/-- R164 to R166: the 16th enters SYNC, with an empty record. -/
theorem Checker.settle_of_eq (h : c.correct = 16) : c.settle = { c with sync := true, record := [] } := if_pos h

/-! ### HUNT with COUNT (R164) -/

theorem Checker.huntCount_first (he : c.expected = none) : c.huntCount b = { c with expected := some (b + 1) } := by
  rw [Checker.huntCount, he]

theorem Checker.huntCount_wrong (he : c.expected = some e) (hb : b ≠ e) :
    c.huntCount b = { c with expected := some (b + 1), correct := 0 } := by
  simp only [Checker.huntCount, he, if_neg hb]
  exact Checker.settle_of_ne (by simp)

theorem Checker.huntCount_right (he : c.expected = some e) (hb : b = e) :
    c.huntCount b = Checker.settle { c with expected := some (b + 1), correct := c.correct + 1 } := by
  simp only [Checker.huntCount, he, if_pos hb]

/-! ### HUNT with REPEAT (R165) -/

theorem Checker.align_first (hb : b = p.byteAt 0) :
    c.align p b = { c with aligned := true, position := 1 % p.period, correct := 0 } := if_pos hb

theorem Checker.align_passed (ha : c.aligned = false) (hb : b ≠ p.byteAt 0) : c.align p b = c := by
  rw [Checker.align, if_neg hb, if_neg (Bool.eq_false_iff.mp ha)]

theorem Checker.align_ended (ha : c.aligned = true) (hb : b ≠ p.byteAt 0) :
    c.align p b = { c with aligned := false, correct := 0 } := by
  rw [Checker.align, if_neg hb, if_pos ha]

/-- R165: a byte that no alignment predicts is tried as the first of the pattern. -/
theorem Checker.huntRepeat_unpredicted (h : c.aligned = false ∨ b ≠ p.byteAt c.position) :
    c.huntRepeat p b = c.align p b := by
  rcases h with ha | hb
  · simp [Checker.huntRepeat, ha]
  · simp [Checker.huntRepeat, hb]

theorem Checker.huntRepeat_predicted (ha : c.aligned = true) (hb : b = p.byteAt c.position) :
    c.huntRepeat p b = Checker.settle { c with correct := c.correct + 1, position := p.next c.position } := by
  simp [Checker.huntRepeat, ha, ← hb]

/-! ### The expectation in SYNC, and the byte that loses SYNC (R166) -/

theorem Checker.expects_count (he : c.expected = some e) : c.expects .count = e := by
  simp only [Checker.expects, he, Option.getD_some]

theorem Checker.advance_count (he : c.expected = some e) :
    c.advance .count = { c with expected := some (e + 1) } := by
  simp only [Checker.advance, Checker.expects_count he]

/-- R166: with COUNT the byte that loses SYNC is not a prediction; the next one is predicted from it. -/
theorem Checker.toHunt_hunt_count : c.toHunt.hunt .count b = { c.toHunt with expected := some (b + 1) } :=
  Checker.huntCount_first (c := c.toHunt) rfl

/-- R166: with REPEAT the byte that loses SYNC aligns the checker at once if it is p0. -/
theorem Checker.toHunt_hunt_repeated (bytes : List Byte) :
    c.toHunt.hunt (.repeated bytes) b = { c.toHunt with
      aligned := decide (b = bytes.getD 0 0)
      position := if b = bytes.getD 0 0 then 1 % bytes.length else c.position } := by
  have htried : c.toHunt.hunt (.repeated bytes) b = c.toHunt.align (.repeated bytes) b :=
    Checker.huntRepeat_unpredicted (.inl rfl)
  rw [htried]
  by_cases hb : b = bytes.getD 0 0
  · rw [Checker.align_first hb, if_pos hb, decide_eq_true hb]
    rfl
  · rw [Checker.align_passed rfl hb, if_neg hb, decide_eq_false hb]
    rfl

end

/-! ### A byte read (R164 to R166) -/

section
variable {l : Lcu} {b e : Byte}

/-- R164, R165: in HUNT a byte changes the checker only. -/
theorem Lcu.read_hunt (hs : l.checker.sync = false) :
    l.read b = { l with checker := l.checker.hunt l.pattern b } := by
  simp [Lcu.read, hs]

theorem Lcu.read_huntCount (hs : l.checker.sync = false) (hp : l.pattern = .count) :
    l.read b = { l with checker := l.checker.huntCount b } := by
  rw [Lcu.read_hunt hs, hp]
  rfl

theorem Lcu.read_huntRepeat {bytes : List Byte} (hs : l.checker.sync = false) (hp : l.pattern = .repeated bytes) :
    l.read b = { l with checker := l.checker.huntRepeat (.repeated bytes) b } := by
  rw [Lcu.read_hunt hs, hp]
  rfl

/-- R166, steps 1 and 3: the counts after the byte `b` is compared with the byte `e`. -/
def Lcu.countCompared (l : Lcu) (b e : Byte) : Lcu :=
  { l with
    compared := satInc max32 l.compared
    errors := if b = e then l.errors else satInc max24 l.errors }

section
variable (hs : l.checker.sync = true) (he : l.checker.expects l.pattern = e)
include hs he

/-- R166: in SYNC a byte is compared and counted, and the record it joins decides whether SYNC is lost. -/
theorem Lcu.read_sync :
    l.read b =
      if lostSync (joinRecord l.checker.record (decide (b ≠ e))) then
        { l.countCompared b e with losses := satInc max8 l.losses, checker := l.checker.toHunt.hunt l.pattern b }
      else { l.countCompared b e with
        checker := { l.checker.advance l.pattern with
          record := joinRecord l.checker.record (decide (b ≠ e)) } } := by
  by_cases hb : b = e
  · simp [Lcu.read, Lcu.countCompared, hs, he, hb]
  · have herror : (b != e) = true := bne_iff_ne.mpr hb
    simp [Lcu.read, Lcu.countCompared, hs, he, hb, herror]

theorem Lcu.read_sync_kept {record : List Bool} (hr : joinRecord l.checker.record (decide (b ≠ e)) = record)
    (hfew : record.count true < 4) :
    l.read b = { l.countCompared b e with checker := { l.checker.advance l.pattern with record := record } } := by
  have hkept : ¬ lostSync record = true := by simpa [lostSync] using hfew
  rw [Lcu.read_sync hs he, hr, if_neg hkept]

theorem Lcu.read_sync_lost {record : List Bool} (hr : joinRecord l.checker.record (decide (b ≠ e)) = record)
    (hmany : 4 ≤ record.count true) :
    l.read b = { l.countCompared b e with
      losses := satInc max8 l.losses, checker := l.checker.toHunt.hunt l.pattern b } := by
  have hlost : lostSync record = true := decide_eq_true hmany
  rw [Lcu.read_sync hs he, hr, if_pos hlost]

end

end

/-- R166, step 4: the oldest result leaves a record that would hold more than 16. -/
theorem joinRecord_eq (record : List Bool) (error : Bool) :
    joinRecord record error = (record ++ [error]).drop (record.length + 1 - 16) := by
  simp only [joinRecord, List.length_append, List.length_singleton]

/-- Settles O60: in HUNT by the pattern, the expectation and the count; in SYNC by the errors in the record, then by the
pattern. -/
theorem checkerHuntsAndCompares : Obligations.CheckerHuntsAndCompares := by
  rintro l b c rfl
  refine ⟨fun hs hp => ?count, fun bytes hs hp => ?repeated, fun e record counted hs hexp hrec hcounted => ?sync⟩
  case count =>
    rw [Lcu.read_huntCount hs hp]
    refine ⟨fun he => ?first, fun e he hb _ => ?wrong, fun e he hb hn => ?right, fun e he hb hn => ?enters⟩
    case first => rw [Checker.huntCount_first he]
    case wrong => rw [Checker.huntCount_wrong he hb]
    case right => rw [Checker.huntCount_right he hb, Checker.settle_of_ne (Nat.ne_of_lt hn)]
    case enters => rw [Checker.huntCount_right he hb, Checker.settle_of_eq hn, hn]
  case repeated =>
    rw [Lcu.read_huntRepeat hs hp]
    refine ⟨fun hfree hb => ?aligns, fun ha hb => ?passed, fun ha hne hb => ?ended, fun ha hb hn => ?right,
      fun ha hb hn => ?enters⟩
    case aligns => rw [Checker.huntRepeat_unpredicted hfree, Checker.align_first hb]; rfl
    case passed => rw [Checker.huntRepeat_unpredicted (.inl ha), Checker.align_passed ha hb]
    case ended => rw [Checker.huntRepeat_unpredicted (.inr hne), Checker.align_ended ha hb]
    case right => rw [Checker.huntRepeat_predicted ha hb, Checker.settle_of_ne (Nat.ne_of_lt hn)]; rfl
    case enters => rw [Checker.huntRepeat_predicted ha hb, Checker.settle_of_eq hn, hn]; rfl
  case sync =>
    have hrec' : joinRecord l.checker.record (decide (b ≠ e)) = record := (joinRecord_eq _ _).trans hrec.symm
    obtain rfl : counted = l.countCompared b e := hcounted
    rcases hexp with ⟨hp, he⟩ | ⟨bytes, hp, he⟩
    case inl =>
      have hexpects : l.checker.expects l.pattern = e := by rw [hp, Checker.expects_count he]
      refine ⟨fun hfew => ?kept, fun hmany => ?lost⟩
      case kept => rw [Lcu.read_sync_kept hs hexpects hrec' hfew, hp, Checker.advance_count he]
      case lost => rw [Lcu.read_sync_lost hs hexpects hrec' hmany, hp, Checker.toHunt_hunt_count]; rfl
    case inr =>
      have hexpects : l.checker.expects l.pattern = e := by rw [hp, he]; rfl
      refine ⟨fun hfew => ?kept, fun hmany => ?lost⟩
      case kept => rw [Lcu.read_sync_kept hs hexpects hrec' hfew, hp]; rfl
      case lost => rw [Lcu.read_sync_lost hs hexpects hrec' hmany, hp, Checker.toHunt_hunt_repeated]; rfl

end Sys2Proof.Machine
end
section
/-! PROOFS. The Host Line Port: frames sorted and bad frames counted (R174, R175, R177), the Notice Set (R183, R184), and
the values after device reset (R185, R187). -/

namespace Sys2Proof.Machine

/-! ### Frames sorted by their kind (R175, R177) -/

section
variable {s : State} {f : Frame}

theorem State.sortFrame_pause (h : f.kind = 0x46) : s.sortFrame f = { s with pause := .paused } := if_pos h

theorem State.sortFrame_go (h : f.kind = 0x47) : s.sortFrame f = { s with pause := .running } := by
  have hpause : f.kind ≠ kindPause := by rw [h]; decide
  exact (if_neg hpause).trans (if_pos h)

theorem State.sortFrame_request (hpause : f.kind ≠ 0x46) (hgo : f.kind ≠ 0x47) : s.sortFrame f = s.joinBuffer f :=
  (if_neg hpause).trans (if_neg hgo)

theorem State.joinBuffer_room (h : s.buffer.length < 2) : s.joinBuffer f = { s with buffer := s.buffer ++ [f] } :=
  if_pos h

theorem State.joinBuffer_full (h : 2 ≤ s.buffer.length) :
    s.joinBuffer f = { s with overruns := min 65535 (s.overruns + 1), overrunFlag := true } :=
  if_neg (Nat.not_lt.mpr h)

end

/-! ### A fragment in reception before a new frame (R174) -/

section
variable {s : State}

theorem State.fragmentDropped_hunting (h : s.hostRx = .hunting) : s.fragmentDropped = s := if_pos h

theorem State.fragmentDropped_inFrame (h : s.hostRx ≠ .hunting) :
    s.fragmentDropped = { s with hostRx := .hunting, hostBadFrames := min 65535 (s.hostBadFrames + 1) } := if_neg h

@[simp] theorem State.fragmentDropped_buffer (s : State) : s.fragmentDropped.buffer = s.buffer := by
  unfold State.fragmentDropped
  split <;> rfl

@[simp] theorem State.fragmentDropped_overruns (s : State) : s.fragmentDropped.overruns = s.overruns := by
  unfold State.fragmentDropped
  split <;> rfl

end

/-! ### Bytes received on the host line (R174) -/

section
variable {s : State} {bytes : List Byte} {rx : RxState}

/-- R174: what the receiver makes of the bytes takes its effect, one result after the other. -/
theorem State.hostBytes_of_rxRun {results : List RxResult} (h : rxRun 4006 s.hostRx bytes = (rx, results)) :
    s.hostBytes bytes = results.foldl State.hostReceived { s with hostRx := rx } := by
  rw [State.hostBytes, hostLimit, h]

/-- R174: bytes that the receiver discards as one bad frame are counted once. -/
theorem State.hostBytes_bad (h : rxRun 4006 s.hostRx bytes = (rx, [.bad])) :
    s.hostBytes bytes = { s with hostRx := rx, hostBadFrames := min 65535 (s.hostBadFrames + 1) } :=
  State.hostBytes_of_rxRun h

/-- R174: bytes that leave the receiver as it was, and no frame complete, have no effect. -/
theorem State.hostBytes_ignored (h : rxRun 4006 s.hostRx bytes = (s.hostRx, [])) : s.hostBytes bytes = s :=
  State.hostBytes_of_rxRun h

end

/-- R174, R175: a frame that fits is sorted, after a fragment before it has been discarded as bad. -/
theorem State.hostBytes_frame (s : State) {f : Frame} (hb : f.body.length ≤ 4000) :
    s.hostBytes f.onLine.bytes = s.fragmentDropped.sortFrame f := by
  cases hrx : s.hostRx with
  | hunting =>
    have hrun : rxRun 4006 s.hostRx f.onLine.bytes = (s.hostRx, [.good f]) := by
      rw [hrx, rxRun_frame_hunting 4006 f (by omega) (by omega)]
    rw [State.hostBytes_of_rxRun hrun, State.fragmentDropped_hunting hrx]
    rfl
  | inFrame decoded escape =>
    have hrun : rxRun 4006 s.hostRx f.onLine.bytes = (.hunting, [.bad, .good f]) := by
      rw [hrx, rxRun_frame_inFrame 4006 f decoded escape (by omega) (by omega)]
    rw [State.hostBytes_of_rxRun hrun, State.fragmentDropped_inFrame (by rw [hrx]; exact RxState.noConfusion)]
    rfl

theorem exec_hostRequestFrameComplete {s : State} {kind item : Byte} {body : List Byte} (hb : body.length ≤ 4000)
    (hpause : kind ≠ 0x46) (hgo : kind ≠ 0x47) :
    exec (.hostRequestFrameComplete kind item body) s = .next (s.fragmentDropped.joinBuffer ⟨kind, item, body⟩) := by
  show Host.Outcome.next (s.hostBytes (Frame.mk kind item body).onLine.bytes) = _
  rw [State.hostBytes_frame s hb, State.sortFrame_request hpause hgo]

theorem exec_pause {s : State} {item : Byte} {body : List Byte} (hb : body.length ≤ 4000) :
    exec (.pause item body) s = .next { s.fragmentDropped with pause := .paused } := by
  show Host.Outcome.next (s.hostBytes (Frame.mk kindPause item body).onLine.bytes) = _
  rw [State.hostBytes_frame s hb, State.sortFrame_pause rfl]

theorem exec_go {s : State} {item : Byte} {body : List Byte} (hb : body.length ≤ 4000) :
    exec (.go item body) s = .next { s.fragmentDropped with pause := .running } := by
  show Host.Outcome.next (s.hostBytes (Frame.mk kindGo item body).onLine.bytes) = _
  rw [State.hostBytes_frame s hb, State.sortFrame_go rfl]

theorem exec_hostBadFrame (bytes : List Byte) (s : State) :
    exec (.hostBadFrame bytes) s = .next (s.hostBytes bytes) := rfl

/-- Settles O15: a request by the room in the buffer, then PAUSE and GO. -/
theorem completeHostFramesAreSorted : Obligations.CompleteHostFramesAreSorted := by
  refine ⟨fun s kind item body hpause hgo hb => ⟨fun hroom => ?room, fun hfull => ?full⟩,
    fun s item body hb => ⟨exec_pause hb, exec_go hb⟩⟩
  case room =>
    rw [exec_hostRequestFrameComplete hb hpause hgo, State.joinBuffer_room (by simpa using hroom),
      State.fragmentDropped_buffer]
  case full =>
    rw [exec_hostRequestFrameComplete hb hpause hgo, State.joinBuffer_full (by simpa using hfull),
      State.fragmentDropped_overruns]

/-- Settles O16: each kind of bad frame by what the receiver makes of its bytes. -/
theorem badHostFrameIsCountedOnce : Obligations.BadHostFrameIsCountedOnce := by
  intro s hrx
  have hbad : ∀ {bytes : List Byte}, rxRun 4006 .hunting bytes = (.hunting, [.bad]) →
      exec (.hostBadFrame bytes) s = .next { s with hostBadFrames := min 65535 (s.hostBadFrames + 1) } := fun h => by
    rw [← hrx] at h
    rw [exec_hostBadFrame, State.hostBytes_bad h]
  have henclosed : ∀ {decoded : List Byte}, decoded.length ≤ 4006 → judge decoded = .bad →
      exec (.hostBadFrame (0x02 :: decoded.flatMap escaped ++ [0x03])) s
        = .next { s with hostBadFrames := min 65535 (s.hostBadFrames + 1) } :=
    fun hfit hj => hbad (hj ▸ rxRun_enclosed 4006 _ hfit)
  refine ⟨fun f check hb hc => hbad (rxRun_frame_badCheck 4006 f check (by omega) (by omega) hc),
    fun kind item n body check hn hb hne => henclosed (by simp; omega) (judge_wrongLength hn hne (beBytes_length 2 _)),
    fun bytes hb => henclosed (by omega) (judge_short hb),
    fun b h02 h22 h23 h30 => hbad (rxRun_badEscape 4006 h02 h22 h23 h30),
    fun bytes hb => hbad (rxRun_overLength hb), ?restart, fun bytes hb => ?ignored⟩
  case restart => rw [exec_hostBadFrame, State.hostBytes_bad (hrx ▸ rxRun_restart 4006)]
  case ignored => rw [exec_hostBadFrame, State.hostBytes_ignored (hrx ▸ rxRun_hunting_noStart 4006 hb)]

/-! ### The notices of the set (R183, R184) -/

/-- R183: the notices of one kind are those that some station has. -/
theorem mem_stationNotices {α : Type} {v : Vector (Option α) 4} {mk : StationNo → α → Notice} {x : Notice} :
    x ∈ stationNotices v mk ↔ ∃ i a, v.get i = some a ∧ mk i a = x := by
  have hall : ∀ i, i ∈ allStations := by decide
  simp [stationNotices, hall]

/-- R184: the sending order holds the notices that are pending and no other. -/
theorem Notices.mem_inOrder {n : Notices} {x : Notice} : x ∈ n.inOrder ↔ n.Pending x := by
  simp only [Notices.inOrder_eq, List.mem_append, mem_stationNotices]
  cases x with
  | restarted | stationChange | overflow | testDone | ringHalf | entryHeld => simp [Notices.Pending]

section
variable {n : Notices} {i : StationNo}

theorem Notices.raiseStationChange_joins (p : Presence) (h : n.stationChange.get i = none) :
    n.raiseStationChange i p = { n with stationChange := n.stationChange.set i.val (some (p, 1)) i.isLt } := by
  rw [Notices.raiseStationChange, h]

theorem Notices.raiseStationChange_merges (p : Presence) {q : Presence} {c : Nat}
    (h : n.stationChange.get i = some (q, c)) : n.raiseStationChange i p
      = { n with stationChange := n.stationChange.set i.val (some (p, min 255 (c + 1))) i.isLt } := by
  rw [Notices.raiseStationChange, h]
  rfl

theorem Notices.raiseOverflow_joins (h : n.overflow.get i = none) :
    n.raiseOverflow i = { n with overflow := n.overflow.set i.val (some 1) i.isLt } := by
  rw [Notices.raiseOverflow, h]

theorem Notices.raiseOverflow_merges {c : Nat} (h : n.overflow.get i = some c) :
    n.raiseOverflow i = { n with overflow := n.overflow.set i.val (some (min 65535 (c + 1))) i.isLt } := by
  rw [Notices.raiseOverflow, h]
  rfl

/-- R183: a RING-HALF that joins the set merges with occupancy 0. -/
theorem Notices.raiseRingHalf_eq (n : Notices) (o : Nat) :
    n.raiseRingHalf o = { n with ringHalf := some (max o (n.ringHalf.getD 0)) } := by
  cases h : n.ringHalf with
  | none => simp [Notices.raiseRingHalf, h]
  | some pending => simp [Notices.raiseRingHalf, h, max_comm]

end

/-- Settles O40: the sending order, then each raise by what is pending before it. -/
theorem noticesMergeAndAreOrdered : Obligations.NoticesMergeAndAreOrdered := by
  intro n
  exact ⟨fun x => Notices.mem_inOrder, n.ascending_inOrder.pairwise,
    fun i p => ⟨Notices.raiseStationChange_joins p, fun q c => Notices.raiseStationChange_merges p⟩,
    fun i => ⟨Notices.raiseOverflow_joins, fun c => Notices.raiseOverflow_merges⟩, Notices.raiseRingHalf_eq n,
    fun i => rfl⟩

/-! ### The Host Line Port after device reset (R185, R187) -/

/-- R187: after device reset RESTARTED is the one notice pending. -/
theorem Notices.reset_inOrder : Notices.reset.inOrder = [.restarted] := by decide

/-- Settles O4: every item named has its reset value, whatever the state before. -/
theorem deviceResetHostLine : Obligations.DeviceResetHostLine := by
  intro s
  exact ⟨{ State.reset with pending := s.pending, freeCount := s.freeCount }, rfl, rfl, rfl, rfl, rfl, rfl,
    rfl, Notices.reset_inOrder, rfl, rfl, rfl⟩

end Sys2Proof.Machine
end
section
/-! PROOFS. QUERY (R188 to R194, R200): how its body decodes, what its refusals are, and the data of each reply. -/

namespace Sys2Proof.Machine

/-! ### The bodies of a QUERY (11.2, R200) -/

theorem roleOf_eq_some {b : Byte} {r : Role} : roleOf b = some r ↔ b = roleByte r := by
  refine ⟨fun h => ?_, fun h => h ▸ roleOf_roleByte r⟩
  unfold roleOf at h
  split at h
  · rename_i hb
    obtain rfl := Option.some.inj h
    exact BitVec.eq_of_toNat_eq hb
  · rename_i hb
    obtain rfl := Option.some.inj h
    exact BitVec.eq_of_toNat_eq hb
  · cases h

theorem decodeQuery_readCells (r : Role) : decodeQuery [1, roleByte r] = some (.readCells r) := by simp [decodeQuery]

theorem decodeQuery_readFields (r : Role) : decodeQuery [2, roleByte r] = some (.readFields r) := by simp [decodeQuery]

theorem decodeQuery_readField (r : Role) (t : Byte) :
    decodeQuery [3, roleByte r, t] = some (.readField r t.toNat) := by simp [decodeQuery]

theorem decodeQuery_readModified (r : Role) : decodeQuery [4, roleByte r] = some (.readModified r) := by
  simp [decodeQuery]

theorem decodeQuery_readStatus : decodeQuery [5] = some .readStatus := rfl

/-- 11.2: the bodies of two bytes. -/
theorem decodeQuery_pair_isSome {k r : Byte} :
    (decodeQuery [k, r]).isSome = true
      ↔ ∃ role, k = 1 ∧ r = roleByte role ∨ k = 2 ∧ r = roleByte role ∨ k = 4 ∧ r = roleByte role := by
  constructor
  · intro h
    cases hr : roleOf r with
    | none => simp [decodeQuery, hr] at h
    | some role =>
      have hrole := roleOf_eq_some.mp hr
      refine ⟨role, ?_⟩
      simp only [decodeQuery, hr] at h
      split at h
      · exact .inl ⟨BitVec.eq_of_toNat_eq ‹_›, hrole⟩
      · exact .inr (.inl ⟨BitVec.eq_of_toNat_eq ‹_›, hrole⟩)
      · exact .inr (.inr ⟨BitVec.eq_of_toNat_eq ‹_›, hrole⟩)
      · cases h
  · rintro ⟨role, ⟨rfl, rfl⟩ | ⟨rfl, rfl⟩ | ⟨rfl, rfl⟩⟩
    · rw [decodeQuery_readCells]; rfl
    · rw [decodeQuery_readFields]; rfl
    · rw [decodeQuery_readModified]; rfl

/-- 11.2: the bodies of three bytes. -/
theorem decodeQuery_triple_isSome {k r t : Byte} :
    (decodeQuery [k, r, t]).isSome = true ↔ k = 3 ∧ ∃ role, r = roleByte role := by
  constructor
  · intro h
    cases hr : roleOf r with
    | none => simp [decodeQuery, hr] at h
    | some role =>
      refine ⟨?_, role, roleOf_eq_some.mp hr⟩
      simp only [decodeQuery, hr] at h
      split at h
      · assumption
      · cases h
  · rintro ⟨rfl, role, rfl⟩
    rw [decodeQuery_readField]
    rfl

/-- R188, R200: the bodies that decode, by their length. -/
theorem decodeQuery_isSome (body : List Byte) : (decodeQuery body).isSome = true ↔
    body = [5] ∨ (∃ role t, body = [3, roleByte role, t])
      ∨ ∃ role, body = [1, roleByte role] ∨ body = [2, roleByte role] ∨ body = [4, roleByte role] := by
  match body with
  | [] => simp [decodeQuery]
  | [k] => simp [decodeQuery]
  | [k, r] => simp [decodeQuery_pair_isSome]
  | [k, r, t] => simp [decodeQuery_triple_isSome]
  | k :: r :: t :: u :: rest => simp [decodeQuery]

/-! ### The query in hand (R188) -/

/-- R188: the row of each query of a station, and the kind byte that leads its body. -/
def StationQueryRow (f : Frame) (c : Instr) (k : Byte) : Prop :=
  (c = .readCells ∧ k = 1) ∨ (c = .readFields ∧ k = 2) ∨ (c = .readField ∧ k = 3) ∨ (c = .readModified ∧ k = 4)
    ∨ (c = .readStatusStation ∧ k = 5 ∧ f.station ≠ 0x0F)

section
variable {s : State} {f : Frame} (hi : s.interp = .handling f) (hk : f.kind = 0x42)
include hi hk

theorem State.queryInHand_handling {k : Byte} (hb : f.body.head? = some k) : s.queryInHand k = some f := by
  simp [State.queryInHand, State.inHandOf_handling hi, hk, kindQuery, hb]

/-- R188: a query of a station is the common handling of its frame, with a read of its own. -/
theorem exec_stationQuery {c : Instr} {k : Byte} (hb : f.body.head? = some k) (hc : StationQueryRow f c k) :
    ∃ read, exec c s = .next (s.stationQuery f read) := by
  have hin := State.queryInHand_handling hi hk hb
  rcases hc with ⟨rfl, rfl⟩ | ⟨rfl, rfl⟩ | ⟨rfl, rfl⟩ | ⟨rfl, rfl⟩ | ⟨rfl, rfl, hs⟩
  · exact ⟨_, by show execReadCells s = _; rw [execReadCells, hin]⟩
  · exact ⟨_, by show execReadFields s = _; rw [execReadFields, hin]⟩
  · exact ⟨_, by show execReadField s = _; rw [execReadField, hin]⟩
  · exact ⟨_, by show execReadModified s = _; rw [execReadModified, hin]⟩
  · exact ⟨_, by show execReadStatusStation s = _; rw [execReadStatusStation, hin]; exact if_neg hs⟩

theorem exec_readStatusDevice_badOrder (hb : f.body.head? = some 5) (hs : f.station = 0x0F)
    (hd : decodeQuery f.body = none) : exec .readStatusDevice s = .next (s.refuse f .badOrder) := by
  show execReadStatusDevice s = _
  rw [execReadStatusDevice, State.queryInHand_handling hi hk hb]
  simp only [hd]
  exact if_pos hs

end

theorem State.stationQuery_badOrder {s : State} {f : Frame} (hd : decodeQuery f.body = none)
    (read : Query → StationNo → State) : s.stationQuery f read = s.refuse f .badOrder := by
  rw [State.stationQuery, hd]

theorem State.stationQuery_badStation {s : State} {f : Frame} (hd : (decodeQuery f.body).isSome = true)
    (hs : stationOf f.station = none) (read : Query → StationNo → State) :
    s.stationQuery f read = s.refuse f .badStation := by
  obtain ⟨q, hq⟩ := Option.isSome_iff_exists.mp hd
  simp only [State.stationQuery, hq, hs]

theorem State.stationQuery_granted {s : State} {f : Frame} {i : StationNo} {q : Query} (hg : s.UnderGrant f i)
    (hd : decodeQuery f.body = some q) (read : Query → StationNo → State) : s.stationQuery f read = read q i := by
  obtain ⟨-, hs, hh⟩ := hg
  simp [State.stationQuery, hd, hs, State.granted, hh]

theorem State.refuse_query {s : State} {f : Frame} (hk : f.kind = 0x42) (r : Reason) :
    s.refuse f r = { s with interp := .replying ⟨0x42, f.station, r, 0, []⟩ none none none } := by
  rw [State.refuse, State.answer, hk]

/-- Settles O34: the bodies by their length, then the two refusals in the order of R188. -/
theorem queriesAreRefusedBeforeAnyGrant : Obligations.QueriesAreRefusedBeforeAnyGrant := by
  refine ⟨decodeQuery_isSome, fun s f c k hi hk hb hc => ?_⟩
  have hrow : (StationQueryRow f c k) ∨ (c = .readStatusDevice ∧ k = 5 ∧ f.station = 0x0F) := by
    simpa only [StationQueryRow, or_assoc] using hc
  rcases hrow with hrow | ⟨rfl, rfl, hs⟩
  · obtain ⟨read, he⟩ := exec_stationQuery hi hk hb hrow
    refine ⟨fun hd => ?badOrder, fun hd hs _ => ?badStation⟩
    case badOrder => rw [he, State.stationQuery_badOrder hd, State.refuse_query hk]
    case badStation => rw [he, State.stationQuery_badStation hd hs, State.refuse_query hk]
  · refine ⟨fun hd => ?_, fun _ _ hne => absurd rfl hne⟩
    rw [exec_readStatusDevice_badOrder hi hk hb hs hd, State.refuse_query hk]

/-! ### The queries under the grant (R188) -/

section
variable {s : State} {f : Frame} {i : StationNo} (hg : s.UnderGrant f i) (hk : f.kind = 0x42)
include hg hk

theorem State.UnderGrant.queryInHand {k : Byte} {operands : List Byte} (hb : f.body = k :: operands) :
    s.queryInHand k = some f := by
  obtain ⟨hi, -, -⟩ := hg
  exact State.queryInHand_handling hi hk (by rw [hb]; rfl)

theorem exec_readCells {role : Role} (hb : f.body = [1, roleByte role]) :
    exec .readCells s = .next { s with
      interp := .replying ⟨0x42, f.station, .none, 0, (s.st i).cellsData role⟩ (some i) none none } := by
  show execReadCells s = _
  rw [execReadCells, State.UnderGrant.queryInHand hg hk hb]
  simp only [State.stationQuery_granted hg (hb ▸ decodeQuery_readCells role), State.done, State.answer, hk]

theorem exec_readFields {role : Role} (hb : f.body = [2, roleByte role]) :
    exec .readFields s = .next { s with
      interp := .replying ⟨0x42, f.station, .none, 0, byteOf ((s.st i).page role).fields.length
        :: (recordsData s.freeCount ((s.st i).page role).fields).1⟩ (some i) none none
      freeCount := (recordsData s.freeCount ((s.st i).page role).fields).2 } := by
  show execReadFields s = _
  rw [execReadFields, State.UnderGrant.queryInHand hg hk hb]
  simp only [State.stationQuery_granted hg (hb ▸ decodeQuery_readFields role), State.done, State.answer, hk]

theorem exec_readField_found {role : Role} {tag : Byte} {g : Field} (hb : f.body = [3, roleByte role, tag])
    (hf : ((s.st i).page role).fieldOf tag.toNat = some g) :
    exec .readField s = .next { s with
      interp := .replying ⟨0x42, f.station, .none, 0, ((s.st i).page role).fieldData g⟩ (some i) none none } := by
  show execReadField s = _
  rw [execReadField, State.UnderGrant.queryInHand hg hk hb]
  simp only [State.stationQuery_granted hg (hb ▸ decodeQuery_readField role tag), hf, State.done, State.answer, hk]

theorem exec_readField_missing {role : Role} {tag : Byte} (hb : f.body = [3, roleByte role, tag])
    (hf : ((s.st i).page role).fieldOf tag.toNat = none) :
    exec .readField s = .next { s with
      interp := .replying ⟨0x42, f.station, .noSuchTag, 0, []⟩ (some i) none none } := by
  show execReadField s = _
  rw [execReadField, State.UnderGrant.queryInHand hg hk hb]
  simp only [State.stationQuery_granted hg (hb ▸ decodeQuery_readField role tag), hf, State.answer, hk]

theorem exec_readModified {role : Role} (hb : f.body = [4, roleByte role]) :
    exec .readModified s = .next { s with
      interp := .replying ⟨0x42, f.station, .none, 0, ((s.st i).page role).recordBytes i .enter false⟩
        (some i) none none } := by
  show execReadModified s = _
  rw [execReadModified, State.UnderGrant.queryInHand hg hk hb]
  simp only [State.stationQuery_granted hg (hb ▸ decodeQuery_readModified role), State.done, State.answer, hk]

/-- R194: the data is read before the counters and latched flags in it are cleared. -/
theorem exec_readStatusStation (hb : f.body = [5]) :
    exec .readStatusStation s = .next (State.setSt
      { s with interp := .replying ⟨0x42, f.station, .none, 0, (s.st i).statusData (s.isHeld i)⟩ (some i) none none } i
      (s.st i).clearCounters) := by
  have hne : f.station ≠ deviceItem := fun h => by
    obtain ⟨-, hs, -⟩ := hg
    rw [h] at hs
    cases hs
  show execReadStatusStation s = _
  rw [execReadStatusStation, State.UnderGrant.queryInHand hg hk hb]
  simp only [if_neg hne, State.stationQuery_granted hg (hb ▸ decodeQuery_readStatus), State.done, State.answer, hk]
  rfl

end

/-- R188, R194: the status of the device is read without a grant. -/
theorem exec_readStatusDevice {s : State} {f : Frame} (hi : s.interp = .handling f) (hk : f.kind = 0x42)
    (hb : f.body = [5]) (hs : f.station = 0x0F) :
    exec .readStatusDevice s = .next { s with
      interp := .replying ⟨0x42, 0x0F, .none, 0, s.deviceData⟩ none none none
      hostBadFrames := 0
      overruns := 0
      overrunFlag := false } := by
  show execReadStatusDevice s = _
  rw [execReadStatusDevice, State.queryInHand_handling hi hk (by rw [hb]; rfl)]
  simp only [hb, decodeQuery_readStatus, State.answer, hk, hs, deviceItem, if_true]

/-! ### The data of READ-CELLS (R189) -/

section
variable {α : Type} (a b : Nat → α)

theorem length_flatMap_pair (ks : List Nat) : (ks.flatMap fun k => [a k, b k]).length = 2 * ks.length := by
  simp [List.length_flatMap, Nat.mul_comm]

/-- Pairs laid out back to back: each index has its first at the even place and its second at the odd one. -/
theorem getElem?_flatMap_pair (ks : List Nat) (n : Nat) :
    (ks.flatMap fun k => [a k, b k])[2 * n]? = ks[n]?.map a
      ∧ (ks.flatMap fun k => [a k, b k])[2 * n + 1]? = ks[n]?.map b := by
  induction ks generalizing n with
  | nil => exact ⟨rfl, rfl⟩
  | cons k ks ih =>
    cases n with
    | zero => exact ⟨rfl, rfl⟩
    | succ n => simpa [Nat.mul_succ] using ih n

end

theorem length_allCells : allCells.length = 1600 := by
  unfold allCells
  exact List.length_range

theorem getElem?_allCells {k : Nat} (hk : k < 1600) : allCells[k]? = some k := by
  unfold allCells
  exact List.getElem?_range hk

theorem Station.length_cellsData (t : Station) (role : Role) : (t.cellsData role).length = 3200 := by
  rw [Station.cellsData, length_flatMap_pair, length_allCells]

/-- R189: the pair of each cell. -/
theorem Station.getElem?_cellsData (t : Station) (role : Role) {k : Nat} (hk : k < 1600) :
    (t.cellsData role)[2 * k]? = some ((t.page role).cell k).ch
      ∧ (t.cellsData role)[2 * k + 1]?
        = some (emphasisByte ((t.page role).shownEmphasis (t.highlightOf role) k)) := by
  obtain ⟨hch, hemph⟩ := getElem?_flatMap_pair (fun k => ((t.page role).shown (t.highlightOf role) k).ch)
    (fun k => emphasisByte ((t.page role).shown (t.highlightOf role) k).emph) allCells k
  rw [getElem?_allCells hk] at hch hemph
  exact ⟨hch, hemph⟩

/-- R189: with no lock highlight a cell in a field takes the field's emphasis, and any other its own. -/
theorem Page.shownEmphasis_noHighlight (p : Page) (k : Nat) :
    p.shownEmphasis none k = match p.fieldAt k with | some g => g.emph | none => (p.cell k).emph := by
  unfold Page.shownEmphasis
  cases p.fieldAt k <;> rfl

/-! ### The data of READ-FIELDS (R190) -/

theorem Field.length_record (g : Field) (free : Nat) : (g.record free).length = 17 := by
  simp [Field.record, beBytes_length]

theorem length_recordsData (fields : List Field) (free : Nat) :
    (recordsData free fields).1.length = 17 * fields.length := by
  induction fields generalizing free with
  | nil => rfl
  | cons g fields ih =>
    simp only [recordsData, List.length_append, Field.length_record, ih, List.length_cons]
    omega

/-- R190: the records stand in form order, 17 bytes each. -/
theorem recordsData_record (fields : List Field) (free k : Nat) {g : Field} (hk : fields[k]? = some g) :
    ∃ n, ((recordsData free fields).1.drop (17 * k)).take 17 = g.record n := by
  induction fields generalizing free k with
  | nil => cases hk
  | cons h fields ih =>
    have hlen := h.length_record free
    cases k with
    | zero =>
      obtain rfl := Option.some.inj hk
      exact ⟨free, List.take_left' hlen⟩
    | succ k =>
      obtain ⟨n, hn⟩ := ih (free + h.freeUsed) k hk
      refine ⟨n, ?_⟩
      rw [recordsData, Nat.mul_succ, Nat.add_comm, ← List.drop_drop, List.drop_left' hlen, hn]

theorem Field.bounds_of_range {g : Field} {r : Nat × Nat} (h : g.range = some r) (free : Nat) : g.bounds free = r := by
  rw [Field.bounds, h]

/-- Settles O31: the data of each query, cell by cell and record by record. -/
theorem cellsAndFieldRecordsAreReported : Obligations.CellsAndFieldRecordsAreReported := by
  refine ⟨fun s f i role hg hk hb => ⟨_, exec_readCells hg hk hb, Station.length_cellsData _ role, fun k hlt => ?cells⟩,
    fun s f i role hg hk hb => ⟨_, _, exec_readFields hg hk hb, length_recordsData _ _, fun k g hget => ?records⟩⟩
  case cells =>
    obtain ⟨hch, hemph⟩ := (s.st i).getElem?_cellsData role hlt
    refine ⟨hch, ?front, ?back⟩
    case front => rintro rfl; exact hemph
    case back =>
      rintro rfl
      rw [hemph]
      exact congrArg (fun e => some (emphasisByte e)) (Page.shownEmphasis_noHighlight _ k)
  case records =>
    obtain ⟨n, hn⟩ := recordsData_record _ s.freeCount k hget
    exact ⟨_, _, fun r hr => (Field.bounds_of_range hr n).symm, hn⟩

/-! ### The data of READ-FIELD and READ-MODIFIED (R190, R191) -/

/-- R9: a value text is the content without its trailing blanks. -/
theorem valueText_eq_rdropWhile (content : List Byte) : valueText content = content.rdropWhile (· = blank) := rfl

theorem append_blanks_valueText (content : List Byte) :
    ∃ n, content = valueText content ++ List.replicate n 0x20 := by
  have hblank : ∀ b ∈ content.rtakeWhile (· = blank), b = 0x20 := fun b hb => by
    have h := List.mem_rtakeWhile_imp hb
    exact of_decide_eq_true h
  refine ⟨(content.rtakeWhile (· = blank)).length, ?_⟩
  rw [← List.eq_replicate_of_mem hblank, valueText_eq_rdropWhile, List.rdropWhile_append_rtakeWhile]

theorem getLast?_valueText_ne_blank (content : List Byte) : (valueText content).getLast? ≠ some 0x20 := by
  intro h
  obtain ⟨hne, hlast⟩ := List.mem_getLast?_eq_getLast h
  exact List.rdropWhile_last_not _ _ hne (decide_eq_true hlast.symm)

/-- R105, R191: the record of an ENTER carries the marked fields. -/
theorem Page.recordBytes_enter (p : Page) (i : StationNo) : p.recordBytes i .enter false
    = [0x01, stationByte i, byteOf (p.cursor / 80), byteOf (p.cursor % 80),
        byteOf (p.fields.filter Field.mark).length, 0]
      ++ (p.fields.filter Field.mark).flatMap fun g => [byteOf g.tag, byteOf (p.valueOf g).length] ++ p.valueOf g := rfl

/-- Settles O32: the field found or not, the marked fields, and what a value text is. -/
theorem fieldAndModifiedAreReported : Obligations.FieldAndModifiedAreReported := by
  rintro s f i role p hg hk rfl
  refine ⟨fun g hf htag hb => ?found, fun tag hno hb => ?missing, fun hb => ?modified,
    fun g => ⟨append_blanks_valueText _, getLast?_valueText_ne_blank _⟩⟩
  case found =>
    rw [exec_readField_found hg hk hb (by rw [byteOf_toNat _ htag]; exact hf)]
    rfl
  case missing => exact exec_readField_missing hg hk hb (Page.fieldOf_eq_none hno)
  case modified => rw [exec_readModified hg hk hb, Page.recordBytes_enter]

/-! ### READ-STATUS (R192 to R194) -/

/-- Settles O33: the items one after the other, at a station and of the device. -/
theorem statusIsReportedAndCleared : Obligations.StatusIsReportedAndCleared := by
  refine fun s f hk hb => ⟨?station, fun hi hs => ?device⟩
  case station =>
    rintro i t hg rfl
    rw [exec_readStatusStation hg hk hb]
    simp only [Station.statusData, Engine.statusData, Lcu.statusData, Station.countersData, State.isHeld,
      List.append_assoc, List.cons_append, List.nil_append]
    rfl
  case device =>
    rw [exec_readStatusDevice hi hk hb hs]
    simp only [State.deviceData, identity, List.append_assoc, List.cons_append, List.nil_append]
    rfl

end Sys2Proof.Machine
end
section
/-! PROOFS. CONFIGURE (R195, R196, R200). -/

namespace Sys2Proof.Machine

/-! ### The list of settings (R195, R200) -/

/-- 11.2: a body of settings back to back is decoded as those settings. -/
theorem decodeSettings_bytes {xs : List Setting} (h : ∀ x ∈ xs, x.Encodable) :
    decodeSettings (xs.flatMap settingBytes) = some xs := decodeSettingsFuel_bytes xs h _ le_rfl

theorem checkSettings_pass {xs : List Setting} (hne : xs ≠ []) (h : ∀ x ∈ xs, checkSetting x = none) :
    checkSettings xs = none := by
  cases xs with
  | nil => exact absurd rfl hne
  | cons x xs => exact List.findSome?_eq_none_iff.mpr h

theorem configureFault_undecodable {body : List Byte} (h : body = [] ∨ decodeSettings body = none) :
    configureFault body = some .badOrder := by
  rcases h with rfl | h
  · rfl
  · rw [configureFault, h]

theorem configureFault_decoded {body : List Byte} {xs : List Setting} (h : decodeSettings body = some xs) :
    configureFault body = checkSettings xs := by
  rw [configureFault, h]

/-! ### The request (R195) -/

section
variable {s : State} {f : Frame}

theorem exec_configure_badStation (hi : s.interp = .handling f) (hk : f.kind = 0x43)
    (hs : stationOf f.station = none) : exec .configure s
      = .next { s with interp := .replying ⟨0x43, f.station, .badStation, 0, []⟩ none none none } := by
  have hin : s.inHandOf kindConfigure = some f := by rw [State.inHandOf_handling hi]; exact if_pos hk
  show execConfigure s = _
  simp only [execConfigure, hin, hs, State.refuse, State.answer, hk]

variable {i : StationNo} (hg : s.UnderGrant f i) (hk : f.kind = 0x43)
include hg hk

theorem exec_configure_granted : exec .configure s = .next (s.configure f i) := by
  obtain ⟨hi, hs, hh⟩ := hg
  have hin : s.inHandOf kindConfigure = some f := by rw [State.inHandOf_handling hi]; exact if_pos hk
  show execConfigure s = _
  simp [execConfigure, hin, hs, State.granted, hh]

theorem exec_configure_refused {r : Reason} (h : configureFault f.body = some r) : exec .configure s
    = .next { s with interp := .replying ⟨0x43, f.station, r, 0, []⟩ (some i) none none } := by
  simp only [exec_configure_granted hg hk, State.configure, h, State.answer, hk]

theorem exec_configure_applies {xs : List Setting} (hd : decodeSettings f.body = some xs)
    (h : checkSettings xs = none) : exec .configure s = .next (State.setSt
      { s with interp := .replying ⟨0x43, f.station, .none, 0, []⟩ (some i) none none } i
      (xs.foldl Station.applySetting (s.st i))) := by
  have hpass : configureFault f.body = none := by rw [configureFault_decoded hd, h]
  simp only [exec_configure_granted hg hk, State.configure, hpass, hd, State.answer, hk]
  rfl

end

/-! ### The checks of each setting (R195) -/

theorem classOf_isNone {b : Byte} : (classOf b).isNone = true ↔ 4 < b.toNat := by
  unfold classOf
  split <;> simp_all
  omega

theorem afterFillOf_isNone {b : Byte} : (afterFillOf b).isNone = true ↔ 2 < b.toNat := by
  unfold afterFillOf
  split <;> simp_all
  omega

theorem keyboardOf_isNone {b : Byte} : (keyboardOf b).isNone = true ↔ 2 < b.toNat := by
  unfold keyboardOf
  split <;> simp_all
  omega

theorem faultKindOf_isNone {b : Byte} : (faultKindOf b).isNone = true ↔ 1 < b.toNat := by
  unfold faultKindOf
  split <;> simp_all
  omega

theorem checkSetting_route (entry sym : Nat) (lead : List Byte) (strip : Nat) (cls after : Byte) :
    checkSetting (.route entry sym lead strip cls after)
      = if 7 < entry then some .outOfForm
        else if 15 < sym ∨ 4 < lead.length ∨ (∃ ch ∈ lead, ¬ (0x20 ≤ ch.toNat ∧ ch.toNat ≤ 0x7E)) ∨ 4 < strip
          ∨ 4 < cls.toNat ∨ 2 < after.toNat then some .badOrder else none := by
  simp only [checkSetting, ← ite_or, not_printable_iff, classOf_isNone, afterFillOf_isNone, gt_iff_lt]

theorem checkSetting_acceptance (order : Nat) (kb : Byte) (accept : Bool) :
    checkSetting (.acceptance order kb accept)
      = if 1 ≤ order ∧ order ≤ 15 ∧ kb.toNat ≤ 2 then none else some .badOrder := by
  simp only [checkSetting, ← ite_or, keyboardOf_isNone]
  rw [← ite_not]
  exact if_congr (by omega) rfl rfl

theorem checkSetting_runTimeout (ms : Nat) :
    checkSetting (.runTimeout ms) = if 10 ≤ ms ∧ ms ≤ 250 ∧ ms % 10 = 0 then none else some .badOrder := by
  rw [checkSetting, ← ite_not]
  exact if_congr (by omega) rfl rfl

theorem checkSetting_fault (n : Nat) (kind : Byte) :
    checkSetting (.fault n kind) = if n ≤ 7 ∧ kind.toNat ≤ 1 then none else some .badOrder := by
  simp only [checkSetting, ← ite_or, faultKindOf_isNone]
  rw [← ite_not]
  exact if_congr (by omega) rfl rfl

/-! ### The effects of the settings that name a place in a table (R196) -/

theorem Vector.setIfInBounds_eq_set {α : Type} {n : Nat} (v : Vector α n) (k : Fin n) (a : α) :
    v.setIfInBounds k.val a = v.set k.val a k.isLt := by
  apply Vector.ext
  intro j hj
  rw [Vector.getElem_setIfInBounds, Vector.getElem_set]

theorem Station.applySetting_route (t : Station) (entry : Fin 8) (sym : Nat) (lead : List Byte) (strip : Nat)
    {cls after : Byte} {c : FieldClass} {a : AfterFill} (hc : classOf cls = some c) (ha : afterFillOf after = some a) :
    t.applySetting (.route entry.val sym lead strip cls after)
      = { t with routes := t.routes.set entry.val ⟨sym, lead, strip, c, a⟩ entry.isLt } := by
  simp only [Station.applySetting, hc, ha, Option.getD_some, Vector.setIfInBounds_eq_set]

theorem Station.applySetting_acceptance (t : Station) {order : Nat} {kb : Byte} (accept : Bool) {n : Fin 45}
    (hn : n.val = (order - 1) * 3 + kb.toNat) :
    t.applySetting (.acceptance order kb accept) = { t with acceptance := t.acceptance.set n.val accept n.isLt } := by
  simp only [Station.applySetting, ← hn, Vector.setIfInBounds_eq_set]

/-- Settles O35: the request by its station and what its body decodes to, then each setting's checks and effect. -/
theorem configureAppliesAllSettingsOrNone : Obligations.ConfigureAppliesAllSettingsOrNone := by
  refine ⟨fun s f hi hk => ⟨exec_configure_badStation hi hk, fun i hg => ⟨fun hbad => ?badOrder,
      fun xs henc hne hbody => ?decodable⟩⟩,
    checkSetting_route, checkSetting_acceptance, checkSetting_runTimeout, checkSetting_fault, fun _ => rfl, rfl,
    fun t => ⟨fun entry sym lead strip _ _ _ _ => t.applySetting_route entry sym lead strip,
      fun _ _ accept _ => t.applySetting_acceptance accept, fun _ => rfl, fun _ => rfl, fun _ => ⟨rfl, rfl⟩, rfl⟩⟩
  case badOrder => exact exec_configure_refused hg hk (configureFault_undecodable hbad)
  case decodable =>
    have hd : decodeSettings f.body = some xs := by rw [hbody, decodeSettings_bytes henc]
    refine ⟨fun hpass => exec_configure_applies hg hk hd (checkSettings_pass hne hpass), ?firstFailing⟩
    rintro before x after r rfl hbefore hx
    have hfault := checkSettings_first before after x r hbefore hx
    exact exec_configure_refused hg hk ((configureFault_decoded hd).trans hfault)

end Sys2Proof.Machine
end

section
/-! PROOFS. Frame and record formats: an order is decoded as it is laid out (11.3, R200). -/

namespace Sys2Proof.Machine

/-- Settles O14, by the round trip of each order through its code and its operand bytes, proved with the FORM messages. -/
theorem ordersDecodeAsEncoded : Obligations.OrdersDecodeAsEncoded :=
  decodeOrder_encodeOrder

end Sys2Proof.Machine
end

section
/-! PROOFS. The step: the command at the front of the queue acts on the state with the queue's rest (log entry 1). -/

namespace Sys2Proof.Machine

/-- The counterpart of `step_empty`: the two say what a step is for every queue. -/
theorem step_front {s : State} {c : Instr} {rest : List Instr} (h : s.pending = c :: rest) :
    step s = exec c { s with pending := rest } := by
  simp only [step, h]

/-- Settles O1: the queue `c :: rest` replaces whatever queue the state had, so its front is `c`. -/
theorem stepRunsFrontCommand : Obligations.StepRunsFrontCommand := fun c rest s =>
  step_front (s := { s with pending := c :: rest }) rfl

end Sys2Proof.Machine
end
